-- ==== Sys2Proof/Word.lean ====
section
/-!
DEFINITION. Sys2Proof/Word.lean: the machine's word and byte types.
-/
namespace Sys2Proof

/-- A 64-bit register value (R11). -/
abbrev Word := BitVec 64

/-- One byte of a buffer, of the I-store or of external memory. -/
abbrev Byte := BitVec 8

/-- One 16-bit parcel of the I-store (R45). -/
abbrev Parcel := BitVec 16

end Sys2Proof
end

