-- ==== Sys2Proof/Config.lean ====
section
/-!
DEFINITION. Sys2Proof/Config.lean: what an implementation fixes and the spec leaves open. Every constant here is
opaque: no proof can see its value, so a theorem holds whatever it is.
-/
namespace Sys2Proof

/-- The device identity key's signature of a message, 4,627 bytes (R368, ML-DSA-87). -/
opaque Config.sign : List Byte → BitVec 37016

/-- Whether a signature of a message verifies under a public key (R364, ML-DSA-87). -/
opaque Config.verify : List Byte → List Byte → List Byte → Bool

/-- The root public key, whose hash is fused, and the key that a verified image carries for the next one (R364). -/
opaque Config.rootKey : List Byte
opaque Config.keyIn : List Byte → List Byte

/-- The device's identity public key (R368). -/
opaque Config.identityKey : List Byte

/-- The fused rollback counter (Table 25.1, step 3). -/
opaque Config.rollback : Nat

/-- The locked frame ranges that the root monitor sets, as first byte and byte count (R291, Table 25.1, step 2). -/
opaque Config.lockedRanges : List (Nat × Nat)

/-- The 16-byte header of a quote, in which the spec places the version, STAGE and SVN without giving their places (R368). -/
opaque Config.quoteHeader : Nat → Nat → BitVec 128

/-- PTEs that the root monitor has built by step 2, and those of the kernel's page tables that it writes in step 4, as physical address
and entry (Table 25.1). -/
opaque Config.rootTables : List (Nat × BitVec 64)
opaque Config.kernelTables : List (Nat × BitVec 64)

/-- The handler table and the code of system software in a supervisor handler image, whose format the spec does not give (Table 25.1,
step 4; R17, R146). -/
opaque Config.handlersIn : List Byte → List (Nat × BitVec 128)
opaque Config.codeIn : List Byte → List Parcel

/-- The handler of system software that a page fault triggers, whose number the spec does not give (R290; log 78). -/
opaque Config.pageFaultHandler : BitVec 8

/-- Values the spec leaves open, numbered by the counter State holds (`Device.freeIdx`). -/
opaque Config.freeWord : Nat → Word

end Sys2Proof
end

