-- ==== Sys2Proof/Machine/Bits.lean ====
section
/-!
DEFINITION. Sys2Proof/Machine/Bits.lean: bit fields, sign extension, byte order and bit counting, once for the
whole model. A field named `hi..lo` of the spec is `field x lo (hi - lo + 1)`.
-/
namespace Sys2Proof.Machine

/-- Bits `lo + n - 1 .. lo` of a word, as a natural number. -/
def field {w : Nat} (x : BitVec w) (lo n : Nat) : Nat := x.toNat / 2 ^ lo % 2 ^ n

/-- Bits `lo + n - 1 .. lo` of a word replaced by the low `n` bits of `v`. -/
def setField {w : Nat} (x : BitVec w) (lo n v : Nat) : BitVec w :=
  let mask := BitVec.ofNat w ((2 ^ n - 1) * 2 ^ lo)
  (x &&& ~~~mask) ||| BitVec.ofNat w (v % 2 ^ n * 2 ^ lo)

/-- Bit `k` of a word. -/
def bit {w : Nat} (x : BitVec w) (k : Nat) : Bool := x.getLsbD k

/-- The low `n` bits of `v` read as a two's-complement integer. -/
def signedOf (n v : Nat) : Int :=
  let u := v % 2 ^ n
  if n ≠ 0 ∧ u ≥ 2 ^ (n - 1) then (u : Int) - 2 ^ n else u

/-- An integer wrapped to `n` bits (R63). -/
def wrapTo (n : Nat) (v : Int) : Nat := (v % (2 ^ n : Int)).toNat

/-- An integer clamped to a closed range (R65). -/
def clampTo (lo hi v : Int) : Int := if v < lo then lo else if hi < v then hi else v

/-- Is `v` inside the closed range? -/
def inRange (lo hi v : Int) : Bool := decide (lo ≤ v ∧ v ≤ hi)

/-- Little-endian value of a list of bytes (R45, R73). -/
def bytesToNat : List Byte → Nat
  | [] => 0
  | b :: bs => b.toNat + 256 * bytesToNat bs

/-- The `n` low bytes of a value, little-endian. -/
def natToBytes : Nat → Nat → List Byte
  | 0, _ => []
  | n + 1, v => BitVec.ofNat 8 v :: natToBytes n (v / 256)

/-- Number of leading zero bits of a 64-bit word, 64 for zero (R86). -/
def clz64 (x : Word) : Nat := if x.toNat = 0 then 64 else 63 - x.toNat.log2

/-- Trailing zero count of the low `n` bits, looking upwards from bit `k`. -/
def ctzFrom (x : Word) : Nat → Nat → Nat
  | 0, k => k
  | n + 1, k => if bit x k then k else ctzFrom x n (k + 1)

/-- Number of trailing zero bits of a 64-bit word, 64 for zero (R86). -/
def ctz64 (x : Word) : Nat := ctzFrom x 64 0

/-- Number of one bits among bits `n - 1 .. 0`. -/
def popUpTo {w : Nat} (x : BitVec w) : Nat → Nat
  | 0 => 0
  | n + 1 => (if bit x n then 1 else 0) + popUpTo x n

/-- Number of one bits of a 64-bit word (R86). -/
def popc64 (x : Word) : Nat := popUpTo x 64

/-- A 64-bit word with its eight bytes in reverse order (R86). -/
def bswap64 (x : Word) : Word := BitVec.ofNat 64 (bytesToNat (natToBytes 8 x.toNat).reverse)

/-- Numbers below `n`, ascending, that satisfy `p`. -/
def below (n : Nat) (p : Nat → Bool) : List Nat := (List.range n).filter p

/-- The integer square root, one bit at a time from bit `k - 1` down. -/
def isqrtFrom (n : Nat) : Nat → Nat → Nat
  | 0, acc => acc
  | k + 1, acc =>
    let t := acc + 2 ^ k
    isqrtFrom n k (if t * t ≤ n then t else acc)

/-- The integer square root of `n`. -/
def isqrt (n : Nat) : Nat := isqrtFrom n (n.log2 / 2 + 1) 0

/-- Round up to a multiple of `m`. -/
def ceilDiv (a m : Nat) : Nat := (a + m - 1) / m

end Sys2Proof.Machine
end

