-- ==== Sys2Proof/Machine/Float.lean ====
section
/-!
DEFINITION. Sys2Proof/Machine/Float.lean: number formats and exact arithmetic (R63 to R82). A floating value is
taken apart into an exact dyadic number, every operation is performed exactly, and one function rounds.
-/
namespace Sys2Proof.Machine

/-- Floating flags, in the bit order of FSTAT (Table 4.4): FI NV DZ OF UF NX. -/
abbrev Flags := BitVec 6

def flagNX : Flags := 1#6
def flagUF : Flags := 2#6
def flagOF : Flags := 4#6
def flagDZ : Flags := 8#6
def flagNV : Flags := 16#6
def flagFI : Flags := 32#6

/-- Rounding modes (Table 4.3). -/
inductive Rounding where
  | rne | rtz | rdn | rup | rmm
deriving DecidableEq, Repr

/-- FCTL.RM as a rounding mode; the reserved codes never stand in FCTL (R68). -/
def Rounding.ofCode : Nat → Rounding
  | 1 => .rtz
  | 2 => .rdn
  | 3 => .rup
  | 4 => .rmm
  | _ => .rne

/-- A floating format (Table 4.2): exponent bits, fraction bits, and whether it flushes subnormals (R70). -/
structure Fmt where
  eb : Nat
  fb : Nat
  flush : Bool
deriving DecidableEq, Repr

def fmtF32 : Fmt := ⟨8, 23, false⟩
def fmtF16 : Fmt := ⟨5, 10, true⟩
def fmtBF16 : Fmt := ⟨8, 7, true⟩

def Fmt.bias (f : Fmt) : Nat := 2 ^ (f.eb - 1) - 1
def Fmt.width (f : Fmt) : Nat := f.eb + f.fb + 1

/-- Exponent of the smallest normal. -/
def Fmt.emin (f : Fmt) : Int := 1 - f.bias

/-- Exponent of the largest finite value. -/
def Fmt.emax (f : Fmt) : Int := f.bias

def Fmt.signBit (f : Fmt) (neg : Bool) : Nat := if neg then 2 ^ (f.eb + f.fb) else 0
def Fmt.inf (f : Fmt) (neg : Bool) : Nat := f.signBit neg + (2 ^ f.eb - 1) * 2 ^ f.fb
def Fmt.maxFinite (f : Fmt) (neg : Bool) : Nat := f.signBit neg + ((2 ^ f.eb - 1) * 2 ^ f.fb - 1)
def Fmt.canonNaN (f : Fmt) : Nat := (2 ^ f.eb - 1) * 2 ^ f.fb + 2 ^ (f.fb - 1)

/-- A number taken apart: a NaN, an infinity, or exactly ± m × 2^e (m = 0 is a signed zero). -/
inductive FNum where
  | nan (signalling : Bool)
  | inf (neg : Bool)
  | fin (neg : Bool) (m : Nat) (e : Int)
deriving DecidableEq, Repr

/-- Take a bit pattern apart (R66). -/
def Fmt.unpack (f : Fmt) (bits : Nat) : FNum :=
  let x := bits % 2 ^ f.width
  let neg := decide (x / 2 ^ (f.eb + f.fb) = 1)
  let ex := x / 2 ^ f.fb % 2 ^ f.eb
  let fr := x % 2 ^ f.fb
  if ex = 2 ^ f.eb - 1 then
    if fr = 0 then .inf neg else .nan (decide (fr < 2 ^ (f.fb - 1)))
  else if ex = 0 then .fin neg fr (f.emin - f.fb)
  else .fin neg (2 ^ f.fb + fr) ((ex : Int) - f.bias - f.fb)

/-- Is the pattern a subnormal (R66)? -/
def Fmt.isSubnormal (f : Fmt) (bits : Nat) : Bool :=
  let x := bits % 2 ^ f.width
  x / 2 ^ f.fb % 2 ^ f.eb = 0 && x % 2 ^ f.fb ≠ 0

/-- An operand of an arithmetic operation: a 16-bit subnormal becomes a zero of its sign, with FI (R70). -/
def Fmt.operand (f : Fmt) (bits : Nat) : FNum × Flags :=
  if f.flush && f.isSubnormal bits then
    (.fin (decide (bits / 2 ^ (f.eb + f.fb) % 2 = 1)) 0 0, flagFI)
  else (f.unpack bits, 0#6)

/-- Round a magnitude `q + rem/2^shift` (with a sticky remainder below it) to an integer (R68). -/
def roundUpNow (rm : Rounding) (neg : Bool) (q rem half : Nat) (sticky : Bool) : Bool :=
  let inexact := rem ≠ 0 || sticky
  match rm with
  | .rne => rem > half || (rem = half && half ≠ 0 && (sticky || q % 2 = 1))
  | .rmm => rem ≥ half && half ≠ 0
  | .rtz => false
  | .rdn => neg && inexact
  | .rup => !neg && inexact

/-- Round the magnitude m × 2^(-shift) to an integer; also says whether the result is inexact. -/
def roundShift (rm : Rounding) (neg : Bool) (m shift : Nat) (sticky : Bool) : Nat × Bool :=
  let q := m / 2 ^ shift
  let rem := m % 2 ^ shift
  let half := if shift = 0 then 0 else 2 ^ (shift - 1)
  (if roundUpNow rm neg q rem half sticky then q + 1 else q, rem ≠ 0 || sticky)

/-- The magnitude m × 2^e rounded to an integer (R78). -/
def roundInt (rm : Rounding) (neg : Bool) (m : Nat) (e : Int) : Nat × Bool :=
  if 0 ≤ e then (m * 2 ^ e.toNat, false) else roundShift rm neg m (-e).toNat false

/-- The overflow result of a mode (R70). -/
def Fmt.overflow (f : Fmt) (rm : Rounding) (neg : Bool) : Nat × Flags :=
  let bits := match rm with
    | .rne | .rmm => f.inf neg
    | .rtz => f.maxFinite neg
    | .rdn => if neg then f.inf neg else f.maxFinite neg
    | .rup => if neg then f.maxFinite neg else f.inf neg
  (bits, flagOF ||| flagNX)

/-- Round ± m × 2^e (exactly, or with a nonzero remainder below m when `sticky`) to a format, under R67 for
f32 and R70 for the flushing formats. -/
def Fmt.round (f : Fmt) (rm : Rounding) (neg : Bool) (m : Nat) (e : Int) (sticky : Bool) : Nat × Flags :=
  if m = 0 then (f.signBit neg, 0#6)
  else
    -- at least fb + 3 significant bits, so that a shift to the precision is a right shift
    let up := f.fb + 3 - Nat.min (f.fb + 3) m.log2
    let m := m * 2 ^ up
    let e := e - up
    let top := (m.log2 : Int) + e
    let shift := m.log2 - f.fb
    let (q, inexact) := roundShift rm neg m shift sticky
    let (q, top) := if q = 2 ^ (f.fb + 1) then (2 ^ f.fb, top + 1) else (q, top)
    let nx := if inexact then flagNX else 0#6
    if top > f.emax then f.overflow rm neg
    else if top ≥ f.emin then
      (f.signBit neg + ((top + f.bias).toNat * 2 ^ f.fb + (q - 2 ^ f.fb)), nx)
    else if f.flush then (f.signBit neg, flagUF ||| flagNX)
    else
      let shift2 := (f.emin - f.fb - e).toNat
      let (q2, inexact2) := roundShift rm neg m shift2 sticky
      (f.signBit neg + q2, if inexact2 then flagUF ||| flagNX else 0#6)

/-- The conversions of Table 4.6: a number whose nearest value in a 16-bit format overflows raises OF, whatever the mode makes of it
(R78; log 20). -/
def Fmt.convert (f : Fmt) (rm : Rounding) (neg : Bool) (m : Nat) (e : Int) : Nat × Flags :=
  let (v, fl) := f.round rm neg m e false
  (v, if f.flush && (f.round .rne neg m e false).2 &&& flagOF ≠ 0#6 then fl ||| flagOF ||| flagNX else fl)

/-- A number rounded to a format. -/
def Fmt.ofNum (f : Fmt) (rm : Rounding) : FNum → Nat × Flags
  | .nan s => (f.canonNaN, if s then flagNV else 0#6)
  | .inf neg => (f.inf neg, 0#6)
  | .fin neg m e => f.round rm neg m e false

/-- A signed integer mantissa at an exponent. -/
def signedMant (neg : Bool) (m : Nat) : Int := if neg then -(m : Int) else m

/-- Exact sum of two finite numbers; the sign of an exact zero follows R67. -/
def addExact (rm : Rounding) (an : Bool) (am : Nat) (ae : Int) (bn : Bool) (bm : Nat) (be : Int) : FNum :=
  let e := if ae ≤ be then ae else be
  let s := signedMant an am * 2 ^ (ae - e).toNat + signedMant bn bm * 2 ^ (be - e).toNat
  if s = 0 then .fin (if an = bn then an else decide (rm = .rdn)) 0 0
  else .fin (decide (s < 0)) s.natAbs e

/-- Quiet result of an invalid operation. -/
def invalidNum : FNum × Flags := (.nan false, flagNV)

def FNum.isNaN : FNum → Bool
  | .nan _ => true
  | _ => false

def FNum.isSignalling : FNum → Bool
  | .nan s => s
  | _ => false

def FNum.isZero : FNum → Bool
  | .fin _ m _ => m = 0
  | _ => false

def FNum.neg : FNum → FNum
  | .nan s => .nan s
  | .inf n => .inf (!n)
  | .fin n m e => .fin (!n) m e

/-- NV exactly when one of the operands is a signalling NaN (R67). -/
def signalFlags (xs : List FNum) : Flags := if xs.any FNum.isSignalling then flagNV else 0#6

/-- a + b, exact (R67). -/
def numAdd (rm : Rounding) (a b : FNum) : FNum × Flags :=
  match a, b with
  | .nan _, _ | _, .nan _ => (.nan false, signalFlags [a, b])
  | .inf n, .inf n' => if n = n' then (.inf n, 0#6) else invalidNum
  | .inf n, _ => (.inf n, 0#6)
  | _, .inf n => (.inf n, 0#6)
  | .fin an am ae, .fin bn bm be => (addExact rm an am ae bn bm be, 0#6)

/-- a × b, exact (R67). -/
def numMul (a b : FNum) : FNum × Flags :=
  match a, b with
  | .nan _, _ | _, .nan _ => (.nan false, signalFlags [a, b])
  | .inf n, .inf n' => (.inf (n != n'), 0#6)
  | .inf n, .fin n' m _ => if m = 0 then invalidNum else (.inf (n != n'), 0#6)
  | .fin n m _, .inf n' => if m = 0 then invalidNum else (.inf (n != n'), 0#6)
  | .fin an am ae, .fin bn bm be => (.fin (an != bn) (am * bm) (ae + be), 0#6)

/-- a × b + c with one rounding to come (R67): an invalid product is invalid whatever the addend holds. -/
def numFma (rm : Rounding) (a b c : FNum) : FNum × Flags :=
  let (p, pf) := numMul a b
  let (r, rf) := numAdd rm p c
  (r, pf ||| rf)

/-- Round an operation's exact result, joining its flags. -/
def finish (f : Fmt) (rm : Rounding) (r : FNum × Flags) (more : Flags) : Nat × Flags :=
  let (bits, fl) := f.ofNum rm r.1
  (bits, fl ||| r.2 ||| more)

def fAdd (f : Fmt) (rm : Rounding) (a b : Nat) : Nat × Flags :=
  let (x, fx) := f.operand a
  let (y, fy) := f.operand b
  finish f rm (numAdd rm x y) (fx ||| fy)

def fSub (f : Fmt) (rm : Rounding) (a b : Nat) : Nat × Flags :=
  let (x, fx) := f.operand a
  let (y, fy) := f.operand b
  finish f rm (numAdd rm x y.neg) (fx ||| fy)

def fMul (f : Fmt) (rm : Rounding) (a b : Nat) : Nat × Flags :=
  let (x, fx) := f.operand a
  let (y, fy) := f.operand b
  finish f rm (numMul x y) (fx ||| fy)

def fFma (f : Fmt) (rm : Rounding) (a b c : Nat) : Nat × Flags :=
  let (x, fx) := f.operand a
  let (y, fy) := f.operand b
  let (z, fz) := f.operand c
  finish f rm (numFma rm x y z) (fx ||| fy ||| fz)

/-- Bits of precision kept below the leading bit of a quotient, root or series. -/
def workBits : Nat := 320

/-- a ÷ b (R67): the quotient is kept to `workBits` bits and a sticky remainder. -/
def fDiv (f : Fmt) (rm : Rounding) (a b : Nat) : Nat × Flags :=
  let (x, fx) := f.operand a
  let (y, fy) := f.operand b
  let more := fx ||| fy
  match x, y with
  | .nan _, _ | _, .nan _ => (f.canonNaN, signalFlags [x, y] ||| more)
  | .inf _, .inf _ => (f.canonNaN, flagNV ||| more)
  | .inf n, .fin n' _ _ => (f.inf (n != n'), more)
  | .fin n _ _, .inf n' => (f.signBit (n != n'), more)
  | .fin n m e, .fin n' m' e' =>
    if m' = 0 then
      if m = 0 then (f.canonNaN, flagNV ||| more) else (f.inf (n != n'), flagDZ ||| more)
    else if m = 0 then (f.signBit (n != n'), more)
    else
      let num := m * 2 ^ workBits
      let (bits, fl) := f.round rm (n != n') (num / m') (e - e' - workBits) (num % m' ≠ 0)
      (bits, fl ||| more)

/-- Order of two numbers that are no NaN, −0 below +0 (R71). -/
def numLtTotal (a b : FNum) : Bool :=
  match a, b with
  | .inf n, .inf n' => n && !n'
  | .inf n, _ => n
  | _, .inf n' => !n'
  | .fin an am ae, .fin bn bm be =>
    let e := if ae ≤ be then ae else be
    let x := signedMant an am * 2 ^ (ae - e).toNat
    let y := signedMant bn bm * 2 ^ (be - e).toNat
    if x = 0 && y = 0 then an && !bn else decide (x < y)
  | _, _ => false

/-- Numerical comparison, zeros equal: −1, 0 or 1; none when a NaN makes the pair unordered. -/
def numCompare (a b : FNum) : Option Int :=
  match a, b with
  | .nan _, _ | _, .nan _ => none
  | _, _ =>
    if a.isZero && b.isZero then some 0
    else if numLtTotal a b then some (-1) else if numLtTotal b a then some 1 else some 0

/-- The bit pattern of an operand after input flushing. -/
def Fmt.flushed (f : Fmt) (bits : Nat) : Nat :=
  if f.flush && f.isSubnormal bits then f.signBit (decide (bits / 2 ^ (f.eb + f.fb) % 2 = 1)) else bits

/-- VMIN and VMAX (R71); `wantMax` chooses. -/
def fMinMax (f : Fmt) (wantMax : Bool) (a b : Nat) : Nat × Flags :=
  let (x, fx) := f.operand a
  let (y, fy) := f.operand b
  let fl := signalFlags [x, y] ||| fx ||| fy
  if x.isNaN && y.isNaN then (f.canonNaN, fl)
  else if x.isNaN then (f.flushed b, fl)
  else if y.isNaN then (f.flushed a, fl)
  else
    let less := numLtTotal y x
    (if less != wantMax then f.flushed b else f.flushed a, fl)

/-- ln 2 × 2^workBits, from the series Σ 1/(k·2^k). -/
def ln2From : Nat → Nat
  | 0 => 0
  | k + 1 => 2 ^ workBits / ((k + 1) * 2 ^ (k + 1)) + ln2From k

def ln2Fixed : Nat := ln2From 400

/-- e^y for 0 ≤ y < 1 in fixed point: the terms y^k/k! from k on. -/
def expTerms (y : Nat) : Nat → Nat → Nat → Nat
  | 0, _, _ => 0
  | n + 1, k, t => t + expTerms y n (k + 1) (t * y / 2 ^ workBits / (k + 1))

/-- 2^(f / 2^workBits) × 2^workBits for 0 ≤ f < 2^workBits. -/
def exp2Frac (f : Nat) : Nat :=
  expTerms (f * ln2Fixed / 2 ^ workBits) 100 0 (2 ^ workBits)

/-- atanh series: the terms t^(2k+1)/(2k+1) from k on. -/
def atanhTerms (t2 : Nat) : Nat → Nat → Nat → Nat
  | 0, _, _ => 0
  | n + 1, k, p => p / (2 * k + 1) + atanhTerms t2 n (k + 1) (p * t2 / 2 ^ workBits)

/-- log2 of z / 2^workBits for 2^workBits ≤ z < 2^(workBits+1), in fixed point. -/
def log2Frac (z : Nat) : Nat :=
  let t := (z - 2 ^ workBits) * 2 ^ workBits / (z + 2 ^ workBits)
  2 * atanhTerms (t * t / 2 ^ workBits) 120 0 t * 2 ^ workBits / ln2Fixed

/-- VRSQ: 1/√x (R173, Table 8.5). -/
def fRsq (f : Fmt) (rm : Rounding) (a : Nat) : Nat × Flags :=
  let (x, fx) := f.operand a
  match x with
  | .nan s => (f.canonNaN, (if s then flagNV else 0#6) ||| fx)
  | .inf n => if n then (f.canonNaN, flagNV ||| fx) else (0, fx)
  | .fin n m e =>
    if m = 0 then (f.inf n, flagDZ ||| fx)
    else if n then (f.canonNaN, flagNV ||| fx)
    else
      let m := if e % 2 = 0 then m else 2 * m
      let e := if e % 2 = 0 then e else e - 1
      let big := 2 ^ (2 * workBits)
      let q := isqrt (big / m)
      let (bits, fl) := f.round rm false q (-(e / 2) - workBits) (q * q * m ≠ big)
      (bits, fl ||| fx)

/-- VEXP2: 2^x (R173, Table 8.5). An argument of large magnitude is replaced by one that already overflows or
underflows in every format. -/
def fExp2 (f : Fmt) (rm : Rounding) (a : Nat) : Nat × Flags :=
  let (x, fx) := f.operand a
  match x with
  | .nan s => (f.canonNaN, (if s then flagNV else 0#6) ||| fx)
  | .inf n => (if n then 0 else f.inf false, fx)
  | .fin n m e =>
    let mag := if 0 ≤ e then m * 2 ^ e.toNat * 2 ^ workBits else m * 2 ^ (workBits - (-e).toNat)
    let mag := if mag > 1024 * 2 ^ workBits then 1024 * 2 ^ workBits else mag
    let v := signedMant n mag
    let ip := v / (2 ^ workBits : Int)
    let fp := (v % (2 ^ workBits : Int)).toNat
    let (bits, fl) :=
      if fp = 0 then f.round rm false 1 ip false
      else f.round rm false (exp2Frac fp) (ip - workBits) true
    (bits, fl ||| fx)

/-- VLOG2: log2 x (R173, Table 8.5). -/
def fLog2 (f : Fmt) (rm : Rounding) (a : Nat) : Nat × Flags :=
  let (x, fx) := f.operand a
  match x with
  | .nan s => (f.canonNaN, (if s then flagNV else 0#6) ||| fx)
  | .inf n => if n then (f.canonNaN, flagNV ||| fx) else (f.inf false, fx)
  | .fin n m e =>
    if m = 0 then (f.inf true, flagDZ ||| fx)
    else if n then (f.canonNaN, flagNV ||| fx)
    else
      let top := (m.log2 : Int) + e
      if m = 2 ^ m.log2 then
        let (bits, fl) := f.round rm (decide (top < 0)) top.natAbs 0 false
        (bits, fl ||| fx)
      else
        let z := m * 2 ^ (workBits - m.log2)
        let r := top * (2 ^ workBits : Int) + log2Frac z
        let (bits, fl) :=
          if 0 ≤ r then f.round rm false r.toNat (-(workBits : Int)) true
          else f.round rm true (r.natAbs - 1) (-(workBits : Int)) true
        (bits, fl ||| fx)

/-- Element types (Table 3.3): integers by signedness and width, the floating formats, block floating point. -/
inductive ETy where
  | int (signed : Bool) (width : Nat)
  | f16 | bf16 | f32
  | q (m : Nat)
deriving DecidableEq, Repr

/-- A type code (R53); none for a reserved one. -/
def ETy.ofCode : Nat → Option ETy
  | 0 => some (.int true 8)
  | 1 => some (.int true 16)
  | 2 => some (.int true 32)
  | 3 => some (.int true 64)
  | 4 => some (.int false 8)
  | 5 => some (.int false 16)
  | 6 => some (.int false 32)
  | 7 => some (.int false 64)
  | 8 => some .f16
  | 9 => some .bf16
  | 10 => some .f32
  | 0x12 => some (.q 2)
  | 0x13 => some (.q 3)
  | 0x14 => some (.q 4)
  | 0x15 => some (.q 5)
  | 0x16 => some (.q 6)
  | 0x17 => some (.q 7)
  | 0x18 => some (.q 8)
  | _ => none

/-- Size in bytes of an element that is not of a block type. -/
def ETy.size : ETy → Nat
  | .int _ w => w / 8
  | .f16 | .bf16 => 2
  | .f32 => 4
  | .q _ => 1

def ETy.fmt : ETy → Option Fmt
  | .f16 => some fmtF16
  | .bf16 => some fmtBF16
  | .f32 => some fmtF32
  | _ => none

def ETy.isInt : ETy → Bool
  | .int _ _ => true
  | _ => false

/-- Smallest and largest value of an integer type (R63). -/
def intMin (signed : Bool) (w : Nat) : Int := if signed then -(2 ^ (w - 1)) else 0
def intMax (signed : Bool) (w : Nat) : Int := if signed then 2 ^ (w - 1) - 1 else 2 ^ w - 1

/-- The value of an integer lane. -/
def intVal (signed : Bool) (w : Nat) (bits : Nat) : Int :=
  if signed then signedOf w bits else (bits % 2 ^ w : Nat)

/-- The value of mantissa `k` in a block with scale byte `E` (R74). -/
def qNum (k : Int) (scale : Nat) : FNum :=
  if scale = 0xFF then .nan false
  else .fin (decide (k < 0)) k.natAbs ((scale : Int) - 127)

/-- A source element as an exact number, unflushed (R77); a .qm element arrives as its number already. -/
def numOf (t : ETy) (bits : Nat) : FNum :=
  match t with
  | .int sg w => let v := intVal sg w bits; .fin (decide (v < 0)) v.natAbs 0
  | .f16 => fmtF16.unpack bits
  | .bf16 => fmtBF16.unpack bits
  | .f32 => fmtF32.unpack bits
  | .q _ => .fin false 0 0

/-- Conversion of an exact number to a type that is not a block type (R65, R75, R77, R78); `fromInt` says that
the source is an integer, whose conversion to an integer type sets no flag. -/
def cvtTo (dst : ETy) (rm : Rounding) (fromInt : Bool) (x : FNum) : Nat × Flags :=
  match dst with
  | .int sg w =>
    match x with
    | .nan _ => (0, flagNV)
    | .inf neg => (wrapTo w (if neg then intMin sg w else intMax sg w), flagNV)
    | .fin neg m e =>
      let (q, inexact) := roundInt rm neg m e
      let v := signedMant neg q
      if inRange (intMin sg w) (intMax sg w) v then
        (wrapTo w v, if inexact then flagNX else 0#6)
      else (wrapTo w (clampTo (intMin sg w) (intMax sg w) v), if fromInt then 0#6 else flagNV)
  | .f16 => match x with | .fin neg m e => fmtF16.convert rm neg m e | _ => fmtF16.ofNum rm x
  | .bf16 => match x with | .fin neg m e => fmtBF16.convert rm neg m e | _ => fmtBF16.ofNum rm x
  | .f32 => fmtF32.ofNum rm x
  | .q _ => (0, 0#6)

/-- Is the value of x exactly k × 2^e? -/
def numEqScaled (x : FNum) (k : Int) (e : Int) : Bool :=
  match x with
  | .fin n m e' =>
    let lo := if e ≤ e' then e else e'
    signedMant n m * 2 ^ (e' - lo).toNat = k * 2 ^ (e - lo).toNat
  | _ => false

/-- RoundInt(x / 2^(E - 127), RNE) of R76. -/
def quantAt (scale : Nat) (x : FNum) : Int :=
  match x with
  | .fin n m e => signedMant n (roundInt .rne n m (e - ((scale : Int) - 127))).1
  | _ => 0

/-- The scales `E, E+1, …` tried in order (R76): the first that fits all elements. -/
def firstScale (m : Nat) (xs : List FNum) : Nat → Nat → Option Nat
  | 0, _ => none
  | n + 1, scale =>
    if xs.all (fun x => inRange (-(2 ^ (m - 1))) (2 ^ (m - 1) - 1) (quantAt scale x)) then some scale
    else firstScale m xs n (scale + 1)

/-- QuantiseBlock (R76): scale byte, mantissas and flags of one block. -/
def quantiseBlock (m : Nat) (bits : List Nat) : Nat × List Int × Flags :=
  let xs := bits.map fmtF32.unpack
  let special := xs.any (fun x => match x with | .fin _ _ _ => false | _ => true)
  if special then
    let nv := xs.any (fun x => match x with | .nan s => s | .inf _ => true | _ => false)
    (0xFF, xs.map (fun _ => 0), if nv then flagNV else 0#6)
  else
    -- the loop of R76 runs E from 0 to 0xFE: the value 0xFF is the NaN block's
    match firstScale m xs 255 0 with
    | some scale =>
      let ks := xs.map (quantAt scale)
      let exact := (xs.zip ks).all (fun p => numEqScaled p.1 p.2 ((scale : Int) - 127))
      (scale, ks, if exact then 0#6 else flagNX)
    | none =>
      (0xFE, xs.map (fun x => clampTo (-(2 ^ (m - 1))) (2 ^ (m - 1) - 1) (quantAt 0xFE x)), flagOF ||| flagNX)

/-- Bit string of a block's mantissas, element 0 lowest (R73). -/
def packMantissas (m : Nat) : List Int → Nat
  | [] => 0
  | k :: ks => wrapTo m k + 2 ^ m * packMantissas m ks

/-- Exact sum of products for a matrix step, at a common exponent: Σ n × 2^e, as an integer at 2^lo. -/
def sumAt (lo : Int) : List (Int × Int) → Int
  | [] => 0
  | (n, e) :: r => n * 2 ^ (e - lo).toNat + sumAt lo r

/-- The least exponent of a list of terms. -/
def leastExp (start : Int) : List (Int × Int) → Int
  | [] => start
  | (_, e) :: r => leastExp (if e < start then e else start) r

/-- One output element of a matrix step (R81); `a` and `b` are the 64 exact element values. -/
def matrixStep (c : Nat) (a b : List FNum) : Nat × Flags :=
  let cn := fmtF32.unpack c
  let nv := if cn.isSignalling then flagNV else 0#6
  if a.any FNum.isNaN || b.any FNum.isNaN then (fmtF32.canonNaN, nv)
  else
    let prods := (a.zip b).map (fun p => match p.1, p.2 with
      | .fin n m e, .fin n' m' e' => (signedMant (n != n') (m * m'), e + e')
      | _, _ => ((0 : Int), (0 : Int)))
    let nz := prods.filter (fun p => p.1 ≠ 0)
    if nz.isEmpty then (c, 0#6)
    else match cn with
      | .nan _ => (fmtF32.canonNaN, nv)
      | .inf _ => (c, 0#6)
      | .fin n m e =>
        let terms := (signedMant n m, e) :: nz
        let lo := leastExp e terms
        let x := sumAt lo terms
        if x = 0 then (0, 0#6) else fmtF32.round .rne (decide (x < 0)) x.natAbs lo false

end Sys2Proof.Machine
end

