-- ==== Sys2Proof/Machine/Sparse.lean ====
section
/-!
DEFINITION. Sys2Proof/Machine/Sparse.lean: sparse tables in one canonical form: keys strictly rising, and no entry
equal to what an unlisted key reads as. Memories are tables from byte addresses to bytes.
-/
namespace Sys2Proof.Machine

/-- A table from keys to values, as a list. -/
abbrev Table (α : Type) := List (Nat × α)

/-- What key `k` reads as; an unlisted key reads as `d`. -/
def tget {α : Type} (d : α) : Table α → Nat → α
  | [], _ => d
  | (j, v) :: t, k => if k = j then v else if k < j then d else tget d t k

/-- An entry in front of a table, unless it holds the default. -/
def tcons {α : Type} [DecidableEq α] (d : α) (k : Nat) (v : α) (t : Table α) : Table α :=
  if v = d then t else (k, v) :: t

/-- Write key `k`; writing the default removes the entry. -/
def tset {α : Type} [DecidableEq α] (d : α) : Table α → Nat → α → Table α
  | [], k, v => tcons d k v []
  | (j, w) :: t, k, v =>
    if k < j then tcons d k v ((j, w) :: t)
    else if k = j then tcons d k v t
    else (j, w) :: tset d t k v

/-- Write a list of consecutive values from key `k` up. -/
def tsetMany {α : Type} [DecidableEq α] (d : α) (t : Table α) (k : Nat) : List α → Table α
  | [] => t
  | v :: vs => tsetMany d (tset d t k v) (k + 1) vs

/-- The `n` values from key `k` up. -/
def tgetMany {α : Type} (d : α) (t : Table α) (k : Nat) : Nat → List α
  | 0 => []
  | n + 1 => tget d t k :: tgetMany d t (k + 1) n

/-- A table of consecutive values from key `k` up. -/
def tcells {α : Type} [DecidableEq α] (d : α) (k : Nat) : List α → Table α
  | [] => []
  | v :: vs => tcons d k v (tcells d (k + 1) vs)

/-- The entries of `n` keys from `lo` up, moved to the keys from `dst` up. -/
def tshift {α : Type} (lo n dst : Nat) (t : Table α) : Table α :=
  (t.filter fun p => decide (lo ≤ p.1) && decide (p.1 < lo + n)).map fun p => (p.1 - lo + dst, p.2)

/-- A table whose entries at `n` keys from `lo` up are those of `x`. -/
def tsplice {α : Type} (lo n : Nat) (x t : Table α) : Table α :=
  (t.filter fun p => decide (p.1 < lo)) ++ x ++ t.filter fun p => decide (lo + n ≤ p.1)

/-- The canonical form: every key above `lo`, keys strictly rising, no default listed. -/
def tableWfFrom {α : Type} [DecidableEq α] (d : α) : Nat → Table α → Bool
  | _, [] => true
  | lo, (k, v) :: t => decide (lo ≤ k) && decide (v ≠ d) && tableWfFrom d (k + 1) t

/-- The canonical form of a table. -/
def tableWf {α : Type} [DecidableEq α] (d : α) (t : Table α) : Bool := tableWfFrom d 0 t

/-- A memory: bytes by address, an unlisted address reading as 0 (R16, R46; log 4). -/
abbrev Memory := Table Byte

def Memory.get (m : Memory) (a : Nat) : Byte := tget 0#8 m a
def Memory.set (m : Memory) (a : Nat) (b : Byte) : Memory := tset 0#8 m a b
def Memory.read (m : Memory) (a n : Nat) : List Byte := tgetMany 0#8 m a n
def Memory.write (m : Memory) (a : Nat) (bs : List Byte) : Memory := tsetMany 0#8 m a bs
def Memory.wf (m : Memory) : Bool := tableWf 0#8 m

end Sys2Proof.Machine
end

