-- ==== Sys2Proof/Syntax.lean ====
section
/-!
DEFINITION. Sys2Proof/Syntax.lean: the instructions and steps of the device, one constructor per row of the
spec's table of operations and events. The fields of an instruction row are the bit fields the table leaves
open, in the table's order and widths (R50, Table 3.2); an event row carries what selects the event.
-/
namespace Sys2Proof

/-- The safe-point suffix of a 32-bit instruction (R45, R48): `none` is S = 0; otherwise the first mask word
and, when its bit 0 is 1, the second. -/
abbrev Sp := Option (BitVec 32 × Option (BitVec 32))

/-- Who may send or receive a packet (R19, R23, R24): a logical core of the partition, a memory core or a
pager core of a die, the control cluster, or a core of another device. -/
inductive CoreId where
  | mesh (x y : BitVec 8)
  | memory (die : BitVec 3) (i : BitVec 4)
  | pager (die : BitVec 3) (j : BitVec 2)
  | control
  | far (dev : BitVec 7) (x y : BitVec 8)
  /-- The device-link ingress port of a C-die, which translates for the partition (R324, R332). -/
  | port (die : BitVec 3)
deriving DecidableEq, Repr

/-- A physical site (Table 1.8): column 0 to 135, row 0 to 127. -/
structure Site where
  px : BitVec 8
  py : BitVec 8
deriving DecidableEq, Repr

/-- A quad of a die, as PWRQ names it (Table 23.3). -/
structure Quad where
  die : BitVec 3
  qx : BitVec 5
  qy : BitVec 5
deriving DecidableEq, Repr

/-- A boot image as read from flash or a drive (R364): header, body, signature, and whether the drive that
holds it could be read. -/
structure BootImage where
  readable : Bool
  header : List (BitVec 8)
  body : List (BitVec 8)
  sig : List (BitVec 8)
deriving DecidableEq, Repr

/-- The instructions (R56, R58) and the events (file 95) of the device. -/
inductive Instr where
  /-- ADD, R86: Writes sa + sb, wrapping on 64 bits. -/
  | add (g : BitVec 3) (b a d : BitVec 5) (sp : Sp)
  /-- SUB, R86: Writes sa − sb, wrapping on 64 bits. -/
  | sub (g : BitVec 3) (b a d : BitVec 5) (sp : Sp)
  /-- MUL, R86: Writes the low 64 bits of sa × sb. -/
  | mul (g : BitVec 3) (b a d : BitVec 5) (sp : Sp)
  /-- MULH, R86: Writes bits 127..64 of the signed 128-bit product. -/
  | mulh (g : BitVec 3) (b a d : BitVec 5) (sp : Sp)
  /-- MULHN, R86: Writes bits 127..64 of the unsigned 128-bit product. -/
  | mulhn (g : BitVec 3) (b a d : BitVec 5) (sp : Sp)
  /-- DIV, R86: Writes the signed quotient, truncated toward zero, with the boundary cases of Table 4.1. -/
  | div (g : BitVec 3) (b a d : BitVec 5) (sp : Sp)
  /-- DIVN, R86: Writes the unsigned quotient, truncated toward zero, with the boundary cases of Table 4.1. -/
  | divn (g : BitVec 3) (b a d : BitVec 5) (sp : Sp)
  /-- REM, R86: Writes the signed remainder, which has the sign of the dividend. -/
  | rem (g : BitVec 3) (b a d : BitVec 5) (sp : Sp)
  /-- REMN, R86: Writes the unsigned remainder. -/
  | remn (g : BitVec 3) (b a d : BitVec 5) (sp : Sp)
  /-- AND, R86: Writes the bitwise AND of sa and sb. -/
  | and (g : BitVec 3) (b a d : BitVec 5) (sp : Sp)
  /-- OR, R86: Writes the bitwise OR of sa and sb. -/
  | or (g : BitVec 3) (b a d : BitVec 5) (sp : Sp)
  /-- XOR, R86: Writes the bitwise XOR of sa and sb. -/
  | xor (g : BitVec 3) (b a d : BitVec 5) (sp : Sp)
  /-- SHL, R86: Shifts sa left by sb[5:0], filling with zeros. -/
  | shl (g : BitVec 3) (b a d : BitVec 5) (sp : Sp)
  /-- SHR, R86: Shifts sa right logically by sb[5:0]. -/
  | shr (g : BitVec 3) (b a d : BitVec 5) (sp : Sp)
  /-- SHA, R86: Shifts sa right arithmetically by sb[5:0]. -/
  | sha (g : BitVec 3) (b a d : BitVec 5) (sp : Sp)
  /-- ROTL, R86: Rotates sa left by sb[5:0]. -/
  | rotl (g : BitVec 3) (b a d : BitVec 5) (sp : Sp)
  /-- MIN, R86: Writes the signed minimum of sa and sb. -/
  | min (g : BitVec 3) (b a d : BitVec 5) (sp : Sp)
  /-- MAX, R86: Writes the signed maximum of sa and sb. -/
  | max (g : BitVec 3) (b a d : BitVec 5) (sp : Sp)
  /-- MINN, R86: Writes the unsigned minimum of sa and sb. -/
  | minn (g : BitVec 3) (b a d : BitVec 5) (sp : Sp)
  /-- MAXN, R86: Writes the unsigned maximum of sa and sb. -/
  | maxn (g : BitVec 3) (b a d : BitVec 5) (sp : Sp)
  /-- CLZ, R86: Counts the leading zero bits of sa, giving 64 when sa is 0. -/
  | clz (g : BitVec 3) (a d : BitVec 5) (sp : Sp)
  /-- CTZ, R86: Counts the trailing zero bits of sa, giving 64 when sa is 0. -/
  | ctz (g : BitVec 3) (a d : BitVec 5) (sp : Sp)
  /-- POPC, R86: Counts the one bits of sa. -/
  | popc (g : BitVec 3) (a d : BitVec 5) (sp : Sp)
  /-- BSWAP, R86: Writes sa with its eight bytes in reverse order. -/
  | bswap (g : BitVec 3) (a d : BitVec 5) (sp : Sp)
  /-- SEL, R86: Writes sa if predicate pg is true, and sb otherwise. -/
  | sel (p : BitVec 3) (b a d : BitVec 5) (sp : Sp)
  /-- ADDI, R87: Writes sa plus the sign-extended imm14. -/
  | addi (i : BitVec 14) (a d : BitVec 5) (sp : Sp)
  /-- ANDI, R87: Writes sa AND the sign-extended imm14. -/
  | andi (i : BitVec 14) (a d : BitVec 5) (sp : Sp)
  /-- ORI, R87: Writes sa OR the zero-extended imm14. -/
  | ori (i : BitVec 14) (a d : BitVec 5) (sp : Sp)
  /-- XORI, R87: Writes sa XOR the zero-extended imm14. -/
  | xori (i : BitVec 14) (a d : BitVec 5) (sp : Sp)
  /-- SHLI, R87: Shifts sa left by an immediate count. -/
  | shli (i : BitVec 6) (a d : BitVec 5) (sp : Sp)
  /-- SHRI, R87: Shifts sa right logically by an immediate count. -/
  | shri (i : BitVec 6) (a d : BitVec 5) (sp : Sp)
  /-- SHAI, R87: Shifts sa right arithmetically by an immediate count. -/
  | shai (i : BitVec 6) (a d : BitVec 5) (sp : Sp)
  /-- CMP, R88: Sets predicate pd to the truth of sa cond sb. -/
  | cmp (g : BitVec 3) (c : BitVec 4) (b a d : BitVec 5) (sp : Sp)
  /-- CMPI, R88: Sets predicate pd to the truth of sa cond imm10. -/
  | cmpi (i : BitVec 10) (c : BitVec 4) (a d : BitVec 5) (sp : Sp)
  /-- PLOG, R89: Sets predicate pd from pa and pb through a 4-bit truth table. -/
  | plog (g : BitVec 3) (t : BitVec 4) (b a d : BitVec 5) (sp : Sp)
  /-- MOVI, R90: Writes the sign-extended imm19 to sd. -/
  | movi (i : BitVec 19) (d : BitVec 5) (sp : Sp)
  /-- MOVHI, R90: Shifts sd left by 19 and ORs in the 19-bit field. -/
  | movhi (i : BitVec 19) (d : BitVec 5) (sp : Sp)
  /-- EXT, R91: Extracts a zero-extended bit field of sa. -/
  | ext (w p : BitVec 6) (a d : BitVec 5) (sp : Sp)
  /-- INS, R91: Inserts the low bits of sa into a bit field of sd. -/
  | ins (w p : BitVec 6) (a d : BitVec 5) (sp : Sp)
  /-- MKPTR, R92: Forms a mesh pointer with offset zero from the device and coordinate fields of sa and a buffer code. -/
  | mkptr (g : BitVec 3) (b : BitVec 2) (a d : BitVec 5) (sp : Sp)
  /-- PTRGET, R93: Extracts one pointer field of sa, right-justified. -/
  | ptrget (g : BitVec 3) (b a d : BitVec 5) (sp : Sp)
  /-- PTRADD, R94: Adds a signed byte count to a pointer's address part and marks an offset carry in reserved bit 17. -/
  | ptradd (g : BitVec 3) (b a d : BitVec 5) (sp : Sp)
  /-- DIST, R96: Writes the nominal charge of an access of n bytes to an address, saturating, or all ones for an invalid address. -/
  | dist (g : BitVec 3) (b a d : BitVec 5) (sp : Sp)
  /-- DISTA, R97: Writes a charge estimate computed on the current physical placement through the partition map. -/
  | dista (g : BitVec 3) (b a d : BitVec 5) (sp : Sp)
  /-- LD, R111: Plain load of 1 to 8 bytes, sign- or zero-extended, recorded in the region's read map. -/
  | ld (i : BitVec 11) (m : BitVec 3) (a d : BitVec 5) (sp : Sp)
  /-- ST, R111: Plain store, applied in place locally or held for a two-phase commit when remote. -/
  | st (i : BitVec 11) (m : BitVec 3) (a d : BitVec 5) (sp : Sp)
  /-- LDX, R111: Plain load with a register index scaled by bytes or by the access size. -/
  | ldx (g : BitVec 3) (c : BitVec 2) (m : BitVec 3) (b a d : BitVec 5) (sp : Sp)
  /-- STX, R111: Plain store with a register index scaled by bytes or by the access size. -/
  | stx (g : BitVec 3) (c : BitVec 2) (m : BitVec 3) (b a d : BitVec 5) (sp : Sp)
  /-- LDI, R112: Invariant load served through the invariant cache, unchecked by the Scrim table. -/
  | ldi (i : BitVec 11) (m : BitVec 3) (a d : BitVec 5) (sp : Sp)
  /-- LDP, R111: Loads two consecutive n64 words into an even register pair. -/
  | ldp (i : BitVec 11) (m : BitVec 3) (a d : BitVec 5) (sp : Sp)
  /-- STP, R111: Stores an even register pair as two consecutive n64 words. -/
  | stp (i : BitVec 11) (m : BitVec 3) (a d : BitVec 5) (sp : Sp)
  /-- LDA, R113: Acquire load: drains, reads as a sync access and blocks until its reply returns. -/
  | lda (i : BitVec 11) (m : BitVec 3) (a d : BitVec 5) (sp : Sp)
  /-- STL, R113: Release store: drains, then writes directly at the home as a sync access. -/
  | stl (i : BitVec 11) (m : BitVec 3) (a d : BitVec 5) (sp : Sp)
  /-- AADD, R115: Atomic add at the target bank ALU that returns the old value. -/
  | aadd (g : BitVec 3) (w : BitVec 1) (b a d : BitVec 5) (sp : Sp)
  /-- AAND, R115: Atomic AND that returns the old value. -/
  | aand (g : BitVec 3) (w : BitVec 1) (b a d : BitVec 5) (sp : Sp)
  /-- AOR, R115: Atomic OR that returns the old value. -/
  | aor (g : BitVec 3) (w : BitVec 1) (b a d : BitVec 5) (sp : Sp)
  /-- AXOR, R115: Atomic XOR that returns the old value. -/
  | axor (g : BitVec 3) (w : BitVec 1) (b a d : BitVec 5) (sp : Sp)
  /-- AMIN, R115: Atomic signed minimum that returns the old value. -/
  | amin (g : BitVec 3) (w : BitVec 1) (b a d : BitVec 5) (sp : Sp)
  /-- AMAX, R115: Atomic signed maximum that returns the old value. -/
  | amax (g : BitVec 3) (w : BitVec 1) (b a d : BitVec 5) (sp : Sp)
  /-- AMINN, R115: Atomic unsigned minimum that returns the old value. -/
  | aminn (g : BitVec 3) (w : BitVec 1) (b a d : BitVec 5) (sp : Sp)
  /-- AMAXN, R115: Atomic unsigned maximum that returns the old value. -/
  | amaxn (g : BitVec 3) (w : BitVec 1) (b a d : BitVec 5) (sp : Sp)
  /-- ASWP, R115: Atomic swap that returns the old value. -/
  | aswp (g : BitVec 3) (w : BitVec 1) (b a d : BitVec 5) (sp : Sp)
  /-- ACAS, R115: Atomic compare-and-swap against the expected value in s[d]. -/
  | acas (g : BitVec 3) (w : BitVec 1) (b a d : BitVec 5) (sp : Sp)
  /-- AFADD, R115: Atomic floating add in f32 or bf16, always rounded with RNE. -/
  | afadd (g : BitVec 3) (t : BitVec 1) (b a d : BitVec 5) (sp : Sp)
  /-- ACLAIM, R116: Atomically claims a guided self-scheduling chunk from a NEXT and TOTAL pair. -/
  | aclaim (g : BitVec 3) (b a d : BitVec 5) (sp : Sp)
  /-- FENCE, R114: Ends the region and waits for the unacknowledged-store counts up to its scope to reach zero. -/
  | fence (g : BitVec 3) (s : BitVec 2) (sp : Sp)
  /-- SEND, R117: Drains, then queues an active message on REQ, stalling while the queue is full. -/
  | send (h : BitVec 8) (n : BitVec 4) (a d : BitVec 5) (sp : Sp)
  /-- SENDT, R119: Sends like SEND but stops with SQFULL when the REQ queue is full. -/
  | sendt (h : BitVec 8) (n : BitVec 4) (a d : BitVec 5) (sp : Sp)
  /-- REPLY, R117: Drains, then queues an active message on REP. -/
  | reply (h : BitVec 8) (n : BitVec 4) (a d : BitVec 5) (sp : Sp)
  /-- MSGQ, R121: Writes a snapshot of the mailbox counts and of the free send-queue entries. -/
  | msgq (d : BitVec 5) (sp : Sp)
  /-- CBDEF, R124: Defines a CB table entry as the home of a new circular buffer or as a link to a remote home. -/
  | cbdef (i : BitVec 11) (a d : BitVec 5) (sp : Sp)
  /-- CBWAIT, R125: Waits until k slots are filled and returns the pointer of the head slot. -/
  | cbwait (k : BitVec 9) (a d : BitVec 5) (sp : Sp)
  /-- CBFREE, R125: Waits until k slots are free and returns the pointer of the tail slot. -/
  | cbfree (k : BitVec 9) (a d : BitVec 5) (sp : Sp)
  /-- CBADV_GET, R125: Acquire that advances the head by k filled slots. -/
  | cbadvGet (k : BitVec 9) (a : BitVec 5) (sp : Sp)
  /-- CBADV_PUT, R125: Release that advances the tail by k slots. -/
  | cbadvPut (k : BitVec 9) (a : BitVec 5) (sp : Sp)
  /-- CBPUSH, R125: Writes n words into the tail slot and advances the tail in one step. -/
  | cbpush (n : BitVec 4) (a d : BitVec 5) (sp : Sp)
  /-- CBPOP, R125: Reads n words from the head slot and advances the head in one step. -/
  | cbpop (n : BitVec 4) (a d : BitVec 5) (sp : Sp)
  /-- CBQ, R125: Writes a snapshot of a circular buffer's indices and counts. -/
  | cbq (a d : BitVec 5) (sp : Sp)
  /-- BR, R98: Branches unconditionally, relative to its own address. -/
  | br (o : BitVec 16) (g : BitVec 3) (sp : Sp)
  /-- BRZ, R98: Branches when s[d] is zero. -/
  | brz (o : BitVec 16) (g : BitVec 3) (d : BitVec 5) (sp : Sp)
  /-- BRNZ, R98: Branches when s[d] is nonzero. -/
  | brnz (o : BitVec 16) (g : BitVec 3) (d : BitVec 5) (sp : Sp)
  /-- J, R100: Jumps by a 19-bit offset in parcels. -/
  | j (i : BitVec 19) (sp : Sp)
  /-- JL, R100: Jumps by a 19-bit offset and writes the link into sd. -/
  | jl (i : BitVec 19) (d : BitVec 5) (sp : Sp)
  /-- JR, R100: Jumps to the I-store offset held in sa. -/
  | jr (g : BitVec 3) (a : BitVec 5) (sp : Sp)
  /-- JLR, R100: Jumps to the offset in sa and writes the link into sd. -/
  | jlr (g : BitVec 3) (a d : BitVec 5) (sp : Sp)
  /-- LOOP, R98: Decrements s[d] and branches while the result is nonzero. -/
  | loop (o : BitVec 16) (g : BitVec 3) (d : BitVec 5) (sp : Sp)
  /-- FIN, R101: Ends the region, starts the commit of held stores, discards the per-firing state and releases the pipeline. -/
  | fin (g : BitVec 3) (sp : Sp)
  /-- ACTDEF, R139: Loads an actor record into an actor binding. -/
  | actdef (i : BitVec 11) (d : BitVec 5) (sp : Sp)
  /-- NESTDEF, R141: Loads a nest record into a binding over a shared NEXT and TOTAL counter pair. -/
  | nestdef (i : BitVec 11) (a d : BitVec 5) (sp : Sp)
  /-- LNCH, R132: Checks a launch record, drains, hands the launch to the lead sequencer and returns its handle. -/
  | lnch (i : BitVec 11) (a d : BitVec 5) (sp : Sp)
  /-- GRAPH, R134: Reads and checks a graph descriptor, then issues its launches with their ordering edges. -/
  | graph (a d : BitVec 5) (sp : Sp)
  /-- PHASE, R135: Drains and opens the job's next phase. -/
  | phase (d : BitVec 5) (sp : Sp)
  /-- CNCL, R137: Ends the region and cancels the unit named by a handle. -/
  | cncl (a : BitVec 5) (sp : Sp)
  /-- LWAIT, R136: Waits for a unit to end and returns its status. -/
  | lwait (a d : BitVec 5) (sp : Sp)
  /-- WAITC, R144: Waits until a 64-bit counter reaches a target value, acquiring at job scope. -/
  | waitc (a d : BitVec 5) (sp : Sp)
  /-- WAITT, R143: Waits until every tag in the mask is set. -/
  | waitt (i : BitVec 11) (a : BitVec 5) (sp : Sp)
  /-- WAITA, R143: Waits until any tag in the mask is set and returns the set tags. -/
  | waita (i : BitVec 11) (a d : BitVec 5) (sp : Sp)
  /-- TFIRST, R143: Returns the lowest set tag in the mask, or 64 when none is set. -/
  | tfirst (i : BitVec 11) (a d : BitVec 5) (sp : Sp)
  /-- TAGCLR, R143: Clears the masked bits of TAGS and TAGERR. -/
  | tagclr (i : BitVec 11) (a : BitVec 5) (sp : Sp)
  /-- SAFE, R145: Has no effect; it carries a safe point. -/
  | safe (sp : Sp)
  /-- TRAP, R148: Stops with cause TRAP and places its code in TADDR. -/
  | trap (g : BitVec 3) (i : BitVec 11) (sp : Sp)
  /-- TRET, R149: Leaves a stop entry and continues at TPC or TNPC. -/
  | tret (i : BitVec 11) (sp : Sp)
  /-- BRK, R157: Halts the core at the boundary after it when DBGCTL.BRKEN is 1. -/
  | brk (i : BitVec 11) (sp : Sp)
  /-- TRACE, R156: Emits a user record into the core's open trace session. -/
  | trace (i : BitVec 11) (a : BitVec 5) (sp : Sp)
  /-- CSRD, R150: Reads a control register. -/
  | csrd (c : BitVec 12) (d : BitVec 5) (sp : Sp)
  /-- CSWR, R150: Writes a control register and returns its old value. -/
  | cswr (c : BitVec 12) (a d : BitVec 5) (sp : Sp)
  /-- CSSET, R150: ORs bits into a control register and returns its old value. -/
  | csset (c : BitVec 12) (a d : BitVec 5) (sp : Sp)
  /-- CSCLR, R150: Clears bits of a control register and returns its old value. -/
  | csclr (c : BitVec 12) (a d : BitVec 5) (sp : Sp)
  /-- CAPMINT, R154: Creates a grant over a C range and returns a keyed capability for it. -/
  | capmint (i : BitVec 11) (a d : BitVec 5) (sp : Sp)
  /-- CAPREV, R155: Invalidates the grant-table entry that matches a capability. -/
  | caprev (a : BitVec 5) (sp : Sp)
  /-- HALT, R158: Supervisor request that a physical core halt at its next firing boundary or safe point. -/
  | halt (a : BitVec 5) (sp : Sp)
  /-- SLEEP, R158: Supervisor wait for a deadline, a non-empty mailbox or a ready firing, returning TIME. -/
  | sleep (a d : BitVec 5) (sp : Sp)
  /-- WFR, R158: Supervisor wait for a handler-255 REP message that matches a token. -/
  | wfr (a d : BitVec 5) (sp : Sp)
  /-- MOVE, R158: Supervisor instruction that ends the firing and moves the core's residency to a pool site. -/
  | move (i : BitVec 11) (a : BitVec 5) (sp : Sp)
  /-- SHLD, R170: Loads a 32-byte shape record from the record table or from memory into a shape register. -/
  | shld (i : BitVec 11) (a d : BitVec 5) (sp : Sp)
  /-- SHST, R170: Stores a shape register as two 16-byte plain stores. -/
  | shst (a d : BitVec 5) (sp : Sp)
  /-- SHMOD, R171: Changes one field of a shape register. -/
  | shmod (i : BitVec 11) (a d : BitVec 5) (sp : Sp)
  /-- VADD, R172: Elementwise vector add. -/
  | vadd (t b a d : BitVec 5) (sp : Sp)
  /-- VSUB, R172: Elementwise vector subtract. -/
  | vsub (t b a d : BitVec 5) (sp : Sp)
  /-- VMUL, R172: Elementwise vector multiply. -/
  | vmul (t b a d : BitVec 5) (sp : Sp)
  /-- VFMA, R172: Elementwise fused multiply-add into the destination. -/
  | vfma (t b a d : BitVec 5) (sp : Sp)
  /-- VDIV, R172: Elementwise vector divide. -/
  | vdiv (t b a d : BitVec 5) (sp : Sp)
  /-- VMIN, R172: Elementwise minimum. -/
  | vmin (t b a d : BitVec 5) (sp : Sp)
  /-- VMAX, R172: Elementwise maximum. -/
  | vmax (t b a d : BitVec 5) (sp : Sp)
  /-- VABS, R172: Elementwise absolute value. -/
  | vabs (t a d : BitVec 5) (sp : Sp)
  /-- VNEG, R172: Elementwise negation. -/
  | vneg (t a d : BitVec 5) (sp : Sp)
  /-- VRSQ, R173: Elementwise reciprocal square root, rounded once. -/
  | vrsq (t a d : BitVec 5) (sp : Sp)
  /-- VEXP2, R173: Elementwise 2 to the power x, rounded once. -/
  | vexp2 (t a d : BitVec 5) (sp : Sp)
  /-- VLOG2, R173: Elementwise base-2 logarithm, rounded once. -/
  | vlog2 (t a d : BitVec 5) (sp : Sp)
  /-- VAND, R174: Elementwise bitwise AND. -/
  | vand (t b a d : BitVec 5) (sp : Sp)
  /-- VOR, R174: Elementwise bitwise OR. -/
  | vor (t b a d : BitVec 5) (sp : Sp)
  /-- VXOR, R174: Elementwise bitwise XOR. -/
  | vxor (t b a d : BitVec 5) (sp : Sp)
  /-- VSHL, R174: Elementwise shift left. -/
  | vshl (t b a d : BitVec 5) (sp : Sp)
  /-- VSHR, R174: Elementwise shift right, arithmetic for .i types and logical for .n types. -/
  | vshr (t b a d : BitVec 5) (sp : Sp)
  /-- VSEL, R174: Elementwise select by the destination's old element used as a mask. -/
  | vsel (t b a d : BitVec 5) (sp : Sp)
  /-- VCMP, R175: Elementwise compare that writes an all-ones or zero mask. -/
  | vcmp (c : BitVec 4) (t b a d : BitVec 5) (sp : Sp)
  /-- VRED, R176: Reduces all source elements by a fixed pairwise tree into one element. -/
  | vred (o : BitVec 4) (t a d : BitVec 5) (sp : Sp)
  /-- VSCAN, R176: Writes the running combination of each run of the source. -/
  | vscan (o : BitVec 4) (t a d : BitVec 5) (sp : Sp)
  /-- VCVT, R177: Converts each element to the operation type. -/
  | vcvt (t a d : BitVec 5) (sp : Sp)
  /-- VQNT, R178: Quantises f32 elements into .qm blocks with their scale bytes. -/
  | vqnt (t a d : BitVec 5) (sp : Sp)
  /-- VFILL, R179: Writes the low bits of s[a] to every destination element. -/
  | vfill (t a d : BitVec 5) (sp : Sp)
  /-- VIDENT, R180: Writes a 64 × 64 .qm identity tile and sets its panels IDENT. -/
  | vident (t a d : BitVec 5) (sp : Sp)
  /-- VCPY, R181: Copies element encodings and .qm scale bytes unchanged. -/
  | vcpy (t a d : BitVec 5) (sp : Sp)
  /-- VGATH, R182: Gathers elements of a through an index record. -/
  | vgath (t b a d : BitVec 5) (sp : Sp)
  /-- VSCAT, R182: Scatters elements into d through an index record. -/
  | vscat (t b a d : BitVec 5) (sp : Sp)
  /-- VTRN, R181: Transposes the two innermost dimensions. -/
  | vtrn (t a d : BitVec 5) (sp : Sp)
  /-- MCFG, R188: Queues a write of s[a] to MXCFG. -/
  | mcfg (a : BitVec 5) (sp : Sp)
  /-- MBLD, R189: Loads a 64 × 64 .qm tile from W into the B latch. -/
  | mbld (t a : BitVec 5) (sp : Sp)
  /-- MGAT, R190: Gathers indexed A rows into the A latch. -/
  | mgat (t b a : BitVec 5) (sp : Sp)
  /-- MMA, R192: Multiply-accumulates the latches into an FP32 C region. -/
  | mma (a : BitVec 5) (sp : Sp)
  /-- MMAZ, R192: Multiplies the latches into a C region that starts at +0. -/
  | mmaz (a : BitVec 5) (sp : Sp)
  /-- MREC, R196: Runs the loaded recurrence microprogram over the latches and C. -/
  | mrec (a : BitVec 5) (sp : Sp)
  /-- MUPL, R195: Queues a write of the recurrence microprogram MUPR. -/
  | mupl (a : BitVec 5) (sp : Sp)
  /-- MSYNC, R197: Waits until every matrix command this core has issued has finished its local work. -/
  | msync (sp : Sp)
  /-- MSTAT, R198: Writes a snapshot of the matrix engine status. -/
  | mstat (d : BitVec 5) (sp : Sp)
  /-- MCMD, R199: Sends the A latch to another core's engine under a capability to run an operation there. -/
  | mcmd (o b a : BitVec 5) (sp : Sp)
  /-- MCAP, R202: Attenuates the rights of a capability. -/
  | mcap (b a d : BitVec 5) (sp : Sp)
  /-- CBOX, R212: Issues a box copy to window, CB or external destinations. -/
  | cbox (i : BitVec 11) (a d : BitVec 5) (sp : Sp)
  /-- CRED, R212: Issues a box copy that reduces into visible memory. -/
  | cred (i : BitVec 11) (a d : BitVec 5) (sp : Sp)
  /-- CCAN, R216: Cancels this core's incomplete copies of the masked tags and waits for them to complete with an error. -/
  | ccan (i : BitVec 11) (a : BitVec 5) (sp : Sp)
  /-- CSTAT, R216: Returns the masked tags whose copies are still incomplete. -/
  | cstat (i : BitVec 11) (a d : BitVec 5) (sp : Sp)
  /-- WDEF, R217: Defines a window over a visible range and its shadow. -/
  | wdef (i : BitVec 11) (d : BitVec 5) (sp : Sp)
  /-- WBIND, R220: Binds a box and a tag to a window and charges one fill. -/
  | wbind (i : BitVec 11) (a d : BitVec 5) (sp : Sp)
  /-- WPUB, R221: Waits for PEND to reach zero, then flips the window's halves. -/
  | wpub (a d : BitVec 5) (sp : Sp)
  /-- WABS, R222: Releases a window to ABSENT and arms its next fill or chain link. -/
  | wabs (a : BitVec 5) (sp : Sp)
  /-- WDEPTH, R224: Sets the depth bounds of a chain. -/
  | wdepth (a d : BitVec 5) (sp : Sp)
  /-- WQRY, R225: Writes a snapshot of a window's state. -/
  | wqry (a d : BitVec 5) (sp : Sp)
  /-- WSTEP, R223: Makes n windows a chain that streams stepped links of the bound box. -/
  | wstep (i : BitVec 11) (a d : BitVec 5) (sp : Sp)
  /-- ADD_COMPACT, R58: Compact ADD d, d, a. -/
  | addCompact (a d : BitVec 4)
  /-- SUB_COMPACT, R58: Compact SUB d, d, a. -/
  | subCompact (a d : BitVec 4)
  /-- AND_COMPACT, R58: Compact AND d, d, a. -/
  | andCompact (a d : BitVec 4)
  /-- OR_COMPACT, R58: Compact OR d, d, a. -/
  | orCompact (a d : BitVec 4)
  /-- XOR_COMPACT, R58: Compact XOR d, d, a. -/
  | xorCompact (a d : BitVec 4)
  /-- MUL_COMPACT, R58: Compact MUL d, d, a. -/
  | mulCompact (a d : BitVec 4)
  /-- SHL_COMPACT, R58: Compact SHL d, d, a. -/
  | shlCompact (a d : BitVec 4)
  /-- SHR_COMPACT, R58: Compact SHR d, d, a. -/
  | shrCompact (a d : BitVec 4)
  /-- SHA_COMPACT, R58: Compact SHA d, d, a. -/
  | shaCompact (a d : BitVec 4)
  /-- MIN_COMPACT, R58: Compact MIN d, d, a. -/
  | minCompact (a d : BitVec 4)
  /-- MAX_COMPACT, R58: Compact MAX d, d, a. -/
  | maxCompact (a d : BitVec 4)
  /-- MINN_COMPACT, R58: Compact MINN d, d, a. -/
  | minnCompact (a d : BitVec 4)
  /-- ADDI_COMPACT, R58: Compact ADDI d, d with a 6-bit signed immediate. -/
  | addiCompact (i : BitVec 6) (d : BitVec 4)
  /-- MOVI_COMPACT, R58: Compact MOVI with a 6-bit signed immediate. -/
  | moviCompact (i : BitVec 6) (d : BitVec 4)
  /-- SHLI_COMPACT, R58: Compact SHLI d, d with a 6-bit count. -/
  | shliCompact (i : BitVec 6) (d : BitVec 4)
  /-- SHRI_COMPACT, R58: Compact SHRI d, d with a 6-bit count. -/
  | shriCompact (i : BitVec 6) (d : BitVec 4)
  /-- SHAI_COMPACT, R58: Compact SHAI d, d with a 6-bit count. -/
  | shaiCompact (i : BitVec 6) (d : BitVec 4)
  /-- ANDI_COMPACT, R58: Compact ANDI d, d with a 6-bit signed immediate. -/
  | andiCompact (i : BitVec 6) (d : BitVec 4)
  /-- LD_N64_COMPACT, R58: Compact LD.n64 d, [sa+8×k]. -/
  | ldN64Compact (k : BitVec 2) (a d : BitVec 4)
  /-- ST_N64_COMPACT, R58: Compact ST.n64 [sa+8×k], d. -/
  | stN64Compact (k : BitVec 2) (a d : BitVec 4)
  /-- LD_N32_COMPACT, R58: Compact LD.n32 d, [sa+4×k]. -/
  | ldN32Compact (k : BitVec 2) (a d : BitVec 4)
  /-- ST_N32_COMPACT, R58: Compact ST.n32 [sa+4×k], d. -/
  | stN32Compact (k : BitVec 2) (a d : BitVec 4)
  /-- BRZ_COMPACT, R58: Compact BRZ with a 6-bit offset. -/
  | brzCompact (o : BitVec 6) (d : BitVec 4)
  /-- BRNZ_COMPACT, R58: Compact BRNZ with a 6-bit offset. -/
  | brnzCompact (o : BitVec 6) (d : BitVec 4)
  /-- J_COMPACT, R58: Compact J with a 10-bit offset. -/
  | jCompact (o : BitVec 10)
  /-- JR_COMPACT, R58: Compact JR to the offset held in s[d]. -/
  | jrCompact (d : BitVec 4)
  /-- FIN_COMPACT, R58: Compact FIN, which takes the implicit full checkpoint. -/
  | finCompact
  /-- MESSAGE_ARRIVAL, R120: A message packet enters the destination mailbox, or is discarded when its handler index has no entry. -/
  | messageArrival (src : CoreId) (rep : Bool)
  /-- MESSAGE_INJECTION, R119: A message leaves a send queue onto its network when a downstream buffer is free, unless SQCTL.HOLD keeps it. -/
  | messageInjection (rep : Bool)
  /-- WATCH_UPDATE, R272: A CB home's coalesced update of F arrives on SYS and refreshes an actor's readiness. -/
  | watchUpdate (src : CoreId)
  /-- COLLECTION_ROUND, R263: A die sequencer polls a cohort's cores for idleness and message totals. -/
  | collectionRound (serial cohort : Nat)
  /-- RETIREMENT_REPORT, R262: The lead sequencer applies a retirement to the scoreboard counts, the base B and the ends of units. -/
  | retirementReport (serial cohort : Nat)
  /-- BULK_PROMOTION, R266: A bulk cohort ready for 64 µs without placement is promoted once. -/
  | bulkPromotion (serial cohort : Nat)
  /-- MESSAGE_PROMOTION, R270: A bulk-class REQ message that has waited 64 µs is promoted once. -/
  | messagePromotion (n : Nat)
  /-- WAIT_SATISFIED, R129: The condition of a waiting or parked instruction comes to hold, and the instruction completes. -/
  | waitSatisfied (n : Nat)
  /-- SPLIT_REQUEST, R248: A bank with no free open entry asks the oldest entry's agent to end its region. -/
  | splitRequest (src : CoreId)
  /-- REMOTE_ACCESS_REQUEST, R245: A plain remote load arrives at its home bank and is checked against the Scrim table. -/
  | remoteAccessRequest (src : CoreId)
  /-- PROBE_ARRIVAL, R108: A held store's probe is staged at its home bank as an open write, or meets a conflict. -/
  | probeArrival (src : CoreId)
  /-- COMMIT_ARRIVAL, R108: Staged data applies at its home and an acknowledgment returns. -/
  | commitArrival (src : CoreId)
  /-- CLOSE_MESSAGE, R246: A region close frees, or sets closing, the region's Scrim entry at a remote bank. -/
  | closeMessage (src : CoreId)
  /-- SYNC_ACCESS_ARRIVAL, R110: An atomic, LDA, STL or CB slot access is performed at the bank against foreign open maps. -/
  | syncAccessArrival (src : CoreId)
  /-- CB_REQUEST, R125: A circular-buffer operation acts indivisibly at its home, replying once its condition holds. -/
  | cbRequest (src : CoreId)
  /-- REPLY_ARRIVAL, R325: The reply unit takes a reply and updates MACT and the delay accumulators. -/
  | replyArrival (src : CoreId) (qw : BitVec 16)
  /-- ACKNOWLEDGMENT_ARRIVAL, R329: An acknowledgment lowers its unacknowledged-store count. -/
  | acknowledgmentArrival (src : CoreId) (qw : BitVec 16)
  /-- REMOTE_MATRIX_PACKET, R200: An MCMD packet enters the target's remote queue and is accepted or rejected. -/
  | remoteMatrixPacket (src : CoreId)
  /-- MCMD_COMPLETION, R201: A remote command's completion sets the requester's tag, or is logged or discarded. -/
  | mcmdCompletion (src : CoreId) (qw : BitVec 16)
  /-- STENCIL_FLIT_SEND, R303: The Stencil engine sends one flit of an active walk on DATA. -/
  | stencilFlitSend (slot : Nat)
  /-- COPY_FLIT_ARRIVAL, R305: A copy flit is written at its destination, completing the copy there with its last flit. -/
  | copyFlitArrival (src : CoreId)
  /-- COPY_COMPLETION, R305: The last destination completion sets the issuer's tag, and TAGERR on error. -/
  | copyCompletion (src : CoreId) (qw : BitVec 16)
  /-- CHAIN_LINK_ISSUE, R223: A chain issues its next link into an ABSENT window while I − K < D. -/
  | chainLinkIssue (win : BitVec 4)
  /-- PULL_REQUEST, R312: A memory core serves a pull part by translating it and streaming its flits. -/
  | pullRequest (src : CoreId)
  /-- STORER_REQUEST, R308: A memory core's storer applies an external write or reduction per sector. -/
  | storerRequest (src : CoreId)
  /-- PAGER_RESULT, R290: A pager's handler-255 reply makes the walk retry or fail. -/
  | pagerResult (src : CoreId)
  /-- MACHINE_CHECK, R283: An uncorrectable error ends the running firing, quarantines the core and sends a kind-6 notice. -/
  | machineCheck (syndrome : BitVec 64) (pcValid : Bool)
  /-- REBUILD, R344: The failed core's residency is read through its router and rebuilt at a new site. -/
  | rebuild (site : Site) (lost : List Nat)
  /-- MOVE_REQUEST, R335: A SYS move request is taken at the running firing's next safe point or boundary. -/
  | moveRequest (site : Site) (why : BitVec 2)
  /-- MAP_UPDATE, R337: A router applies a map update and injects a marker on each network. -/
  | mapUpdate (at_ : CoreId)
  /-- MARKER_ARRIVAL, R338: The old site forwards a marker over RELOC and retires once all markers have passed. -/
  | markerArrival (src : CoreId)
  /-- RELOC_ARRIVAL, R339: A forwarded packet or marker is delivered at the new site, releasing held direct packets. -/
  | relocArrival (src : CoreId)
  /-- HALT_REQUEST, R158: A core named by HALT halts at its next firing boundary or safe point. -/
  | haltRequest (src : CoreId)
  /-- HALT_GROUP_MESSAGE, R358: A group halt message halts the receiving core. -/
  | haltGroupMessage (src : CoreId)
  /-- FCTL_WRITE, R68: A write to FCTL that leaves RM at 5 to 7 stops with ILLEGAL. -/
  | fctlWrite (fn : BitVec 2) (a d : BitVec 5) (sp : Sp)
  /-- FSTAT_READ, R72: A CSRD of FSTAT waits for earlier vector and matrix commands. -/
  | fstatRead (d : BitVec 5) (sp : Sp)
  /-- TIME_READ, R356: A read of TIME returns the larger of the quad's copy and the residency's last value. -/
  | timeRead (d : BitVec 5) (sp : Sp)
  /-- SQCTL_WRITE, R346: Sets the send-queue limits and HOLD; clearing HOLD releases held messages. -/
  | sqctlWrite (fn : BitVec 2) (a d : BitVec 5) (sp : Sp)
  /-- TLBINV_PAGE, R293: Invalidates on all dies the TLB entries that cover a page of an ASID. -/
  | tlbinvPage (fn : BitVec 2) (a d : BitVec 5) (sp : Sp)
  /-- TLBINV_ASID, R293: Invalidates on all dies every TLB entry of an ASID. -/
  | tlbinvAsid (fn : BitVec 2) (a d : BitVec 5) (sp : Sp)
  /-- TLBINV_ALL, R293: Invalidates every TLB entry on all dies. -/
  | tlbinvAll (fn : BitVec 2) (a d : BitVec 5) (sp : Sp)
  /-- PWRQ_GATE, R355: Starts gating the selected quad. -/
  | pwrqGate (fn : BitVec 2) (a d : BitVec 5) (sp : Sp)
  /-- PWRQ_WAKE, R355: Wakes the selected gated quad. -/
  | pwrqWake (fn : BitVec 2) (a d : BitVec 5) (sp : Sp)
  /-- OPREQ_WRITE, R351: Changes a site's requested operating point and starts a ramp. -/
  | opreqWrite (fn : BitVec 2) (a d : BitVec 5) (sp : Sp)
  /-- HGRP_RESUME, R359: Releases the halted group, runs deferred publishes and resumes firings. -/
  | hgrpResume (fn : BitVec 2) (a d : BitVec 5) (sp : Sp)
  /-- DUMP_HOLD, R360: Setting DUMP.HOLD halts and holds the core. -/
  | dumpHold (fn : BitVec 2) (a d : BitVec 5) (sp : Sp)
  /-- CONTROL_REGISTER_WRITE, R150: A write to a control register that has no behaviour of its own. -/
  | controlRegisterWrite (fn : BitVec 2) (c : BitVec 12) (a d : BitVec 5) (sp : Sp)
  /-- RESERVED_ENCODING, R60: A fetched parcel or 32-bit pattern that is no defined instruction (reserved major or compact opcode, reserved function value, such as the 0x0000 parcels beyond the loaded code) stops with ILLEGAL. -/
  | reservedEncoding (enc : BitVec 32) (len : Nat)
  /-- FLOAT_PERIOD, R342: At each PERIOD, the move service moves up to NMAX hot residencies to cooler pool sites. -/
  | floatPeriod (die : BitVec 3)
  /-- THERMAL_EMERGENCY, R342: A site reaching LIM is moved at once, or its quad is throttled. -/
  | thermalEmergency (site : Site) (t : BitVec 10)
  /-- OVERHEAT_CAP, R352: A site at LIM + 40 drops its quad's CAP to 0 at once. -/
  | overheatCap (site : Site) (t : BitVec 10)
  /-- RAMP_COMPLETE, R351: A quad's voltage ramp ends and a pending point request is taken. -/
  | rampComplete (q : Quad)
  /-- DROOP_DETECT, R353: The droop detector halves the quad's clock and restarts the hold. -/
  | droopDetect (q : Quad)
  /-- DROOP_HOLD_EXPIRY, R353: After 2 µs clear, the clock divider turns off. -/
  | droopHoldExpiry (q : Quad)
  /-- GATING_COMMIT, R355: At edge 64 of gating, the quad's cores and buffers lose power. -/
  | gatingCommit (q : Quad)
  /-- WAKE_COMPLETE, R355: 800 edges after the wake event the quad is on and held packets are delivered. -/
  | wakeComplete (q : Quad)
  /-- BOOT_IMAGE_LOADED, R364: A boot image read completes, is verified and measured, and the next step runs or boot halts. -/
  | bootImageLoaded (img : BootImage)
  /-- MEAS_EXTEND, R366: The root monitor extends a measurement register with a digest. -/
  | measExtend (digest : BitVec 512)
  /-- NONCE_WRITE, R368: A host write sets the nonce, which is ignored by a quote in progress. -/
  | nonceWrite (nonce : BitVec 512)
  /-- HOST_BAR2_ACCESS, R367: A host access through BAR2 is checked against the locked ranges. -/
  | hostBar2Access (write : Bool) (addr : Nat) (data : BitVec 64)
  /-- CAP_RAISE, R352: The move service raises a quad's CAP again once its hottest site reads at least 4·MARGIN quarter-degrees below THLIM.LIM. -/
  | capRaise (q : Quad)
  /-- FIRING_SELECTION, R270: When the pipeline is free, the core takes the highest-ranked ready trigger and starts a firing with fresh registers. -/
  | firingSelection
  /-- NOTICE_INJECTION, R281: The notice queue injects a notice on REQ toward the fault sink. -/
  | noticeInjection
  /-- JOB_START_MESSAGE, R370: The control kernel's SYS start message triggers the entry handler in job mode. -/
  | jobStartMessage
  /-- LAUNCH_RECEIPT, R260: The lead sequencer checks a handed-over launch, assigns its serial and enters it in its phase. -/
  | launchReceipt
  /-- PHASE_RECEIPT, R135: The sequencer opens a new phase for the job. -/
  | phaseReceipt
  /-- CANCEL_RECEIPT, R137: The sequencer takes a cancel, stops placement and ends the unit's firings, bindings and copies. -/
  | cancelReceipt
  /-- PLACEMENT, R265: The lead sequencer places the first candidate whose slot is free. -/
  | placement
  /-- PARK, R129: A wait that has lasted 1,024 cycles ends the region and moves the firing to the park store. -/
  | park
  /-- SLEEP_WAKE, R158: TIME reaches a SLEEP deadline, and SLEEP returns TIME. -/
  | sleepWake
  /-- REGION_STOP_RESUME, R279: After the back-off of 8 × min(COUNT, 64) cycles, the firing resumes at its checkpoint. -/
  | regionStopResume
  /-- FORCED_SAFE_POINT, R284: When no safe point is reached within 16 µs of a request, the core makes one at the next boundary. -/
  | forcedSafePoint
  /-- VECTOR_COMMAND_START, R298: The vector engine starts the next queued command once interlocks allow. -/
  | vectorCommandStart
  /-- VECTOR_COMMAND_COMPLETION, R300: A vector command completes, ORs its flags into FSTAT and releases its footprint. -/
  | vectorCommandCompletion
  /-- MATRIX_COMMAND_START, R302: The matrix engine starts a command and chooses a full or elided path from the summaries. -/
  | matrixCommandStart
  /-- MATRIX_COMMAND_COMPLETION, R301: A matrix command writes its last C row and ORs its flags into FSTAT. -/
  | matrixCommandCompletion
  /-- WALK_ACTIVATION, R303: A queued copy, bound fill or chain link takes a free walk slot. -/
  | walkActivation
  /-- PREEMPT_REQUEST, R275: The lead sequencer stops placing, saves residencies and writes the sequencer state. -/
  | preemptRequest
  /-- RESIDENCY_SAVE, R284: A core drains and writes its residency to the core context. -/
  | residencySave
  /-- JOB_RESUME, R275: The sequencer restores the running set to its slots, then continues placement. -/
  | jobResume
  /-- RESIDENCY_RESTORE, R288: A core loads a saved context and applies its completion log in order. -/
  | residencyRestore
  /-- MOVE_DRAIN_COMPLETE, R336: The move's drain ends and the residency streams to the target. -/
  | moveDrainComplete
  /-- MOVE_STREAM_COMPLETE, R336: The last flit lands, the map update goes out, the old site forwards and the target goes live. -/
  | moveStreamComplete
  /-- DUMP_LIMIT_EXPIRY, R360: With no debugger attached, the dump hold clears after LIMIT ms and releases the core. -/
  | dumpLimitExpiry
  /-- TRACE_RECORD, R361: The collector writes an arriving trace record into the ring. -/
  | traceRecord
  /-- DEVICE_RESET, R364: Reset starts the boot sequence on the secure root core. -/
  | deviceReset
  /-- QUOTE_REQUEST, R368: A host write to QREQ starts or refuses a quote. -/
  | quoteRequest
  /-- QUOTE_COMPLETE, R368: The signed quote is written and QST becomes 2. -/
  | quoteComplete
  /-- PARTITION_CREATION, R16: System software creates the partition: it loads the map copies, PEXT, CAPKEY, the device and memory-core tables and the context base, zeroes the buffers and directories, writes the data blocks and loads the memory-core set. -/
  | partitionCreation
  /-- TRACE_QUEUE_SEND, R361: The trace queue sends a queued record on SYS to the control cluster's collector when a buffer is free. -/
  | traceQueueSend
deriving DecidableEq, Repr

end Sys2Proof
end

