-- ==== Sys2Proof/Machine/State.lean ====
section
/-!
DEFINITION. Sys2Proof/Machine/State.lean: the state of the device as plain data: the core in focus, the other cores,
the device outside the cores, the packets in flight and the agenda. Field docstrings name the rule that gives the
field.
-/
namespace Sys2Proof.Machine

/-! ### Firings -/

/-- The register classes of a firing (R11, Table 1.2). -/
structure Regs where
  /-- s0 to s31; s0 always reads zero (R12). -/
  s : Vector Word 32
  /-- p0 to p7, bit k for pk; p0 always reads true (R12). -/
  p : BitVec 8
  /-- i0 to i3. -/
  i : Vector (BitVec 32) 4
  /-- h0 to h15, one 32-byte shape record each. -/
  h : Vector (BitVec 256) 16
  /-- e0 to e7 (R153). -/
  e : Vector Word 8
deriving DecidableEq, Repr

/-- The per-firing control registers that a region stop restores (Table 1.4, R151), MACT apart. -/
structure Ctl where
  /-- FSTAT bits 5..0 (Table 4.4). -/
  fstat : Flags
  /-- FCTL.RM (Table 4.3). -/
  rm : BitVec 3
  mnom : Word
  mlim : Word
  fhdr : Word
  /-- TCAUSE.ACT. -/
  act : Bool
  /-- TCAUSE.CAUSE (Table 7.7). -/
  cause : BitVec 8
  /-- TPC bits 14..0. -/
  tpc : BitVec 15
  /-- TNPC bits 14..0. -/
  tnpc : BitVec 15
  taddr : Word
deriving DecidableEq, Repr

/-- The live set of a checkpoint (R277): every register, or what two mask words name (Table 3.1). -/
inductive Live where
  | all
  | masks (first second : BitVec 32)
deriving DecidableEq, Repr

/-- The checkpoint bank (R277). -/
structure Checkpoint where
  regs : Regs
  live : Live
  ctl : Ctl
  pc : Nat
deriving DecidableEq, Repr

/-- A firing as an agent (R241, Table 12.1): who runs it, its serial modulo 2^16 and its region's generation. -/
structure Agent where
  id : CoreId
  ser : BitVec 16
  gen : BitVec 8
deriving DecidableEq, Repr

/-- Where a held store goes: a core's buffers, or, from a memory core, external memory of the device or of the host (R103,
R289). -/
inductive HeldSpace where
  | buffer | device | host
deriving DecidableEq, Repr

/-- One entry of the outbound queue of held stores (R107): up to 16 bytes of one sector. `key` is the buffer code
times 2^17 plus the offset, or a physical address. -/
structure Held where
  tgt : CoreId
  key : Nat
  data : List Byte
  pc : Nat
  /-- Address of the store that this is a part of. -/
  ea : Word
  space : HeldSpace
deriving DecidableEq, Repr

/-- The open region of a firing (R241, R278, R246). -/
structure Region where
  gen : BitVec 8
  /-- The read map of 96 bits (R278). -/
  rmap : BitVec 96
  /-- The touched-bank set (R246, R248), up to 64 banks. -/
  touched : List (CoreId × Nat)
  /-- The outbound queue of held stores, oldest first (R107). -/
  held : List Held
deriving DecidableEq, Repr

/-- What a reply carries back to the requester. -/
inductive Reply where
  /-- Bytes read, or an old value. -/
  | data (bytes : List Byte)
  /-- Result words of a CB operation, a claim or a flag-carrying atomic. -/
  | words (ws : List Word)
  /-- Performed or granted, with nothing to return. -/
  | ok
  /-- Region stop of the requester (R245): sector address, RSAGENT of the other agent, and the PC of the access that arrived
  second, which travelled with the request. -/
  | conflict (addr other : Word) (pc : Nat)
  /-- Refusal at the home with a stop cause (R126, R218). -/
  | refuse (cause : BitVec 8) (addr : Word)
  /-- The launch of the CB that is waited for is cancelled, and the waiting firing ends with it (R126): its handle's pointer. -/
  | cancelled (addr : Word)
deriving DecidableEq, Repr

/-- What follows the end of a region whose probes are out (R108). -/
inductive After where
  /-- The irrevocable instruction at the pc goes on in a region of its own (R57, R277). -/
  | irrev
  /-- A new region opens here with this live set. -/
  | boundary (live : Live)
  /-- The firing is parked (R129); a request of the waiting instruction that is out, and its reply if it has come. -/
  | park (tok : Option Nat) (r : Option Reply)
  /-- A new region opens here with this live set, and the halt of a BRK is due, as the CODE of its record (R157). -/
  | brk (live : Live) (code : Nat)
deriving DecidableEq, Repr

/-- What a firing waits for. -/
inductive Wait where
  | none
  /-- The instruction at the pc is tried again until its condition holds (R129). -/
  | poll
  /-- The reply with this token; the bytes of earlier parts of the access have come (R111, R170). -/
  | reply (tok : Nat) (got : List Byte)
  /-- The reply has come; the instruction at the pc takes it when it is next run. -/
  | replied (r : Reply) (got : List Byte)
  /-- A local plain access has done its parts up to these bytes, and goes on with the next (R111, R170, R250). -/
  | part (got : List Byte)
  /-- Probes of a region end, by their tokens (R108). -/
  | probes (toks : List Nat) (next : After)
  /-- The back-off after a region stop (R279). -/
  | backoff
deriving DecidableEq, Repr

/-- A graph descriptor as read (R134): its bytes, its launches as record index and argument, its edges. -/
structure GraphDesc where
  n : Nat
  launches : List (Nat × Word)
  edges : List (Nat × Nat)
deriving DecidableEq, Repr

/-- The state of one firing (R11 to R14, R277, R279). -/
structure Firing where
  /-- Firing serial of the logical core (R241). -/
  serial : Word
  /-- Supervisor mode (R17). -/
  smode : Bool
  /-- It fetches from the code of system software, not from the core's own I-store (R17, R146; log 89). -/
  inSys : Bool
  /-- Started from the REP mailbox (R119). -/
  fromRep : Bool
  /-- Actor binding that started it, if any (R140). -/
  actor : Option (BitVec 4)
  pc : Nat
  regs : Regs
  ctl : Ctl
  mact : Word
  rspc : Word
  rsaddr : Word
  rsagent : Word
  ckpt : Checkpoint
  region : Region
  /-- The region that opened at the boundary before the irrevocable instruction at the pc (R57). -/
  irrev : Bool
  wait : Wait
  /-- The graph descriptor that a GRAPH has read and checked, while it waits to be performed (R134). -/
  graph : Option GraphDesc
  /-- Launch handle whose fault sink takes the firing's notices (R25, R280). -/
  lhnd : Word
  /-- Cohort, by its linear index in that launch, in whose scope a memory core's firing acts (R133). -/
  lin : Nat
  /-- ROUTE and ENTRY of its trace records (Table 24.6). -/
  route : BitVec 16
  entry : Nat
deriving DecidableEq, Repr

/-- A parked or requeued firing (R9, R129, R279). -/
structure Parked where
  f : Firing
  /-- It waits for a window to be PRESENT or POISONED (R219), not for its instruction's condition. -/
  window : Option (BitVec 4)
  /-- A memory-core walk whose reply requeues it (R290). -/
  walk : Option Nat
  /-- Order in which the condition came to hold (Table 14.2, rank 1); none while it does not hold. -/
  ready : Option Nat
  /-- It is the record of a halt, a move or a save, and a trigger whatever its instruction waits for (R288, R336, R359). -/
  due : Bool
deriving DecidableEq, Repr

/-! ### Requests and packets -/

/-- Bank-ALU operations (R115). -/
inductive AOp where
  | add | and | or | xor | min | max | minn | maxn | swp | cas | faddF32 | faddBF16
deriving DecidableEq, Repr

/-- Circular-buffer operations at a home (R125). -/
inductive CbOp where
  | link
  | wait (k : Nat)
  | free (k : Nat)
  | get (k : Nat)
  | put (k : Nat)
  | push (ws : List Word)
  | pop (n : Nat)
  | query
deriving DecidableEq, Repr

/-- What an access asks of the bank that serves it. -/
inductive BankOp where
  /-- Plain read (LD, LDX, LDP, SHLD). -/
  | read (n : Nat)
  /-- Invariant read (R112). -/
  | readInv (n : Nat)
  /-- LDA (R113). -/
  | syncRead (n : Nat)
  /-- STL (R113). -/
  | syncWrite (bytes : List Byte)
  /-- Atomic (R115): operation, size in bytes, operand, expected value. -/
  | atomic (op : AOp) (n : Nat) (b expected : Word)
  /-- ACLAIM (R116). -/
  | claim (minc p : Nat)
  /-- WAITC (R144). -/
  | counter (target : Word)
deriving DecidableEq, Repr

/-- The virtual networks (R120, R303, R339, R370). -/
inductive Net where
  | req | rep | data | sys | reloc
deriving DecidableEq, Repr

/-- A latch row of the matrix engine: 64 exact elements, as mantissas and two scale bytes, and the source row. -/
structure ARow where
  mant : List Int
  e0 : BitVec 8
  e1 : BitVec 8
  src : Option Nat
deriving DecidableEq, Repr

/-- The class summary of a latch (R191). -/
structure Summary where
  spec : Bool
  /-- The common scale byte, when UNI holds. -/
  uni : Option (BitVec 8)
  zero : Bool
  const : Option Int
  /-- Common mantissa and the columns src′(i). -/
  ident : Option (Int × List Nat)
deriving DecidableEq, Repr

/-- The A latch, as held and as an MCMD packet carries it (R199). -/
structure ALatch where
  rows : List ARow
  sum : Summary
deriving DecidableEq, Repr

/-- Kinds of remote matrix command (R199). -/
inductive MOp where
  | mma | mmaz | mrec
deriving DecidableEq, Repr

/-- What an engine command writes, by visible keys: data cells of one directory format in order, scale bytes, panels that
receive a NaN block, IDENT entries by panel, flags, and whether the step was elided (R169, R180, R194, R234). Each sector is mapped
to its half as it is written (R239). -/
structure EngineWrites where
  fmt : Nat
  cells : List (Nat × Byte)
  scales : List (Nat × Byte)
  nan : List Nat
  ident : List (Nat × BitVec 32)
  flags : Flags
  elided : Bool
deriving DecidableEq, Repr

/-- How far a started engine command has come: each sector it reads or writes is an access of its own (R239, R250, R316). -/
structure Progress where
  /-- Source sectors read so far, by visible key over 32. -/
  seen : Table (List Byte)
  /-- Panels of which a sector has been read, by visible key over 512, with their stamp at that read (`Mems.stamp`, R191). -/
  firsts : List (Nat × Nat)
  /-- Directory entries taken after the last sector of a panel had been read (R191). -/
  entries : List (Nat × BitVec 32)
  /-- Windows published since it started to read, or since it started to write. -/
  pubs : List (BitVec 4)
  /-- What it writes, once every source is read, and the sectors of it that are still to be written. -/
  out : Option EngineWrites
  left : List Nat
deriving DecidableEq, Repr

def Progress.fresh : Progress := { seen := [], firsts := [], entries := [], pubs := [], out := none, left := [] }

/-- A remote matrix command (R199, R200), with the requester's placement identity (R201). -/
structure RCmd where
  src : CoreId
  op : MOp
  cap : BitVec 32
  tag : BitVec 6
  off : Nat
  at_ : Nat
  a : ALatch
  pc : Nat
  target : Word
  ctx : BitVec 32
  lhnd : Word
  started : Bool
  prog : Progress
  /-- The issuing firing and its region (R243). -/
  agent : Agent
  /-- Sites that its packet left (R326). -/
  path : List Site
deriving DecidableEq, Repr

/-- The trailer of a reply, acknowledgment or completion, as far as the outward path fixes it (R326, Table 19.3), the
delay accumulator it feeds (R328), and what MACT counts: the payload of Table 6.1, for the firing of this serial
(R327). -/
structure Trailer where
  links : Nat
  xing : Nat
  devs : Nat
  /-- Hops of the return path so far (HOPS, Table 19.3). -/
  back : Nat
  idx : Nat
  n : Option Nat
  ser : BitVec 16
deriving DecidableEq, Repr

/-- Where a copy writes (R212). -/
inductive CopyDst where
  /-- The shadow of a window (CBOX) or visible memory (CRED) at a mesh pointer. -/
  | mesh (ptr : Word)
  | ext (addr : Nat)
  /-- A CB entry of the issuing core. -/
  | cb (handle : BitVec 4)
  /-- The shadow of a window of the issuing core: a bound fill or chain link (R220, R223). -/
  | window (win : BitVec 4)
deriving DecidableEq, Repr

/-- Where the data of a flit goes at the core that receives it. -/
inductive FlitDst where
  /-- Key of the first byte, as the visible address of a window's shadow (R218). -/
  | shadow (key : Nat)
  /-- Visible memory, to be reduced into (R209). -/
  | reduce (key : Nat)
  /-- Slots of the CB with this handle from this stream origin (R212). -/
  | slots (handle : Nat) (slot : Nat)
deriving DecidableEq, Repr

/-- A box as one copy walks it (R204, R205): the record, the displacement of a chain link in elements, its position
along dimensions 0 and 1, and the bounds there, 0 for none (R223). -/
structure View where
  box : BitVec 512
  disp : Int
  p0 : Int
  p1 : Int
  bd0 : Nat
  bd1 : Nat
deriving DecidableEq, Repr

/-- What every packet of a copy carries: its walk, issuer, box and destination (R303, R305, R323). -/
structure CopyHdr where
  walk : Nat
  issuer : CoreId
  ctx : BitVec 32
  pc : Nat
  lhnd : Word
  view : View
  dst : FlitDst
  /-- Key of the counter raised at each destination (R214). -/
  perd : Option Nat
  /-- Lattice cores still to come (R306). -/
  path : List CoreId
  /-- The issuing firing and its region (R243). -/
  agent : Agent
deriving DecidableEq, Repr

/-- What a packet carries. -/
inductive Body where
  /-- A remote access to a bank (REMOTE_ACCESS_REQUEST, SYNC_ACCESS_ARRIVAL), with the count that an STL raised and the
  payload of Table 6.1, for an access that MACT counts. -/
  | access (tok : Nat) (agent : Agent) (pc key : Nat) (op : BankOp) (low : Option Nat) (n : Option Nat)
  /-- A CB operation at its home (CB_REQUEST), with the count that a put raised and the payload of Table 6.1, for an operation that
  MACT counts. -/
  | cb (tok : Nat) (agent : Agent) (handle : Nat) (op : CbOp) (low : Option Nat) (n : Option Nat)
  /-- A held store's probe (PROBE_ARRIVAL). -/
  | probe (tok : Nat) (agent : Agent) (pc key : Nat) (data : List Byte)
  /-- The commit of a region's staged stores at this home (COMMIT_ARRIVAL), with the bank of the first (R328). -/
  | commit (agent : Agent) (scope bank : Nat)
  /-- The commit of a memory core's region at external memory: physical address, whether it is the host's, and bytes (R108). -/
  | commitExt (agent : Agent) (writes : List (Nat × Bool × List Byte))
  /-- A region close at one bank; `discard` after a region stop (CLOSE_MESSAGE). -/
  | close (agent : Agent) (bank : Nat) (discard : Bool)
  /-- A split request to the agent of an open entry (SPLIT_REQUEST). -/
  | split (agent : Agent)
  /-- An active message (MESSAGE_ARRIVAL), the launch and cohort whose firing sent it, the context it is
  meant for, and whether it is a notice. -/
  | msg (hdr : Word) (args : List Word) (lhnd : Word) (lin : Nat) (ctx : Option (BitVec 32)) (note : Bool)
  /-- The reply to an access, and the count it lowers when it turns an STL or a put away (R325, R327). -/
  | reply (tok : Nat) (r : Reply) (low : Option Nat) (t : Trailer)
  /-- The acknowledgment of a commit, or of the STL, CB put or CBPUSH with this token: the count it lowers (R329). -/
  | ack (scope : Nat) (tok : Option Nat) (t : Trailer)
  /-- The acknowledgment of a region close (R246). -/
  | closeAck (t : Trailer)
  /-- A region stop delivered to a remote agent (R245). -/
  | regionStop (agent : Agent) (addr other : Word) (pc : Nat)
  /-- The destination mailbox has accepted a message that a firing of this launch sent (R263). -/
  | accepted (lhnd : Word)
  /-- One copy flit: consecutive bytes of the dense stream from byte `at_` on (R303). -/
  | flit (h : CopyHdr) (at_ : Nat) (bytes : List Byte)
  /-- A copy has failed or was cancelled; its destinations complete it with an error (R214, R216). -/
  | flitFail (h : CopyHdr) (code : Nat) (addr : Word)
  /-- A destination has completed a copy, with an error code and address if it failed (R305, R214). -/
  | copied (walk : Nat) (ctx : BitVec 32) (err : Option (Nat × Word)) (t : Trailer)
  /-- A pull of `len` stream bytes from byte `at_` on, which one page of the source holds, the cores the flits go to, and the
  cursor of the part (R312, Table 17.3). -/
  | pull (h : CopyHdr) (dst : CoreId) (at_ len : Nat) (cur : BitVec 1024)
  /-- A storer write or reduction of part of one sector (R308), and whether it is the last for its memory core (R325). -/
  | store (h : CopyHdr) (addr : Nat) (data : List Byte) (last : Bool)
  /-- An increment of the single counter at its home bank (R214). -/
  | bump (walk : Nat) (key : Nat) (ctx : BitVec 32) (pc : Nat) (agent : Agent)
  /-- A remote matrix command (R199): operation, capability, tag, C offset, A latch and type. -/
  | mcmd (r : RCmd)
  /-- Completion of a remote matrix command (R201): the command, its flags, and whether it was rejected. -/
  | mcmdDone (r : RCmd) (flags : Flags) (err : Bool) (t : Trailer)
  /-- Registration of a watch on a CB (R272), under its number and for a residency, and its end. -/
  | watch (handle : Nat) (link : Nat) (num : Nat) (ctx : BitVec 32) (on : Bool)
  /-- A coalesced update of F (R272), for the watch with this number of a residency. -/
  | watchUpd (link f s : Nat) (num : Nat) (ctx : BitVec 32)
  /-- A page fault to a pager core (R290): address, access kind, token, context. -/
  | pageFault (va : Nat) (write : Bool) (tok : Nat) (ctx : BitVec 32)
  /-- The SYS start message of the job (R370). -/
  | jobStart (args : List Word)
  /-- A halt request (R158) and a halt-group message (R358). -/
  | halt
  | haltGroup (grp : Nat)
  /-- A move request (R335), and what tells the move service that it was discarded. -/
  | moveReq (site : Site) (why : BitVec 2)
  | moveRefused (site : Site)
  /-- A map update (R337): move number, logical core, new site, the exception entry it sets, if any, and the routers that it
  visits next (R323). -/
  | mapUpd (num : Nat) (core : CoreId) (site : Site) (k : Option Nat) (path : List CoreId)
  /-- A marker of a map update (R337, R338). -/
  | marker (at_ : CoreId)
  /-- A trace record of 32 bytes, for this ring (R361). -/
  | trace (rec : BitVec 256) (ring : Word)
deriving DecidableEq, Repr

/-- A packet in flight. Packets of one source, network and destination keep their order (R322). -/
structure Packet where
  src : CoreId
  dst : CoreId
  net : Net
  /-- Physical site of the destination, as the sender's router translated it (R320, Table 19.1 DPX and DPY). -/
  site : Site
  /-- It travels over RELOC from the old site of a move (R338, R339). -/
  fwd : Bool
  body : Body
  /-- Sites that it has left: the sender's, then those of forwarding entries (R326, R338). -/
  path : List Site
deriving DecidableEq, Repr

/-! ### Tables and queues of a core -/

/-- One Scrim entry of a bank (Table 12.1). Banks 0 to 11 are A, 12 to 15 are C. -/
structure Scrim where
  bank : Nat
  agent : Agent
  /-- ST: false open, true closing; a free entry is not listed. -/
  closing : Bool
  /-- A commit entry, used by a probe that found no open entry (R244). -/
  commitOnly : Bool
  /-- Banks that the accesses named; a window's hidden half makes them differ from `bank` (R238, R246). -/
  via : List Nat
  rd : BitVec 256
  wr : BitVec 256
deriving DecidableEq, Repr

/-- A staged remote store (R108), at its physical key (Table 12.2, publish). -/
structure Staged where
  agent : Agent
  key : Nat
  data : List Byte
  /-- Bank that the probe named (R246). -/
  via : Nat
deriving DecidableEq, Repr

/-- A plain access that a bank holds until an open entry is free (R248). -/
structure Slotted where
  src : CoreId
  bank : Nat
  body : Body
  /-- Sites that the packet left (R326). -/
  path : List Site
  /-- HALF of each window as the access entered the buffers (R239). -/
  halves : BitVec 16
deriving DecidableEq, Repr

/-- A request that waits at this home for its condition (R125, R144): a CB operation, or a counter at a key with its
target. -/
inductive HomeOp where
  | cb (handle : Nat) (op : CbOp)
  | counter (key : Nat) (target : Word) (pc : Nat)
deriving DecidableEq, Repr

structure HomeWait where
  src : CoreId
  tok : Nat
  agent : Agent
  op : HomeOp
  low : Option Nat
  n : Option Nat
  /-- Sites that the packet left (R326). -/
  path : List Site
  /-- HALF of each window as the request entered the buffers (R239). -/
  halves : BitVec 16
deriving DecidableEq, Repr

/-- A watch as its home keeps it (R272): the core, its link, the watch's number and the residency. -/
structure Watch where
  core : CoreId
  link : Nat
  num : Nat
  ctx : BitVec 32
deriving DecidableEq, Repr

/-- A CB table entry (R122 to R125, R272). A home keeps the launch and cohort it was placed under at its CBDEF (R133). -/
inductive CbEntry where
  | empty
  | home (rec : BitVec 128) (h t f : Nat) (watchers : List Watch) (lhnd : Word) (lin : Nat)
  | link (home : CoreId) (handle : Nat) (rec : BitVec 128)
deriving DecidableEq, Repr

/-- An actor binding (R139 to R142). -/
inductive Binding where
  | empty
  /-- Actor record, mode, next firing serial, a firing queued or running, latest F and S of its links. -/
  | actor (rec : BitVec 256) (smode : Bool) (serial : Word) (live : Bool) (seen : List (Nat × Nat × Nat))
  /-- Nest record, mode, counter pointer, unstarted iterations (next and count), the token of a claim in flight. -/
  | nest (rec : BitVec 192) (smode : Bool) (ptr : Word) (next count : Nat) (claim : Option Nat)
deriving DecidableEq, Repr

/-- Window states (Table 10.4). -/
inductive WState where
  | absent | filling | present | poisoned
deriving DecidableEq, Repr

/-- A bound box: record, tag and the PC that armed it (R220, R245). -/
structure Bound where
  box : BitVec 512
  tag : BitVec 6
  pc : Nat
  lhnd : Word
deriving DecidableEq, Repr

/-- A window table entry (R217 to R225). -/
structure Window where
  defined : Bool
  buf : Nat
  off : Nat
  /-- Bytes of the visible range. -/
  size : Nat
  half : Bool
  st : WState
  pend : Nat
  bound : Option Bound
  /-- A bound fill or link is in flight; its publish may be suppressed by WABS (R222). -/
  fill : Bool
  /-- The fill that WBIND or WABS armed last has started (R223). -/
  started : Bool
  noPublish : Bool
  /-- First window of the chain that holds it. -/
  chain : Option (BitVec 4)
  /-- Next link it will hold. -/
  nextLink : Nat
deriving DecidableEq, Repr

/-- A chain (R223, R224, R310). -/
structure Chain where
  first : BitVec 4
  n : Nat
  desc : BitVec 128
  issued : Nat
  released : Nat
  dmin : Nat
  dmax : Nat
  lat : Option Nat
  rel : Option Nat
  lastAbs : Option Nat
deriving DecidableEq, Repr

/-- A walk of the Stencil engine, queued or active: the cursor of Table 17.3 with what it needs at issue. -/
structure Walk where
  /-- Number by which flits and completions name it. -/
  num : Nat
  active : Bool
  /-- Its walk slot, while it is active (R303). -/
  slot : Nat
  view : View
  dst : CopyDst
  /-- The counter pointer, and whether every destination has its own (R214). -/
  ctr : Option Word
  perd : Bool
  tag : BitVec 6
  /-- Bytes of the dense stream already sent. -/
  sent : Nat
  /-- Source sectors already read, by visible key over 32 (R215). -/
  secs : Table (List Byte)
  /-- Destinations whose completion has not come, and completions received. -/
  pending : List CoreId
  done : Nat
  /-- Code and failing address of an error (Table 15.5). -/
  err : Option (Nat × Word)
  /-- Its destinations have been told of the error. -/
  failing : Bool
  /-- The increment of the single counter is on its way. -/
  bumping : Bool
  pc : Nat
  lhnd : Word
  /-- Bound fill or chain link: its window and link number (R223). -/
  win : Option (BitVec 4)
  link : Nat
  /-- Issued at this count of the core's clock (R310). -/
  at_ : Nat
  ctx : BitVec 32
  /-- The issuing firing and its region (R243). -/
  agent : Agent
  /-- A destination CB: the token of the request for free slots, and the slot it granted (R212, R163). -/
  cbTok : Option Nat
  cbSlot : Option Nat
  noNotice : Bool
  /-- Cohort of the issuing firing, in the launch `lhnd` (R133). -/
  lin : Nat
  /-- Place in the core's order of issue over its engines (R163, R299). -/
  ord : Nat
deriving DecidableEq, Repr

/-- A copy landing at this core (R219, R234, R305): bytes landed in all and by panel, bytes of the flit at the head of the flow of each
source that are already written (R250), panels with a NaN block, whether the window refused it, and the sites that its last packet
left (R326). -/
structure Landing where
  issuer : CoreId
  walk : Nat
  win : Option (BitVec 4)
  got : Nat
  parts : List (CoreId × Nat)
  panels : Table Nat
  nan : List Nat
  dead : Bool
  path : List Site
deriving DecidableEq, Repr

/-- A vector command in its queue (R164 to R168): the form, its records as read at issue, RM and the scalar
operand of VFILL and VIDENT. -/
structure VCmd where
  form : Instr
  a : BitVec 256
  b : BitVec 256
  d : BitVec 256
  sval : Word
  rm : BitVec 3
  serial : Word
  gen : BitVec 8
  pc : Nat
  lhnd : Word
  started : Bool
  prog : Progress
  /-- Place in the core's order of issue over both engines (R299). -/
  ord : Nat
deriving DecidableEq, Repr

/-- A local matrix command in its queue (R186). -/
structure MCmd where
  form : Instr
  a : BitVec 256
  b : BitVec 256
  sval : Word
  sval2 : Word
  cstr : Nat
  rows : Nat
  at_ : Nat
  serial : Word
  gen : BitVec 8
  pc : Nat
  lhnd : Word
  started : Bool
  prog : Progress
  ord : Nat
deriving DecidableEq, Repr

/-- A grant (R154). -/
structure Grant where
  ser : BitVec 16
  rights : BitVec 8
  off : Nat
  len : Nat
deriving DecidableEq, Repr

/-- The B latch: 64 rows of 64 mantissas, 128 scale bytes, and its summary (R183, R189). -/
structure BLatch where
  rows : List (List Int)
  scales : List (BitVec 8)
  sum : Summary
deriving DecidableEq, Repr

/-- A message in a mailbox (R120, R270). -/
structure Mail where
  hdr : Word
  args : List Word
  lhnd : Word
  at_ : Nat
  promoted : Option Nat
  /-- It is a notice (R280). -/
  note : Bool
  /-- Cohort of the firing that sent it, in the launch `lhnd` (R133). -/
  lin : Nat
  /-- It came on SYS for a handler of system software (R17, R146). -/
  sup : Bool
  /-- Its place in the order in which messages came to rest on the device, which tells apart two of one TIME (R270). -/
  num : Nat
deriving DecidableEq, Repr

/-- A message in a send queue, with the firing that holds it under SQCTL.HOLD (R119, R346). -/
structure SendEntry where
  dst : CoreId
  hdr : Word
  args : List Word
  lhnd : Word
  by_ : Option Word
  /-- Cohort of the firing that sent it, in the launch `lhnd` (R133). -/
  lin : Nat
  /-- Serial of the firing that sent it (R251). -/
  ser : BitVec 16
  /-- Entries of the other send queue that leave before it: up to the last that its firing sent earlier (R251). -/
  ahead : Nat
deriving DecidableEq, Repr

/-- A sector of the invariant cache (R112). -/
structure InvLine where
  id : CoreId
  key : Nat
  data : List Byte
deriving DecidableEq, Repr

/-- A TLB entry (R292): address-space tag, level of the leaf, page number, leaf entry. -/
structure TlbEntry where
  asid : BitVec 8
  level : Nat
  vpn : Nat
  pte : Word
deriving DecidableEq, Repr

/-- A walk waiting for its pager's answer (R290): token, address, kind, and the firing or pull it belongs to. -/
structure PageWait where
  tok : Nat
  va : Nat
  write : Bool
  /-- Issuer and walk of the copy whose part waits; none for a firing's access. -/
  own : Option (CoreId × Nat)
  /-- The pager's result, once it has come. -/
  res : Option Nat
deriving DecidableEq, Repr

/-- A cohort as placed on a core (R8, R132, Table 7.8 COHORT and LHND). -/
structure Cohort where
  serial : Nat
  lhnd : Word
  lin : Nat
  gx : Nat
  gy : Nat
  gz : Nat
  ox : Nat
  oy : Nat
  /-- The launch record (Table 7.3). -/
  rcd : BitVec 512
  /-- CTXID of this residency (R285). -/
  ctx : BitVec 32
deriving DecidableEq, Repr

/-- Buffers, I-store and directory of a core (R26, R46, R233). -/
structure Mems where
  /-- A, W and C by key: buffer code times 2^17 plus physical offset. -/
  data : Memory
  /-- I-store bytes. -/
  istore : Memory
  /-- Parcel indexes whose start bit is clear, as a table; absent is set (R46). -/
  noStart : Table Bool
  /-- Primer directory: A panels 0 to 191, W panels 192 to 447. -/
  dir : Table (BitVec 32)
  /-- The model's own count of the writes that each panel has taken, by which a command that reads tells a write between two of its
  sector reads (R191). -/
  stamp : Table Nat
deriving DecidableEq, Repr

/-- Tables of the residency (Table 1.5). -/
structure Tables where
  /-- The handler table loaded with the set: entry numbers 0 to 255 index, 256 up stop causes (R146). -/
  handlers : Table (BitVec 128)
  cb : Vector CbEntry 16
  win : Vector Window 16
  bind : Vector Binding 16
  chains : List Chain
  grants : List Grant
  capser : BitVec 16
  tags : Word
  tagerr : Word
  sqctl : Word
  /-- Binding index after which the next ready actor is looked for (Table 14.2). -/
  lastActor : Nat
  /-- Number of the watch on each link that has one (R272). -/
  watch : Table Nat
  /-- Launch and cohort of the firing that bound each actor or nest of a memory core (R133). -/
  binders : Table (Word × Nat)
deriving DecidableEq, Repr

/-- Queues of the residency (R119, R120, R270, R281, R361). -/
structure Queues where
  req : List Mail
  rep : List Mail
  /-- System messages waiting for the supervisor handlers (R17). -/
  sys : List Mail
  sendReq : List SendEntry
  sendRep : List SendEntry
  notices : List (CoreId × Word × List Word)
  lost : Nat
  parked : List Parked
  /-- Requests of other cores that wait here. -/
  waits : List HomeWait
  /-- Pass counts of the six trigger kinds (R270). -/
  pass : Vector Nat 6
  sent : Nat
  accepted : Nat
  /-- Messages sent and not yet accepted (R263). -/
  outbound : Nat
  /-- The REQ send queue has the next turn to inject, where a notice waits as well (R281). -/
  turn : Bool
deriving DecidableEq, Repr

/-- Engine state of the residency (R28, R183, R303). -/
structure Engines where
  vq : List VCmd
  mq : List MCmd
  rq : List RCmd
  /-- The remote queue is served next, when both queues hold a command (R200). -/
  remoteTurn : Bool
  /-- Order of issue of the next vector or matrix command (R299). -/
  nextOrd : Nat
  /-- MCMDs of this core that have read the latch and whose completion has not come. -/
  outstanding : Nat
  walks : List Walk
  landings : List Landing
  nextWalk : Nat
  /-- Slot of the walk that sent the last flit (R303). -/
  lastSlot : Nat
  aLatch : ALatch
  bLatch : Option BLatch
  mxcfg : Word
  mupr : Word
  rflags : Flags
  elc : BitVec 16
  am : Nat
  at_ : Nat
  bt : Nat
  cstr : Nat
deriving DecidableEq, Repr

/-- What a packet that leaves in the order of regions raises: the store count of a scope, the count of closes, or, for a
probe, neither (R108, R246). -/
inductive AckClass where
  | store (scope : Nat)
  | close
  | probe
deriving DecidableEq, Repr

/-- Acknowledgments a core waits for (R108, R246, R247). -/
structure Acks where
  cohort : Nat
  launch : Nat
  job : Nat
  system : Nat
  closes : Nat
  /-- Commits, closes and probes that wait, oldest first: for a count to fall below 63 (R329), or behind one that does. -/
  waiting : List (CoreId × AckClass × Body)
deriving DecidableEq, Repr

/-- What an access, commit or close to another device leaves with the core's reply unit, which its answer will need (R325 to
R328): the token if it has one, the bank, and what MACT counts. -/
structure AnswerPlace where
  dst : CoreId
  tok : Option Nat
  /-- None where only the home knows which slot a CB operation accesses. -/
  bank : Option Nat
  n : Option Nat
  ser : BitVec 16
deriving DecidableEq, Repr

/-- A sector of the invariant cache on its way (R230): its request, its home and its key. -/
structure InvFetch where
  tok : Nat
  id : CoreId
  key : Nat
deriving DecidableEq, Repr

/-- State that stays with the physical core (Table 1.5 "Core", Tables 24.1 to 24.4, 23.2, 20.4). -/
structure Phys where
  dacc : Vector Word 32
  inv : List InvLine
  /-- Sectors being fetched into the cache (R230). -/
  fetches : List InvFetch
  /-- DBGCTL.BRKEN. -/
  brken : Bool
  trcctl : Word
  trcring : Word
  hgrp : Word
  dump : Word
  opreq : Word
  temp : Word
  traceQ : List (BitVec 256)
  traceDrop : Nat
  ptroot : Word
  tlb : List TlbEntry
  halted : Bool
  /-- A halt that takes effect at the next boundary, as the CODE of its record (R358, Table 24.5). -/
  haltPending : Option Nat
  /-- Serial of the firing that halted its own core, which halts after that firing's FIN (R158). -/
  haltBy : Option Word
  /-- Serial of the firing that its halt keeps as a record (R358, R359). -/
  haltRec : Option Word
  /-- TIME when it halted, and when a dump began to hold it (R360). -/
  haltAt : Nat
  holdAt : Nat
deriving DecidableEq, Repr

/-- Progress of a residency move at its source or target (R335 to R340). -/
inductive Moving where
  | no
  | requested (site : Site) (why : BitVec 2)
  | draining (site : Site) (why : BitVec 2)
  | streaming (site : Site) (why : BitVec 2)
deriving DecidableEq, Repr

/-- A valid exception entry of a partition map (Table 20.1). -/
structure Exc where
  k : Nat
  x : BitVec 8
  y : BitVec 8
  site : Site
deriving DecidableEq, Repr

/-- One core: a logical core of the partition, a memory core or a pager core. -/
structure Core where
  id : CoreId
  site : Site
  /-- The firing on the pipeline; meaningful as such only while `busy`. -/
  f : Firing
  busy : Bool
  /-- Firings started on the logical core so far (R241). -/
  serials : Word
  cohort : Option Cohort
  mem : Mems
  /-- Code and start bits of system software, which firings in S fetch from (R17, R146; log 89). -/
  sysMem : Mems
  tab : Tables
  q : Queues
  eng : Engines
  ack : Acks
  scrim : List Scrim
  staged : List Staged
  /-- Plain accesses held at their banks, oldest first, at most two a bank (R248). -/
  slots : List Slotted
  phys : Phys
  /-- The exception entries of its router's copy of the partition map (R332, R337). -/
  exc : List Exc
  moving : Moving
  /-- Save requested (R284). -/
  saveAsked : Bool
  /-- The largest TIME this residency has read (R356). -/
  lastTime : Word
  pageWaits : List PageWait
  /-- CTXID of a memory core's residency (R284, R285). -/
  memCtx : BitVec 32
  /-- The next local access, landing, commit or engine command here is interrupted after one sector (R250): the agenda's own
choice of schedule (log 1). -/
  tear : Bool
  /-- Core cycles counted so far, in hundredths, at the frequencies its quad has run at (R4, R310). -/
  clock : Nat
  /-- Places for the answers of other devices, oldest first (R325). -/
  places : List AnswerPlace
  /-- Pulls and storer requests that a memory core has taken and that wait for a pager's answer, oldest first (R290, R330). -/
  taken : List Packet
  /-- Move requests that R341 lets take no effect yet, oldest first (R330, R335). -/
  moveHeld : List (Site × BitVec 2)
  /-- Sectors of the buffers with an uncorrectable error, by physical key over 32, and a machine check that one has caused (R282,
  R283). -/
  badSecs : List Nat
  checkDue : Bool
deriving DecidableEq, Repr

/-! ### The job image (R42, Table 2.1) -/

structure DataBlock where
  buf : Nat
  off : Nat
  /-- The named core; none for every core. -/
  at_ : Option (BitVec 8 × BitVec 8)
  bytes : List Byte
deriving DecidableEq, Repr

structure HSet where
  memory : Bool
  code : List Parcel
  handlers : Table (BitVec 128)
deriving DecidableEq, Repr

structure Image where
  width : Nat
  height : Nat
  entry : Nat
  startX : BitVec 8
  startY : BitVec 8
  startH : BitVec 8
  shapes : List (BitVec 256)
  boxes : List (BitVec 512)
  windows : List (BitVec 64)
  cbs : List (BitVec 128)
  actors : List (BitVec 256)
  nests : List (BitVec 192)
  launches : List (BitVec 512)
  sets : List HSet
  blocks : List DataBlock
deriving DecidableEq, Repr

/-! ### The sequencer (R259 to R275) -/

/-- Status of an order index inside a launch's window (R262). -/
structure Admitted where
  idx : Nat
  count : Nat
  readyAt : Nat
  promoted : Option Nat
  placed : Bool
  /-- Last collection round that found it idle, with its totals (R263). -/
  idleTotals : Option (Nat × Nat)
deriving DecidableEq, Repr

structure LaunchSt where
  serial : Nat
  rcd : BitVec 512
  arg : Word
  phase : Nat
  graph : Option Nat
  srcX : BitVec 8
  srcY : BitVec 8
  /-- B of R262. -/
  base : Nat
  /-- Next order index to take in. -/
  admitNext : Nat
  live : List Admitted
  /-- Retired order indexes at or above B. -/
  retired : List Nat
  /-- Of a gang: the current wave, and whether it has been placed as a whole (R268). -/
  waveNo : Nat
  wave : Bool
  cancelled : Bool
  ended : Bool
  status : Nat
deriving DecidableEq, Repr

structure GraphSt where
  serial : Nat
  phase : Nat
  launches : List Nat
  /-- Edges as pairs of launch serials. -/
  edges : List (Nat × Nat)
  cancelled : Bool
deriving DecidableEq, Repr

/-- Work handed to the lead sequencer and not yet taken (R132, R134, R135, R137). -/
inductive Handed where
  | launch (serial : Nat) (rec : BitVec 512) (arg : Word) (srcX srcY : BitVec 8) (graph : Option Nat)
  | phase (num : Nat)
  | cancel (handle : Word) (src : CoreId)
deriving DecidableEq, Repr

structure Seq where
  inbox : List Handed
  nextLaunch : Nat
  nextGraph : Nat
  phase : Nat
  launches : List LaunchSt
  graphs : List GraphSt
  phaseCancelled : List Nat
  jobCancelled : Bool
  jobEnded : Bool
  /-- The job was started and its entry launch's first cohort takes the SYS start message (R132, R370). -/
  started : Bool
  /-- A pre-emption in progress, and the running set saved (R275). -/
  preempting : Bool
  out : Bool
  /-- TIME when the last residency was saved. -/
  outAt : Nat
  /-- Gang reservations: launch serial and slots reserved (R268). -/
  reserved : Option (Nat × List Nat)
  /-- Retirement reports on their way: launch serial, order index. -/
  reports : List (Nat × Nat)
deriving DecidableEq, Repr

/-- A launch as step 4 of R275 writes it: its base B, its admission cursor, and the counts of its admitted entries by order index. -/
structure SavedLaunch where
  serial : Nat
  base : Nat
  admitNext : Nat
  counts : List (Nat × Nat)
  ended : Bool
deriving DecidableEq, Repr

/-- What the lead sequencer writes to the job's context area once the last residency is saved (R275, step 4): the launches, the running
set as launch, linear index and slot, the candidate list as rank, readiness time, launch and linear index, the gang reservations, and
the phase. Its layout is open (log 81). -/
structure SeqSave where
  launches : List SavedLaunch
  running : List (Nat × Nat × Nat)
  cands : List (Nat × Nat × Nat × Nat)
  reserved : Option (Nat × List Nat)
  phase : Nat
deriving DecidableEq, Repr

/-! ### The device outside the cores -/

/-- An entry of the job's device table (R20, R95). -/
structure DevEntry where
  num : Nat
  width : Nat
  height : Nat
  hops : Nat
  /-- The system's number of the device, and the device links on the way (R324). -/
  ddev : BitVec 7
  route : List Nat
deriving DecidableEq, Repr

/-- A save area of one core context (R284 to R288). -/
structure Context where
  ctx : BitVec 32
  core : Option Core
  /-- The completion log, oldest first (R287). -/
  log : List (CoreId × Net × Body)
  /-- It is to be restored before anything is placed on its core. -/
  due : Bool
  /-- It is to be restored before the job's next placement (R275). -/
  first : Bool
deriving DecidableEq, Repr

/-- The partition (R16, R24, R267, R332). -/
structure Partition where
  made : Bool
  pext : Word
  capkey : BitVec 128
  devices : List DevEntry
  /-- Entry k of the memory-core table, where it differs from the default (R24). -/
  memCores : Table (Option CoreId)
  /-- CMAP, by index 512·dc + 32·band + c, where it differs from the reset value c (R333). -/
  cmap : Table (Option Nat)
  /-- The exception entries of the map image (Table 20.1). -/
  exc : List Exc
  ctxBase : Nat
  rsvy : Nat
  /-- PTROOT of the memory cores given to the job (R25, Table 15.8). -/
  ptroot : Word
  /-- Memory cores that are not given to the job (R333). -/
  withheld : List CoreId
  /-- Job tag, bits 31..24 of its CTXIDs (R285). -/
  jobTag : BitVec 8
deriving DecidableEq, Repr

/-- State of a quad (R351 to R355): operating point, requested point, cap, ramp, divider, gate. -/
inductive Gate where
  | on | gating | off | waking
deriving DecidableEq, Repr

structure QuadSt where
  q : Quad
  point : Nat
  target : Nat
  ramping : Bool
  cap : Nat
  halved : Bool
  gate : Gate
  /-- Nanoseconds by which the quad's copy of TIME runs ahead of the device's (R356). -/
  skew : Nat
  /-- TIME when the gate command was taken, or when waking began (R355). -/
  since : Nat
  /-- TIME when the droop detector last fired (R353). -/
  droopAt : Nat
deriving DecidableEq, Repr

/-- Per-die control state (Tables 20.3, 20.5, 23.3). -/
structure DieSt where
  floatctl : Word
  thlim : Word
  pwrq : Word
  /-- The last-level TLB that the die's memory cores share (R292). -/
  tlb : List TlbEntry
  /-- TIME of the last Float period (R342). -/
  floatLast : Nat
deriving DecidableEq, Repr

/-- Boot, root of trust and the host's side of the endpoint (R364 to R369). -/
structure Boot where
  bootstat : Word
  meas : Vector (BitVec 512) 4
  halted : Bool
  /-- The kernel image is read from the drive on root port 1, port 0 having failed (Table 25.1, step 3). -/
  port1 : Bool
  /-- Public key that verifies the next image. -/
  key : List Byte
  locked : List (Nat × Nat)
  nonce : BitVec 512
  /-- The nonce that the quote in progress took. -/
  quoteNonce : BitVec 512
  quote : List Byte
  /-- Device address that BAR2 starts at, and the data of the host's last read through it (R367). -/
  bar2 : Nat
  hostData : Word
  /-- The supervisor handler image has been accepted, and step 5 is next (Table 25.1). -/
  handlersIn : Bool
  /-- Bytes 0x100 to 0xFFF of BAR0, the rings of the control kernel (Table 25.2). -/
  ring : Memory
deriving DecidableEq, Repr

/-- A forwarding entry at the old site of a move (R338, R339): markers that have still to pass the old site, and those
that have still to reach the new one. -/
structure Forward where
  core : CoreId
  old : Site
  /-- Its move's number (R337). -/
  num : Nat
  /-- Routers that have not applied the map update yet (R337). -/
  updates : List CoreId
  left : List (CoreId × Net)
  held : List (CoreId × Net)
deriving DecidableEq, Repr

/-- Everything outside the cores. -/
structure Device where
  time : Nat
  part : Partition
  image : Image
  seq : Seq
  ctxs : List Context
  quads : List QuadSt
  dies : Vector DieSt 8
  boot : Boot
  /-- External device memory and host memory behind the endpoint, by physical address. -/
  ext : Memory
  host : Memory
  /-- Physical cores that hold no residency: their core state (Table 1.5), where it differs from reset. -/
  idle : List (Site × Phys)
  /-- The same of the memory and pager cores that the job does not hold: each has its port at a router of its own (R23). -/
  border : List (CoreId × Phys)
  /-- Idle sites of gated quads whose routers hold a halt request (R158, R355). -/
  portHeld : List Site
  /-- Sites quarantined (R344), and rows of the cool pool are given by the site itself. -/
  bad : List Site
  /-- Bytes written so far into each trace ring, by the frame it starts at (R361). -/
  ringAt : Table Nat
  /-- Supervisor handler table of system software (R146). -/
  sysTable : Table (BitVec 128)
  /-- Its code, as every core holds it (R17; log 89). -/
  sysCode : Mems
  /-- Next token for requests. -/
  nextTok : Nat
  forwards : List Forward
  /-- Moves made so far (R337), and context slots given out in the job (R285). -/
  moves : Nat
  nextCtx : Nat
  /-- What the host learns through the completion ring: a job's end with its status (R371, R343). -/
  hostNews : List Word
  /-- Where the submitted job image lies in device memory, as first byte and byte count, and whether its start still has to be measured
  (R366, R370). -/
  imageAt : Nat × Nat
  measDue : Bool
  /-- The sequencer's part of the job's context area (R275, step 4). -/
  seqSaved : Option SeqSave
  /-- Sectors of external memory, the host's or the device's, with an uncorrectable error, by address over 32 (R214, Table 15.5). -/
  badExt : List (Bool × Nat)
  /-- What the debug service read last: eight bytes, and the firing record they lie in (R360). -/
  debugData : Word
  debugRec : Option Firing
  /-- Messages that have come to rest in a mailbox or a system queue so far (R270). -/
  arrivals : Nat
  /-- The model's own counter of free values taken from `Config.freeWord` so far (log 17). -/
  freeIdx : Nat
deriving DecidableEq, Repr

/-! ### The whole state -/

/-- One item of the agenda: which agent moves next (log 1). -/
inductive Act where
  /-- The firing of a core runs its next instruction. -/
  | run (c : CoreId)
  /-- An event happens at a core, written as the event's row. -/
  | event (c : CoreId) (e : Instr)
  /-- A packet arrives from outside the device. -/
  | inject (p : Packet)
  /-- The next access of more than one sector at this core is taken sector by sector (R250). -/
  | tear (c : CoreId)
  /-- The reference clock ticks: TIME advances by 10 ns (R356). -/
  | tick
  /-- Reference edges reach a quad early: its copy of TIME comes to run this many nanoseconds ahead, at most 20 (R356). -/
  | drift (q : Quad) (ahead : Nat)
  /-- A site's temperature is measured (Table 20.4). -/
  | measure (site : Site) (t : BitVec 10)
  /-- The control kernel maps BAR2 at this device address (R367). -/
  | bar2 (base : Nat)
  /-- The control kernel takes a job image, which lies in device memory at `at_`, with the partition it will run in: map image, keys,
  tables (R370). -/
  | submit (img : Image) (part : Partition) (at_ len : Nat)
  /-- The debug service writes HGRP.RESUME of a core (R359), or of an idle physical core. -/
  | resume (c : CoreId)
  | resumeSite (site : Site)
  /-- The debug service reads the eight bytes at this offset of a held core, as Table 15.6 lays it out (R360). -/
  | dump (c : CoreId) (at_ : Nat)
  /-- System software supplies the handler table of the supervisor view, and its code (R17, R146). -/
  | system (table : Table (BitVec 128)) (code : List Parcel)
  /-- The root monitor takes a step of Table 25.1 that reads no image: step 2, or step 5. -/
  | monitor
  /-- The host reads or writes eight bytes of BAR0 (R367, Table 25.2). -/
  | bar0 (write : Bool) (off : Nat) (data : Word)
  /-- An uncorrectable error comes about in a sector of a core's buffers, or of external memory (R214, R282). -/
  | corrupt (c : CoreId) (key : Nat)
  | corruptExt (host : Bool) (addr : Nat)
deriving DecidableEq, Repr

structure State where
  core : Core
  others : List Core
  dev : Device
  net : List Packet
  agenda : List Act
deriving DecidableEq, Repr

/-- Faults. The device has no state in which it stops for good by the spec: every stop of the spec is an exception
whose entry it describes, and is a next state. -/
inductive Fault where
  /-- The spec gives the machine no step here: a boot that halted (R364). Raised by no meaning; kept closed. Safe. -/
  | bootHalted
deriving DecidableEq, Repr

/-- Refusals. -/
inductive Refusal where
  /-- The instruction has no meaning in the model yet; raised by an arm of `exec` alone. Safe. -/
  | notModelled (mnemonic : String)
deriving DecidableEq, Repr

/-! ### Reset -/

def Regs.reset : Regs :=
  { s := Vector.replicate 32 0#64, p := 1#8, i := Vector.replicate 4 0#32, h := Vector.replicate 16 0#256,
    e := Vector.replicate 8 0#64 }

def Ctl.reset : Ctl :=
  { fstat := 0#6, rm := 0#3, mnom := 0#64, mlim := 0#64, fhdr := 0#64, act := false, cause := 0#8, tpc := 0#15,
    tnpc := 0#15, taddr := 0#64 }

def Region.fresh (gen : BitVec 8) : Region := { gen := gen, rmap := 0#96, touched := [], held := [] }

def Firing.reset : Firing :=
  { serial := 0#64, smode := false, inSys := false, fromRep := false, actor := none, pc := 0, regs := Regs.reset, ctl := Ctl.reset,
    mact := 0#64, rspc := 0#64, rsaddr := 0#64, rsagent := 0#64,
    ckpt := { regs := Regs.reset, live := .all, ctl := Ctl.reset, pc := 0 }, region := Region.fresh 0#8,
    irrev := false, wait := .none, graph := none, lhnd := 0#64, lin := 0, route := 0#16, entry := 0 }

def Window.reset : Window :=
  { defined := false, buf := 0, off := 0, size := 0, half := false, st := .absent, pend := 0, bound := none,
    fill := false, started := false, noPublish := false, chain := none, nextLink := 0 }

/-- Handler table, CB, window, binding and grant tables at placement (Table 1.5). -/
def Tables.reset : Tables :=
  { handlers := [], cb := Vector.replicate 16 .empty, win := Vector.replicate 16 Window.reset,
    bind := Vector.replicate 16 .empty, chains := [], grants := [], capser := 0#16, tags := 0#64, tagerr := 0#64,
    sqctl := 0x1010#64, lastActor := 0, watch := [], binders := [] }

def Queues.reset : Queues :=
  { req := [], rep := [], sys := [], sendReq := [], sendRep := [], notices := [], lost := 0, parked := [], waits := [],
    pass := Vector.replicate 6 0, sent := 0, accepted := 0, outbound := 0, turn := false }

def Summary.empty : Summary := { spec := false, uni := none, zero := false, const := none, ident := none }

/-- Engine state at placement (Table 9.1, R303). -/
def Engines.reset : Engines :=
  { vq := [], mq := [], rq := [], remoteTurn := false, nextOrd := 0, outstanding := 0, walks := [], landings := [], nextWalk := 0, lastSlot := 15,
    aLatch := { rows := [], sum := Summary.empty }, bLatch := none, mxcfg := 0x102#64,
    mupr := 0xFFFFFFFFFFFFFFFF#64, rflags := 0#6, elc := 0#16, am := 0, at_ := 0, bt := 0, cstr := 1 }

def Mems.reset : Mems := { data := [], istore := [], noStart := [], dir := [], stamp := [] }

def Phys.reset : Phys :=
  { dacc := Vector.replicate 32 0#64, inv := [], fetches := [], brken := false, trcctl := 0#64, trcring := 0#64, hgrp := 0#64,
    dump := 0x3E80000#64, opreq := 3#64, temp := 0#64, traceQ := [], traceDrop := 0, ptroot := 0#64, tlb := [],
    halted := false, haltPending := none, haltBy := none, haltRec := none, haltAt := 0, holdAt := 0 }

/-- The invariant cache is emptied (R112, R230). -/
def Phys.dropInv (p : Phys) : Phys := { p with inv := [], fetches := [] }

/-- A core with nothing on it. -/
def Core.fresh (id : CoreId) (site : Site) : Core :=
  { id := id, site := site, f := Firing.reset, busy := false, serials := 0#64, cohort := none, mem := Mems.reset, sysMem := Mems.reset,
    tab := Tables.reset, q := Queues.reset, eng := Engines.reset,
    ack := { cohort := 0, launch := 0, job := 0, system := 0, closes := 0, waiting := [] }, scrim := [], staged := [], slots := [],
    phys := Phys.reset, exc := [], moving := .no, saveAsked := false, lastTime := 0#64, pageWaits := [], memCtx := 0#32, tear := false, clock := 0, places := [],
    taken := [], moveHeld := [], badSecs := [], checkDue := false }

def Image.empty : Image :=
  { width := 0, height := 0, entry := 0, startX := 0#8, startY := 0#8, startH := 0#8, shapes := [], boxes := [],
    windows := [], cbs := [], actors := [], nests := [], launches := [], sets := [], blocks := [] }

def Seq.reset : Seq :=
  { inbox := [], nextLaunch := 0, nextGraph := 0, phase := 0, launches := [], graphs := [], phaseCancelled := [],
    jobCancelled := false, jobEnded := false, started := false, preempting := false, out := false, outAt := 0, reserved := none,
    reports := [] }

def Partition.reset : Partition :=
  { made := false, pext := 0#64, capkey := 0#128, devices := [], memCores := [], cmap := [], exc := [], ctxBase := 0, rsvy := 0,
    ptroot := 0#64, withheld := [], jobTag := 0#8 }

def DieSt.reset : DieSt := { floatctl := 0x40211#64, thlim := 0x1A4#64, pwrq := 0#64, tlb := [], floatLast := 0 }

def Boot.reset : Boot :=
  { bootstat := 0#64, meas := Vector.replicate 4 0#512, halted := false, port1 := false, key := [], locked := [],
    nonce := 0#512, quoteNonce := 0#512, quote := [], bar2 := 0, hostData := 0#64, handlersIn := false, ring := [] }

def Device.reset : Device :=
  { time := 0, part := Partition.reset, image := Image.empty, seq := Seq.reset, ctxs := [], quads := [],
    dies := Vector.replicate 8 DieSt.reset, boot := Boot.reset, ext := [], host := [], idle := [], border := [], portHeld := [], bad := [],
    ringAt := [], sysTable := [], sysCode := Mems.reset, nextTok := 0, forwards := [], moves := 0, nextCtx := 0, hostNews := [],
    imageAt := (0, 0), measDue := false, seqSaved := none, badExt := [], debugData := 0#64,
    debugRec := none, arrivals := 0, freeIdx := 0 }

/-- The device after reset: one core in focus beside the control cluster, with no partition and nothing listed in any
memory. -/
def State.reset : State :=
  { core := Core.fresh (.mesh 0#8 0#8) ⟨0#8, 0#8⟩, others := [Core.fresh .control ⟨0#8, 0#8⟩], dev := Device.reset, net := [], agenda := [] }

end Sys2Proof.Machine
end

