-- ==== Sys2Proof/Machine/Flags.lean ====
section
/-!
DEFINITION. Sys2Proof/Machine/Flags.lean: the flag computations of the spec: condition codes (Table 3.4), the
predicates they set, and the sticky flags of FSTAT (R72).
-/
namespace Sys2Proof.Machine

/-- A signed comparison code 0 to 5 or an unsigned one 6 to 9 (Table 3.4) of two exact values. -/
def condHolds (c : Nat) (sx sy : Int) (ux uy : Nat) : Bool :=
  match c with
  | 0 => decide (ux = uy)
  | 1 => decide (ux ≠ uy)
  | 2 => decide (sx < sy)
  | 3 => decide (sx ≤ sy)
  | 4 => decide (sy < sx)
  | 5 => decide (sy ≤ sx)
  | 6 => decide (ux < uy)
  | 7 => decide (ux ≤ uy)
  | 8 => decide (uy < ux)
  | 9 => decide (uy ≤ ux)
  | _ => false

/-- A condition on two 64-bit words (R88). -/
def condWord (c : BitVec 4) (x y : Word) : Bool := condHolds c.toNat x.toInt y.toInt x.toNat y.toNat

/-- The immediate of CMPI as its condition reads it (R51): sign-extended for eq to ge, zero-extended above. -/
def cmpImm (c : BitVec 4) (i : BitVec 10) : Word := if c.toNat ≤ 5 then i.signExtend 64 else i.zeroExtend 64

/-- Bit 2·pa + pb of a 4-bit truth table (R89). -/
def truthTable (t : BitVec 4) (pa pb : Bool) : Bool :=
  t.getLsbD ((if pa then 2 else 0) + (if pb then 1 else 0))

/-- The sticky flags after an operation that raises `fl` (R72). -/
def Ctl.raise (c : Ctl) (fl : Flags) : Ctl := { c with fstat := c.fstat ||| fl }

/-- A floating condition of VCMP (R175): eq, ne, lt, le, gt, ge and un, from the order of the operands. -/
def condFloat (c : Nat) (o : Option Int) : Bool :=
  match o with
  | none => c = 1 || c = 10
  | some r =>
    match c with
    | 0 => r = 0
    | 1 => r ≠ 0
    | 2 => r < 0
    | 3 => r ≤ 0
    | 4 => r > 0
    | 5 => r ≥ 0
    | _ => false

/-- MNOM + charge as an exact sum passes a nonzero MLIM (R104, step 4). -/
def overLimit (mlim mnom : Word) (charge : Nat) : Bool :=
  mlim ≠ 0#64 && decide (mnom.toNat + charge > mlim.toNat)

/-- A saturating sum on 64 bits (R104). -/
def satAdd (x : Word) (n : Nat) : Word :=
  if x.toNat + n ≥ 2 ^ 64 then BitVec.allOnes 64 else BitVec.ofNat 64 (x.toNat + n)

end Sys2Proof.Machine
end

