-- ==== Sys2Proof/Machine/Operands.lean ====
section
/-!
DEFINITION. Sys2Proof/Machine/Operands.lean: the operand forms: register reads and writes, guards, immediates,
mesh pointers and external addresses, effective addresses, and the nominal charge (R12, R20 to R22, R37, R51, R94,
R95, R103, R105).
-/
namespace Sys2Proof.Machine

/-! ### Registers -/

/-- s[r]; s0 reads zero (R11). -/
def Regs.getS (g : Regs) (r : BitVec 5) : Word := if r = 0#5 then 0#64 else g.s[r.toNat]

/-- Write s[r]; a write to s0 is discarded (R12). -/
def Regs.setS (g : Regs) (r : BitVec 5) (v : Word) : Regs :=
  if r = 0#5 then g else { g with s := g.s.set r.toNat v }

/-- p[r]; p0 reads true (R11). -/
def Regs.getP (g : Regs) (r : BitVec 3) : Bool := r = 0#3 || g.p.getLsbD r.toNat

/-- Write p[r]; a write to p0 is discarded (R12). -/
def Regs.setP (g : Regs) (r : BitVec 3) (v : Bool) : Regs :=
  if r = 0#3 then g
  else { g with p := if v then g.p ||| (1#8 <<< r.toNat) else g.p &&& ~~~(1#8 <<< r.toNat) }

/-- h[r]. -/
def Regs.getH (g : Regs) (r : BitVec 4) : BitVec 256 := g.h[r.toNat]

def Regs.setH (g : Regs) (r : BitVec 4) (v : BitVec 256) : Regs := { g with h := g.h.set r.toNat v }

def Regs.getE (g : Regs) (r : BitVec 3) : Word := g.e[r.toNat]

def Regs.setE (g : Regs) (r : BitVec 3) (v : Word) : Regs := { g with e := g.e.set r.toNat v }

/-- Consecutive s registers from `r` up (R117, R123). -/
def Regs.getSMany (g : Regs) (r : BitVec 5) (n : Nat) : List Word :=
  (List.range n).map fun k => g.getS (r + BitVec.ofNat 5 k)

/-- Write consecutive s registers from `r` up. -/
def Regs.setSMany (g : Regs) (r : BitVec 5) : List Word → Regs
  | [] => g
  | w :: ws => (g.setS r w).setSMany (r + 1#5) ws

/-- The class of a register field with a shorter range than its five bits (R52). -/
def pOf (r : BitVec 5) : BitVec 3 := r.setWidth 3
def hOf (r : BitVec 5) : BitVec 4 := r.setWidth 4

/-- A compact register field names s0 to s15 (R58). -/
def s4 (r : BitVec 4) : BitVec 5 := r.zeroExtend 5

/-! ### Instruction lengths and live lists -/

/-- Bytes of a 32-bit instruction and its mask words (R45). -/
def spLen : Sp → Nat
  | none => 4
  | some (_, none) => 8
  | some (_, some _) => 12

/-- The live set that a safe point's mask words name (Table 3.1). -/
def liveOf : BitVec 32 × Option (BitVec 32) → Live
  | (m, none) => .masks m 0#32
  | (m, some k) => .masks m k

/-- The live set of the boundary after an irrevocable instruction (R49). -/
def liveAfter : Sp → Live
  | none => .all
  | some m => liveOf m

def Live.s (l : Live) (k : Nat) : Bool := match l with | .all => true | .masks m _ => m.getLsbD k
def Live.p (l : Live) (k : Nat) : Bool := match l with | .all => true | .masks _ m => m.getLsbD k
def Live.i (l : Live) (k : Nat) : Bool := match l with | .all => true | .masks _ m => m.getLsbD (8 + k)
def Live.e (l : Live) (k : Nat) : Bool := match l with | .all => true | .masks _ m => m.getLsbD (12 + k)
def Live.h (l : Live) (k : Nat) : Bool := match l with | .all => true | .masks _ m => m.getLsbD (20 + k)

/-- Registers after a restore: live ones from the checkpoint, the others as they stand; h12 to h15 keep the static
records they hold (R12, R277, R279). -/
def Regs.restore (cur saved : Regs) (l : Live) : Regs :=
  { s := Vector.ofFn fun k => if k.val ≠ 0 && l.s k.val then saved.s[k] else cur.s[k]
    p := BitVec.ofFnLE fun k : Fin 8 => if k.val ≠ 0 && l.p k.val then saved.p.getLsbD k.val else cur.p.getLsbD k.val
    i := Vector.ofFn fun k => if l.i k.val then saved.i[k] else cur.i[k]
    h := Vector.ofFn fun k => if k.val < 12 && l.h k.val then saved.h[k] else cur.h[k]
    e := Vector.ofFn fun k => if l.e k.val then saved.e[k] else cur.e[k] }

/-! ### Pointers -/

def ptrDev (v : Word) : Nat := field v 56 7
def ptrY (v : Word) : Nat := field v 40 8
def ptrX (v : Word) : Nat := field v 32 8
def ptrBuf (v : Word) : Nat := field v 30 2
def ptrOff (v : Word) : Nat := field v 0 17

/-- Buffer sizes (Table 1.10). -/
def bufSize : Nat → Nat
  | 0 => 98304
  | 1 => 131072
  | 2 => 32768
  | _ => 0

/-- Key of a byte of a core's buffers: buffer code times 2^17 plus offset. -/
def keyOf (buf off : Nat) : Nat := buf * 131072 + off

def ptrKey (v : Word) : Nat := keyOf (ptrBuf v) (ptrOff v)

def keyBuf (k : Nat) : Nat := k / 131072
def keyOff (k : Nat) : Nat := k % 131072

/-- A mesh pointer of this device (Table 1.9). -/
def mkPtr (x y buf off : Nat) : Word :=
  BitVec.ofNat 64 (2 ^ 63 + y * 2 ^ 40 + x * 2 ^ 32 + buf * 2 ^ 30 + off)

/-- The core a pointer's coordinate names (R22). -/
def ptrCore (v : Word) : CoreId :=
  if ptrDev v = 0 then .mesh (BitVec.ofNat 8 (ptrX v)) (BitVec.ofNat 8 (ptrY v))
  else .far (BitVec.ofNat 7 (ptrDev v)) (BitVec.ofNat 8 (ptrX v)) (BitVec.ofNat 8 (ptrY v))

/-- DEV, Y and X of a core id, placed as in a mesh pointer (Table 6.3, Table 15.4); a memory core of the default
table shows its lowest entry. -/
def coordBits (memEntry : CoreId → Nat) : CoreId → Word
  | .mesh x y => BitVec.ofNat 64 (y.toNat * 2 ^ 40 + x.toNat * 2 ^ 32)
  | .far d x y => BitVec.ofNat 64 (d.toNat * 2 ^ 56 + y.toNat * 2 ^ 40 + x.toNat * 2 ^ 32)
  | .memory die i => BitVec.ofNat 64 (0xFF * 2 ^ 40 + memEntry (.memory die i) * 2 ^ 32)
  | .pager _ _ | .control | .port _ => 0#64

/-- PTRADD and the effective address of R103: the sum applied to the address part (R94). -/
def ptrAdd (p : Word) (n : Int) : Word :=
  if !bit p 63 then
    (p &&& 0xFE00000000000000#64) ||| ((p + BitVec.ofInt 64 n) &&& 0x01FFFFFFFFFFFFFF#64)
  else
    let o := (ptrOff p : Int) + n
    let q := (p &&& ~~~0x1FFFF#64) ||| (BitVec.ofInt 64 o &&& 0x1FFFF#64)
    if o < 0 ∨ o > 0x1FFFF then q ||| 0x20000#64 else q

/-- MKPTR (R92). -/
def mkptrWord (a : Word) (b : BitVec 2) : Word :=
  0x8000000000000000#64 ||| (a &&& 0x7F00FFFF00000000#64) ||| (b.zeroExtend 64 <<< 30)

/-- PTRGET (R93, Table 5.10). -/
def ptrgetWord (a : Word) (sel : BitVec 5) : Word :=
  match sel.toNat with
  | 0 => BitVec.ofNat 64 (field a 0 17)
  | 1 => BitVec.ofNat 64 (field a 30 2)
  | 2 => BitVec.ofNat 64 (field a 32 8)
  | 3 => BitVec.ofNat 64 (field a 40 8)
  | 4 => BitVec.ofNat 64 (field a 56 7)
  | _ => BitVec.ofNat 64 (field a 32 16)

/-! ### The partition as a core sees it -/

def pextWidth (p : Word) : Nat := field p 32 8
def pextHeight (p : Word) : Nat := field p 40 8
def pextOrgX (p : Word) : Nat := field p 0 8
def pextOrgY (p : Word) : Nat := field p 8 8

/-- Entry `k` of the job's device table; entry 0 is this device (R20). -/
def Partition.devEntry (p : Partition) (k : Nat) : Option DevEntry :=
  if k = 0 then some { num := 0, width := pextWidth p.pext, height := pextHeight p.pext, hops := 0, ddev := 0#7, route := [] }
  else p.devices.find? (fun d => d.num = k)

/-- Entry `k` of the memory-core table; the default is core k mod 16 of die k div 16 (R24). -/
def Partition.memCore (p : Partition) (k : Nat) : CoreId :=
  match tget none p.memCores k with
  | some c => c
  | none => .memory (BitVec.ofNat 3 (k / 16)) (BitVec.ofNat 4 k)

/-- The lowest memory-core table entry that names a core (R24). -/
def Partition.memEntry (p : Partition) (c : CoreId) : Nat :=
  ((List.range 128).find? (fun k => p.memCore k = c)).getD 0

/-- The router of a memory core (R23): the outer-edge site at local column 2i + 1 of its die. -/
def memCoreSite (die : BitVec 3) (i : BitVec 4) : Site :=
  ⟨BitVec.ofNat 8 (34 * (die.toNat % 4) + 2 * i.toNat + 1), if die.toNat / 4 = 0 then 0#8 else 127#8⟩

/-- The router of a pager core (R23): local column 8j + 4. -/
def pagerCoreSite (die : BitVec 3) (j : BitVec 2) : Site :=
  ⟨BitVec.ofNat 8 (34 * (die.toNat % 4) + 8 * j.toNat + 4), if die.toNat / 4 = 0 then 0#8 else 127#8⟩

/-- The site that CMAP gives for a device-logical coordinate (R333). Past the 128 × 128 logical mesh, where no core is and only the
DISTA forms for another device can ask, the formula is carried on with 8-bit coordinates (DESIGN CHOICE, log 73). -/
def Partition.cmapSite (p : Partition) (gx gy : Nat) : Site :=
  let dc := gx / 32
  let col := (tget none p.cmap (512 * dc + 32 * (gy / 8) + gx % 32)).getD (gx % 32)
  ⟨BitVec.ofNat 8 (34 * dc + col), BitVec.ofNat 8 gy⟩

/-- Phys(x, y) through a map copy with these exception entries (R333). -/
def Partition.phys (p : Partition) (exc : List Exc) (x y : BitVec 8) : Site :=
  match exc.find? (fun e => e.x = x && e.y = y) with
  | some e => e.site
  | none => p.cmapSite (pextOrgX p.pext + x.toNat) (pextOrgY p.pext + y.toNat)

/-- The die of a site (Table 1.8). -/
def dieOf (s : Site) : Nat := s.px.toNat / 34 % 4 + 4 * (s.py.toNat / 64 % 2)

/-- A C-die's fabric port for the device links stands at the die's first site, which the spec does not fix (log 16). -/
def portSite (die : Nat) : Site := ⟨BitVec.ofNat 8 (34 * (die % 4)), BitVec.ofNat 8 (64 * (die / 4))⟩

/-- Site of a destination on this device (R23, R320). The control cluster's port stands at the first site of die 0 (log 16). A core
of another device is reached through a port of this one: `Core.siteOf` says which. -/
def Partition.siteOf (p : Partition) (exc : List Exc) : CoreId → Site
  | .mesh x y => p.phys exc x y
  | .memory die i => memCoreSite die i
  | .pager die j => pagerCoreSite die j
  | .port die => portSite die.toNat
  | .control | .far _ _ _ => portSite 0

/-- A memory-core pointer (R24). -/
def isMemPtr (v : Word) : Bool := bit v 63 && ptrDev v = 0 && ptrY v = 0xFF && ptrX v < 128

/-- The reserved fields of an address are zero (Tables 1.9, R20). -/
def reservedOk (v : Word) : Bool :=
  if bit v 63 then field v 48 8 = 0 && field v 17 13 = 0 else field v 57 6 = 0

/-- The field checks of R21 on a mesh pointer, sizes and access kinds apart. -/
def meshOk (p : Partition) (v : Word) : Bool :=
  bit v 63 && reservedOk v && ptrBuf v ≠ 3 &&
    match p.devEntry (ptrDev v) with
    | some d => decide (ptrX v < d.width) && decide (ptrY v < d.height)
    | none => false

/-- R21 and Table 1.11 for a load, store or atomic of `n` bytes. -/
def accessOk (p : Partition) (v : Word) (n : Nat) (write : Bool) : Bool :=
  meshOk p v && decide (ptrOff v + n ≤ bufSize (ptrBuf v)) && !(write && ptrBuf v = 1)

/-- Nominal distance to an address in eighths of a millimetre (R95), from logical (x, y). -/
def nomEighths (p : Partition) (x y : Nat) (v : Word) : Nat :=
  if !bit v 63 then 0
  else if ptrDev v = 0 && ptrY v = 0xFF then 128
  else
    let x0 := pextOrgX p.pext + x
    let y0 := pextOrgY p.pext + y
    let x1 := pextOrgX p.pext + ptrX v
    let y1 := pextOrgY p.pext + ptrY v
    let d := 4 * (((x1 : Int) - x0).natAbs + ((y1 : Int) - y0).natAbs)
      + 32 * (((x1 / 32 : Nat) - (x0 / 32 : Nat) : Int).natAbs + ((y1 / 64 : Nat) - (y0 / 64 : Nat) : Int).natAbs)
    match p.devEntry (ptrDev v) with
    | some e => d + 512 * e.hops
    | none => d

/-- (8n + 64) × eighths grains (R95, R105). -/
def grains (n eighths : Nat) : Nat := (8 * n + 64) * eighths

/-- Logical coordinates of a core, as WHERE shows them in the job view (Table 1.7, R24). -/
def whereXY (p : Partition) : CoreId → Nat × Nat
  | .mesh x y => (x.toNat, y.toNat)
  | .far _ x y => (x.toNat, y.toNat)
  | .memory die i => (p.memEntry (.memory die i), 0xFF)
  | .pager _ _ | .control | .port _ => (0, 0)

/-- An invalid address for DIST and DISTA (R96). A memory-core pointer whose BUF is 11 or whose reserved bits are not zero counts as one,
though R96 refuses no memory-core pointer: as a pointer it is malformed (DESIGN CHOICE, log 90). -/
def distInvalid (p : Partition) (v : Word) : Bool :=
  bit v 63 && !(meshOk p v || (isMemPtr v && reservedOk v && ptrBuf v ≠ 3))

/-- The saturated charge DIST writes (R96). -/
def distWord (p : Partition) (v n : Word) (eighths : Nat) : Word :=
  if distInvalid p v then BitVec.allOnes 64
  else satAdd 0#64 (grains n.toNat eighths)

/-! ### Records -/

/-- Byte field of a record of `w` bits: bytes are little-endian from byte 0. -/
def byteAt {w : Nat} (r : BitVec w) (k : Nat) : Nat := field r (8 * k) 8
def halfAt {w : Nat} (r : BitVec w) (k : Nat) : Nat := field r (8 * k) 16
def wordAt {w : Nat} (r : BitVec w) (k : Nat) : Nat := field r (8 * k) 32
def longAt {w : Nat} (r : BitVec w) (k : Nat) : Nat := field r (8 * k) 64

/-- CB record fields (Table 6.4). -/
def cbBuf (r : BitVec 128) : Nat := field r 30 2
def cbOff (r : BitVec 128) : Nat := field r 0 17
def cbSlot (r : BitVec 128) : Nat := halfAt r 4
def cbS (r : BitVec 128) : Nat := halfAt r 6
def cbScope (r : BitVec 128) : Nat := byteAt r 8

/-- Signed 16-bit, 32-bit and 64-bit fields of a record. -/
def shalfAt {w : Nat} (r : BitVec w) (k : Nat) : Int := signedOf 16 (halfAt r k)
def swordAt {w : Nat} (r : BitVec w) (k : Nat) : Int := signedOf 32 (wordAt r k)
def slongAt {w : Nat} (r : BitVec w) (k : Nat) : Int := signedOf 64 (longAt r k)

/-- A record from its bytes. -/
def recordOf (w : Nat) (bs : List Byte) : BitVec w := BitVec.ofNat w (bytesToNat bs)

end Sys2Proof.Machine
end

