-- ==== Sys2Proof/Machine/Ops.lean ====
section
/-!
DEFINITION. Sys2Proof/Machine/Ops.lean: the named operations over the state: focus, registers, packets, buffers and
windows, the Scrim tables, regions and checkpoints, region stops, taking a precise stop and returning from one.
-/
namespace Sys2Proof.Machine

abbrev Out := Host.Outcome State Fault Refusal

/-! ### Parts of the state -/

def State.mapC (s : State) (g : Core → Core) : State := { s with core := g s.core }
def State.mapF (s : State) (g : Firing → Firing) : State := { s with core := { s.core with f := g s.core.f } }
def State.mapD (s : State) (g : Device → Device) : State := { s with dev := g s.dev }

/-- The firing's registers. -/
def State.regs (s : State) : Regs := s.core.f.regs

/-- Write one s register of the firing. -/
def State.setS (s : State) (r : BitVec 5) (v : Word) : State :=
  s.mapF fun f => { f with regs := f.regs.setS r v }

def State.setP (s : State) (r : BitVec 3) (v : Bool) : State :=
  s.mapF fun f => { f with regs := f.regs.setP r v }

def State.setH (s : State) (r : BitVec 4) (v : BitVec 256) : State :=
  s.mapF fun f => { f with regs := f.regs.setH r v }

def State.setSMany (s : State) (r : BitVec 5) (ws : List Word) : State :=
  s.mapF fun f => { f with regs := f.regs.setSMany r ws }

/-- OR flags into FSTAT (R72). -/
def State.raise (s : State) (fl : Flags) : State := s.mapF fun f => { f with ctl := f.ctl.raise fl }

def State.setWait (s : State) (w : Wait) : State := s.mapF fun f => { f with wait := w }

/-- The waiting instruction at the pc is tried again (R129). -/
def State.poll (s : State) : State := s.setWait .poll

/-- The context identifier of the residency on a core (R285). -/
def Core.ctx (c : Core) : BitVec 32 := match c.cohort with | some k => k.ctx | none => c.memCtx

/-- The cohort in whose scope the firing acts, by its linear index (R133). -/
def Core.scopeLin (c : Core) : Nat := match c.cohort with | some k => k.lin | none => c.f.lin

/-- The executing firing as an agent (R241). -/
def Core.agent (c : Core) : Agent := ⟨c.id, c.f.serial.setWidth 16, c.f.region.gen⟩

def State.agent (s : State) : Agent := s.core.agent

/-- Logical coordinates of the focused core (Table 1.7). -/
def State.xy (s : State) : Nat × Nat := whereXY s.dev.part s.core.id

/-! ### Focus (log 1) -/

/-- Take the first element that satisfies `p` out of a list. -/
def takeFirst {α : Type} (p : α → Bool) : List α → Option (α × List α)
  | [] => none
  | x :: xs => if p x then some (x, xs) else (takeFirst p xs).map fun r => (r.1, x :: r.2)

/-- The core with this identity comes into focus; none when no such core exists. -/
def State.focus (s : State) (c : CoreId) : Option State :=
  if s.core.id = c then some s
  else (takeFirst (fun k => k.id = c) s.others).map fun r => { s with core := r.1, others := s.core :: r.2 }

/-- Any core by identity. -/
def State.coreAt (s : State) (c : CoreId) : Option Core :=
  if s.core.id = c then some s.core else s.others.find? (fun k => k.id = c)

/-- Change one core, wherever it is. -/
def State.onCore (s : State) (c : CoreId) (g : Core → Core) : State :=
  if s.core.id = c then { s with core := g s.core }
  else { s with others := s.others.map fun k => if k.id = c then g k else k }

/-- The site of a destination through a core's copy of the partition map (R320, R332); a core of another device lies behind the
fabric port of the sender's C-die (R324). -/
def Core.siteOf (p : Partition) (c : Core) (dst : CoreId) : Site :=
  match dst with
  | .far _ _ _ => portSite (dieOf c.site)
  | .mesh _ _ | .memory _ _ | .pager _ _ | .control | .port _ => p.siteOf c.exc dst

/-- What the answer of another device to this packet will need (R325). -/
def placeOfAnswer (dst : CoreId) (b : Body) : Option AnswerPlace :=
  match dst with
  | .far _ _ _ => match b with
    | .access tok a _ key _ _ n => some ⟨dst, some tok, some (keyOff key / 8192), n, a.ser⟩
    | .cb tok a _ _ _ n => some ⟨dst, some tok, none, n, a.ser⟩
    | .probe tok a _ key data => some ⟨dst, some tok, some (keyOff key / 8192), some data.length, a.ser⟩
    | .commit a _ bank => some ⟨dst, none, some bank, none, a.ser⟩
    | _ => none
  | _ => none

/-- A packet as it leaves this core's router. -/
def Core.packet (p : Partition) (c : Core) (dst : CoreId) (net : Net) (body : Body) : Packet :=
  ⟨c.id, dst, net, c.siteOf p dst, false, body, [c.site]⟩

/-- A packet of another core than the focused one enters the network at that core's own router (R320). -/
def State.sendAs (s : State) (src dst : CoreId) (net : Net) (body : Body) : State :=
  let c := (s.coreAt src).getD s.core
  { s with net := s.net ++ [⟨src, dst, net, c.siteOf s.dev.part dst, false, body, [c.site]⟩] }

/-- Change every core. -/
def State.onAll (s : State) (g : Core → Core) : State :=
  { s with core := g s.core, others := s.others.map g }

def State.cores (s : State) : List Core := s.core :: s.others

/-! ### Packets -/

/-- The site of a destination through the focused core's copy of the partition map (R320, R332). -/
def State.siteOf (s : State) (dst : CoreId) : Site := s.core.siteOf s.dev.part dst

/-- Put a packet of the focused core into the network, behind its earlier ones (R322). -/
def State.send (s : State) (dst : CoreId) (net : Net) (body : Body) : State :=
  { s with
    net := s.net ++ [s.core.packet s.dev.part dst net body]
    core := { s.core with places := s.core.places ++ (placeOfAnswer dst body).toList } }

/-- The router of this device that brings packets of `src` to a site: for a core of another device, the port of the C-die that
holds the site's row (R324; log 16). -/
def ingress (src : CoreId) (site : Site) : CoreId :=
  match src with
  | .far d _ _ => .port (BitVec.ofNat 3 (4 * (site.py.toNat / 64 % 2) + d.toNat % 4))
  | c => c

/-- Direct packets of this source and network are held at the focused core, which is the new site of a move, until the
source's marker has come over RELOC (R339). -/
def State.heldFlow (s : State) (src : CoreId) (net : Net) : Bool :=
  s.dev.forwards.any fun f => f.core = s.core.id && f.held.contains (ingress src s.core.site, net)

def Moving.freezes : Moving → Bool
  | .draining _ _ | .streaming _ _ => true
  | .no | .requested _ _ => false

/-- A copy that a window's PEND counts already. -/
def Core.countsCopy (c : Core) (h : CopyHdr) : Bool :=
  c.eng.landings.any fun l => l.issuer = h.issuer && l.walk = h.walk && l.win.isSome

/-- The local port of a frozen core diverts these packets to its forwarding queue (R336): they wait at the old site, and do not hold up
those that are still served. -/
def Core.diverts (c : Core) (k : Packet) : Bool :=
  c.moving.freezes && match k.net, k.body with
    | .req, _ => true
    | .sys, .mapUpd _ _ _ _ _ | .sys, .marker _ => false
    | .sys, _ => true
    | .rep, .msg _ _ _ _ _ _ => true
    | .data, .flit h _ _ | .data, .flitFail h _ _ => !c.countsCopy h
    | .data, _ => true
    | _, _ => false

/-- A packet that has come to the focused core's site over RELOC, in front of these of its network (R339). RELOC's own buffers wait on
nothing (R330, Table 19.5), so what one network cannot take holds up no other (R340). -/
def State.relocFirst (s : State) (k : Packet) : Bool :=
  !((s.net.takeWhile fun x => x ≠ k).any fun x => x.fwd && x.net = k.net && x.dst = s.core.id && x.site = s.core.site)

/-- The oldest packet from `src` that has reached the focused core on a network, if its body satisfies `p`, and the
state without it (R322: packets of one flow arrive in order). Forwarded packets come first, in the order of RELOC (R339). -/
def State.recvPacket (s : State) (src : CoreId) (net : Net) (p : Body → Bool) : Option (Packet × State) :=
  let flow (k : Packet) : Bool :=
    k.src = src && k.dst = s.core.id && k.net = net && k.site = s.core.site && !s.core.diverts k
  let forwarded := s.net.any fun k => flow k && k.fwd
  match takeFirst (fun k => flow k && (k.fwd || !(forwarded || s.heldFlow src net))) s.net with
  | some (k, rest) => if p k.body && (!k.fwd || s.relocFirst k) then some (k, { s with net := rest }) else none
  | none => none

/-- The body of that packet. -/
def State.recv (s : State) (src : CoreId) (net : Net) (p : Body → Bool) : Option (Body × State) :=
  (s.recvPacket src net p).map fun r => (r.1.body, r.2)

/-- The sites that that packet has left (R326). -/
def State.pathOf (s : State) (src : CoreId) (net : Net) (p : Body → Bool) : List Site :=
  ((s.recvPacket src net p).map fun r => r.1.path).getD []

/-- A fresh token for a request. -/
def State.token (s : State) : Nat := s.dev.nextTok

def State.useToken (s : State) : State := s.mapD fun d => { d with nextTok := d.nextTok + 1 }

/-- The next free value (log 17). -/
def State.free (s : State) : Word × State :=
  (Config.freeWord s.dev.freeIdx, s.mapD fun d => { d with freeIdx := d.freeIdx + 1 })

/-! ### Addresses of the core's own buffers -/

/-- Is the address local (R22)? -/
def State.isLocal (s : State) (v : Word) : Bool :=
  ptrDev v = 0 && (ptrCore v = s.core.id || (isMemPtr v && s.dev.part.memCore (ptrX v) = s.core.id))

/-- The physical key of a byte: windows map their two ranges by HALF (R217, R238). -/
def physKey (ws : List Window) (key : Nat) : Nat :=
  match ws.find? (fun w => w.defined && w.buf = keyBuf key && w.off ≤ keyOff key && keyOff key < w.off + 2 * w.size) with
  | some w => if !w.half then key else if keyOff key < w.off + w.size then key + w.size else key - w.size
  | none => key

def Core.phys' (c : Core) (key : Nat) : Nat := physKey c.tab.win.toList key

/-- Bytes of a core's buffers through its windows. -/
def Core.readBytes (c : Core) (key n : Nat) : List Byte :=
  (List.range n).map fun j => c.mem.data.get (c.phys' (key + j))

/-- HALF of each window. -/
def Core.halves (c : Core) : BitVec 16 := BitVec.ofFnLE fun k : Fin 16 => c.tab.win[k].half

/-- The windows mapped by these halves. -/
def Core.setHalves (c : Core) (h : BitVec 16) : Core :=
  { c with tab := { c.tab with win := Vector.ofFn fun k => { c.tab.win[k] with half := h.getLsbD k.val } } }

/-- What an access does that entered the buffers under these halves, before a publish that has come since (R239). -/
def State.enteredAs (s : State) (h : BitVec 16) (k : State → Out) : Out :=
  match k (s.mapC fun c => c.setHalves h) with
  | .next t => .next (t.mapC fun c => c.setHalves s.core.halves)
  | .fault f => .fault f
  | .refused r => .refused r

/-- Bytes of a sector with an uncorrectable error are among these (R282). -/
def Core.meetsBad (c : Core) (key n : Nat) : Bool := (List.range n).any fun j => c.badSecs.contains (c.phys' (key + j) / 32)

/-- A read that meets a sector with an uncorrectable error is a machine check of the core, which strikes when the step ends (R282,
R283). -/
def State.readOf (s : State) (key n : Nat) : State :=
  if s.core.badSecs ≠ [] && s.core.meetsBad key n then s.mapC fun c => { c with checkDue := true } else s

/-- Read one byte of a core's buffers. -/
def Core.readByte (c : Core) (key : Nat) : Byte := c.mem.data.get (c.phys' key)

def rangesMeet (a n b m : Nat) : Bool := decide (a < b + m) && decide (b < a + n)

/-- Does a range touch a defined window's shadow range (R218)? -/
def Core.inShadow (c : Core) (key n : Nat) : Bool :=
  c.tab.win.toList.any fun w => w.defined && rangesMeet key n (keyOf w.buf (w.off + w.size)) w.size

/-- The windows whose visible range an access touches (R219). -/
def Core.touched (c : Core) (key n : Nat) : List (BitVec 4) :=
  ((List.range 16).map (BitVec.ofNat 4)).filter fun k =>
    let w := c.tab.win[k.toNat]
    w.defined && rangesMeet key n (keyOf w.buf w.off) w.size

/-! ### The Primer directory (R233 to R238): panels of A and W -/

/-- Directory index of a physical key; none for C. -/
def panelOf (key : Nat) : Option Nat :=
  if keyBuf key = 0 then some (keyOff key / 512)
  else if keyBuf key = 1 then some (192 + keyOff key / 512)
  else none

/-- Start of a panel, as a physical key. -/
def panelKey (i : Nat) : Nat := if i < 192 then i * 512 else keyOf 1 ((i - 192) * 512)

/-! ### The Scrim tables (R244 to R246) -/

/-- Bank of a physical key of A or C (R26): A 0 to 11, C 12 to 15; none for W. -/
def bankOf (key : Nat) : Option Nat :=
  if keyBuf key = 0 then some (keyOff key / 8192)
  else if keyBuf key = 2 then some (12 + keyOff key / 8192)
  else none

/-- Sector of a physical key inside its bank. -/
def sectorOf (key : Nat) : Nat := keyOff key % 8192 / 32

/-- The bank and sector pairs a byte range covers. -/
def Core.sectors (c : Core) (key n : Nat) : List (Nat × Nat) :=
  ((List.range n).filterMap fun j =>
    let k := c.phys' (key + j)
    (bankOf k).map fun b => (b, sectorOf k)).dedup

/-- RSAGENT of a firing (Table 15.4). -/
def agentWord (memEntry : CoreId → Nat) (a : Agent) : Word :=
  BitVec.ofNat 64 (2 ^ 63 + a.gen.toNat * 2 ^ 48 + a.ser.toNat) ||| coordBits memEntry a.id

/-- RSAGENT of another kind of agent (R373). -/
def engineWord (memEntry : CoreId → Nat) (kind : Nat) (id : CoreId) : Word :=
  BitVec.ofNat 64 (2 ^ 63 + kind * 2 ^ 30) ||| coordBits memEntry id

/-- `e` is an agent's own firing in the same region or an earlier one: what program order puts before a command of `a` (R243). -/
def Agent.follows (a e : Agent) : Bool := e.id = a.id && e.ser = a.ser && decide ((a.gen - e.gen).toNat < 128)

/-- Foreign to an access of this agent (R244). -/
def Scrim.foreign (e : Scrim) (a : Agent) : Bool := e.agent.id ≠ a.id || e.agent.ser ≠ a.ser

def Scrim.hits (e : Scrim) (secs : List (Nat × Nat)) (reads writes : Bool) : Bool :=
  secs.any fun p => e.bank = p.1 && ((writes && e.wr.getLsbD p.2) || (reads && !e.closing && e.rd.getLsbD p.2))

/-- The oldest foreign entry an access meets: a read is stopped by WR, a write by RD or WR (Table 12.2). -/
def Core.conflict (c : Core) (a : Agent) (secs : List (Nat × Nat)) (write : Bool) : Option Scrim :=
  c.scrim.find? fun e => e.foreign a && e.hits secs write true

/-- What a bank answers to an access that opens or extends an entry. -/
inductive BankAns where
  | ok (table : List Scrim)
  | conflict (e : Scrim)
  /-- This bank has no free open entry: the agent of the oldest open one, if any is not closing already, is asked to end its region
  (R248). -/
  | full (bank : Nat) (oldest : Option Agent)
deriving DecidableEq, Repr

def openCount (t : List Scrim) (bank : Nat) : Nat :=
  (t.filter fun e => e.bank = bank && !e.commitOnly).length

def setSector (m : BitVec 256) (k : Nat) : BitVec 256 := m ||| (1#256 <<< k)

/-- Mark one sector in the agent's entry at its bank, opening it if need be (R244). `via` is the bank that the access names;
`kept` counts the free entries of a bank that go to accesses it holds already, which take them before a new access or a probe does
(R248). -/
def markSector (t : List Scrim) (a : Agent) (p : Nat × Nat) (write probe : Bool) (via : Nat) (kept : Nat → Nat) : BankAns :=
  let mark (e : Scrim) : Scrim :=
    let e := { e with via := if e.via.contains via then e.via else e.via ++ [via] }
    if write then { e with wr := setSector e.wr p.2 } else { e with rd := setSector e.rd p.2 }
  let own (e : Scrim) : Bool := e.bank = p.1 && e.agent = a && !e.closing
  if t.any own then .ok (t.map fun e => if own e then mark e else e)
  else
    -- an open entry of an older generation of the same firing is replaced
    let t := t.filter fun e => !(e.bank = p.1 && !e.foreign a && !e.closing)
    let fresh : Scrim :=
      { bank := p.1, agent := a, closing := false, commitOnly := false, via := [], rd := 0#256, wr := 0#256 }
    if openCount t p.1 + kept p.1 < 16 then .ok (t ++ [mark fresh])
    else if probe && decide ((t.filter fun e => e.bank = p.1 && e.commitOnly).length < 4) then
      .ok (t ++ [mark { fresh with commitOnly := true }])
    else .full p.1 ((t.find? fun e => e.bank = p.1 && !e.commitOnly && !e.closing).map Scrim.agent)

def markSectors (t : List Scrim) (a : Agent) (write probe : Bool) (via : Nat) (kept : Nat → Nat) : List (Nat × Nat) → BankAns
  | [] => .ok t
  | p :: ps =>
    match markSector t a p write probe via kept with
    | .ok t' => markSectors t' a write probe via kept ps
    | other => other

/-- Accesses that a bank holds (R248). -/
def Core.slotted (c : Core) (bank : Nat) : Nat := (c.slots.filter fun x => x.bank = bank).length

/-- A plain access or a probe at a bank: checked against the foreign entries, then recorded (R245). `kept` counts the accesses that
each bank holds and that come before this one (R248). -/
def Core.bankAccess (c : Core) (a : Agent) (secs : List (Nat × Nat)) (write probe : Bool) (via : Nat) (kept : Nat → Nat) : BankAns :=
  match c.conflict a secs write with
  | some e => .conflict e
  | none => markSectors c.scrim a write probe via kept secs

/-- Sector address for TADDR and RSADDR: the mesh pointer that names the sector through the windows, OFF bits 4..0 zero.
Swapping a window's halves is its own inverse, so `Core.phys'` turns a physical key into the key of that pointer. -/
def sectorPtr (p : Partition) (id : CoreId) (key : Nat) : Word :=
  let (x, y) := whereXY p id
  mkPtr x y (keyBuf key) (keyOff key / 32 * 32)

/-- The key of a sector of a bank. -/
def sectorKey (bank sector : Nat) : Nat :=
  if bank < 12 then bank * 8192 + sector * 32 else keyOf 2 ((bank - 12) * 8192 + sector * 32)

/-! ### Notices (R280, R281) -/

/-- The launch whose handle this is, while the sequencer knows it. -/
def Seq.launchOf (q : Seq) (h : Word) : Option LaunchSt :=
  if field h 62 2 = 0 then q.launches.find? (fun l => l.serial = field h 0 32) else none

def recClass (r : BitVec 512) : Bool := bit r 80
def recSinkV (r : BitVec 512) : Bool := bit r 280
def recSinkX (r : BitVec 512) : Nat := byteAt r 32
def recSinkY (r : BitVec 512) : Nat := byteAt r 33
def recSinkH (r : BitVec 512) : Nat := byteAt r 34

/-- The core's cohort belongs to a cancelled launch, and the cancel has not taken effect here (R274). -/
def State.cancelDue (s : State) : Bool :=
  match s.core.cohort with
  | some k => match s.dev.seq.launchOf k.lhnd with
    | some l => l.cancelled
    | none => false
  | none => false

/-- Header of a message of this core (Table 6.3). -/
def msgHeader (p : Partition) (id : CoreId) (rep : Bool) (n : Nat) (cls : Bool) (hnd : Nat) : Word :=
  BitVec.ofNat 64 ((if rep then 2 ^ 52 else 0) + n * 2 ^ 48 + (if cls then 2 ^ 16 else 0) + hnd)
    ||| coordBits p.memEntry id

/-- Queue a notice at a core for a launch's fault sink (R280); a full queue drops it and counts it (R281). -/
def Core.notice (d : Device) (lhnd : Word) (kind cause tag : Nat) (pc : Option Nat) (s3 s4' : Word) (c : Core) : Core :=
  match d.seq.launchOf lhnd with
  | none => c
  | some l =>
    if !recSinkV l.rcd || l.ended then c
    else if c.q.notices.length ≥ 8 then { c with q := { c.q with lost := Nat.min 255 (c.q.lost + 1) } }
    else
      let a1 := BitVec.ofNat 64 (kind + cause * 2 ^ 8 + tag * 2 ^ 16 + c.q.lost * 2 ^ 24 + field lhnd 0 32 * 2 ^ 32)
      let a2 := match pc with
        | some k => BitVec.ofNat 64 (2 ^ 63 + k % 2 ^ 15)
        | none => 0#64
      let hdr := msgHeader d.part c.id false 4 (recClass l.rcd) (recSinkH l.rcd)
      let dst : CoreId := .mesh (BitVec.ofNat 8 (recSinkX l.rcd)) (BitVec.ofNat 8 (recSinkY l.rcd))
      { c with q := { c.q with notices := c.q.notices ++ [(dst, hdr, [a1, a2, s3, s4'])], lost := 0 } }

/-- Queue a notice at the focused core. -/
def State.notice (s : State) (lhnd : Word) (kind cause tag : Nat) (pc : Option Nat) (s3 s4' : Word) : State :=
  s.mapC (Core.notice s.dev lhnd kind cause tag pc s3 s4')

/-! ### Quads and their copies of TIME (R351, R356) -/

/-- The quad of a site: column 0 to 16 and row 0 to 31 of its die. -/
def quadOf (s : Site) : Quad :=
  ⟨BitVec.ofNat 3 (dieOf s), BitVec.ofNat 5 (s.px.toNat % 34 / 2), BitVec.ofNat 5 (s.py.toNat % 64 / 2)⟩

/-- A quad after reset: on, at the nominal point (Tables 23.1 and 23.3). -/
def QuadSt.reset (q : Quad) : QuadSt :=
  { q := q, point := 3, target := 3, ramping := false, cap := 3, halved := false, gate := .on, skew := 0, since := 0, droopAt := 0 }

/-- The state of a quad. One that nothing has happened to holds no residency: its clock goes to point 0 once time runs (R351). -/
def Device.quadAt (d : Device) (q : Quad) : QuadSt :=
  (d.quads.find? fun x => x.q = q).getD (if d.time = 0 then QuadSt.reset q else { QuadSt.reset q with point := 0, target := 0 })

def Device.setQuad (d : Device) (x : QuadSt) : Device :=
  { d with quads :=
      if d.quads.any (fun y => y.q = x.q) then d.quads.map fun y => if y.q = x.q then x else y else d.quads ++ [x] }

def State.setQuad (s : State) (x : QuadSt) : State := s.mapD fun d => d.setQuad x

/-- The copy of TIME at a site (R356). -/
def Device.timeAt (d : Device) (site : Site) : Nat := d.time + (d.quadAt (quadOf site)).skew

/-- The copy of TIME of the focused core's quad. -/
def State.timeHere (s : State) : Nat := s.dev.timeAt s.core.site

/-! ### Trace records (R361) -/

/-- The fields of a record (Table 24.6). -/
def traceBits (time kind code lx ly : Nat) (site : Site) (route entry sess ser data : Nat) : BitVec 256 :=
  BitVec.ofNat 256 (time + 2 ^ 64 * kind + 2 ^ 80 * code + 2 ^ 96 * lx + 2 ^ 104 * ly + 2 ^ 112 * site.px.toNat
    + 2 ^ 120 * site.py.toNat + 2 ^ 128 * route + 2 ^ 144 * entry + 2 ^ 160 * sess + 2 ^ 176 * ser + 2 ^ 192 * data)

/-- A record of this core, with the TIME of its quad (Table 24.6). -/
def Core.traceRecord (d : Device) (kind code : Nat) (data : Word) (c : Core) : BitVec 256 :=
  let (x, y) := whereXY d.part c.id
  traceBits (d.timeAt c.site) kind code x y c.site c.f.route.toNat (c.f.entry % 2 ^ 15) (field c.phys.trcctl 48 16)
    (field c.f.serial 0 16) data.toNat

/-- A core makes a record of an event, if its session is open and the kind is enabled; kind 8 takes the reserved entry, and
a record that finds no room, for itself and the kind-9 record that is to precede it, is dropped and counted. -/
def Core.trace (d : Device) (kind code : Nat) (data : Word) (c : Core) : Core :=
  let p := c.phys
  if !bit p.trcctl 0 || (kind ≤ 7 && !bit p.trcctl (7 + kind)) then c
  else
    let lost := if p.traceDrop = 0 then [] else [c.traceRecord d 9 0 (BitVec.ofNat 64 p.traceDrop)]
    if kind ≠ 8 && 16 ≤ p.traceQ.length + lost.length then { c with phys := { p with traceDrop := p.traceDrop + 1 } }
    else { c with phys := { p with traceQ := p.traceQ ++ lost ++ [c.traceRecord d kind code data], traceDrop := 0 } }

def State.trace (s : State) (kind code : Nat) (data : Word) : State := s.mapC (Core.trace s.dev kind code data)

/-- A record of an event of this firing, which need not be the one on the pipeline. -/
def Core.traceOf (d : Device) (f : Firing) (kind code : Nat) (data : Word) (c : Core) : Core :=
  { ({ c with f := f } : Core).trace d kind code data with f := c.f }

/-! ### Scopes and acknowledgments (R108, R133) -/

/-- The cohort's rectangle holds a logical core. -/
def Cohort.holds (k : Cohort) (x y : Nat) : Bool :=
  let cw := byteAt k.rcd 2
  let ch := byteAt k.rcd 3
  decide (k.ox ≤ x ∧ x < k.ox + cw ∧ k.oy ≤ y ∧ y < k.oy + ch)

/-- Scope class of a home relative to the focused core (R241): 0 cohort, 1 launch, 2 job, 3 system. -/
def State.scopeOf (s : State) (home : CoreId) : Nat :=
  match home with
  | .mesh x y =>
    if home = s.core.id then 0
    else match s.core.cohort with
      | none => 2
      | some k =>
        if k.holds x.toNat y.toNat then 0
        else match s.coreAt home with
          | some c => if (c.cohort.map fun j => j.serial) = some k.serial then 1 else 2
          | none => 2
  | .memory _ _ => 2
  | _ => 3

def Acks.add (a : Acks) (scope : Nat) : Acks :=
  match scope with
  | 0 => { a with cohort := a.cohort + 1 }
  | 1 => { a with launch := a.launch + 1 }
  | 2 => { a with job := a.job + 1 }
  | _ => { a with system := a.system + 1 }

def Acks.sub (a : Acks) (scope : Nat) : Acks :=
  match scope with
  | 0 => { a with cohort := a.cohort - 1 }
  | 1 => { a with launch := a.launch - 1 }
  | 2 => { a with job := a.job - 1 }
  | _ => { a with system := a.system - 1 }

/-- Counts up to a scope are zero, and the close acknowledgments have come (R114, R246). -/
def Acks.clearUpTo (a : Acks) (scope : Nat) : Bool :=
  a.closes = 0 && a.waiting = [] && a.cohort = 0 && (scope < 1 || a.launch = 0) && (scope < 2 || a.job = 0) &&
    (scope < 3 || a.system = 0)

/-- The drain of R109 is complete. -/
def Acks.drained (a : Acks) : Bool := a.clearUpTo 3

/-! ### The end of a firing -/

/-- Messages that a firing's HOLD kept are released (R346). -/
def releaseHeld (p : Option Word → Bool) (q : List SendEntry) : List SendEntry :=
  q.map fun e => if p e.by_ then { e with by_ := none } else e

/-- The firing with this serial has ended: a halt that it asked of its own core is due (R158). -/
def Phys.selfHalted (p : Phys) (serial : Word) : Phys :=
  if p.haltBy = some serial then { p with haltBy := none, haltPending := p.haltPending.or (some 0) } else p

/-- What the end of a firing does beside it: messages it held are released (R346), its actor has no firing any more (R140), and a
halt that it asked of its own core is due (R158). -/
def Core.ended (c : Core) (f : Firing) : Core :=
  { c with
    phys := c.phys.selfHalted f.serial
    q := { c.q with
      sendReq := releaseHeld (· = some f.serial) c.q.sendReq
      sendRep := releaseHeld (· = some f.serial) c.q.sendRep }
    tab := match f.actor with
      | none => c.tab
      | some k => { c.tab with bind := c.tab.bind.set k.toNat (match c.tab.bind[k.toNat] with
          | .actor r m n _ seen => .actor r m n false seen
          | b => b) } }

/-- The per-firing state is discarded and the pipeline released (R101); messages it held leave (R346); a halt of its own core that
it asked for is due (R158). -/
def State.endFiring (s : State) : State :=
  s.mapC fun c => { c.ended c.f with
    busy := false
    f := { Firing.reset with serial := c.f.serial } }

/-- Parked firings end where they stand, and their state is discarded. -/
def State.endParked (s : State) (p : Parked → Bool) : State :=
  s.mapC fun c =>
    let c' := (c.q.parked.filter p).foldl (fun c x => c.ended x.f) c
    { c' with q := { c'.q with parked := c'.q.parked.filter fun x => !p x } }

/-! ### Regions and checkpoints (R107, R108, R246, R277, R278) -/

/-- The firing's open entries leave the core's own banks, and so does an access that one of them holds: the region close there (R246,
R248). -/
def Core.closeOwn (c : Core) : Core :=
  { c with
    scrim := c.scrim.filter fun e => e.foreign c.agent
    slots := c.slots.filter fun x => x.src ≠ c.id }

/-- Banks of other cores that the region touched, as (home, bank). -/
def Core.remoteTouched (c : Core) : List (CoreId × Nat) := c.f.region.touched.filter fun p => p.1 ≠ c.id

def Held.inBuffer (h : Held) : Bool := h.space = .buffer

/-- Held stores that are probed at a home bank; external memory has no Scrim table (R108, R256). -/
def Region.probed (r : Region) : List Held := r.held.filter Held.inBuffer

/-- Homes of the region's held stores. -/
def Region.homes (r : Region) : List CoreId := (r.probed.map Held.tgt).dedup

/-- The region's stores to external memory, oldest first. -/
def Region.external (r : Region) : List (Nat × Bool × List Byte) :=
  (r.held.filter fun h => !h.inBuffer).map fun h => (h.key, decide (h.space = .host), h.data)

/-- The count that a packet of this class raises. -/
def Acks.count (a : Acks) : AckClass → Nat
  | .store 0 => a.cohort
  | .store 1 => a.launch
  | .store 2 => a.job
  | .store _ => a.system
  | .close => a.closes
  | .probe => 0

/-- Raise the count of a class. -/
def Acks.raise (a : Acks) : AckClass → Acks
  | .store k => a.add k
  | .close => { a with closes := a.closes + 1 }
  | .probe => a

/-- A message of this firing is still in a send queue, where no HOLD keeps it or an earlier one (R346; log 66). -/
def Queues.unsentOf (q : Queues) (ser : BitVec 16) : Bool :=
  let free (l : List SendEntry) : Bool := (l.takeWhile fun e => e.by_.isNone).any fun e => e.ser = ser
  free q.sendReq || free q.sendRep

/-- A message that the running firing has sent is still to leave. -/
def Core.unsent (c : Core) : Bool := c.q.unsentOf (c.f.serial.setWidth 16)

/-- The firing whose stores a commit applies. -/
def Body.committer : Body → Option Agent
  | .commit a _ _ | .commitExt a _ => some a
  | _ => none

/-- A packet of this class may leave: its count stands below 63 (R329), and a commit follows the messages that its firing sent before it
(Table 12.4, Rel before St; log 66). -/
def Core.mayPost (c : Core) (cls : AckClass) (b : Body) : Bool :=
  decide (c.ack.count cls < 63) && !(b.committer.any fun a => c.q.unsentOf a.ser)

/-- A commit, a close or a probe leaves the core, or waits until it may and no earlier one waits. -/
def State.post (s : State) (dst : CoreId) (cls : AckClass) (b : Body) : State :=
  if s.core.ack.waiting = [] && s.core.mayPost cls b then
    (s.send dst .req b).mapC fun c => { c with ack := c.ack.raise cls }
  else s.mapC fun c => { c with ack := { c.ack with waiting := c.ack.waiting ++ [(dst, cls, b)] } }

/-- Packets that waited leave, oldest first, as far as they may. -/
def postWaiting : List (CoreId × AckClass × Body) → State → State
  | [], s => s.mapC fun c => { c with ack := { c.ack with waiting := [] } }
  | (dst, cls, b) :: r, s =>
    if s.core.mayPost cls b then
      postWaiting r ((s.send dst .req b).mapC fun c => { c with ack := c.ack.raise cls })
    else s.mapC fun c => { c with ack := { c.ack with waiting := (dst, cls, b) :: r } }

def State.postDue (s : State) : State := postWaiting s.core.ack.waiting s

/-- Send the commits of a region whose probes are granted, one per home, and count them (R108). -/
def sendCommits (ag : Agent) : List CoreId → State → State
  | [], s => s
  | h :: hs, s =>
    let sc := s.scopeOf h
    let bank := ((s.core.f.region.probed.find? fun x => x.tgt = h).map fun x => keyOff x.key / 8192).getD 0
    sendCommits ag hs (s.post h (.store sc) (.commit ag sc bank))

/-- The commit of a memory core's stores to external memory, at its own storer, which counts with the system (R108). -/
def sendExternal (ag : Agent) (ws : List (Nat × Bool × List Byte)) (s : State) : State :=
  if ws = [] then s else s.post s.core.id (.store 3) (.commitExt ag ws)

/-- Send close messages to the remote banks the region touched (R246). -/
def sendCloses (ag : Agent) (discard : Bool) : List (CoreId × Nat) → State → State
  | [], s => s
  | p :: ps, s => sendCloses ag discard ps (s.post p.1 .close (.close ag p.2 discard))

/-- End the open region, its probes granted: commits and closes go out, and its maps leave the own banks. -/
def State.endRegion (s : State) : State :=
  let ag := s.agent
  let r := s.core.f.region
  let s := sendExternal ag r.external (sendCommits ag r.homes (sendCloses ag false s.core.remoteTouched s))
  s.mapC fun c => c.closeOwn

/-- Open a region at the pc with a checkpoint of this live set (R277). -/
def State.openRegion (s : State) (live : Live) : State :=
  s.mapF fun f => { f with
    region := Region.fresh (f.region.gen + 1#8)
    ckpt := { regs := f.regs, live := live, ctl := f.ctl, pc := f.pc }
    wait := .none }

/-- What follows the end of a region. -/
def State.after (s : State) : After → State
  | .irrev => (s.openRegion .all).mapF fun f => { f with irrev := true }
  | .boundary live => s.openRegion live
  | .brk live code => (s.openRegion live).mapC fun c =>
      { c with phys := { c.phys with haltPending := c.phys.haltPending.or (some code) } }
  | .park tok r =>
    let s := s.openRegion .all
    let park (w : Wait) : State := s.mapC fun c => { c with
      busy := false
      q := { c.q with parked := c.q.parked ++ [⟨{ c.f with wait := w }, none, none, none, false⟩] } }
    match r, tok with
    | some (.cancelled _), _ => s.endFiring
    | some r, _ => park (.replied r [])
    | none, some k => park (.reply k [])
    | none, none => park .poll

/-- Send the probes of the held stores, behind the commits and closes of earlier regions (R108, R242); the banks they go to
join the touched set. -/
def sendProbes (ag : Agent) : List Held → State → State
  | [], s => s
  | h :: hs, s => sendProbes ag hs ((s.post h.tgt .probe (.probe s.token ag h.pc h.key h.data)).useToken)

/-- Add a bank to the region's touched set. -/
def Region.touch (r : Region) (p : CoreId × Nat) : Region :=
  if r.touched.contains p then r else { r with touched := r.touched ++ [p] }

/-- A region stop is on its way to the running firing (R245). -/
def State.stopDue (s : State) : Bool :=
  s.net.any fun k => k.dst = s.core.id && match k.body with
    | .regionStop a _ _ _ => a = s.agent
    | _ => false

/-- The region's probes are granted, and it ends; a region stop that is on its way to it comes first, so that each region which an
engine's write or a publish met takes its stop (R242, R245). -/
def State.granted (s : State) (next : After) : State :=
  if s.stopDue then s.setWait (.probes [] next) else s.endRegion.after next

/-- End the region and then go on as `next` says: at once when it holds no remote store, after its probes when it
does (R108). -/
def State.closeRegion (s : State) (next : After) : State :=
  let held := s.core.f.region.probed
  if held = [] then s.granted next
  else
    let toks := (List.range held.length).map (s.token + ·)
    let s := sendProbes s.agent held s
    s.mapF fun f => { f with
      wait := .probes toks next
      region := held.foldl (fun r h => match bankOf h.key with
        | some b => r.touch (h.tgt, b)
        | none => r) f.region }

/-- An irrevocable instruction: the region ends first, and the instruction goes on in a region of its own whose
checkpoint is the registers as they stand (R57, R277). -/
def irrevocably (s : State) (k : State → Out) : Out :=
  if s.core.f.irrev then k s
  else if s.core.f.region.probed = [] && !s.stopDue then k (s.endRegion.after .irrev)
  else .next (s.closeRegion .irrev)

/-- The drain of R109. -/
def draining (s : State) (k : State → Out) : Out := if s.core.ack.drained then k s else .next s.poll

/-- An operation that other agents can see follows the messages sent before it: it waits until they have left (Table 12.4, Rel before
St, Rel, At and E; log 66). -/
def messagesFirst (s : State) (k : State → Out) : Out := if s.core.unsent then .next s.poll else k s

/-- Move the pc past an instruction of `len` bytes. -/
def State.advance (s : State) (len : Nat) : State :=
  s.mapF fun f => { f with pc := f.pc + len, wait := .none }

/-- A revocable instruction is performed: the pc moves to `target`, and S marks a safe point there (R49, R99). -/
def State.retireAt (s : State) (target : Nat) (sp : Sp) : State :=
  let s := s.mapF fun f => { f with pc := target, wait := .none }
  match sp with
  | none => s
  | some m => s.closeRegion (.boundary (liveOf m))

def State.retire (s : State) (len : Nat) (sp : Sp) : State := s.retireAt (s.core.f.pc + len) sp

/-- An irrevocable instruction is performed: the boundary after it opens the next region with its live list, or
with the implicit full checkpoint (R49, R277). -/
def State.retireIrrev (s : State) (len : Nat) (sp : Sp) : State :=
  let s := s.mapF fun f => { f with pc := f.pc + len, wait := .none, irrev := false }
  s.closeRegion (.boundary (liveAfter sp))

/-- A guard of formats R, G and B (R37, R52): when it is false the instruction has no effect but to be passed. -/
def guarded (s : State) (g : BitVec 3) (sp : Sp) (k : State → Out) : Out :=
  if s.regs.getP g then k s else .next (s.advance (spLen sp))

/-! ### The I-store (R45, R46) -/

/-- The code that the firing fetches from: the core's I-store, or, of a handler of system software, code whose place the spec leaves open
(DESIGN CHOICE, log 89). -/
def Core.code (c : Core) : Mems := if c.f.inSys then c.sysMem else c.mem

/-- Byte offset `a` is a parcel whose start bit is set, inside the I-store (R47). -/
def Core.startBit (c : Core) (a : Nat) : Bool := a % 2 = 0 && a ≤ 0x7FFE && !tget false c.code.noStart (a / 2)

/-- The parcel at a byte offset, low byte first (R45). -/
def Core.parcel (c : Core) (a : Nat) : Parcel := c.code.istore.get (a + 1) ++ c.code.istore.get a

/-- The instruction's parcels that lie inside the I-store, at most six (R45). -/
def Core.parcels (c : Core) (a : Nat) : Nat → List Parcel
  | 0 => []
  | n + 1 => if a ≤ 0x7FFE then c.parcel a :: c.parcels (a + 2) n else []

/-- Length in bytes of the instruction whose parcels these are, by the rule of R45 alone; none when it runs past the
I-store. -/
def parcelsLen : List Parcel → Option Nat
  | [] => none
  | p :: t =>
    if !p.getLsbD 0 then some 2
    else if t.length < 1 then none
    else if !p.getLsbD 1 then some 4
    else if t.length < 3 then none
    else if !(t.getD 1 0#16).getLsbD 0 then some 8
    else if t.length < 5 then none
    else some 12

/-- The start bits that a linear decode of loaded code from parcel `k` gives (R46): the parcels whose bit is clear. `n` counts
the parcels of code still to be decoded, `skip` those that the instruction begun last still covers. -/
def clearStarts (m : Memory) : Nat → Nat → Nat → List Nat
  | 0, k, skip => (List.range skip).map (k + ·)
  | n + 1, k, skip =>
    if skip > 0 then k :: clearStarts m n (k + 1) (skip - 1)
    else
      let at_ (j : Nat) : Byte := m.get (2 * j)
      let parcels :=
        if !(at_ k).getLsbD 0 then 1
        else if !(at_ k).getLsbD 1 then 2
        else if !(at_ (k + 2)).getLsbD 0 then 4 else 6
      if 16384 - k < parcels then (List.range (16384 - k)).map (k + ·)
      else clearStarts m n (k + 1) (parcels - 1)

/-- Consecutive bytes of parcels, low byte first (R45). -/
def parcelBytes : List Parcel → List Byte
  | [] => []
  | p :: ps => p.extractLsb' 0 8 :: p.extractLsb' 8 8 :: parcelBytes ps

/-- A handler set is loaded into the I-store and its start bits are decoded (R46). -/
def Mems.loadSet (m : Mems) (h : HSet) : Mems :=
  let istore := Memory.write [] 0 (parcelBytes h.code)
  { m with
    istore := istore
    noStart := (clearStarts istore h.code.length 0 0).foldl (fun t k => tset false t k true) [] }

/-! ### Discarded regions -/

/-- The open region is discarded with its held stores (R147, R279, R283): discard-closes go to the touched banks. -/
def State.discardRegion (s : State) : State :=
  let s := sendCloses s.agent true s.core.remoteTouched s
  s.mapC fun c => { c.closeOwn with f := { c.f with region := { c.f.region with held := [], touched := [] } } }

/-! ### Precise stops (R147, Table 7.7) -/

def causeIllegal : Nat := 1
def causeMisfetch : Nat := 2
def causeAlign : Nat := 3
def causeBound : Nat := 4
def causeMeter : Nat := 5
def causeScope : Nat := 6
def causeSqfull : Nat := 7
def causeCaprej : Nat := 8
def causeDepcycle : Nat := 9
def causePriv : Nat := 10
def causeTrap : Nat := 11
def causeConflict : Nat := 16
def causeAbsent : Nat := 17

/-- Handler-table fields (Table 7.6). -/
def hOffset (e : BitVec 128) : Nat := halfAt e 0
def hValid (e : BitVec 128) : Bool := bit e 16
def hSupervisor (e : BitVec 128) : Bool := bit e 17
def hShape (e : BitVec 128) (k : Nat) : Nat := halfAt e (4 + 2 * k)

/-- The handler table of the firing's mode (R17, R146). -/
def State.handlerTable (s : State) (smode : Bool) : Table (BitVec 128) :=
  if smode then s.dev.sysTable else s.core.tab.handlers

/-- The stop entry for a cause, if the firing's table holds a valid one. -/
def State.stopEntry (s : State) (cause : Nat) : Option Nat :=
  let e := tget 0#128 (s.handlerTable s.core.f.smode) (256 + cause)
  if hValid e then some (hOffset e) else none

/-- A firing ends by an unhandled stop: its region is discarded, a notice goes out, and SOS halts the core (R147,
R358). -/
def State.endStopped (s : State) (cause tpc : Nat) (addr : Word) : State :=
  let serial := s.core.f.serial
  let s := ((s.discardRegion).notice s.core.f.lhnd 1 cause 0 (some tpc) addr serial).endFiring
  if bit s.core.phys.hgrp 16 then
    s.mapC fun c => { c with phys := { c.phys with haltPending := c.phys.haltPending.or (some 2) } }
  else s

/-- DATA of a stop's record: TPC and the low bits of TADDR (Table 24.5). -/
def stopData (tpc : Nat) (addr : Word) : Word := BitVec.ofNat 64 (tpc % 2 ^ 15 + addr.toNat % 2 ^ 48 * 2 ^ 16)

/-- Raise a precise stop: TPC := `tpc`, TNPC := `tnpc`, TADDR := `addr`, and dispatch, or end the firing (R147). TPC and TNPC hold 15
bits: of an address past the end of the I-store they hold what those bits can (DESIGN CHOICE, log 88). -/
def State.stopWith (s : State) (cause tpc tnpc : Nat) (addr : Word) : State :=
  let s := s.trace 3 cause (stopData tpc addr)
  match (if s.core.f.ctl.act then none else s.stopEntry cause) with
  | some off =>
    if !s.core.startBit off then
      -- the entry offset is itself a MISFETCH (R47), taken with ACT = 1: a stop of its own, with its own record
      (s.trace 3 causeMisfetch (stopData off (BitVec.ofNat 64 off))).endStopped causeMisfetch off (BitVec.ofNat 64 off)
    else s.mapF fun f => { f with
      pc := off
      wait := .none
      irrev := false
      ctl := { f.ctl with
        act := true
        cause := BitVec.ofNat 8 cause
        tpc := BitVec.ofNat 15 tpc
        tnpc := BitVec.ofNat 15 tnpc
        taddr := addr } }
  | none => s.endStopped cause tpc addr

/-- Raise a precise stop at the instruction at the pc, whose length is `len` bytes. -/
def State.stop (s : State) (cause len : Nat) (addr : Word) : State :=
  s.stopWith cause s.core.f.pc (s.core.f.pc + len) addr

/-- TRET: the return from a stop entry clears ACT and goes on at TPC or TNPC (R149). -/
def State.returnFrom (s : State) (toNext : Bool) : State :=
  s.mapF fun f => { f with
    pc := if toNext then f.ctl.tnpc.toNat else f.ctl.tpc.toNat
    ctl := { f.ctl with act := false }
    wait := .none }

/-! ### Region stops (R279) -/

/-- RSPC as a region stop writes it (Table 15.2). -/
def rspcWord (cause count pc : Nat) : Word := BitVec.ofNat 64 (cause * 2 ^ 56 + count * 2 ^ 40 + pc % 2 ^ 15)

/-- What the checkpoint restores, and no more (R279, R106, R151). -/
def Firing.restore (f : Firing) : Firing :=
  { f with
    regs := f.regs.restore f.ckpt.regs f.ckpt.live
    ctl := f.ckpt.ctl
    pc := f.ckpt.pc
    region := Region.fresh (f.region.gen + 1#8)
    irrev := false }

/-- The firing after a region stop: what the checkpoint restores, the report, and, after a conflict, the sector's address in
TADDR (R279, R245, Tables 15.2 to 15.4; log 65). -/
def Firing.stopped (f : Firing) (cause pc : Nat) (addr other : Word) : Firing :=
  let r := f.restore
  { r with
    ctl := if cause = causeConflict then { r.ctl with taddr := addr } else r.ctl
    rspc := rspcWord cause (Nat.min (field f.rspc 40 16 + 1) 0xFFFF) pc
    rsaddr := addr
    rsagent := other }

/-- A region stop of the running firing. ABSENT requeues it until the window can be touched, or until the walk's
answer; MMCONFLICT makes it wait for its back-off. -/
def State.regionStop (s : State) (cause pc : Nat) (addr other : Word) (win : Option (BitVec 4)) (walk : Option Nat) :
    State :=
  let s := s.discardRegion
  let s := s.mapF fun f => { f.stopped cause pc addr other with wait := .backoff }
  let s := s.trace 4 cause addr
  if cause = causeAbsent then
    s.mapC fun c => { c with
      busy := false
      q := { c.q with parked := c.q.parked ++ [⟨{ c.f with wait := Wait.none }, win, walk, none, false⟩] } }
  else s

/-- Key of the first of these sectors that an access meets in an entry. -/
def Scrim.hitKey (e : Scrim) (secs : List (Nat × Nat)) (write : Bool) : Nat :=
  match secs.find? (fun p => e.hits [p] write true) with
  | some p => sectorKey p.1 p.2
  | none => 0

/-- A region stop for a conflict met by the running firing's own access on its own core (R245). -/
def State.conflictStop (s : State) (e : Scrim) (key : Nat) : State :=
  s.regionStop causeConflict s.core.f.pc (sectorPtr s.dev.part s.core.id (s.core.phys' key)) (agentWord s.dev.part.memEntry e.agent)
    none none

/-- A region stop of the agent of a foreign open entry, wherever it runs: at once on this core, by a packet on REP
elsewhere (R245). -/
def State.stopAgent (s : State) (e : Scrim) (key pc : Nat) (other : Word) : State :=
  let addr := sectorPtr s.dev.part s.core.id (s.core.phys' key)
  if e.agent.id = s.core.id then
    if s.core.busy && s.core.agent = e.agent then s.regionStop causeConflict pc addr other none none
    else s.mapC fun c => { c with scrim := c.scrim.filter fun x => x.agent ≠ e.agent || x.closing }
  else s.send e.agent.id .rep (.regionStop e.agent addr other pc)

/-- The firing ends its region here as a safe point with every register live: a split (R248), a forced safe point
(R284), or the implicit full checkpoint (R278). -/
def State.split (s : State) : State := s.closeRegion (.boundary .all)

end Sys2Proof.Machine
end

