-- ==== Sys2Proof/Machine/Fabric.lean ====
section
/-!
DEFINITION. Sys2Proof/Machine/Fabric.lean: distances on the physical placement and what replies carry back (R97, R321,
R325 to R329).
-/
namespace Sys2Proof.Machine

/-- Mesh links between two sites (R321). -/
def linksBetween (a b : Site) : Nat :=
  ((a.px.toNat : Int) - b.px.toNat).natAbs + ((a.py.toNat : Int) - b.py.toNat).natAbs

/-- Die crossings between two sites: every 34 columns and every 64 rows (R321). -/
def crossingsBetween (a b : Site) : Nat :=
  ((a.px.toNat / 34 : Nat) - (b.px.toNat / 34 : Nat) : Int).natAbs
    + ((a.py.toNat / 64 : Nat) - (b.py.toNat / 64 : Nat) : Int).natAbs

/-- Distance on the physical placement in eighths (R97). -/
def actEighths (org dst : Site) (hops : Nat) : Nat :=
  4 * linksBetween org dst + 32 * crossingsBetween org dst + 512 * hops

/-- Device number and coordinates of a core as a pointer names them. -/
def destFields (p : Partition) : CoreId → Nat × Nat × Nat
  | .mesh x y => (0, x.toNat, y.toNat)
  | .far d x y => (d.toNat, x.toNat, y.toNat)
  | .memory die i => (0, p.memEntry (.memory die i), 0xFF)
  | .pager _ _ | .control | .port _ => (0, 0, 0)

/-! ### Flits (R318) -/

/-- VN of a network (Table 19.1). -/
def Net.vn : Net → Nat
  | .req => 0
  | .rep => 1
  | .data => 2
  | .reloc => 3
  | .sys => 4

/-- KIND of a packet (Table 19.1). -/
def Body.kind : Body → Nat
  | .msg _ _ _ _ _ _ | .jobStart _ => 0
  | .access _ _ _ _ _ _ _ | .cb _ _ _ _ _ _ | .probe _ _ _ _ _ | .split _ | .pull _ _ _ _ _ | .bump _ _ _ _ _ | .mcmd _ => 1
  | .reply _ _ _ _ | .ack _ _ _ | .closeAck _ | .regionStop _ _ _ _ | .accepted _ | .copied _ _ _ _ | .mcmdDone _ _ _ _ => 2
  | .commit _ _ _ | .commitExt _ _ | .close _ _ _ => 3
  | .flit h _ _ | .flitFail h _ _ => if halfAt h.view.box 26 = 0 then 4 else 5
  | .store _ _ _ _ => 4
  | .mapUpd _ _ _ _ _ => 5
  | .marker _ => 6
  | .watch _ _ _ _ _ | .watchUpd _ _ _ _ _ | .pageFault _ _ _ _ | .halt | .haltGroup _ | .moveReq _ _ | .moveRefused _
  | .trace _ _ => 7

/-- Bytes of payload that a packet carries in its flits: a message's header and arguments (R117), the latch and words of a matrix
command (R199), the cursor of a pull beside the request (R312), what a push brings and what a pop or another read takes back, with the
trailer (R125, R326), and at most one flit for the rest. -/
def Body.payload : Body → Nat
  | .msg _ args _ _ _ _ | .jobStart args => 8 + 8 * args.length
  | .mcmd r => 16 + r.a.rows.length * (8 * (r.at_ % 16) + 2)
  | .pull _ _ _ _ _ => 64 + 128
  | .cb _ _ _ (.push ws) _ _ => 8 + 8 * ws.length
  | .reply _ (.words ws) _ _ => 8 * ws.length + 8
  | .reply _ (.data bytes) _ _ => bytes.length + 8
  | .flit _ _ bytes => bytes.length
  | _ => 64

/-- Flits of a packet (R318): eight arguments take a second one. -/
def Packet.flits (k : Packet) : Nat := Nat.max 1 ((k.body.payload + 63) / 64)

/-- The sideband of flit `i` of a packet (Table 19.1). -/
def Packet.sideband (p : Partition) (k : Packet) (i : Nat) : Word :=
  let (_, sx, sy) := destFields p k.src
  -- 0 for this device, or else the system's number of the other one
  let number (c : CoreId) : Nat := match c with
    | .far n _ _ => ((p.devEntry n.toNat).map fun e => e.ddev.toNat).getD 0
    | .mesh _ _ | .memory _ _ | .pager _ _ | .control | .port _ => 0
  let ddev := number k.dst
  let sd := number k.src
  let mport := match k.dst with
    | .memory _ _ | .pager _ _ => 1
    | .far _ _ y => if y = 0xFF#8 then 1 else 0
    | .mesh _ _ | .control | .port _ => 0
  BitVec.ofNat 64 ((if k.fwd then Net.reloc.vn else k.net.vn) * 2 ^ 61 + (if i = 0 then 2 ^ 60 else 0)
    + (if i + 1 = k.flits then 2 ^ 59 else 0) + k.site.py.toNat % 256 * 2 ^ 51 + k.site.px.toNat % 256 * 2 ^ 43
    + ddev % 128 * 2 ^ 36 + sx % 256 * 2 ^ 28 + sy % 256 * 2 ^ 20 + sd % 128 * 2 ^ 13 + k.body.kind * 2 ^ 9 + mport * 2 ^ 8)

/-! ### Trailers (R326 to R328) -/

/-- Links and die crossings along a path of sites. -/
def pathCost : List Site → Nat × Nat
  | a :: b :: r =>
    let c := pathCost (b :: r)
    (linksBetween a b + c.1, crossingsBetween a b + c.2)
  | _ => (0, 0)

/-- Index of the delay accumulator of an access (R328). -/
def daccIndex (p : Partition) (dst : CoreId) (bank : Nat) : Nat :=
  let (d, x, y) := destFields p dst
  (x + 5 * y + 11 * bank + 13 * d) % 32

/-- Device links between this device and a core (R324). -/
def Partition.deviceHops (p : Partition) : CoreId → Nat
  | .far k _ _ => ((p.devEntry k.toNat).map fun e => e.route.length).getD 0
  | _ => 0

/-- The trailer of an answer of the focused core to a packet that `src` sent (R326): its outward path, through the sites that it
left, and the accumulator index of the access's destination and bank (R328). -/
def State.trailer (s : State) (path : List Site) (src : CoreId) (bank : Nat) (n : Option Nat) (ser : BitVec 16) : Trailer :=
  let (l, x) := pathCost (path ++ [s.core.site])
  { links := l
    xing := x
    devs := s.dev.part.deviceHops src
    back := 0
    idx := daccIndex s.dev.part s.core.id bank
    n := n
    ser := ser }

/-- HOPS of a trailer: the round trip (Table 19.3). -/
def Trailer.hops (t : Trailer) : Nat := Nat.min 0xFFFF (t.links + 4 * t.xing + 160 * t.devs + t.back)

/-- The return path adds its hops: the sites that the answer left, to this one (R326). -/
def Trailer.return (p : Partition) (src : CoreId) (path : List Site) (t : Trailer) : Trailer :=
  let (l, x) := pathCost path
  { t with back := t.back + l + 4 * x + 160 * p.deviceHops src }

/-- The trailer in payload bytes 56 to 63 (Table 19.3), with the cycles spent waiting on both paths. -/
def Trailer.word (t : Trailer) (qw : BitVec 16) : Word :=
  BitVec.ofNat 64 (qw.toNat * 2 ^ 48 + t.hops * 2 ^ 32 + t.devs % 16 * 2 ^ 18 + t.xing % 16 * 2 ^ 14 + t.links % 1024 * 2 ^ 4)

def trQw (w : Word) : Nat := field w 48 16
def trHops (w : Word) : Nat := field w 32 16
def trAdh (w : Word) : Nat := field w 18 4
def trAxd (w : Word) : Nat := field w 14 4
def trAlnk (w : Word) : Nat := field w 4 10

/-- The actual charge that a trailer reports for an access of this payload (R327). -/
def actualCharge (n : Option Nat) (w : Word) : Nat :=
  match n with
  | none => 0
  | some n => (8 * n + 64) * (4 * trAlnk w + 32 * trAxd w + 512 * trAdh w)

/-- The place that an answer of another device takes (R325): the access it names, or the oldest commit there. -/
def Core.placeFor (c : Core) (src : CoreId) (tok : Option Nat) : Option AnswerPlace :=
  c.places.find? fun x => x.dst = src && x.tok = tok

/-- A trailer as the reply unit reads it: what another device cannot know comes from the place that was kept (R325 to R328). The
bank of a CB's slot is the home's to tell: the answer brings it (log 10). -/
def Core.settleTrailer (p : Partition) (c : Core) (src : CoreId) (tok : Option Nat) (t : Trailer) : Trailer :=
  match src with
  | .far _ _ _ => match c.placeFor src tok with
    | some x => { t with idx := daccIndex p src (x.bank.getD (t.idx % 16)), n := x.n, ser := x.ser, devs := p.deviceHops src }
    | none => { t with idx := daccIndex p src 16, n := none, devs := p.deviceHops src }
  | .mesh _ _ | .memory _ _ | .pager _ _ | .control | .port _ => t

/-- The place is free once its answer has come. -/
def Core.freePlace (c : Core) (src : CoreId) (tok : Option Nat) : Core :=
  match c.placeFor src tok with
  | some x => { c with places := c.places.erase x }
  | none => c

/-- The reply unit takes a trailer: the delay accumulator always, MACT while the firing has not ended (R327, R328). -/
def Core.account (c : Core) (t : Trailer) (qw : BitVec 16) : Core :=
  let j := t.idx % 32
  let w := t.word qw
  let phys := { c.phys with dacc := c.phys.dacc.setIfInBounds j (satAdd (c.phys.dacc.getD j 0#64) (trHops w + trQw w)) }
  let pay (f : Firing) : Firing :=
    if f.serial.setWidth 16 = t.ser then { f with mact := satAdd f.mact (actualCharge t.n w) } else f
  { c with
    phys := phys
    f := if c.busy then pay c.f else c.f
    q := { c.q with parked := c.q.parked.map fun p => { p with f := pay p.f } } }

/-- The reply unit takes the trailer of an answer from `src`, to the access with this token if it has one. A close, a copy and a
remote matrix command keep no place (`kept` false). -/
def State.takeTrailer (s : State) (src : CoreId) (tok : Option Nat) (kept : Bool) (path : List Site) (t : Trailer)
    (qw : BitVec 16) : State :=
  s.mapC fun c =>
    let t := t.return s.dev.part src (path ++ [c.site])
    let t' := if kept then c.settleTrailer s.dev.part src tok t else
      ({ c with places := [] } : Core).settleTrailer s.dev.part src tok t
    (if kept then c.freePlace src tok else c).account t' qw

/-- Answer a request on REP (R325). -/
def State.answer (s : State) (dst : CoreId) (tok : Nat) (r : Reply) (low : Option Nat) (t : Trailer) : State :=
  s.send dst .rep (.reply tok r low t)

end Sys2Proof.Machine
end

