-- ==== Sys2Proof/Decode.lean ====
section
/-!
DEFINITION. Sys2Proof/Decode.lean: the decoder (R45, R48, R50, R56, R58, R60), total on any list of parcels and
rejecting by name, and the encoder, both written from the spec's encoding tables. A parcel is 16 bits; the list
starts at the instruction's first parcel.
-/
namespace Sys2Proof

/-- Why a run of parcels is no instruction (R60). -/
inductive Reject where
  /-- Major opcode marked reserved in Table 3.6. -/
  | reservedMajor
  /-- Function value reserved or absent from its row of Table 3.6. -/
  | reservedFunction
  /-- A field the entry declares unused, or a fixed subfield, is nonzero or of another value. -/
  | unusedField
  /-- Compact opcode 0 or 19 to 31 (R58). -/
  | reservedCompact
  /-- Bit 0 of the second mask word is set (R48); carries that mask word. -/
  | badMask (m : BitVec 32)
  /-- The list ends before the instruction or its mask words do (R47). -/
  | truncated
deriving DecidableEq, Repr

/-- Bit 1 of a 32-bit instruction: 1 exactly when it marks a safe point (R45). -/
def safeBit : Sp → BitVec 1
  | none => 0#1
  | some _ => 1#1

/-- A 32-bit word as two parcels, low parcel first (R45). -/
def parcelsOf (w : BitVec 32) : List (BitVec 16) := [w.extractLsb' 0 16, w.extractLsb' 16 16]

/-- The mask words that follow an instruction (R48). -/
def maskParcels : Sp → List (BitVec 16)
  | none => []
  | some (m, none) => parcelsOf m
  | some (m, some k) => parcelsOf m ++ parcelsOf k

/-- A 32-bit instruction with its mask words, as parcels. -/
def words32 (w : BitVec 32) (sp : Sp) : List (BitVec 16) := parcelsOf w ++ maskParcels sp

/-- Major 0x00, format R (Table 3.6). -/
def decodeMajor00 (w : BitVec 32) (sp : Sp) : Except Reject Instr :=
  if w.extractLsb' 23 6 = 0#6 then
    .ok (.add (w.extractLsb' 29 3) (w.extractLsb' 18 5) (w.extractLsb' 13 5) (w.extractLsb' 8 5) sp)
  else
  if w.extractLsb' 23 6 = 1#6 then
    .ok (.sub (w.extractLsb' 29 3) (w.extractLsb' 18 5) (w.extractLsb' 13 5) (w.extractLsb' 8 5) sp)
  else
  if w.extractLsb' 23 6 = 2#6 then
    .ok (.mul (w.extractLsb' 29 3) (w.extractLsb' 18 5) (w.extractLsb' 13 5) (w.extractLsb' 8 5) sp)
  else
  if w.extractLsb' 23 6 = 3#6 then
    .ok (.mulh (w.extractLsb' 29 3) (w.extractLsb' 18 5) (w.extractLsb' 13 5) (w.extractLsb' 8 5) sp)
  else
  if w.extractLsb' 23 6 = 4#6 then
    .ok (.mulhn (w.extractLsb' 29 3) (w.extractLsb' 18 5) (w.extractLsb' 13 5) (w.extractLsb' 8 5) sp)
  else
  if w.extractLsb' 23 6 = 5#6 then
    .ok (.div (w.extractLsb' 29 3) (w.extractLsb' 18 5) (w.extractLsb' 13 5) (w.extractLsb' 8 5) sp)
  else
  if w.extractLsb' 23 6 = 6#6 then
    .ok (.divn (w.extractLsb' 29 3) (w.extractLsb' 18 5) (w.extractLsb' 13 5) (w.extractLsb' 8 5) sp)
  else
  if w.extractLsb' 23 6 = 7#6 then
    .ok (.rem (w.extractLsb' 29 3) (w.extractLsb' 18 5) (w.extractLsb' 13 5) (w.extractLsb' 8 5) sp)
  else
  if w.extractLsb' 23 6 = 8#6 then
    .ok (.remn (w.extractLsb' 29 3) (w.extractLsb' 18 5) (w.extractLsb' 13 5) (w.extractLsb' 8 5) sp)
  else
  if w.extractLsb' 23 6 = 9#6 then
    .ok (.and (w.extractLsb' 29 3) (w.extractLsb' 18 5) (w.extractLsb' 13 5) (w.extractLsb' 8 5) sp)
  else
  if w.extractLsb' 23 6 = 10#6 then
    .ok (.or (w.extractLsb' 29 3) (w.extractLsb' 18 5) (w.extractLsb' 13 5) (w.extractLsb' 8 5) sp)
  else
  if w.extractLsb' 23 6 = 11#6 then
    .ok (.xor (w.extractLsb' 29 3) (w.extractLsb' 18 5) (w.extractLsb' 13 5) (w.extractLsb' 8 5) sp)
  else
  if w.extractLsb' 23 6 = 12#6 then
    .ok (.shl (w.extractLsb' 29 3) (w.extractLsb' 18 5) (w.extractLsb' 13 5) (w.extractLsb' 8 5) sp)
  else
  if w.extractLsb' 23 6 = 13#6 then
    .ok (.shr (w.extractLsb' 29 3) (w.extractLsb' 18 5) (w.extractLsb' 13 5) (w.extractLsb' 8 5) sp)
  else
  if w.extractLsb' 23 6 = 14#6 then
    .ok (.sha (w.extractLsb' 29 3) (w.extractLsb' 18 5) (w.extractLsb' 13 5) (w.extractLsb' 8 5) sp)
  else
  if w.extractLsb' 23 6 = 15#6 then
    .ok (.rotl (w.extractLsb' 29 3) (w.extractLsb' 18 5) (w.extractLsb' 13 5) (w.extractLsb' 8 5) sp)
  else
  if w.extractLsb' 23 6 = 16#6 then
    .ok (.min (w.extractLsb' 29 3) (w.extractLsb' 18 5) (w.extractLsb' 13 5) (w.extractLsb' 8 5) sp)
  else
  if w.extractLsb' 23 6 = 17#6 then
    .ok (.max (w.extractLsb' 29 3) (w.extractLsb' 18 5) (w.extractLsb' 13 5) (w.extractLsb' 8 5) sp)
  else
  if w.extractLsb' 23 6 = 18#6 then
    .ok (.minn (w.extractLsb' 29 3) (w.extractLsb' 18 5) (w.extractLsb' 13 5) (w.extractLsb' 8 5) sp)
  else
  if w.extractLsb' 23 6 = 19#6 then
    .ok (.maxn (w.extractLsb' 29 3) (w.extractLsb' 18 5) (w.extractLsb' 13 5) (w.extractLsb' 8 5) sp)
  else
  if w.extractLsb' 23 6 = 20#6 then
    if w.extractLsb' 18 5 = 0#5 then .ok (.clz (w.extractLsb' 29 3) (w.extractLsb' 13 5) (w.extractLsb' 8 5) sp) else
    .error .unusedField
  else
  if w.extractLsb' 23 6 = 21#6 then
    if w.extractLsb' 18 5 = 0#5 then .ok (.ctz (w.extractLsb' 29 3) (w.extractLsb' 13 5) (w.extractLsb' 8 5) sp) else
    .error .unusedField
  else
  if w.extractLsb' 23 6 = 22#6 then
    if w.extractLsb' 18 5 = 0#5 then .ok (.popc (w.extractLsb' 29 3) (w.extractLsb' 13 5) (w.extractLsb' 8 5) sp) else
    .error .unusedField
  else
  if w.extractLsb' 23 6 = 23#6 then
    if w.extractLsb' 18 5 = 0#5 then .ok (.bswap (w.extractLsb' 29 3) (w.extractLsb' 13 5) (w.extractLsb' 8 5) sp) else
    .error .unusedField
  else
  if w.extractLsb' 23 6 = 24#6 then
    .ok (.sel (w.extractLsb' 29 3) (w.extractLsb' 18 5) (w.extractLsb' 13 5) (w.extractLsb' 8 5) sp)
  else
  .error .reservedFunction

/-- Major 0x01, format I (Table 3.6). -/
def decodeMajor01 (w : BitVec 32) (sp : Sp) : Except Reject Instr :=
  .ok (.addi (w.extractLsb' 18 14) (w.extractLsb' 13 5) (w.extractLsb' 8 5) sp)

/-- Major 0x02, format I (Table 3.6). -/
def decodeMajor02 (w : BitVec 32) (sp : Sp) : Except Reject Instr :=
  .ok (.andi (w.extractLsb' 18 14) (w.extractLsb' 13 5) (w.extractLsb' 8 5) sp)

/-- Major 0x03, format I (Table 3.6). -/
def decodeMajor03 (w : BitVec 32) (sp : Sp) : Except Reject Instr :=
  .ok (.ori (w.extractLsb' 18 14) (w.extractLsb' 13 5) (w.extractLsb' 8 5) sp)

/-- Major 0x04, format I (Table 3.6). -/
def decodeMajor04 (w : BitVec 32) (sp : Sp) : Except Reject Instr :=
  .ok (.xori (w.extractLsb' 18 14) (w.extractLsb' 13 5) (w.extractLsb' 8 5) sp)

/-- Major 0x05, format I (Table 3.6). -/
def decodeMajor05 (w : BitVec 32) (sp : Sp) : Except Reject Instr :=
  if w.extractLsb' 24 8 = 0#8 then .ok (.shli (w.extractLsb' 18 6) (w.extractLsb' 13 5) (w.extractLsb' 8 5) sp) else
  .error .unusedField

/-- Major 0x06, format I (Table 3.6). -/
def decodeMajor06 (w : BitVec 32) (sp : Sp) : Except Reject Instr :=
  if w.extractLsb' 24 8 = 0#8 then .ok (.shri (w.extractLsb' 18 6) (w.extractLsb' 13 5) (w.extractLsb' 8 5) sp) else
  .error .unusedField

/-- Major 0x07, format I (Table 3.6). -/
def decodeMajor07 (w : BitVec 32) (sp : Sp) : Except Reject Instr :=
  if w.extractLsb' 24 8 = 0#8 then .ok (.shai (w.extractLsb' 18 6) (w.extractLsb' 13 5) (w.extractLsb' 8 5) sp) else
  .error .unusedField

/-- Major 0x08, format R (Table 3.6). -/
def decodeMajor08 (w : BitVec 32) (sp : Sp) : Except Reject Instr :=
  if w.extractLsb' 27 2 = 0#2 then .ok (.cmp (w.extractLsb' 29 3) (w.extractLsb' 23 4) (w.extractLsb' 18 5) (w.extractLsb' 13 5) (w.extractLsb' 8 5) sp) else
  .error .unusedField

/-- Major 0x09, format C (Table 3.6). -/
def decodeMajor09 (w : BitVec 32) (sp : Sp) : Except Reject Instr :=
  .ok (.cmpi (w.extractLsb' 22 10) (w.extractLsb' 18 4) (w.extractLsb' 13 5) (w.extractLsb' 8 5) sp)

/-- Major 0x0A, format R (Table 3.6). -/
def decodeMajor0A (w : BitVec 32) (sp : Sp) : Except Reject Instr :=
  if w.extractLsb' 27 2 = 0#2 then .ok (.plog (w.extractLsb' 29 3) (w.extractLsb' 23 4) (w.extractLsb' 18 5) (w.extractLsb' 13 5) (w.extractLsb' 8 5) sp) else
  .error .unusedField

/-- Major 0x0B, format U (Table 3.6). -/
def decodeMajor0B (w : BitVec 32) (sp : Sp) : Except Reject Instr :=
  .ok (.movi (w.extractLsb' 13 19) (w.extractLsb' 8 5) sp)

/-- Major 0x0C, format U (Table 3.6). -/
def decodeMajor0C (w : BitVec 32) (sp : Sp) : Except Reject Instr :=
  .ok (.movhi (w.extractLsb' 13 19) (w.extractLsb' 8 5) sp)

/-- Major 0x0D, format F (Table 3.6). -/
def decodeMajor0D (w : BitVec 32) (sp : Sp) : Except Reject Instr :=
  if w.extractLsb' 30 2 = 0#2 then
    .ok (.ext (w.extractLsb' 24 6) (w.extractLsb' 18 6) (w.extractLsb' 13 5) (w.extractLsb' 8 5) sp)
  else
  if w.extractLsb' 30 2 = 1#2 then
    .ok (.ins (w.extractLsb' 24 6) (w.extractLsb' 18 6) (w.extractLsb' 13 5) (w.extractLsb' 8 5) sp)
  else
  .error .reservedFunction

/-- Major 0x0E, format R (Table 3.6). -/
def decodeMajor0E (w : BitVec 32) (sp : Sp) : Except Reject Instr :=
  if w.extractLsb' 23 6 = 0#6 then
    if w.extractLsb' 20 3 = 0#3 then .ok (.mkptr (w.extractLsb' 29 3) (w.extractLsb' 18 2) (w.extractLsb' 13 5) (w.extractLsb' 8 5) sp) else
    .error .unusedField
  else
  if w.extractLsb' 23 6 = 1#6 then
    .ok (.ptrget (w.extractLsb' 29 3) (w.extractLsb' 18 5) (w.extractLsb' 13 5) (w.extractLsb' 8 5) sp)
  else
  if w.extractLsb' 23 6 = 2#6 then
    .ok (.ptradd (w.extractLsb' 29 3) (w.extractLsb' 18 5) (w.extractLsb' 13 5) (w.extractLsb' 8 5) sp)
  else
  if w.extractLsb' 23 6 = 3#6 then
    .ok (.dist (w.extractLsb' 29 3) (w.extractLsb' 18 5) (w.extractLsb' 13 5) (w.extractLsb' 8 5) sp)
  else
  if w.extractLsb' 23 6 = 4#6 then
    .ok (.dista (w.extractLsb' 29 3) (w.extractLsb' 18 5) (w.extractLsb' 13 5) (w.extractLsb' 8 5) sp)
  else
  .error .reservedFunction

/-- Major 0x10, format M (Table 3.6). -/
def decodeMajor10 (w : BitVec 32) (sp : Sp) : Except Reject Instr :=
  .ok (.ld (w.extractLsb' 21 11) (w.extractLsb' 18 3) (w.extractLsb' 13 5) (w.extractLsb' 8 5) sp)

/-- Major 0x11, format M (Table 3.6). -/
def decodeMajor11 (w : BitVec 32) (sp : Sp) : Except Reject Instr :=
  .ok (.st (w.extractLsb' 21 11) (w.extractLsb' 18 3) (w.extractLsb' 13 5) (w.extractLsb' 8 5) sp)

/-- Major 0x12, format R (Table 3.6). -/
def decodeMajor12 (w : BitVec 32) (sp : Sp) : Except Reject Instr :=
  if w.extractLsb' 26 1 = 0#1 then
    .ok (.ldx (w.extractLsb' 29 3) (w.extractLsb' 27 2) (w.extractLsb' 23 3) (w.extractLsb' 18 5) (w.extractLsb' 13 5) (w.extractLsb' 8 5) sp)
  else
  if w.extractLsb' 26 1 = 1#1 then
    .ok (.stx (w.extractLsb' 29 3) (w.extractLsb' 27 2) (w.extractLsb' 23 3) (w.extractLsb' 18 5) (w.extractLsb' 13 5) (w.extractLsb' 8 5) sp)
  else
  .error .reservedFunction

/-- Major 0x13, format M (Table 3.6). -/
def decodeMajor13 (w : BitVec 32) (sp : Sp) : Except Reject Instr :=
  .ok (.ldi (w.extractLsb' 21 11) (w.extractLsb' 18 3) (w.extractLsb' 13 5) (w.extractLsb' 8 5) sp)

/-- Major 0x14, format M (Table 3.6). -/
def decodeMajor14 (w : BitVec 32) (sp : Sp) : Except Reject Instr :=
  .ok (.ldp (w.extractLsb' 21 11) (w.extractLsb' 18 3) (w.extractLsb' 13 5) (w.extractLsb' 8 5) sp)

/-- Major 0x15, format M (Table 3.6). -/
def decodeMajor15 (w : BitVec 32) (sp : Sp) : Except Reject Instr :=
  .ok (.stp (w.extractLsb' 21 11) (w.extractLsb' 18 3) (w.extractLsb' 13 5) (w.extractLsb' 8 5) sp)

/-- Major 0x16, format M (Table 3.6). -/
def decodeMajor16 (w : BitVec 32) (sp : Sp) : Except Reject Instr :=
  .ok (.lda (w.extractLsb' 21 11) (w.extractLsb' 18 3) (w.extractLsb' 13 5) (w.extractLsb' 8 5) sp)

/-- Major 0x17, format M (Table 3.6). -/
def decodeMajor17 (w : BitVec 32) (sp : Sp) : Except Reject Instr :=
  .ok (.stl (w.extractLsb' 21 11) (w.extractLsb' 18 3) (w.extractLsb' 13 5) (w.extractLsb' 8 5) sp)

/-- Major 0x18, format R (Table 3.6). -/
def decodeMajor18 (w : BitVec 32) (sp : Sp) : Except Reject Instr :=
  if w.extractLsb' 23 4 = 0#4 then
    if w.extractLsb' 28 1 = 0#1 then .ok (.aadd (w.extractLsb' 29 3) (w.extractLsb' 27 1) (w.extractLsb' 18 5) (w.extractLsb' 13 5) (w.extractLsb' 8 5) sp) else
    .error .unusedField
  else
  if w.extractLsb' 23 4 = 1#4 then
    if w.extractLsb' 28 1 = 0#1 then .ok (.aand (w.extractLsb' 29 3) (w.extractLsb' 27 1) (w.extractLsb' 18 5) (w.extractLsb' 13 5) (w.extractLsb' 8 5) sp) else
    .error .unusedField
  else
  if w.extractLsb' 23 4 = 2#4 then
    if w.extractLsb' 28 1 = 0#1 then .ok (.aor (w.extractLsb' 29 3) (w.extractLsb' 27 1) (w.extractLsb' 18 5) (w.extractLsb' 13 5) (w.extractLsb' 8 5) sp) else
    .error .unusedField
  else
  if w.extractLsb' 23 4 = 3#4 then
    if w.extractLsb' 28 1 = 0#1 then .ok (.axor (w.extractLsb' 29 3) (w.extractLsb' 27 1) (w.extractLsb' 18 5) (w.extractLsb' 13 5) (w.extractLsb' 8 5) sp) else
    .error .unusedField
  else
  if w.extractLsb' 23 4 = 4#4 then
    if w.extractLsb' 28 1 = 0#1 then .ok (.amin (w.extractLsb' 29 3) (w.extractLsb' 27 1) (w.extractLsb' 18 5) (w.extractLsb' 13 5) (w.extractLsb' 8 5) sp) else
    .error .unusedField
  else
  if w.extractLsb' 23 4 = 5#4 then
    if w.extractLsb' 28 1 = 0#1 then .ok (.amax (w.extractLsb' 29 3) (w.extractLsb' 27 1) (w.extractLsb' 18 5) (w.extractLsb' 13 5) (w.extractLsb' 8 5) sp) else
    .error .unusedField
  else
  if w.extractLsb' 23 4 = 6#4 then
    if w.extractLsb' 28 1 = 0#1 then .ok (.aminn (w.extractLsb' 29 3) (w.extractLsb' 27 1) (w.extractLsb' 18 5) (w.extractLsb' 13 5) (w.extractLsb' 8 5) sp) else
    .error .unusedField
  else
  if w.extractLsb' 23 4 = 7#4 then
    if w.extractLsb' 28 1 = 0#1 then .ok (.amaxn (w.extractLsb' 29 3) (w.extractLsb' 27 1) (w.extractLsb' 18 5) (w.extractLsb' 13 5) (w.extractLsb' 8 5) sp) else
    .error .unusedField
  else
  if w.extractLsb' 23 4 = 8#4 then
    if w.extractLsb' 28 1 = 0#1 then .ok (.aswp (w.extractLsb' 29 3) (w.extractLsb' 27 1) (w.extractLsb' 18 5) (w.extractLsb' 13 5) (w.extractLsb' 8 5) sp) else
    .error .unusedField
  else
  .error .reservedFunction

/-- Major 0x19, format R (Table 3.6). -/
def decodeMajor19 (w : BitVec 32) (sp : Sp) : Except Reject Instr :=
  if w.extractLsb' 28 1 = 0#1 ∧ w.extractLsb' 23 4 = 0#4 then .ok (.acas (w.extractLsb' 29 3) (w.extractLsb' 27 1) (w.extractLsb' 18 5) (w.extractLsb' 13 5) (w.extractLsb' 8 5) sp) else
  .error .unusedField

/-- Major 0x1A, format R (Table 3.6). -/
def decodeMajor1A (w : BitVec 32) (sp : Sp) : Except Reject Instr :=
  if w.extractLsb' 24 5 = 0#5 then .ok (.afadd (w.extractLsb' 29 3) (w.extractLsb' 23 1) (w.extractLsb' 18 5) (w.extractLsb' 13 5) (w.extractLsb' 8 5) sp) else
  .error .unusedField

/-- Major 0x1B, format R (Table 3.6). -/
def decodeMajor1B (w : BitVec 32) (sp : Sp) : Except Reject Instr :=
  if w.extractLsb' 23 6 = 0#6 then .ok (.aclaim (w.extractLsb' 29 3) (w.extractLsb' 18 5) (w.extractLsb' 13 5) (w.extractLsb' 8 5) sp) else
  .error .unusedField

/-- Major 0x1C, format R (Table 3.6). -/
def decodeMajor1C (w : BitVec 32) (sp : Sp) : Except Reject Instr :=
  if w.extractLsb' 25 4 = 0#4 ∧ w.extractLsb' 18 5 = 0#5 ∧ w.extractLsb' 13 5 = 0#5 ∧ w.extractLsb' 8 5 = 0#5 then .ok (.fence (w.extractLsb' 29 3) (w.extractLsb' 23 2) sp) else
  .error .unusedField

/-- Major 0x1D, format X (Table 3.6). -/
def decodeMajor1D (w : BitVec 32) (sp : Sp) : Except Reject Instr :=
  if w.extractLsb' 30 2 = 0#2 then
    .ok (.send (w.extractLsb' 22 8) (w.extractLsb' 18 4) (w.extractLsb' 13 5) (w.extractLsb' 8 5) sp)
  else
  if w.extractLsb' 30 2 = 1#2 then
    .ok (.sendt (w.extractLsb' 22 8) (w.extractLsb' 18 4) (w.extractLsb' 13 5) (w.extractLsb' 8 5) sp)
  else
  if w.extractLsb' 30 2 = 2#2 then
    .ok (.reply (w.extractLsb' 22 8) (w.extractLsb' 18 4) (w.extractLsb' 13 5) (w.extractLsb' 8 5) sp)
  else
  if w.extractLsb' 30 2 = 3#2 then
    if w.extractLsb' 22 8 = 0#8 ∧ w.extractLsb' 18 4 = 0#4 ∧ w.extractLsb' 13 5 = 0#5 then .ok (.msgq (w.extractLsb' 8 5) sp) else
    .error .unusedField
  else
  .error .reservedFunction

/-- Major 0x1E, format K (Table 3.6). -/
def decodeMajor1E (w : BitVec 32) (sp : Sp) : Except Reject Instr :=
  if w.extractLsb' 29 3 = 0#3 then
    .ok (.cbdef (w.extractLsb' 18 11) (w.extractLsb' 13 5) (w.extractLsb' 8 5) sp)
  else
  if w.extractLsb' 29 3 = 1#3 then
    if w.extractLsb' 27 2 = 0#2 then .ok (.cbwait (w.extractLsb' 18 9) (w.extractLsb' 13 5) (w.extractLsb' 8 5) sp) else
    .error .unusedField
  else
  if w.extractLsb' 29 3 = 2#3 then
    if w.extractLsb' 27 2 = 0#2 then .ok (.cbfree (w.extractLsb' 18 9) (w.extractLsb' 13 5) (w.extractLsb' 8 5) sp) else
    .error .unusedField
  else
  if w.extractLsb' 29 3 = 3#3 then
    if w.extractLsb' 27 2 = 0#2 ∧ w.extractLsb' 8 5 = 0#5 then .ok (.cbadvGet (w.extractLsb' 18 9) (w.extractLsb' 13 5) sp) else
    if w.extractLsb' 27 2 = 2#2 ∧ w.extractLsb' 8 5 = 0#5 then .ok (.cbadvPut (w.extractLsb' 18 9) (w.extractLsb' 13 5) sp) else
    .error .unusedField
  else
  if w.extractLsb' 29 3 = 4#3 then
    if w.extractLsb' 22 7 = 0#7 then .ok (.cbpush (w.extractLsb' 18 4) (w.extractLsb' 13 5) (w.extractLsb' 8 5) sp) else
    .error .unusedField
  else
  if w.extractLsb' 29 3 = 5#3 then
    if w.extractLsb' 22 7 = 0#7 then .ok (.cbpop (w.extractLsb' 18 4) (w.extractLsb' 13 5) (w.extractLsb' 8 5) sp) else
    .error .unusedField
  else
  if w.extractLsb' 29 3 = 6#3 then
    if w.extractLsb' 18 11 = 0#11 then .ok (.cbq (w.extractLsb' 13 5) (w.extractLsb' 8 5) sp) else
    .error .unusedField
  else
  .error .reservedFunction

/-- Major 0x20, format B (Table 3.6). -/
def decodeMajor20 (w : BitVec 32) (sp : Sp) : Except Reject Instr :=
  if w.extractLsb' 8 5 = 0#5 then .ok (.br (w.extractLsb' 16 16) (w.extractLsb' 13 3) sp) else
  .error .unusedField

/-- Major 0x21, format B (Table 3.6). -/
def decodeMajor21 (w : BitVec 32) (sp : Sp) : Except Reject Instr :=
  .ok (.brz (w.extractLsb' 16 16) (w.extractLsb' 13 3) (w.extractLsb' 8 5) sp)

/-- Major 0x22, format B (Table 3.6). -/
def decodeMajor22 (w : BitVec 32) (sp : Sp) : Except Reject Instr :=
  .ok (.brnz (w.extractLsb' 16 16) (w.extractLsb' 13 3) (w.extractLsb' 8 5) sp)

/-- Major 0x23, format U (Table 3.6). -/
def decodeMajor23 (w : BitVec 32) (sp : Sp) : Except Reject Instr :=
  if w.extractLsb' 8 5 = 0#5 then .ok (.j (w.extractLsb' 13 19) sp) else
  .error .unusedField

/-- Major 0x24, format U (Table 3.6). -/
def decodeMajor24 (w : BitVec 32) (sp : Sp) : Except Reject Instr :=
  .ok (.jl (w.extractLsb' 13 19) (w.extractLsb' 8 5) sp)

/-- Major 0x25, format R (Table 3.6). -/
def decodeMajor25 (w : BitVec 32) (sp : Sp) : Except Reject Instr :=
  if w.extractLsb' 23 6 = 0#6 then
    if w.extractLsb' 18 5 = 0#5 ∧ w.extractLsb' 8 5 = 0#5 then .ok (.jr (w.extractLsb' 29 3) (w.extractLsb' 13 5) sp) else
    .error .unusedField
  else
  if w.extractLsb' 23 6 = 1#6 then
    if w.extractLsb' 18 5 = 0#5 then .ok (.jlr (w.extractLsb' 29 3) (w.extractLsb' 13 5) (w.extractLsb' 8 5) sp) else
    .error .unusedField
  else
  .error .reservedFunction

/-- Major 0x26, format B (Table 3.6). -/
def decodeMajor26 (w : BitVec 32) (sp : Sp) : Except Reject Instr :=
  .ok (.loop (w.extractLsb' 16 16) (w.extractLsb' 13 3) (w.extractLsb' 8 5) sp)

/-- Major 0x27, format R (Table 3.6). -/
def decodeMajor27 (w : BitVec 32) (sp : Sp) : Except Reject Instr :=
  if w.extractLsb' 23 6 = 0#6 ∧ w.extractLsb' 18 5 = 0#5 ∧ w.extractLsb' 13 5 = 0#5 ∧ w.extractLsb' 8 5 = 0#5 then .ok (.fin (w.extractLsb' 29 3) sp) else
  .error .unusedField

/-- Major 0x28, format K (Table 3.6). -/
def decodeMajor28 (w : BitVec 32) (sp : Sp) : Except Reject Instr :=
  if w.extractLsb' 29 3 = 0#3 then
    if w.extractLsb' 13 5 = 0#5 then .ok (.actdef (w.extractLsb' 18 11) (w.extractLsb' 8 5) sp) else
    .error .unusedField
  else
  if w.extractLsb' 29 3 = 1#3 then
    .ok (.nestdef (w.extractLsb' 18 11) (w.extractLsb' 13 5) (w.extractLsb' 8 5) sp)
  else
  if w.extractLsb' 29 3 = 2#3 then
    .ok (.lnch (w.extractLsb' 18 11) (w.extractLsb' 13 5) (w.extractLsb' 8 5) sp)
  else
  if w.extractLsb' 29 3 = 3#3 then
    if w.extractLsb' 18 11 = 0#11 then .ok (.graph (w.extractLsb' 13 5) (w.extractLsb' 8 5) sp) else
    .error .unusedField
  else
  if w.extractLsb' 29 3 = 4#3 then
    if w.extractLsb' 18 11 = 0#11 ∧ w.extractLsb' 13 5 = 0#5 then .ok (.phase (w.extractLsb' 8 5) sp) else
    .error .unusedField
  else
  if w.extractLsb' 29 3 = 5#3 then
    if w.extractLsb' 18 11 = 0#11 ∧ w.extractLsb' 8 5 = 0#5 then .ok (.cncl (w.extractLsb' 13 5) sp) else
    .error .unusedField
  else
  if w.extractLsb' 29 3 = 6#3 then
    if w.extractLsb' 18 11 = 0#11 then .ok (.lwait (w.extractLsb' 13 5) (w.extractLsb' 8 5) sp) else
    .error .unusedField
  else
  .error .reservedFunction

/-- Major 0x29, format K (Table 3.6). -/
def decodeMajor29 (w : BitVec 32) (sp : Sp) : Except Reject Instr :=
  if w.extractLsb' 29 3 = 0#3 then
    if w.extractLsb' 18 11 = 0#11 then .ok (.waitc (w.extractLsb' 13 5) (w.extractLsb' 8 5) sp) else
    .error .unusedField
  else
  if w.extractLsb' 29 3 = 1#3 then
    if w.extractLsb' 8 5 = 0#5 then .ok (.waitt (w.extractLsb' 18 11) (w.extractLsb' 13 5) sp) else
    .error .unusedField
  else
  if w.extractLsb' 29 3 = 2#3 then
    .ok (.waita (w.extractLsb' 18 11) (w.extractLsb' 13 5) (w.extractLsb' 8 5) sp)
  else
  if w.extractLsb' 29 3 = 3#3 then
    .ok (.tfirst (w.extractLsb' 18 11) (w.extractLsb' 13 5) (w.extractLsb' 8 5) sp)
  else
  if w.extractLsb' 29 3 = 4#3 then
    if w.extractLsb' 8 5 = 0#5 then .ok (.tagclr (w.extractLsb' 18 11) (w.extractLsb' 13 5) sp) else
    .error .unusedField
  else
  if w.extractLsb' 29 3 = 5#3 then
    if w.extractLsb' 18 11 = 0#11 ∧ w.extractLsb' 13 5 = 0#5 ∧ w.extractLsb' 8 5 = 0#5 then .ok (.safe sp) else
    .error .unusedField
  else
  .error .reservedFunction

/-- Major 0x2A, format G (Table 3.6). -/
def decodeMajor2A (w : BitVec 32) (sp : Sp) : Except Reject Instr :=
  if w.extractLsb' 13 5 = 0#5 ∧ w.extractLsb' 8 5 = 0#5 then .ok (.trap (w.extractLsb' 29 3) (w.extractLsb' 18 11) sp) else
  .error .unusedField

/-- Major 0x2B, format K (Table 3.6). -/
def decodeMajor2B (w : BitVec 32) (sp : Sp) : Except Reject Instr :=
  if w.extractLsb' 29 3 = 0#3 then
    if w.extractLsb' 13 5 = 0#5 ∧ w.extractLsb' 8 5 = 0#5 then .ok (.tret (w.extractLsb' 18 11) sp) else
    .error .unusedField
  else
  if w.extractLsb' 29 3 = 1#3 then
    if w.extractLsb' 13 5 = 0#5 ∧ w.extractLsb' 8 5 = 0#5 then .ok (.brk (w.extractLsb' 18 11) sp) else
    .error .unusedField
  else
  if w.extractLsb' 29 3 = 2#3 then
    if w.extractLsb' 8 5 = 0#5 then .ok (.trace (w.extractLsb' 18 11) (w.extractLsb' 13 5) sp) else
    .error .unusedField
  else
  .error .reservedFunction

/-- Major 0x2C, format Z (Table 3.6). -/
def decodeMajor2C (w : BitVec 32) (sp : Sp) : Except Reject Instr :=
  if w.extractLsb' 30 2 = 0#2 then
    if w.extractLsb' 13 5 = 0#5 then .ok (.csrd (w.extractLsb' 18 12) (w.extractLsb' 8 5) sp) else
    .error .unusedField
  else
  if w.extractLsb' 30 2 = 1#2 then
    .ok (.cswr (w.extractLsb' 18 12) (w.extractLsb' 13 5) (w.extractLsb' 8 5) sp)
  else
  if w.extractLsb' 30 2 = 2#2 then
    .ok (.csset (w.extractLsb' 18 12) (w.extractLsb' 13 5) (w.extractLsb' 8 5) sp)
  else
  if w.extractLsb' 30 2 = 3#2 then
    .ok (.csclr (w.extractLsb' 18 12) (w.extractLsb' 13 5) (w.extractLsb' 8 5) sp)
  else
  .error .reservedFunction

/-- Major 0x2D, format K (Table 3.6). -/
def decodeMajor2D (w : BitVec 32) (sp : Sp) : Except Reject Instr :=
  if w.extractLsb' 29 3 = 0#3 then
    .ok (.capmint (w.extractLsb' 18 11) (w.extractLsb' 13 5) (w.extractLsb' 8 5) sp)
  else
  if w.extractLsb' 29 3 = 1#3 then
    if w.extractLsb' 18 11 = 0#11 ∧ w.extractLsb' 8 5 = 0#5 then .ok (.caprev (w.extractLsb' 13 5) sp) else
    .error .unusedField
  else
  .error .reservedFunction

/-- Major 0x2E, format K (Table 3.6). -/
def decodeMajor2E (w : BitVec 32) (sp : Sp) : Except Reject Instr :=
  if w.extractLsb' 29 3 = 0#3 then
    if w.extractLsb' 18 11 = 0#11 ∧ w.extractLsb' 8 5 = 0#5 then .ok (.halt (w.extractLsb' 13 5) sp) else
    .error .unusedField
  else
  if w.extractLsb' 29 3 = 1#3 then
    if w.extractLsb' 18 11 = 0#11 then .ok (.sleep (w.extractLsb' 13 5) (w.extractLsb' 8 5) sp) else
    .error .unusedField
  else
  if w.extractLsb' 29 3 = 2#3 then
    if w.extractLsb' 18 11 = 0#11 then .ok (.wfr (w.extractLsb' 13 5) (w.extractLsb' 8 5) sp) else
    .error .unusedField
  else
  if w.extractLsb' 29 3 = 3#3 then
    if w.extractLsb' 8 5 = 0#5 then .ok (.move (w.extractLsb' 18 11) (w.extractLsb' 13 5) sp) else
    .error .unusedField
  else
  .error .reservedFunction

/-- Major 0x30, format K (Table 3.6). -/
def decodeMajor30 (w : BitVec 32) (sp : Sp) : Except Reject Instr :=
  if w.extractLsb' 29 3 = 0#3 then
    .ok (.shld (w.extractLsb' 18 11) (w.extractLsb' 13 5) (w.extractLsb' 8 5) sp)
  else
  if w.extractLsb' 29 3 = 1#3 then
    if w.extractLsb' 18 11 = 0#11 then .ok (.shst (w.extractLsb' 13 5) (w.extractLsb' 8 5) sp) else
    .error .unusedField
  else
  if w.extractLsb' 29 3 = 2#3 then
    .ok (.shmod (w.extractLsb' 18 11) (w.extractLsb' 13 5) (w.extractLsb' 8 5) sp)
  else
  .error .reservedFunction

/-- Major 0x31, format V (Table 3.6). -/
def decodeMajor31 (w : BitVec 32) (sp : Sp) : Except Reject Instr :=
  if w.extractLsb' 28 4 = 0#4 then
    .ok (.vadd (w.extractLsb' 23 5) (w.extractLsb' 18 5) (w.extractLsb' 13 5) (w.extractLsb' 8 5) sp)
  else
  if w.extractLsb' 28 4 = 1#4 then
    .ok (.vsub (w.extractLsb' 23 5) (w.extractLsb' 18 5) (w.extractLsb' 13 5) (w.extractLsb' 8 5) sp)
  else
  if w.extractLsb' 28 4 = 2#4 then
    .ok (.vmul (w.extractLsb' 23 5) (w.extractLsb' 18 5) (w.extractLsb' 13 5) (w.extractLsb' 8 5) sp)
  else
  if w.extractLsb' 28 4 = 3#4 then
    .ok (.vfma (w.extractLsb' 23 5) (w.extractLsb' 18 5) (w.extractLsb' 13 5) (w.extractLsb' 8 5) sp)
  else
  if w.extractLsb' 28 4 = 4#4 then
    .ok (.vdiv (w.extractLsb' 23 5) (w.extractLsb' 18 5) (w.extractLsb' 13 5) (w.extractLsb' 8 5) sp)
  else
  if w.extractLsb' 28 4 = 5#4 then
    .ok (.vmin (w.extractLsb' 23 5) (w.extractLsb' 18 5) (w.extractLsb' 13 5) (w.extractLsb' 8 5) sp)
  else
  if w.extractLsb' 28 4 = 6#4 then
    .ok (.vmax (w.extractLsb' 23 5) (w.extractLsb' 18 5) (w.extractLsb' 13 5) (w.extractLsb' 8 5) sp)
  else
  if w.extractLsb' 28 4 = 7#4 then
    if w.extractLsb' 18 5 = 0#5 then .ok (.vabs (w.extractLsb' 23 5) (w.extractLsb' 13 5) (w.extractLsb' 8 5) sp) else
    .error .unusedField
  else
  if w.extractLsb' 28 4 = 8#4 then
    if w.extractLsb' 18 5 = 0#5 then .ok (.vneg (w.extractLsb' 23 5) (w.extractLsb' 13 5) (w.extractLsb' 8 5) sp) else
    .error .unusedField
  else
  if w.extractLsb' 28 4 = 9#4 then
    if w.extractLsb' 18 5 = 0#5 then .ok (.vrsq (w.extractLsb' 23 5) (w.extractLsb' 13 5) (w.extractLsb' 8 5) sp) else
    .error .unusedField
  else
  if w.extractLsb' 28 4 = 10#4 then
    if w.extractLsb' 18 5 = 0#5 then .ok (.vexp2 (w.extractLsb' 23 5) (w.extractLsb' 13 5) (w.extractLsb' 8 5) sp) else
    .error .unusedField
  else
  if w.extractLsb' 28 4 = 11#4 then
    if w.extractLsb' 18 5 = 0#5 then .ok (.vlog2 (w.extractLsb' 23 5) (w.extractLsb' 13 5) (w.extractLsb' 8 5) sp) else
    .error .unusedField
  else
  .error .reservedFunction

/-- Major 0x32, format V (Table 3.6). -/
def decodeMajor32 (w : BitVec 32) (sp : Sp) : Except Reject Instr :=
  if w.extractLsb' 28 4 = 0#4 then
    .ok (.vand (w.extractLsb' 23 5) (w.extractLsb' 18 5) (w.extractLsb' 13 5) (w.extractLsb' 8 5) sp)
  else
  if w.extractLsb' 28 4 = 1#4 then
    .ok (.vor (w.extractLsb' 23 5) (w.extractLsb' 18 5) (w.extractLsb' 13 5) (w.extractLsb' 8 5) sp)
  else
  if w.extractLsb' 28 4 = 2#4 then
    .ok (.vxor (w.extractLsb' 23 5) (w.extractLsb' 18 5) (w.extractLsb' 13 5) (w.extractLsb' 8 5) sp)
  else
  if w.extractLsb' 28 4 = 3#4 then
    .ok (.vshl (w.extractLsb' 23 5) (w.extractLsb' 18 5) (w.extractLsb' 13 5) (w.extractLsb' 8 5) sp)
  else
  if w.extractLsb' 28 4 = 4#4 then
    .ok (.vshr (w.extractLsb' 23 5) (w.extractLsb' 18 5) (w.extractLsb' 13 5) (w.extractLsb' 8 5) sp)
  else
  if w.extractLsb' 28 4 = 5#4 then
    .ok (.vsel (w.extractLsb' 23 5) (w.extractLsb' 18 5) (w.extractLsb' 13 5) (w.extractLsb' 8 5) sp)
  else
  .error .reservedFunction

/-- Major 0x33, format V (Table 3.6). -/
def decodeMajor33 (w : BitVec 32) (sp : Sp) : Except Reject Instr :=
  .ok (.vcmp (w.extractLsb' 28 4) (w.extractLsb' 23 5) (w.extractLsb' 18 5) (w.extractLsb' 13 5) (w.extractLsb' 8 5) sp)

/-- Major 0x34, format V (Table 3.6). -/
def decodeMajor34 (w : BitVec 32) (sp : Sp) : Except Reject Instr :=
  if w.extractLsb' 18 5 = 0#5 then .ok (.vred (w.extractLsb' 28 4) (w.extractLsb' 23 5) (w.extractLsb' 13 5) (w.extractLsb' 8 5) sp) else
  .error .unusedField

/-- Major 0x35, format V (Table 3.6). -/
def decodeMajor35 (w : BitVec 32) (sp : Sp) : Except Reject Instr :=
  if w.extractLsb' 18 5 = 0#5 then .ok (.vscan (w.extractLsb' 28 4) (w.extractLsb' 23 5) (w.extractLsb' 13 5) (w.extractLsb' 8 5) sp) else
  .error .unusedField

/-- Major 0x36, format V (Table 3.6). -/
def decodeMajor36 (w : BitVec 32) (sp : Sp) : Except Reject Instr :=
  if w.extractLsb' 28 4 = 0#4 then
    if w.extractLsb' 18 5 = 0#5 then .ok (.vcvt (w.extractLsb' 23 5) (w.extractLsb' 13 5) (w.extractLsb' 8 5) sp) else
    .error .unusedField
  else
  if w.extractLsb' 28 4 = 1#4 then
    if w.extractLsb' 18 5 = 0#5 then .ok (.vqnt (w.extractLsb' 23 5) (w.extractLsb' 13 5) (w.extractLsb' 8 5) sp) else
    .error .unusedField
  else
  if w.extractLsb' 28 4 = 2#4 then
    if w.extractLsb' 18 5 = 0#5 then .ok (.vfill (w.extractLsb' 23 5) (w.extractLsb' 13 5) (w.extractLsb' 8 5) sp) else
    .error .unusedField
  else
  if w.extractLsb' 28 4 = 3#4 then
    if w.extractLsb' 18 5 = 0#5 then .ok (.vident (w.extractLsb' 23 5) (w.extractLsb' 13 5) (w.extractLsb' 8 5) sp) else
    .error .unusedField
  else
  if w.extractLsb' 28 4 = 4#4 then
    if w.extractLsb' 18 5 = 0#5 then .ok (.vcpy (w.extractLsb' 23 5) (w.extractLsb' 13 5) (w.extractLsb' 8 5) sp) else
    .error .unusedField
  else
  if w.extractLsb' 28 4 = 5#4 then
    .ok (.vgath (w.extractLsb' 23 5) (w.extractLsb' 18 5) (w.extractLsb' 13 5) (w.extractLsb' 8 5) sp)
  else
  if w.extractLsb' 28 4 = 6#4 then
    .ok (.vscat (w.extractLsb' 23 5) (w.extractLsb' 18 5) (w.extractLsb' 13 5) (w.extractLsb' 8 5) sp)
  else
  if w.extractLsb' 28 4 = 7#4 then
    if w.extractLsb' 18 5 = 0#5 then .ok (.vtrn (w.extractLsb' 23 5) (w.extractLsb' 13 5) (w.extractLsb' 8 5) sp) else
    .error .unusedField
  else
  .error .reservedFunction

/-- Major 0x38, format V (Table 3.6). -/
def decodeMajor38 (w : BitVec 32) (sp : Sp) : Except Reject Instr :=
  if w.extractLsb' 28 4 = 0#4 then
    if w.extractLsb' 23 5 = 0#5 ∧ w.extractLsb' 18 5 = 0#5 ∧ w.extractLsb' 8 5 = 0#5 then .ok (.mcfg (w.extractLsb' 13 5) sp) else
    .error .unusedField
  else
  if w.extractLsb' 28 4 = 1#4 then
    if w.extractLsb' 18 5 = 0#5 ∧ w.extractLsb' 8 5 = 0#5 then .ok (.mbld (w.extractLsb' 23 5) (w.extractLsb' 13 5) sp) else
    .error .unusedField
  else
  if w.extractLsb' 28 4 = 2#4 then
    if w.extractLsb' 8 5 = 0#5 then .ok (.mgat (w.extractLsb' 23 5) (w.extractLsb' 18 5) (w.extractLsb' 13 5) sp) else
    .error .unusedField
  else
  if w.extractLsb' 28 4 = 3#4 then
    if w.extractLsb' 23 5 = 0#5 ∧ w.extractLsb' 18 5 = 0#5 ∧ w.extractLsb' 8 5 = 0#5 then .ok (.mma (w.extractLsb' 13 5) sp) else
    .error .unusedField
  else
  if w.extractLsb' 28 4 = 4#4 then
    if w.extractLsb' 23 5 = 0#5 ∧ w.extractLsb' 18 5 = 0#5 ∧ w.extractLsb' 8 5 = 0#5 then .ok (.mmaz (w.extractLsb' 13 5) sp) else
    .error .unusedField
  else
  if w.extractLsb' 28 4 = 5#4 then
    if w.extractLsb' 23 5 = 0#5 ∧ w.extractLsb' 18 5 = 0#5 ∧ w.extractLsb' 8 5 = 0#5 then .ok (.mrec (w.extractLsb' 13 5) sp) else
    .error .unusedField
  else
  if w.extractLsb' 28 4 = 6#4 then
    if w.extractLsb' 23 5 = 0#5 ∧ w.extractLsb' 18 5 = 0#5 ∧ w.extractLsb' 8 5 = 0#5 then .ok (.mupl (w.extractLsb' 13 5) sp) else
    .error .unusedField
  else
  if w.extractLsb' 28 4 = 7#4 then
    if w.extractLsb' 23 5 = 0#5 ∧ w.extractLsb' 18 5 = 0#5 ∧ w.extractLsb' 13 5 = 0#5 ∧ w.extractLsb' 8 5 = 0#5 then .ok (.msync sp) else
    .error .unusedField
  else
  if w.extractLsb' 28 4 = 8#4 then
    if w.extractLsb' 23 5 = 0#5 ∧ w.extractLsb' 18 5 = 0#5 ∧ w.extractLsb' 13 5 = 0#5 then .ok (.mstat (w.extractLsb' 8 5) sp) else
    .error .unusedField
  else
  .error .reservedFunction

/-- Major 0x39, format V (Table 3.6). -/
def decodeMajor39 (w : BitVec 32) (sp : Sp) : Except Reject Instr :=
  if w.extractLsb' 28 4 = 0#4 then
    if w.extractLsb' 8 5 = 0#5 then .ok (.mcmd (w.extractLsb' 23 5) (w.extractLsb' 18 5) (w.extractLsb' 13 5) sp) else
    .error .unusedField
  else
  if w.extractLsb' 28 4 = 1#4 then
    if w.extractLsb' 23 5 = 0#5 then .ok (.mcap (w.extractLsb' 18 5) (w.extractLsb' 13 5) (w.extractLsb' 8 5) sp) else
    .error .unusedField
  else
  .error .reservedFunction

/-- Major 0x3C, format K (Table 3.6). -/
def decodeMajor3C (w : BitVec 32) (sp : Sp) : Except Reject Instr :=
  if w.extractLsb' 29 3 = 0#3 then
    .ok (.cbox (w.extractLsb' 18 11) (w.extractLsb' 13 5) (w.extractLsb' 8 5) sp)
  else
  if w.extractLsb' 29 3 = 1#3 then
    .ok (.cred (w.extractLsb' 18 11) (w.extractLsb' 13 5) (w.extractLsb' 8 5) sp)
  else
  if w.extractLsb' 29 3 = 2#3 then
    if w.extractLsb' 8 5 = 0#5 then .ok (.ccan (w.extractLsb' 18 11) (w.extractLsb' 13 5) sp) else
    .error .unusedField
  else
  if w.extractLsb' 29 3 = 3#3 then
    .ok (.cstat (w.extractLsb' 18 11) (w.extractLsb' 13 5) (w.extractLsb' 8 5) sp)
  else
  .error .reservedFunction

/-- Major 0x3D, format K (Table 3.6). -/
def decodeMajor3D (w : BitVec 32) (sp : Sp) : Except Reject Instr :=
  if w.extractLsb' 29 3 = 0#3 then
    if w.extractLsb' 13 5 = 0#5 then .ok (.wdef (w.extractLsb' 18 11) (w.extractLsb' 8 5) sp) else
    .error .unusedField
  else
  if w.extractLsb' 29 3 = 1#3 then
    .ok (.wbind (w.extractLsb' 18 11) (w.extractLsb' 13 5) (w.extractLsb' 8 5) sp)
  else
  if w.extractLsb' 29 3 = 2#3 then
    if w.extractLsb' 18 11 = 0#11 then .ok (.wpub (w.extractLsb' 13 5) (w.extractLsb' 8 5) sp) else
    .error .unusedField
  else
  if w.extractLsb' 29 3 = 3#3 then
    if w.extractLsb' 18 11 = 0#11 ∧ w.extractLsb' 8 5 = 0#5 then .ok (.wabs (w.extractLsb' 13 5) sp) else
    .error .unusedField
  else
  if w.extractLsb' 29 3 = 4#3 then
    if w.extractLsb' 18 11 = 0#11 then .ok (.wdepth (w.extractLsb' 13 5) (w.extractLsb' 8 5) sp) else
    .error .unusedField
  else
  if w.extractLsb' 29 3 = 5#3 then
    if w.extractLsb' 18 11 = 0#11 then .ok (.wqry (w.extractLsb' 13 5) (w.extractLsb' 8 5) sp) else
    .error .unusedField
  else
  if w.extractLsb' 29 3 = 6#3 then
    .ok (.wstep (w.extractLsb' 18 11) (w.extractLsb' 13 5) (w.extractLsb' 8 5) sp)
  else
  .error .reservedFunction

/-- A 32-bit instruction word, by its major opcode in bits 7..2 (R50, R56). -/
def decodeWord (w : BitVec 32) (sp : Sp) : Except Reject Instr :=
  match (w.extractLsb' 2 6).toNat with
  | 0 => decodeMajor00 w sp
  | 1 => decodeMajor01 w sp
  | 2 => decodeMajor02 w sp
  | 3 => decodeMajor03 w sp
  | 4 => decodeMajor04 w sp
  | 5 => decodeMajor05 w sp
  | 6 => decodeMajor06 w sp
  | 7 => decodeMajor07 w sp
  | 8 => decodeMajor08 w sp
  | 9 => decodeMajor09 w sp
  | 10 => decodeMajor0A w sp
  | 11 => decodeMajor0B w sp
  | 12 => decodeMajor0C w sp
  | 13 => decodeMajor0D w sp
  | 14 => decodeMajor0E w sp
  | 16 => decodeMajor10 w sp
  | 17 => decodeMajor11 w sp
  | 18 => decodeMajor12 w sp
  | 19 => decodeMajor13 w sp
  | 20 => decodeMajor14 w sp
  | 21 => decodeMajor15 w sp
  | 22 => decodeMajor16 w sp
  | 23 => decodeMajor17 w sp
  | 24 => decodeMajor18 w sp
  | 25 => decodeMajor19 w sp
  | 26 => decodeMajor1A w sp
  | 27 => decodeMajor1B w sp
  | 28 => decodeMajor1C w sp
  | 29 => decodeMajor1D w sp
  | 30 => decodeMajor1E w sp
  | 32 => decodeMajor20 w sp
  | 33 => decodeMajor21 w sp
  | 34 => decodeMajor22 w sp
  | 35 => decodeMajor23 w sp
  | 36 => decodeMajor24 w sp
  | 37 => decodeMajor25 w sp
  | 38 => decodeMajor26 w sp
  | 39 => decodeMajor27 w sp
  | 40 => decodeMajor28 w sp
  | 41 => decodeMajor29 w sp
  | 42 => decodeMajor2A w sp
  | 43 => decodeMajor2B w sp
  | 44 => decodeMajor2C w sp
  | 45 => decodeMajor2D w sp
  | 46 => decodeMajor2E w sp
  | 48 => decodeMajor30 w sp
  | 49 => decodeMajor31 w sp
  | 50 => decodeMajor32 w sp
  | 51 => decodeMajor33 w sp
  | 52 => decodeMajor34 w sp
  | 53 => decodeMajor35 w sp
  | 54 => decodeMajor36 w sp
  | 56 => decodeMajor38 w sp
  | 57 => decodeMajor39 w sp
  | 60 => decodeMajor3C w sp
  | 61 => decodeMajor3D w sp
  | _ => .error .reservedMajor

/-- Compact opcode 1 (Table 3.8). -/
def decodeCompact1 (w : BitVec 16) : Except Reject Instr :=
  if w.extractLsb' 14 2 = 0#2 then .ok (.addCompact (w.extractLsb' 10 4) (w.extractLsb' 6 4)) else
  if w.extractLsb' 14 2 = 1#2 then .ok (.subCompact (w.extractLsb' 10 4) (w.extractLsb' 6 4)) else
  if w.extractLsb' 14 2 = 2#2 then .ok (.andCompact (w.extractLsb' 10 4) (w.extractLsb' 6 4)) else
  if w.extractLsb' 14 2 = 3#2 then .ok (.orCompact (w.extractLsb' 10 4) (w.extractLsb' 6 4)) else
  .error .unusedField

/-- Compact opcode 2 (Table 3.8). -/
def decodeCompact2 (w : BitVec 16) : Except Reject Instr :=
  if w.extractLsb' 14 2 = 0#2 then .ok (.xorCompact (w.extractLsb' 10 4) (w.extractLsb' 6 4)) else
  if w.extractLsb' 14 2 = 1#2 then .ok (.mulCompact (w.extractLsb' 10 4) (w.extractLsb' 6 4)) else
  if w.extractLsb' 14 2 = 2#2 then .ok (.shlCompact (w.extractLsb' 10 4) (w.extractLsb' 6 4)) else
  if w.extractLsb' 14 2 = 3#2 then .ok (.shrCompact (w.extractLsb' 10 4) (w.extractLsb' 6 4)) else
  .error .unusedField

/-- Compact opcode 3 (Table 3.8). -/
def decodeCompact3 (w : BitVec 16) : Except Reject Instr :=
  if w.extractLsb' 14 2 = 0#2 then .ok (.shaCompact (w.extractLsb' 10 4) (w.extractLsb' 6 4)) else
  if w.extractLsb' 14 2 = 1#2 then .ok (.minCompact (w.extractLsb' 10 4) (w.extractLsb' 6 4)) else
  if w.extractLsb' 14 2 = 2#2 then .ok (.maxCompact (w.extractLsb' 10 4) (w.extractLsb' 6 4)) else
  if w.extractLsb' 14 2 = 3#2 then .ok (.minnCompact (w.extractLsb' 10 4) (w.extractLsb' 6 4)) else
  .error .unusedField

/-- Compact opcode 4 (Table 3.8). -/
def decodeCompact4 (w : BitVec 16) : Except Reject Instr :=
  .ok (.addiCompact (w.extractLsb' 10 6) (w.extractLsb' 6 4))

/-- Compact opcode 5 (Table 3.8). -/
def decodeCompact5 (w : BitVec 16) : Except Reject Instr :=
  .ok (.moviCompact (w.extractLsb' 10 6) (w.extractLsb' 6 4))

/-- Compact opcode 6 (Table 3.8). -/
def decodeCompact6 (w : BitVec 16) : Except Reject Instr :=
  .ok (.shliCompact (w.extractLsb' 10 6) (w.extractLsb' 6 4))

/-- Compact opcode 7 (Table 3.8). -/
def decodeCompact7 (w : BitVec 16) : Except Reject Instr :=
  .ok (.shriCompact (w.extractLsb' 10 6) (w.extractLsb' 6 4))

/-- Compact opcode 8 (Table 3.8). -/
def decodeCompact8 (w : BitVec 16) : Except Reject Instr :=
  .ok (.shaiCompact (w.extractLsb' 10 6) (w.extractLsb' 6 4))

/-- Compact opcode 9 (Table 3.8). -/
def decodeCompact9 (w : BitVec 16) : Except Reject Instr :=
  .ok (.andiCompact (w.extractLsb' 10 6) (w.extractLsb' 6 4))

/-- Compact opcode 10 (Table 3.8). -/
def decodeCompact10 (w : BitVec 16) : Except Reject Instr :=
  .ok (.ldN64Compact (w.extractLsb' 14 2) (w.extractLsb' 10 4) (w.extractLsb' 6 4))

/-- Compact opcode 11 (Table 3.8). -/
def decodeCompact11 (w : BitVec 16) : Except Reject Instr :=
  .ok (.stN64Compact (w.extractLsb' 14 2) (w.extractLsb' 10 4) (w.extractLsb' 6 4))

/-- Compact opcode 12 (Table 3.8). -/
def decodeCompact12 (w : BitVec 16) : Except Reject Instr :=
  .ok (.ldN32Compact (w.extractLsb' 14 2) (w.extractLsb' 10 4) (w.extractLsb' 6 4))

/-- Compact opcode 13 (Table 3.8). -/
def decodeCompact13 (w : BitVec 16) : Except Reject Instr :=
  .ok (.stN32Compact (w.extractLsb' 14 2) (w.extractLsb' 10 4) (w.extractLsb' 6 4))

/-- Compact opcode 14 (Table 3.8). -/
def decodeCompact14 (w : BitVec 16) : Except Reject Instr :=
  .ok (.brzCompact (w.extractLsb' 10 6) (w.extractLsb' 6 4))

/-- Compact opcode 15 (Table 3.8). -/
def decodeCompact15 (w : BitVec 16) : Except Reject Instr :=
  .ok (.brnzCompact (w.extractLsb' 10 6) (w.extractLsb' 6 4))

/-- Compact opcode 16 (Table 3.8). -/
def decodeCompact16 (w : BitVec 16) : Except Reject Instr :=
  .ok (.jCompact (w.extractLsb' 6 10))

/-- Compact opcode 17 (Table 3.8). -/
def decodeCompact17 (w : BitVec 16) : Except Reject Instr :=
  if w.extractLsb' 14 2 = 0#2 ∧ w.extractLsb' 10 4 = 0#4 then .ok (.jrCompact (w.extractLsb' 6 4)) else
  .error .unusedField

/-- Compact opcode 18 (Table 3.8). -/
def decodeCompact18 (w : BitVec 16) : Except Reject Instr :=
  if w.extractLsb' 14 2 = 0#2 ∧ w.extractLsb' 10 4 = 0#4 ∧ w.extractLsb' 6 4 = 0#4 then .ok (.finCompact ) else
  .error .unusedField

/-- A 16-bit instruction, by its opcode in bits 5..1 (R58). -/
def decodeCompact (w : BitVec 16) : Except Reject Instr :=
  match (w.extractLsb' 1 5).toNat with
  | 1 => decodeCompact1 w
  | 2 => decodeCompact2 w
  | 3 => decodeCompact3 w
  | 4 => decodeCompact4 w
  | 5 => decodeCompact5 w
  | 6 => decodeCompact6 w
  | 7 => decodeCompact7 w
  | 8 => decodeCompact8 w
  | 9 => decodeCompact9 w
  | 10 => decodeCompact10 w
  | 11 => decodeCompact11 w
  | 12 => decodeCompact12 w
  | 13 => decodeCompact13 w
  | 14 => decodeCompact14 w
  | 15 => decodeCompact15 w
  | 16 => decodeCompact16 w
  | 17 => decodeCompact17 w
  | 18 => decodeCompact18 w
  | _ => .error .reservedCompact

/-- The mask words after a 32-bit instruction with S = 1 (R45, R48). A set reserved bit is refused for every instruction (R48, R60), and
for FIN.S too, of whose masks R101 says that their contents have no effect (DESIGN CHOICE, log 90). -/
def decodeMasks : List (BitVec 16) → Except Reject (Sp × Nat)
  | lo :: hi :: rest =>
    let m : BitVec 32 := hi ++ lo
    if m.extractLsb' 0 1 = 0#1 then .ok (some (m, none), 2)
    else match rest with
      | lo2 :: hi2 :: _ =>
        let k : BitVec 32 := hi2 ++ lo2
        if k.extractLsb' 0 1 = 0#1 then .ok (some (m, some k), 4) else .error (.badMask k)
      | _ => .error .truncated
  | _ => .error .truncated

/-- The instruction at the head of a list of parcels, with the count of parcels it and its mask words take
(R45). An encoding that is no instruction is named before a faulty mask word is (R60). -/
def decode : List (BitVec 16) → Except Reject (Instr × Nat)
  | [] => .error .truncated
  | p :: rest =>
    if p.extractLsb' 0 1 = 0#1 then
      match decodeCompact p with
      | .ok i => .ok (i, 1)
      | .error r => .error r
    else match rest with
      | [] => .error .truncated
      | q :: more =>
        let w : BitVec 32 := q ++ p
        if w.extractLsb' 1 1 = 0#1 then
          match decodeWord w none with
          | .ok i => .ok (i, 2)
          | .error r => .error r
        else
          match decodeWord w none with
          | .error r => .error r
          | .ok _ =>
            match decodeMasks more with
            | .error r => .error r
            | .ok (sp, n) =>
              match decodeWord w sp with
              | .ok i => .ok (i, 2 + n)
              | .error r => .error r

/-- The parcels of an instruction, from the spec's encoding tables; `none` for an event row, which has no
encoding. -/
def encode : Instr → Option (List (BitVec 16))
  | .add g b a d sp => some (words32 (g ++ 0#6 ++ b ++ a ++ d ++ 0#6 ++ safeBit sp ++ 1#1) sp)
  | .sub g b a d sp => some (words32 (g ++ 1#6 ++ b ++ a ++ d ++ 0#6 ++ safeBit sp ++ 1#1) sp)
  | .mul g b a d sp => some (words32 (g ++ 2#6 ++ b ++ a ++ d ++ 0#6 ++ safeBit sp ++ 1#1) sp)
  | .mulh g b a d sp => some (words32 (g ++ 3#6 ++ b ++ a ++ d ++ 0#6 ++ safeBit sp ++ 1#1) sp)
  | .mulhn g b a d sp => some (words32 (g ++ 4#6 ++ b ++ a ++ d ++ 0#6 ++ safeBit sp ++ 1#1) sp)
  | .div g b a d sp => some (words32 (g ++ 5#6 ++ b ++ a ++ d ++ 0#6 ++ safeBit sp ++ 1#1) sp)
  | .divn g b a d sp => some (words32 (g ++ 6#6 ++ b ++ a ++ d ++ 0#6 ++ safeBit sp ++ 1#1) sp)
  | .rem g b a d sp => some (words32 (g ++ 7#6 ++ b ++ a ++ d ++ 0#6 ++ safeBit sp ++ 1#1) sp)
  | .remn g b a d sp => some (words32 (g ++ 8#6 ++ b ++ a ++ d ++ 0#6 ++ safeBit sp ++ 1#1) sp)
  | .and g b a d sp => some (words32 (g ++ 9#6 ++ b ++ a ++ d ++ 0#6 ++ safeBit sp ++ 1#1) sp)
  | .or g b a d sp => some (words32 (g ++ 10#6 ++ b ++ a ++ d ++ 0#6 ++ safeBit sp ++ 1#1) sp)
  | .xor g b a d sp => some (words32 (g ++ 11#6 ++ b ++ a ++ d ++ 0#6 ++ safeBit sp ++ 1#1) sp)
  | .shl g b a d sp => some (words32 (g ++ 12#6 ++ b ++ a ++ d ++ 0#6 ++ safeBit sp ++ 1#1) sp)
  | .shr g b a d sp => some (words32 (g ++ 13#6 ++ b ++ a ++ d ++ 0#6 ++ safeBit sp ++ 1#1) sp)
  | .sha g b a d sp => some (words32 (g ++ 14#6 ++ b ++ a ++ d ++ 0#6 ++ safeBit sp ++ 1#1) sp)
  | .rotl g b a d sp => some (words32 (g ++ 15#6 ++ b ++ a ++ d ++ 0#6 ++ safeBit sp ++ 1#1) sp)
  | .min g b a d sp => some (words32 (g ++ 16#6 ++ b ++ a ++ d ++ 0#6 ++ safeBit sp ++ 1#1) sp)
  | .max g b a d sp => some (words32 (g ++ 17#6 ++ b ++ a ++ d ++ 0#6 ++ safeBit sp ++ 1#1) sp)
  | .minn g b a d sp => some (words32 (g ++ 18#6 ++ b ++ a ++ d ++ 0#6 ++ safeBit sp ++ 1#1) sp)
  | .maxn g b a d sp => some (words32 (g ++ 19#6 ++ b ++ a ++ d ++ 0#6 ++ safeBit sp ++ 1#1) sp)
  | .clz g a d sp => some (words32 (g ++ 20#6 ++ 0#5 ++ a ++ d ++ 0#6 ++ safeBit sp ++ 1#1) sp)
  | .ctz g a d sp => some (words32 (g ++ 21#6 ++ 0#5 ++ a ++ d ++ 0#6 ++ safeBit sp ++ 1#1) sp)
  | .popc g a d sp => some (words32 (g ++ 22#6 ++ 0#5 ++ a ++ d ++ 0#6 ++ safeBit sp ++ 1#1) sp)
  | .bswap g a d sp => some (words32 (g ++ 23#6 ++ 0#5 ++ a ++ d ++ 0#6 ++ safeBit sp ++ 1#1) sp)
  | .sel p b a d sp => some (words32 (p ++ 24#6 ++ b ++ a ++ d ++ 0#6 ++ safeBit sp ++ 1#1) sp)
  | .addi i a d sp => some (words32 (i ++ a ++ d ++ 1#6 ++ safeBit sp ++ 1#1) sp)
  | .andi i a d sp => some (words32 (i ++ a ++ d ++ 2#6 ++ safeBit sp ++ 1#1) sp)
  | .ori i a d sp => some (words32 (i ++ a ++ d ++ 3#6 ++ safeBit sp ++ 1#1) sp)
  | .xori i a d sp => some (words32 (i ++ a ++ d ++ 4#6 ++ safeBit sp ++ 1#1) sp)
  | .shli i a d sp => some (words32 (0#8 ++ i ++ a ++ d ++ 5#6 ++ safeBit sp ++ 1#1) sp)
  | .shri i a d sp => some (words32 (0#8 ++ i ++ a ++ d ++ 6#6 ++ safeBit sp ++ 1#1) sp)
  | .shai i a d sp => some (words32 (0#8 ++ i ++ a ++ d ++ 7#6 ++ safeBit sp ++ 1#1) sp)
  | .cmp g c b a d sp => some (words32 (g ++ 0#2 ++ c ++ b ++ a ++ d ++ 8#6 ++ safeBit sp ++ 1#1) sp)
  | .cmpi i c a d sp => some (words32 (i ++ c ++ a ++ d ++ 9#6 ++ safeBit sp ++ 1#1) sp)
  | .plog g t b a d sp => some (words32 (g ++ 0#2 ++ t ++ b ++ a ++ d ++ 10#6 ++ safeBit sp ++ 1#1) sp)
  | .movi i d sp => some (words32 (i ++ d ++ 11#6 ++ safeBit sp ++ 1#1) sp)
  | .movhi i d sp => some (words32 (i ++ d ++ 12#6 ++ safeBit sp ++ 1#1) sp)
  | .ext w p a d sp => some (words32 (0#2 ++ w ++ p ++ a ++ d ++ 13#6 ++ safeBit sp ++ 1#1) sp)
  | .ins w p a d sp => some (words32 (1#2 ++ w ++ p ++ a ++ d ++ 13#6 ++ safeBit sp ++ 1#1) sp)
  | .mkptr g b a d sp => some (words32 (g ++ 0#6 ++ 0#3 ++ b ++ a ++ d ++ 14#6 ++ safeBit sp ++ 1#1) sp)
  | .ptrget g b a d sp => some (words32 (g ++ 1#6 ++ b ++ a ++ d ++ 14#6 ++ safeBit sp ++ 1#1) sp)
  | .ptradd g b a d sp => some (words32 (g ++ 2#6 ++ b ++ a ++ d ++ 14#6 ++ safeBit sp ++ 1#1) sp)
  | .dist g b a d sp => some (words32 (g ++ 3#6 ++ b ++ a ++ d ++ 14#6 ++ safeBit sp ++ 1#1) sp)
  | .dista g b a d sp => some (words32 (g ++ 4#6 ++ b ++ a ++ d ++ 14#6 ++ safeBit sp ++ 1#1) sp)
  | .ld i m a d sp => some (words32 (i ++ m ++ a ++ d ++ 16#6 ++ safeBit sp ++ 1#1) sp)
  | .st i m a d sp => some (words32 (i ++ m ++ a ++ d ++ 17#6 ++ safeBit sp ++ 1#1) sp)
  | .ldx g c m b a d sp => some (words32 (g ++ c ++ 0#1 ++ m ++ b ++ a ++ d ++ 18#6 ++ safeBit sp ++ 1#1) sp)
  | .stx g c m b a d sp => some (words32 (g ++ c ++ 1#1 ++ m ++ b ++ a ++ d ++ 18#6 ++ safeBit sp ++ 1#1) sp)
  | .ldi i m a d sp => some (words32 (i ++ m ++ a ++ d ++ 19#6 ++ safeBit sp ++ 1#1) sp)
  | .ldp i m a d sp => some (words32 (i ++ m ++ a ++ d ++ 20#6 ++ safeBit sp ++ 1#1) sp)
  | .stp i m a d sp => some (words32 (i ++ m ++ a ++ d ++ 21#6 ++ safeBit sp ++ 1#1) sp)
  | .lda i m a d sp => some (words32 (i ++ m ++ a ++ d ++ 22#6 ++ safeBit sp ++ 1#1) sp)
  | .stl i m a d sp => some (words32 (i ++ m ++ a ++ d ++ 23#6 ++ safeBit sp ++ 1#1) sp)
  | .aadd g w b a d sp => some (words32 (g ++ 0#1 ++ w ++ 0#4 ++ b ++ a ++ d ++ 24#6 ++ safeBit sp ++ 1#1) sp)
  | .aand g w b a d sp => some (words32 (g ++ 0#1 ++ w ++ 1#4 ++ b ++ a ++ d ++ 24#6 ++ safeBit sp ++ 1#1) sp)
  | .aor g w b a d sp => some (words32 (g ++ 0#1 ++ w ++ 2#4 ++ b ++ a ++ d ++ 24#6 ++ safeBit sp ++ 1#1) sp)
  | .axor g w b a d sp => some (words32 (g ++ 0#1 ++ w ++ 3#4 ++ b ++ a ++ d ++ 24#6 ++ safeBit sp ++ 1#1) sp)
  | .amin g w b a d sp => some (words32 (g ++ 0#1 ++ w ++ 4#4 ++ b ++ a ++ d ++ 24#6 ++ safeBit sp ++ 1#1) sp)
  | .amax g w b a d sp => some (words32 (g ++ 0#1 ++ w ++ 5#4 ++ b ++ a ++ d ++ 24#6 ++ safeBit sp ++ 1#1) sp)
  | .aminn g w b a d sp => some (words32 (g ++ 0#1 ++ w ++ 6#4 ++ b ++ a ++ d ++ 24#6 ++ safeBit sp ++ 1#1) sp)
  | .amaxn g w b a d sp => some (words32 (g ++ 0#1 ++ w ++ 7#4 ++ b ++ a ++ d ++ 24#6 ++ safeBit sp ++ 1#1) sp)
  | .aswp g w b a d sp => some (words32 (g ++ 0#1 ++ w ++ 8#4 ++ b ++ a ++ d ++ 24#6 ++ safeBit sp ++ 1#1) sp)
  | .acas g w b a d sp => some (words32 (g ++ 0#1 ++ w ++ 0#4 ++ b ++ a ++ d ++ 25#6 ++ safeBit sp ++ 1#1) sp)
  | .afadd g t b a d sp => some (words32 (g ++ 0#5 ++ t ++ b ++ a ++ d ++ 26#6 ++ safeBit sp ++ 1#1) sp)
  | .aclaim g b a d sp => some (words32 (g ++ 0#6 ++ b ++ a ++ d ++ 27#6 ++ safeBit sp ++ 1#1) sp)
  | .fence g s sp => some (words32 (g ++ 0#4 ++ s ++ 0#5 ++ 0#5 ++ 0#5 ++ 28#6 ++ safeBit sp ++ 1#1) sp)
  | .send h n a d sp => some (words32 (0#2 ++ h ++ n ++ a ++ d ++ 29#6 ++ safeBit sp ++ 1#1) sp)
  | .sendt h n a d sp => some (words32 (1#2 ++ h ++ n ++ a ++ d ++ 29#6 ++ safeBit sp ++ 1#1) sp)
  | .reply h n a d sp => some (words32 (2#2 ++ h ++ n ++ a ++ d ++ 29#6 ++ safeBit sp ++ 1#1) sp)
  | .msgq d sp => some (words32 (3#2 ++ 0#8 ++ 0#4 ++ 0#5 ++ d ++ 29#6 ++ safeBit sp ++ 1#1) sp)
  | .cbdef i a d sp => some (words32 (0#3 ++ i ++ a ++ d ++ 30#6 ++ safeBit sp ++ 1#1) sp)
  | .cbwait k a d sp => some (words32 (1#3 ++ 0#2 ++ k ++ a ++ d ++ 30#6 ++ safeBit sp ++ 1#1) sp)
  | .cbfree k a d sp => some (words32 (2#3 ++ 0#2 ++ k ++ a ++ d ++ 30#6 ++ safeBit sp ++ 1#1) sp)
  | .cbadvGet k a sp => some (words32 (3#3 ++ 0#2 ++ k ++ a ++ 0#5 ++ 30#6 ++ safeBit sp ++ 1#1) sp)
  | .cbadvPut k a sp => some (words32 (3#3 ++ 2#2 ++ k ++ a ++ 0#5 ++ 30#6 ++ safeBit sp ++ 1#1) sp)
  | .cbpush n a d sp => some (words32 (4#3 ++ 0#7 ++ n ++ a ++ d ++ 30#6 ++ safeBit sp ++ 1#1) sp)
  | .cbpop n a d sp => some (words32 (5#3 ++ 0#7 ++ n ++ a ++ d ++ 30#6 ++ safeBit sp ++ 1#1) sp)
  | .cbq a d sp => some (words32 (6#3 ++ 0#11 ++ a ++ d ++ 30#6 ++ safeBit sp ++ 1#1) sp)
  | .br o g sp => some (words32 (o ++ g ++ 0#5 ++ 32#6 ++ safeBit sp ++ 1#1) sp)
  | .brz o g d sp => some (words32 (o ++ g ++ d ++ 33#6 ++ safeBit sp ++ 1#1) sp)
  | .brnz o g d sp => some (words32 (o ++ g ++ d ++ 34#6 ++ safeBit sp ++ 1#1) sp)
  | .j i sp => some (words32 (i ++ 0#5 ++ 35#6 ++ safeBit sp ++ 1#1) sp)
  | .jl i d sp => some (words32 (i ++ d ++ 36#6 ++ safeBit sp ++ 1#1) sp)
  | .jr g a sp => some (words32 (g ++ 0#6 ++ 0#5 ++ a ++ 0#5 ++ 37#6 ++ safeBit sp ++ 1#1) sp)
  | .jlr g a d sp => some (words32 (g ++ 1#6 ++ 0#5 ++ a ++ d ++ 37#6 ++ safeBit sp ++ 1#1) sp)
  | .loop o g d sp => some (words32 (o ++ g ++ d ++ 38#6 ++ safeBit sp ++ 1#1) sp)
  | .fin g sp => some (words32 (g ++ 0#6 ++ 0#5 ++ 0#5 ++ 0#5 ++ 39#6 ++ safeBit sp ++ 1#1) sp)
  | .actdef i d sp => some (words32 (0#3 ++ i ++ 0#5 ++ d ++ 40#6 ++ safeBit sp ++ 1#1) sp)
  | .nestdef i a d sp => some (words32 (1#3 ++ i ++ a ++ d ++ 40#6 ++ safeBit sp ++ 1#1) sp)
  | .lnch i a d sp => some (words32 (2#3 ++ i ++ a ++ d ++ 40#6 ++ safeBit sp ++ 1#1) sp)
  | .graph a d sp => some (words32 (3#3 ++ 0#11 ++ a ++ d ++ 40#6 ++ safeBit sp ++ 1#1) sp)
  | .phase d sp => some (words32 (4#3 ++ 0#11 ++ 0#5 ++ d ++ 40#6 ++ safeBit sp ++ 1#1) sp)
  | .cncl a sp => some (words32 (5#3 ++ 0#11 ++ a ++ 0#5 ++ 40#6 ++ safeBit sp ++ 1#1) sp)
  | .lwait a d sp => some (words32 (6#3 ++ 0#11 ++ a ++ d ++ 40#6 ++ safeBit sp ++ 1#1) sp)
  | .waitc a d sp => some (words32 (0#3 ++ 0#11 ++ a ++ d ++ 41#6 ++ safeBit sp ++ 1#1) sp)
  | .waitt i a sp => some (words32 (1#3 ++ i ++ a ++ 0#5 ++ 41#6 ++ safeBit sp ++ 1#1) sp)
  | .waita i a d sp => some (words32 (2#3 ++ i ++ a ++ d ++ 41#6 ++ safeBit sp ++ 1#1) sp)
  | .tfirst i a d sp => some (words32 (3#3 ++ i ++ a ++ d ++ 41#6 ++ safeBit sp ++ 1#1) sp)
  | .tagclr i a sp => some (words32 (4#3 ++ i ++ a ++ 0#5 ++ 41#6 ++ safeBit sp ++ 1#1) sp)
  | .safe  sp => some (words32 (5#3 ++ 0#11 ++ 0#5 ++ 0#5 ++ 41#6 ++ safeBit sp ++ 1#1) sp)
  | .trap g i sp => some (words32 (g ++ i ++ 0#5 ++ 0#5 ++ 42#6 ++ safeBit sp ++ 1#1) sp)
  | .tret i sp => some (words32 (0#3 ++ i ++ 0#5 ++ 0#5 ++ 43#6 ++ safeBit sp ++ 1#1) sp)
  | .brk i sp => some (words32 (1#3 ++ i ++ 0#5 ++ 0#5 ++ 43#6 ++ safeBit sp ++ 1#1) sp)
  | .trace i a sp => some (words32 (2#3 ++ i ++ a ++ 0#5 ++ 43#6 ++ safeBit sp ++ 1#1) sp)
  | .csrd c d sp => some (words32 (0#2 ++ c ++ 0#5 ++ d ++ 44#6 ++ safeBit sp ++ 1#1) sp)
  | .cswr c a d sp => some (words32 (1#2 ++ c ++ a ++ d ++ 44#6 ++ safeBit sp ++ 1#1) sp)
  | .csset c a d sp => some (words32 (2#2 ++ c ++ a ++ d ++ 44#6 ++ safeBit sp ++ 1#1) sp)
  | .csclr c a d sp => some (words32 (3#2 ++ c ++ a ++ d ++ 44#6 ++ safeBit sp ++ 1#1) sp)
  | .capmint i a d sp => some (words32 (0#3 ++ i ++ a ++ d ++ 45#6 ++ safeBit sp ++ 1#1) sp)
  | .caprev a sp => some (words32 (1#3 ++ 0#11 ++ a ++ 0#5 ++ 45#6 ++ safeBit sp ++ 1#1) sp)
  | .halt a sp => some (words32 (0#3 ++ 0#11 ++ a ++ 0#5 ++ 46#6 ++ safeBit sp ++ 1#1) sp)
  | .sleep a d sp => some (words32 (1#3 ++ 0#11 ++ a ++ d ++ 46#6 ++ safeBit sp ++ 1#1) sp)
  | .wfr a d sp => some (words32 (2#3 ++ 0#11 ++ a ++ d ++ 46#6 ++ safeBit sp ++ 1#1) sp)
  | .move i a sp => some (words32 (3#3 ++ i ++ a ++ 0#5 ++ 46#6 ++ safeBit sp ++ 1#1) sp)
  | .shld i a d sp => some (words32 (0#3 ++ i ++ a ++ d ++ 48#6 ++ safeBit sp ++ 1#1) sp)
  | .shst a d sp => some (words32 (1#3 ++ 0#11 ++ a ++ d ++ 48#6 ++ safeBit sp ++ 1#1) sp)
  | .shmod i a d sp => some (words32 (2#3 ++ i ++ a ++ d ++ 48#6 ++ safeBit sp ++ 1#1) sp)
  | .vadd t b a d sp => some (words32 (0#4 ++ t ++ b ++ a ++ d ++ 49#6 ++ safeBit sp ++ 1#1) sp)
  | .vsub t b a d sp => some (words32 (1#4 ++ t ++ b ++ a ++ d ++ 49#6 ++ safeBit sp ++ 1#1) sp)
  | .vmul t b a d sp => some (words32 (2#4 ++ t ++ b ++ a ++ d ++ 49#6 ++ safeBit sp ++ 1#1) sp)
  | .vfma t b a d sp => some (words32 (3#4 ++ t ++ b ++ a ++ d ++ 49#6 ++ safeBit sp ++ 1#1) sp)
  | .vdiv t b a d sp => some (words32 (4#4 ++ t ++ b ++ a ++ d ++ 49#6 ++ safeBit sp ++ 1#1) sp)
  | .vmin t b a d sp => some (words32 (5#4 ++ t ++ b ++ a ++ d ++ 49#6 ++ safeBit sp ++ 1#1) sp)
  | .vmax t b a d sp => some (words32 (6#4 ++ t ++ b ++ a ++ d ++ 49#6 ++ safeBit sp ++ 1#1) sp)
  | .vabs t a d sp => some (words32 (7#4 ++ t ++ 0#5 ++ a ++ d ++ 49#6 ++ safeBit sp ++ 1#1) sp)
  | .vneg t a d sp => some (words32 (8#4 ++ t ++ 0#5 ++ a ++ d ++ 49#6 ++ safeBit sp ++ 1#1) sp)
  | .vrsq t a d sp => some (words32 (9#4 ++ t ++ 0#5 ++ a ++ d ++ 49#6 ++ safeBit sp ++ 1#1) sp)
  | .vexp2 t a d sp => some (words32 (10#4 ++ t ++ 0#5 ++ a ++ d ++ 49#6 ++ safeBit sp ++ 1#1) sp)
  | .vlog2 t a d sp => some (words32 (11#4 ++ t ++ 0#5 ++ a ++ d ++ 49#6 ++ safeBit sp ++ 1#1) sp)
  | .vand t b a d sp => some (words32 (0#4 ++ t ++ b ++ a ++ d ++ 50#6 ++ safeBit sp ++ 1#1) sp)
  | .vor t b a d sp => some (words32 (1#4 ++ t ++ b ++ a ++ d ++ 50#6 ++ safeBit sp ++ 1#1) sp)
  | .vxor t b a d sp => some (words32 (2#4 ++ t ++ b ++ a ++ d ++ 50#6 ++ safeBit sp ++ 1#1) sp)
  | .vshl t b a d sp => some (words32 (3#4 ++ t ++ b ++ a ++ d ++ 50#6 ++ safeBit sp ++ 1#1) sp)
  | .vshr t b a d sp => some (words32 (4#4 ++ t ++ b ++ a ++ d ++ 50#6 ++ safeBit sp ++ 1#1) sp)
  | .vsel t b a d sp => some (words32 (5#4 ++ t ++ b ++ a ++ d ++ 50#6 ++ safeBit sp ++ 1#1) sp)
  | .vcmp c t b a d sp => some (words32 (c ++ t ++ b ++ a ++ d ++ 51#6 ++ safeBit sp ++ 1#1) sp)
  | .vred o t a d sp => some (words32 (o ++ t ++ 0#5 ++ a ++ d ++ 52#6 ++ safeBit sp ++ 1#1) sp)
  | .vscan o t a d sp => some (words32 (o ++ t ++ 0#5 ++ a ++ d ++ 53#6 ++ safeBit sp ++ 1#1) sp)
  | .vcvt t a d sp => some (words32 (0#4 ++ t ++ 0#5 ++ a ++ d ++ 54#6 ++ safeBit sp ++ 1#1) sp)
  | .vqnt t a d sp => some (words32 (1#4 ++ t ++ 0#5 ++ a ++ d ++ 54#6 ++ safeBit sp ++ 1#1) sp)
  | .vfill t a d sp => some (words32 (2#4 ++ t ++ 0#5 ++ a ++ d ++ 54#6 ++ safeBit sp ++ 1#1) sp)
  | .vident t a d sp => some (words32 (3#4 ++ t ++ 0#5 ++ a ++ d ++ 54#6 ++ safeBit sp ++ 1#1) sp)
  | .vcpy t a d sp => some (words32 (4#4 ++ t ++ 0#5 ++ a ++ d ++ 54#6 ++ safeBit sp ++ 1#1) sp)
  | .vgath t b a d sp => some (words32 (5#4 ++ t ++ b ++ a ++ d ++ 54#6 ++ safeBit sp ++ 1#1) sp)
  | .vscat t b a d sp => some (words32 (6#4 ++ t ++ b ++ a ++ d ++ 54#6 ++ safeBit sp ++ 1#1) sp)
  | .vtrn t a d sp => some (words32 (7#4 ++ t ++ 0#5 ++ a ++ d ++ 54#6 ++ safeBit sp ++ 1#1) sp)
  | .mcfg a sp => some (words32 (0#4 ++ 0#5 ++ 0#5 ++ a ++ 0#5 ++ 56#6 ++ safeBit sp ++ 1#1) sp)
  | .mbld t a sp => some (words32 (1#4 ++ t ++ 0#5 ++ a ++ 0#5 ++ 56#6 ++ safeBit sp ++ 1#1) sp)
  | .mgat t b a sp => some (words32 (2#4 ++ t ++ b ++ a ++ 0#5 ++ 56#6 ++ safeBit sp ++ 1#1) sp)
  | .mma a sp => some (words32 (3#4 ++ 0#5 ++ 0#5 ++ a ++ 0#5 ++ 56#6 ++ safeBit sp ++ 1#1) sp)
  | .mmaz a sp => some (words32 (4#4 ++ 0#5 ++ 0#5 ++ a ++ 0#5 ++ 56#6 ++ safeBit sp ++ 1#1) sp)
  | .mrec a sp => some (words32 (5#4 ++ 0#5 ++ 0#5 ++ a ++ 0#5 ++ 56#6 ++ safeBit sp ++ 1#1) sp)
  | .mupl a sp => some (words32 (6#4 ++ 0#5 ++ 0#5 ++ a ++ 0#5 ++ 56#6 ++ safeBit sp ++ 1#1) sp)
  | .msync  sp => some (words32 (7#4 ++ 0#5 ++ 0#5 ++ 0#5 ++ 0#5 ++ 56#6 ++ safeBit sp ++ 1#1) sp)
  | .mstat d sp => some (words32 (8#4 ++ 0#5 ++ 0#5 ++ 0#5 ++ d ++ 56#6 ++ safeBit sp ++ 1#1) sp)
  | .mcmd o b a sp => some (words32 (0#4 ++ o ++ b ++ a ++ 0#5 ++ 57#6 ++ safeBit sp ++ 1#1) sp)
  | .mcap b a d sp => some (words32 (1#4 ++ 0#5 ++ b ++ a ++ d ++ 57#6 ++ safeBit sp ++ 1#1) sp)
  | .cbox i a d sp => some (words32 (0#3 ++ i ++ a ++ d ++ 60#6 ++ safeBit sp ++ 1#1) sp)
  | .cred i a d sp => some (words32 (1#3 ++ i ++ a ++ d ++ 60#6 ++ safeBit sp ++ 1#1) sp)
  | .ccan i a sp => some (words32 (2#3 ++ i ++ a ++ 0#5 ++ 60#6 ++ safeBit sp ++ 1#1) sp)
  | .cstat i a d sp => some (words32 (3#3 ++ i ++ a ++ d ++ 60#6 ++ safeBit sp ++ 1#1) sp)
  | .wdef i d sp => some (words32 (0#3 ++ i ++ 0#5 ++ d ++ 61#6 ++ safeBit sp ++ 1#1) sp)
  | .wbind i a d sp => some (words32 (1#3 ++ i ++ a ++ d ++ 61#6 ++ safeBit sp ++ 1#1) sp)
  | .wpub a d sp => some (words32 (2#3 ++ 0#11 ++ a ++ d ++ 61#6 ++ safeBit sp ++ 1#1) sp)
  | .wabs a sp => some (words32 (3#3 ++ 0#11 ++ a ++ 0#5 ++ 61#6 ++ safeBit sp ++ 1#1) sp)
  | .wdepth a d sp => some (words32 (4#3 ++ 0#11 ++ a ++ d ++ 61#6 ++ safeBit sp ++ 1#1) sp)
  | .wqry a d sp => some (words32 (5#3 ++ 0#11 ++ a ++ d ++ 61#6 ++ safeBit sp ++ 1#1) sp)
  | .wstep i a d sp => some (words32 (6#3 ++ i ++ a ++ d ++ 61#6 ++ safeBit sp ++ 1#1) sp)
  | .addCompact a d => some [0#2 ++ a ++ d ++ 1#5 ++ 0#1]
  | .subCompact a d => some [1#2 ++ a ++ d ++ 1#5 ++ 0#1]
  | .andCompact a d => some [2#2 ++ a ++ d ++ 1#5 ++ 0#1]
  | .orCompact a d => some [3#2 ++ a ++ d ++ 1#5 ++ 0#1]
  | .xorCompact a d => some [0#2 ++ a ++ d ++ 2#5 ++ 0#1]
  | .mulCompact a d => some [1#2 ++ a ++ d ++ 2#5 ++ 0#1]
  | .shlCompact a d => some [2#2 ++ a ++ d ++ 2#5 ++ 0#1]
  | .shrCompact a d => some [3#2 ++ a ++ d ++ 2#5 ++ 0#1]
  | .shaCompact a d => some [0#2 ++ a ++ d ++ 3#5 ++ 0#1]
  | .minCompact a d => some [1#2 ++ a ++ d ++ 3#5 ++ 0#1]
  | .maxCompact a d => some [2#2 ++ a ++ d ++ 3#5 ++ 0#1]
  | .minnCompact a d => some [3#2 ++ a ++ d ++ 3#5 ++ 0#1]
  | .addiCompact i d => some [i ++ d ++ 4#5 ++ 0#1]
  | .moviCompact i d => some [i ++ d ++ 5#5 ++ 0#1]
  | .shliCompact i d => some [i ++ d ++ 6#5 ++ 0#1]
  | .shriCompact i d => some [i ++ d ++ 7#5 ++ 0#1]
  | .shaiCompact i d => some [i ++ d ++ 8#5 ++ 0#1]
  | .andiCompact i d => some [i ++ d ++ 9#5 ++ 0#1]
  | .ldN64Compact k a d => some [k ++ a ++ d ++ 10#5 ++ 0#1]
  | .stN64Compact k a d => some [k ++ a ++ d ++ 11#5 ++ 0#1]
  | .ldN32Compact k a d => some [k ++ a ++ d ++ 12#5 ++ 0#1]
  | .stN32Compact k a d => some [k ++ a ++ d ++ 13#5 ++ 0#1]
  | .brzCompact o d => some [o ++ d ++ 14#5 ++ 0#1]
  | .brnzCompact o d => some [o ++ d ++ 15#5 ++ 0#1]
  | .jCompact o => some [o ++ 16#5 ++ 0#1]
  | .jrCompact d => some [0#2 ++ 0#4 ++ d ++ 17#5 ++ 0#1]
  | .finCompact => some [0#2 ++ 0#4 ++ 0#4 ++ 18#5 ++ 0#1]
  | .firingSelection => none
  | .messageArrival _ _ => none
  | .messageInjection _ => none
  | .noticeInjection => none
  | .watchUpdate _ => none
  | .jobStartMessage => none
  | .launchReceipt => none
  | .phaseReceipt => none
  | .cancelReceipt => none
  | .placement => none
  | .collectionRound _ _ => none
  | .retirementReport _ _ => none
  | .bulkPromotion _ _ => none
  | .messagePromotion _ => none
  | .park => none
  | .waitSatisfied _ => none
  | .sleepWake => none
  | .regionStopResume => none
  | .splitRequest _ => none
  | .forcedSafePoint => none
  | .remoteAccessRequest _ => none
  | .probeArrival _ => none
  | .commitArrival _ => none
  | .closeMessage _ => none
  | .syncAccessArrival _ => none
  | .cbRequest _ => none
  | .replyArrival _ _ => none
  | .acknowledgmentArrival _ _ => none
  | .vectorCommandStart => none
  | .vectorCommandCompletion => none
  | .matrixCommandStart => none
  | .matrixCommandCompletion => none
  | .remoteMatrixPacket _ => none
  | .mcmdCompletion _ _ => none
  | .walkActivation => none
  | .stencilFlitSend _ => none
  | .copyFlitArrival _ => none
  | .copyCompletion _ _ => none
  | .chainLinkIssue _ => none
  | .pullRequest _ => none
  | .storerRequest _ => none
  | .pagerResult _ => none
  | .preemptRequest => none
  | .residencySave => none
  | .jobResume => none
  | .residencyRestore => none
  | .machineCheck _ _ => none
  | .rebuild _ _ => none
  | .moveRequest _ _ => none
  | .moveDrainComplete => none
  | .moveStreamComplete => none
  | .mapUpdate _ => none
  | .markerArrival _ => none
  | .relocArrival _ => none
  | .floatPeriod _ => none
  | .thermalEmergency _ _ => none
  | .overheatCap _ _ => none
  | .rampComplete _ => none
  | .droopDetect _ => none
  | .droopHoldExpiry _ => none
  | .gatingCommit _ => none
  | .wakeComplete _ => none
  | .haltRequest _ => none
  | .haltGroupMessage _ => none
  | .dumpLimitExpiry => none
  | .traceRecord => none
  | .deviceReset => none
  | .bootImageLoaded _ => none
  | .measExtend _ => none
  | .quoteRequest => none
  | .nonceWrite _ => none
  | .quoteComplete => none
  | .hostBar2Access _ _ _ => none
  | .fctlWrite _ _ _ _ => none
  | .fstatRead _ _ => none
  | .timeRead _ _ => none
  | .sqctlWrite _ _ _ _ => none
  | .tlbinvPage _ _ _ _ => none
  | .tlbinvAsid _ _ _ _ => none
  | .tlbinvAll _ _ _ _ => none
  | .pwrqGate _ _ _ _ => none
  | .pwrqWake _ _ _ _ => none
  | .opreqWrite _ _ _ _ => none
  | .hgrpResume _ _ _ _ => none
  | .dumpHold _ _ _ _ => none
  | .controlRegisterWrite _ _ _ _ _ => none
  | .reservedEncoding _ _ => none
  | .partitionCreation => none
  | .capRaise _ => none
  | .traceQueueSend => none

/-- The parcels whose bits, numbered as the opcode table numbers them, are the `nbits` low bits of `w`, with
zero parcels after them for the mask words (R45: parcels are little-endian, low parcel first). -/
def tableParcels (nbits w : Nat) : List (BitVec 16) :=
  if nbits ≤ 16 then [BitVec.ofNat 16 w]
  else [BitVec.ofNat 16 w, BitVec.ofNat 16 (w / 65536), 0#16, 0#16, 0#16, 0#16]

/-- What the decoder reads from an instruction whose bits are `w`. -/
def decodeTableWord (nbits w : Nat) : Option Instr :=
  match decode (tableParcels nbits w) with
  | .ok (i, _) => some i
  | .error _ => none

end Sys2Proof
end

