-- ==== Sys2Proof/WellFormed.lean ====
section
/-!
DEFINITION. Sys2Proof/WellFormed.lean: the legality of an instruction's fields (R51 to R55, and the field columns of
Tables 6.5, 7.1, 8.2, 9.3 and 10.2). An encoding whose fields fail it is no instruction and stops with ILLEGAL (R60).
-/
namespace Sys2Proof

/-- A field that names a predicate (R52). -/
def isP (r : BitVec 5) : Bool := r.toNat ≤ 7

/-- A field that names a shape register to be read, a CB handle, a window or a binding: 0 to 15 (R52). -/
def isH (r : BitVec 5) : Bool := r.toNat ≤ 15

/-- A field that names a shape register to be written: h12 to h15 are read-only (R12). -/
def isHW (r : BitVec 5) : Bool := r.toNat ≤ 11

/-- The first of two consecutive registers (R52). -/
def isEven (r : BitVec 5) : Bool := r.toNat % 2 = 0

/-- n and d of a message form (R51, R117). -/
def msgRange (n : BitVec 4) (d : BitVec 5) : Bool :=
  n.toNat ≤ 8 && (if n = 0#4 then d = 0#5 else d.toNat + n.toNat - 1 ≤ 31)

/-- k of a CB form (R123). -/
def slotRange (k : BitVec 9) : Bool := 1 ≤ k.toNat && k.toNat ≤ 256

/-- n and d of CBPUSH and CBPOP (Table 6.5). -/
def cbRange (n : BitVec 4) (d : BitVec 5) : Bool := 1 ≤ n.toNat && n.toNat ≤ 8 && d.toNat + n.toNat - 1 ≤ 31

/-- imm11 and a of a mask operand (R143). -/
def maskForm (i : BitVec 11) (a : BitVec 5) : Bool := if a = 0#5 then i.toNat < 64 else i = 0#11

/-- The eight integer type codes (Table 3.3). -/
def isIntTy (t : BitVec 5) : Bool := t.toNat ≤ 7

/-- f16, bf16 and f32. -/
def isFloatTy (t : BitVec 5) : Bool := 8 ≤ t.toNat && t.toNat ≤ 10

def isNumTy (t : BitVec 5) : Bool := t.toNat ≤ 10

/-- .q2 to .q8. -/
def isQTy (t : BitVec 5) : Bool := 0x12 ≤ t.toNat && t.toNat ≤ 0x18

def isAnyTy (t : BitVec 5) : Bool := isNumTy t || isQTy t

/-- Condition and type of VCMP (R175). -/
def cmpTy (c : BitVec 4) (t : BitVec 5) : Bool :=
  (isIntTy t && c.toNat ≤ 9) || (isFloatTy t && (c.toNat ≤ 5 || c.toNat = 10))

/-- Operation and type of VRED and VSCAN (R176). -/
def redTy (o : BitVec 4) (t : BitVec 5) : Bool :=
  (o.toNat ≤ 2 && isNumTy t) || (o.toNat ≤ 5 && isIntTy t)

/-- The flags of CBOX and CRED (Table 10.3, order 1). -/
def copyFlags (i : BitVec 11) (d : BitVec 5) : Bool :=
  let cnt := i.getLsbD 6
  let perd := i.getLsbD 7
  let cbd := i.getLsbD 8
  !i.getLsbD 9 && !i.getLsbD 10 && (cnt || !perd) && !(cbd && cnt) && (!cnt || isEven d) && (!cbd || isH d)

/-- The fields of an instruction are legal; an event row has no encoding and is not an instruction. -/
def Instr.wf : Instr → Bool
  | .add _ _ _ _ _ => true
  | .sub _ _ _ _ _ => true
  | .mul _ _ _ _ _ => true
  | .mulh _ _ _ _ _ => true
  | .mulhn _ _ _ _ _ => true
  | .div _ _ _ _ _ => true
  | .divn _ _ _ _ _ => true
  | .rem _ _ _ _ _ => true
  | .remn _ _ _ _ _ => true
  | .and _ _ _ _ _ => true
  | .or _ _ _ _ _ => true
  | .xor _ _ _ _ _ => true
  | .shl _ _ _ _ _ => true
  | .shr _ _ _ _ _ => true
  | .sha _ _ _ _ _ => true
  | .rotl _ _ _ _ _ => true
  | .min _ _ _ _ _ => true
  | .max _ _ _ _ _ => true
  | .minn _ _ _ _ _ => true
  | .maxn _ _ _ _ _ => true
  | .clz _ _ _ _ => true
  | .ctz _ _ _ _ => true
  | .popc _ _ _ _ => true
  | .bswap _ _ _ _ => true
  | .sel _ _ _ _ _ => true
  | .addi _ _ _ _ => true
  | .andi _ _ _ _ => true
  | .ori _ _ _ _ => true
  | .xori _ _ _ _ => true
  | .shli _ _ _ _ => true
  | .shri _ _ _ _ => true
  | .shai _ _ _ _ => true
  | .cmp _ c _ _ d _ => c.toNat ≤ 9 && isP d
  | .cmpi _ c _ d _ => c.toNat ≤ 9 && isP d
  | .plog _ _ b a d _ => isP b && isP a && isP d
  | .movi _ _ _ => true
  | .movhi _ _ _ => true
  | .ext w p _ _ _ => p.toNat + w.toNat + 1 ≤ 64
  | .ins w p _ _ _ => p.toNat + w.toNat + 1 ≤ 64
  | .mkptr _ b _ _ _ => b ≠ 3#2
  | .ptrget _ b _ _ _ => b.toNat ≤ 5
  | .ptradd _ _ _ _ _ => true
  | .dist _ _ _ _ _ => true
  | .dista _ _ _ _ _ => true
  | .ld _ _ _ _ _ => true
  | .st _ _ _ _ _ => true
  | .ldx _ c _ _ _ _ _ => c.toNat ≤ 1
  | .stx _ c _ _ _ _ _ => c.toNat ≤ 1
  | .ldi _ _ _ _ _ => true
  | .ldp _ m _ d _ => (m = 3#3 || m = 7#3) && isEven d
  | .stp _ m _ d _ => (m = 3#3 || m = 7#3) && isEven d
  | .lda _ _ _ _ _ => true
  | .stl _ _ _ _ _ => true
  | .aadd _ _ _ _ _ _ => true
  | .aand _ _ _ _ _ _ => true
  | .aor _ _ _ _ _ _ => true
  | .axor _ _ _ _ _ _ => true
  | .amin _ _ _ _ _ _ => true
  | .amax _ _ _ _ _ _ => true
  | .aminn _ _ _ _ _ _ => true
  | .amaxn _ _ _ _ _ _ => true
  | .aswp _ _ _ _ _ _ => true
  | .acas _ _ _ _ _ _ => true
  | .afadd _ _ _ _ _ _ => true
  | .aclaim _ _ _ d _ => isEven d
  | .fence _ _ _ => true
  | .send _ n _ d _ => msgRange n d
  | .sendt _ n _ d _ => msgRange n d
  | .reply _ n _ d _ => msgRange n d
  | .msgq _ _ => true
  | .cbdef i a d _ => isH d && decide (i.toNat < 512) && (a = 0#5 || i = 0#11)
  | .cbwait k a _ _ => slotRange k && isH a
  | .cbfree k a _ _ => slotRange k && isH a
  | .cbadvGet k a _ => slotRange k && isH a
  | .cbadvPut k a _ => slotRange k && isH a
  | .cbpush n a d _ => cbRange n d && isH a
  | .cbpop n a d _ => cbRange n d && isH a
  | .cbq a _ _ => isH a
  | .br _ _ _ => true
  | .brz _ _ _ _ => true
  | .brnz _ _ _ _ => true
  | .j _ _ => true
  | .jl _ _ _ => true
  | .jr _ _ _ => true
  | .jlr _ _ _ _ => true
  | .loop _ _ d _ => d ≠ 0#5
  | .fin _ _ => true
  | .actdef _ d _ => isH d
  | .nestdef _ _ d _ => isH d
  | .lnch _ _ _ _ => true
  | .graph _ _ _ => true
  | .phase _ _ => true
  | .cncl _ _ => true
  | .lwait _ _ _ => true
  | .waitc _ _ _ => true
  | .waitt i a _ => maskForm i a
  | .waita i a _ _ => maskForm i a
  | .tfirst i a _ _ => maskForm i a
  | .tagclr i a _ => maskForm i a
  | .safe _ => true
  | .trap _ _ _ => true
  | .tret i _ => i.toNat ≤ 1
  | .brk _ _ => true
  | .trace _ _ _ => true
  | .csrd _ _ _ => true
  | .cswr _ _ _ _ => true
  | .csset _ _ _ _ => true
  | .csclr _ _ _ _ => true
  | .capmint i _ _ _ => i.toNat ≤ 7
  | .caprev _ _ => true
  | .halt _ _ => true
  | .sleep _ _ _ => true
  | .wfr _ _ _ => true
  | .move i _ _ => i.toNat ≤ 3
  | .shld i a d _ => isHW d && (a = 0#5 || i = 0#11)
  | .shst a d _ => a ≠ 0#5 && isH d
  | .shmod i _ d _ => i.toNat ≤ 12 && isHW d
  | .vadd t b a d _ => isNumTy t && isH b && isH a && isH d
  | .vsub t b a d _ => isNumTy t && isH b && isH a && isH d
  | .vmul t b a d _ => isNumTy t && isH b && isH a && isH d
  | .vfma t b a d _ => isFloatTy t && isH b && isH a && isH d
  | .vdiv t b a d _ => isNumTy t && isH b && isH a && isH d
  | .vmin t b a d _ => isNumTy t && isH b && isH a && isH d
  | .vmax t b a d _ => isNumTy t && isH b && isH a && isH d
  | .vabs t a d _ => isNumTy t && isH a && isH d
  | .vneg t a d _ => isNumTy t && isH a && isH d
  | .vrsq t a d _ => isFloatTy t && isH a && isH d
  | .vexp2 t a d _ => isFloatTy t && isH a && isH d
  | .vlog2 t a d _ => isFloatTy t && isH a && isH d
  | .vand t b a d _ => isIntTy t && isH b && isH a && isH d
  | .vor t b a d _ => isIntTy t && isH b && isH a && isH d
  | .vxor t b a d _ => isIntTy t && isH b && isH a && isH d
  | .vshl t b a d _ => isIntTy t && isH b && isH a && isH d
  | .vshr t b a d _ => isIntTy t && isH b && isH a && isH d
  | .vsel t b a d _ => isIntTy t && isH b && isH a && isH d
  | .vcmp c t b a d _ => cmpTy c t && isH b && isH a && isH d
  | .vred o t a d _ => redTy o t && isH a && isH d
  | .vscan o t a d _ => redTy o t && isH a && isH d
  | .vcvt t a d _ => isNumTy t && isH a && isH d
  | .vqnt t a d _ => isQTy t && isH a && isH d
  | .vfill t _ d _ => isAnyTy t && isH d
  | .vident t _ d _ => isQTy t && isH d
  | .vcpy t a d _ => isAnyTy t && isH a && isH d
  | .vgath t b a d _ => isNumTy t && isH b && isH a && isH d
  | .vscat t b a d _ => isNumTy t && isH b && isH a && isH d
  | .vtrn t a d _ => isNumTy t && isH a && isH d
  | .mcfg _ _ => true
  | .mbld t a _ => isQTy t && isH a
  | .mgat t b a _ => isQTy t && isH b && isH a
  | .mma _ _ => true
  | .mmaz _ _ => true
  | .mrec _ _ => true
  | .mupl _ _ => true
  | .msync _ => true
  | .mstat _ _ => true
  | .mcmd o _ _ _ => o.toNat ≤ 2
  | .mcap _ _ _ _ => true
  | .cbox i _ d _ => copyFlags i d
  | .cred i _ d _ => copyFlags i d && !i.getLsbD 8
  | .ccan i a _ => maskForm i a
  | .cstat i a _ _ => maskForm i a
  | .wdef _ d _ => isH d
  | .wbind _ _ d _ => isH d
  | .wpub a _ _ => isH a
  | .wabs a _ => isH a
  | .wdepth _ d _ => isH d
  | .wqry a _ _ => isH a
  | .wstep _ _ d _ => isH d
  | .addCompact _ _ => true
  | .subCompact _ _ => true
  | .andCompact _ _ => true
  | .orCompact _ _ => true
  | .xorCompact _ _ => true
  | .mulCompact _ _ => true
  | .shlCompact _ _ => true
  | .shrCompact _ _ => true
  | .shaCompact _ _ => true
  | .minCompact _ _ => true
  | .maxCompact _ _ => true
  | .minnCompact _ _ => true
  | .addiCompact _ _ => true
  | .moviCompact _ _ => true
  | .shliCompact _ _ => true
  | .shriCompact _ _ => true
  | .shaiCompact _ _ => true
  | .andiCompact _ _ => true
  | .ldN64Compact _ _ _ => true
  | .stN64Compact _ _ _ => true
  | .ldN32Compact _ _ _ => true
  | .stN32Compact _ _ _ => true
  | .brzCompact _ _ => true
  | .brnzCompact _ _ => true
  | .jCompact _ => true
  | .jrCompact _ => true
  | .finCompact => true
  | .firingSelection => false
  | .messageArrival _ _ => false
  | .messageInjection _ => false
  | .noticeInjection => false
  | .watchUpdate _ => false
  | .jobStartMessage => false
  | .launchReceipt => false
  | .phaseReceipt => false
  | .cancelReceipt => false
  | .placement => false
  | .collectionRound _ _ => false
  | .retirementReport _ _ => false
  | .bulkPromotion _ _ => false
  | .messagePromotion _ => false
  | .park => false
  | .waitSatisfied _ => false
  | .sleepWake => false
  | .regionStopResume => false
  | .splitRequest _ => false
  | .forcedSafePoint => false
  | .remoteAccessRequest _ => false
  | .probeArrival _ => false
  | .commitArrival _ => false
  | .closeMessage _ => false
  | .syncAccessArrival _ => false
  | .cbRequest _ => false
  | .replyArrival _ _ => false
  | .acknowledgmentArrival _ _ => false
  | .vectorCommandStart => false
  | .vectorCommandCompletion => false
  | .matrixCommandStart => false
  | .matrixCommandCompletion => false
  | .remoteMatrixPacket _ => false
  | .mcmdCompletion _ _ => false
  | .walkActivation => false
  | .stencilFlitSend _ => false
  | .copyFlitArrival _ => false
  | .copyCompletion _ _ => false
  | .chainLinkIssue _ => false
  | .pullRequest _ => false
  | .storerRequest _ => false
  | .pagerResult _ => false
  | .preemptRequest => false
  | .residencySave => false
  | .jobResume => false
  | .residencyRestore => false
  | .machineCheck _ _ => false
  | .rebuild _ _ => false
  | .moveRequest _ _ => false
  | .moveDrainComplete => false
  | .moveStreamComplete => false
  | .mapUpdate _ => false
  | .markerArrival _ => false
  | .relocArrival _ => false
  | .floatPeriod _ => false
  | .thermalEmergency _ _ => false
  | .overheatCap _ _ => false
  | .rampComplete _ => false
  | .droopDetect _ => false
  | .droopHoldExpiry _ => false
  | .gatingCommit _ => false
  | .wakeComplete _ => false
  | .haltRequest _ => false
  | .haltGroupMessage _ => false
  | .dumpLimitExpiry => false
  | .traceRecord => false
  | .deviceReset => false
  | .bootImageLoaded _ => false
  | .measExtend _ => false
  | .quoteRequest => false
  | .nonceWrite _ => false
  | .quoteComplete => false
  | .hostBar2Access _ _ _ => false
  | .fctlWrite _ _ _ _ => false
  | .fstatRead _ _ => false
  | .timeRead _ _ => false
  | .sqctlWrite _ _ _ _ => false
  | .tlbinvPage _ _ _ _ => false
  | .tlbinvAsid _ _ _ _ => false
  | .tlbinvAll _ _ _ _ => false
  | .pwrqGate _ _ _ _ => false
  | .pwrqWake _ _ _ _ => false
  | .opreqWrite _ _ _ _ => false
  | .hgrpResume _ _ _ _ => false
  | .dumpHold _ _ _ _ => false
  | .controlRegisterWrite _ _ _ _ _ => false
  | .reservedEncoding _ _ => false
  | .partitionCreation => false
  | .capRaise _ => false
  | .traceQueueSend => false

/-- Mask words as the instruction carries them (R45, R48): bit 0 of the first says whether a second follows, and bit 0 of the
second is 0. -/
def spOk : Sp → Bool
  | none => true
  | some (m, none) => !m.getLsbD 0
  | some (m, some k) => m.getLsbD 0 && !k.getLsbD 0

/-- The safe-point suffix of an instruction; a compact instruction and an event have none (R45). -/
def Instr.sp : Instr → Sp
  | .add _ _ _ _ sp => sp
  | .sub _ _ _ _ sp => sp
  | .mul _ _ _ _ sp => sp
  | .mulh _ _ _ _ sp => sp
  | .mulhn _ _ _ _ sp => sp
  | .div _ _ _ _ sp => sp
  | .divn _ _ _ _ sp => sp
  | .rem _ _ _ _ sp => sp
  | .remn _ _ _ _ sp => sp
  | .and _ _ _ _ sp => sp
  | .or _ _ _ _ sp => sp
  | .xor _ _ _ _ sp => sp
  | .shl _ _ _ _ sp => sp
  | .shr _ _ _ _ sp => sp
  | .sha _ _ _ _ sp => sp
  | .rotl _ _ _ _ sp => sp
  | .min _ _ _ _ sp => sp
  | .max _ _ _ _ sp => sp
  | .minn _ _ _ _ sp => sp
  | .maxn _ _ _ _ sp => sp
  | .clz _ _ _ sp => sp
  | .ctz _ _ _ sp => sp
  | .popc _ _ _ sp => sp
  | .bswap _ _ _ sp => sp
  | .sel _ _ _ _ sp => sp
  | .addi _ _ _ sp => sp
  | .andi _ _ _ sp => sp
  | .ori _ _ _ sp => sp
  | .xori _ _ _ sp => sp
  | .shli _ _ _ sp => sp
  | .shri _ _ _ sp => sp
  | .shai _ _ _ sp => sp
  | .cmp _ _ _ _ _ sp => sp
  | .cmpi _ _ _ _ sp => sp
  | .plog _ _ _ _ _ sp => sp
  | .movi _ _ sp => sp
  | .movhi _ _ sp => sp
  | .ext _ _ _ _ sp => sp
  | .ins _ _ _ _ sp => sp
  | .mkptr _ _ _ _ sp => sp
  | .ptrget _ _ _ _ sp => sp
  | .ptradd _ _ _ _ sp => sp
  | .dist _ _ _ _ sp => sp
  | .dista _ _ _ _ sp => sp
  | .ld _ _ _ _ sp => sp
  | .st _ _ _ _ sp => sp
  | .ldx _ _ _ _ _ _ sp => sp
  | .stx _ _ _ _ _ _ sp => sp
  | .ldi _ _ _ _ sp => sp
  | .ldp _ _ _ _ sp => sp
  | .stp _ _ _ _ sp => sp
  | .lda _ _ _ _ sp => sp
  | .stl _ _ _ _ sp => sp
  | .aadd _ _ _ _ _ sp => sp
  | .aand _ _ _ _ _ sp => sp
  | .aor _ _ _ _ _ sp => sp
  | .axor _ _ _ _ _ sp => sp
  | .amin _ _ _ _ _ sp => sp
  | .amax _ _ _ _ _ sp => sp
  | .aminn _ _ _ _ _ sp => sp
  | .amaxn _ _ _ _ _ sp => sp
  | .aswp _ _ _ _ _ sp => sp
  | .acas _ _ _ _ _ sp => sp
  | .afadd _ _ _ _ _ sp => sp
  | .aclaim _ _ _ _ sp => sp
  | .fence _ _ sp => sp
  | .send _ _ _ _ sp => sp
  | .sendt _ _ _ _ sp => sp
  | .reply _ _ _ _ sp => sp
  | .msgq _ sp => sp
  | .cbdef _ _ _ sp => sp
  | .cbwait _ _ _ sp => sp
  | .cbfree _ _ _ sp => sp
  | .cbadvGet _ _ sp => sp
  | .cbadvPut _ _ sp => sp
  | .cbpush _ _ _ sp => sp
  | .cbpop _ _ _ sp => sp
  | .cbq _ _ sp => sp
  | .br _ _ sp => sp
  | .brz _ _ _ sp => sp
  | .brnz _ _ _ sp => sp
  | .j _ sp => sp
  | .jl _ _ sp => sp
  | .jr _ _ sp => sp
  | .jlr _ _ _ sp => sp
  | .loop _ _ _ sp => sp
  | .fin _ sp => sp
  | .actdef _ _ sp => sp
  | .nestdef _ _ _ sp => sp
  | .lnch _ _ _ sp => sp
  | .graph _ _ sp => sp
  | .phase _ sp => sp
  | .cncl _ sp => sp
  | .lwait _ _ sp => sp
  | .waitc _ _ sp => sp
  | .waitt _ _ sp => sp
  | .waita _ _ _ sp => sp
  | .tfirst _ _ _ sp => sp
  | .tagclr _ _ sp => sp
  | .safe sp => sp
  | .trap _ _ sp => sp
  | .tret _ sp => sp
  | .brk _ sp => sp
  | .trace _ _ sp => sp
  | .csrd _ _ sp => sp
  | .cswr _ _ _ sp => sp
  | .csset _ _ _ sp => sp
  | .csclr _ _ _ sp => sp
  | .capmint _ _ _ sp => sp
  | .caprev _ sp => sp
  | .halt _ sp => sp
  | .sleep _ _ sp => sp
  | .wfr _ _ sp => sp
  | .move _ _ sp => sp
  | .shld _ _ _ sp => sp
  | .shst _ _ sp => sp
  | .shmod _ _ _ sp => sp
  | .vadd _ _ _ _ sp => sp
  | .vsub _ _ _ _ sp => sp
  | .vmul _ _ _ _ sp => sp
  | .vfma _ _ _ _ sp => sp
  | .vdiv _ _ _ _ sp => sp
  | .vmin _ _ _ _ sp => sp
  | .vmax _ _ _ _ sp => sp
  | .vabs _ _ _ sp => sp
  | .vneg _ _ _ sp => sp
  | .vrsq _ _ _ sp => sp
  | .vexp2 _ _ _ sp => sp
  | .vlog2 _ _ _ sp => sp
  | .vand _ _ _ _ sp => sp
  | .vor _ _ _ _ sp => sp
  | .vxor _ _ _ _ sp => sp
  | .vshl _ _ _ _ sp => sp
  | .vshr _ _ _ _ sp => sp
  | .vsel _ _ _ _ sp => sp
  | .vcmp _ _ _ _ _ sp => sp
  | .vred _ _ _ _ sp => sp
  | .vscan _ _ _ _ sp => sp
  | .vcvt _ _ _ sp => sp
  | .vqnt _ _ _ sp => sp
  | .vfill _ _ _ sp => sp
  | .vident _ _ _ sp => sp
  | .vcpy _ _ _ sp => sp
  | .vgath _ _ _ _ sp => sp
  | .vscat _ _ _ _ sp => sp
  | .vtrn _ _ _ sp => sp
  | .mcfg _ sp => sp
  | .mbld _ _ sp => sp
  | .mgat _ _ _ sp => sp
  | .mma _ sp => sp
  | .mmaz _ sp => sp
  | .mrec _ sp => sp
  | .mupl _ sp => sp
  | .msync sp => sp
  | .mstat _ sp => sp
  | .mcmd _ _ _ sp => sp
  | .mcap _ _ _ sp => sp
  | .cbox _ _ _ sp => sp
  | .cred _ _ _ sp => sp
  | .ccan _ _ sp => sp
  | .cstat _ _ _ sp => sp
  | .wdef _ _ sp => sp
  | .wbind _ _ _ sp => sp
  | .wpub _ _ sp => sp
  | .wabs _ sp => sp
  | .wdepth _ _ sp => sp
  | .wqry _ _ sp => sp
  | .wstep _ _ _ sp => sp
  | .addCompact _ _ => none
  | .subCompact _ _ => none
  | .andCompact _ _ => none
  | .orCompact _ _ => none
  | .xorCompact _ _ => none
  | .mulCompact _ _ => none
  | .shlCompact _ _ => none
  | .shrCompact _ _ => none
  | .shaCompact _ _ => none
  | .minCompact _ _ => none
  | .maxCompact _ _ => none
  | .minnCompact _ _ => none
  | .addiCompact _ _ => none
  | .moviCompact _ _ => none
  | .shliCompact _ _ => none
  | .shriCompact _ _ => none
  | .shaiCompact _ _ => none
  | .andiCompact _ _ => none
  | .ldN64Compact _ _ _ => none
  | .stN64Compact _ _ _ => none
  | .ldN32Compact _ _ _ => none
  | .stN32Compact _ _ _ => none
  | .brzCompact _ _ => none
  | .brnzCompact _ _ => none
  | .jCompact _ => none
  | .jrCompact _ => none
  | .finCompact => none
  | .messageArrival _ _ => none
  | .messageInjection _ => none
  | .watchUpdate _ => none
  | .collectionRound _ _ => none
  | .retirementReport _ _ => none
  | .bulkPromotion _ _ => none
  | .messagePromotion _ => none
  | .waitSatisfied _ => none
  | .splitRequest _ => none
  | .remoteAccessRequest _ => none
  | .probeArrival _ => none
  | .commitArrival _ => none
  | .closeMessage _ => none
  | .syncAccessArrival _ => none
  | .cbRequest _ => none
  | .replyArrival _ _ => none
  | .acknowledgmentArrival _ _ => none
  | .remoteMatrixPacket _ => none
  | .mcmdCompletion _ _ => none
  | .stencilFlitSend _ => none
  | .copyFlitArrival _ => none
  | .copyCompletion _ _ => none
  | .chainLinkIssue _ => none
  | .pullRequest _ => none
  | .storerRequest _ => none
  | .pagerResult _ => none
  | .machineCheck _ _ => none
  | .rebuild _ _ => none
  | .moveRequest _ _ => none
  | .mapUpdate _ => none
  | .markerArrival _ => none
  | .relocArrival _ => none
  | .haltRequest _ => none
  | .haltGroupMessage _ => none
  | .fctlWrite _ _ _ sp => sp
  | .fstatRead _ sp => sp
  | .timeRead _ sp => sp
  | .sqctlWrite _ _ _ sp => sp
  | .tlbinvPage _ _ _ sp => sp
  | .tlbinvAsid _ _ _ sp => sp
  | .tlbinvAll _ _ _ sp => sp
  | .pwrqGate _ _ _ sp => sp
  | .pwrqWake _ _ _ sp => sp
  | .opreqWrite _ _ _ sp => sp
  | .hgrpResume _ _ _ sp => sp
  | .dumpHold _ _ _ sp => sp
  | .controlRegisterWrite _ _ _ _ sp => sp
  | .reservedEncoding _ _ => none
  | .floatPeriod _ => none
  | .thermalEmergency _ _ => none
  | .overheatCap _ _ => none
  | .rampComplete _ => none
  | .droopDetect _ => none
  | .droopHoldExpiry _ => none
  | .gatingCommit _ => none
  | .wakeComplete _ => none
  | .bootImageLoaded _ => none
  | .measExtend _ => none
  | .nonceWrite _ => none
  | .hostBar2Access _ _ _ => none
  | .capRaise _ => none
  | .firingSelection => none
  | .noticeInjection => none
  | .jobStartMessage => none
  | .launchReceipt => none
  | .phaseReceipt => none
  | .cancelReceipt => none
  | .placement => none
  | .park => none
  | .sleepWake => none
  | .regionStopResume => none
  | .forcedSafePoint => none
  | .vectorCommandStart => none
  | .vectorCommandCompletion => none
  | .matrixCommandStart => none
  | .matrixCommandCompletion => none
  | .walkActivation => none
  | .preemptRequest => none
  | .residencySave => none
  | .jobResume => none
  | .residencyRestore => none
  | .moveDrainComplete => none
  | .moveStreamComplete => none
  | .dumpLimitExpiry => none
  | .traceRecord => none
  | .deviceReset => none
  | .quoteRequest => none
  | .quoteComplete => none
  | .partitionCreation => none
  | .traceQueueSend => none

end Sys2Proof
end

