-- ==== Sys2Proof/Machine/Fetch.lean ====
section
/-!
DEFINITION. Sys2Proof/Machine/Fetch.lean: fetching an instruction's parcels and decoding them (R45, R47, R60, R62).
-/
namespace Sys2Proof.Machine

/-- What fetch at the pc finds. -/
inductive Fetched where
  | instr (i : Instr)
  /-- An encoding that is no instruction: TADDR's value and the length in bytes (R60). -/
  | illegal (enc : BitVec 32) (len : Nat)
  /-- MISFETCH: TNPC and TADDR (R47). -/
  | misfetch (tnpc addr : Nat)
deriving DecidableEq, Repr

/-- The encoding that ILLEGAL reports (R60): 32 bits, or a parcel zero-extended. -/
def encOf : List Parcel → BitVec 32
  | [] => 0#32
  | [p] => p.zeroExtend 32
  | p :: q :: _ => if p.getLsbD 0 then q ++ p else p.zeroExtend 32

/-- Decode parcels of known length (R60): reserved encodings and illegal fields are reported with the encoding, a bad
second mask word with that word. Of an instruction that is illegal both ways the encoding is reported where a field is reserved or
unused, the mask word where a register class, type or range is wrong (DESIGN CHOICE, log 72). -/
def decodeAt (ps : List Parcel) (len : Nat) : Fetched :=
  match decode ps with
  | .ok (i, _) => if i.wf then .instr i else .illegal (encOf ps) len
  | .error (.badMask m) => .illegal m len
  | .error _ => .illegal (encOf ps) len

/-- Length of an instruction that runs past the end of the I-store, as far as its parcels tell: a mask word that lies beyond is taken as
the last one (DESIGN CHOICE, log 88). -/
def overrunLen : List Parcel → Nat
  | [] => 2
  | p :: t =>
    if !p.getLsbD 0 then 2
    else if !p.getLsbD 1 then 4
    else if (t.getD 1 0#16).getLsbD 0 then 12 else 8

/-- Fetch at the pc. A parcel whose start bit is clear is a wrong entry offset (TNPC := TPC, R147), or else the first of an instruction
that would run past the end of the I-store, for sequential fetch reaches no other (R46, R47): every other transfer checks its target. -/
def Core.fetch (c : Core) : Fetched :=
  let pc := c.f.pc
  let ps := c.parcels pc 6
  if !c.startBit pc then
    if pc = c.f.entry then .misfetch pc pc else .misfetch (pc + overrunLen ps) 0x8000
  else
    match parcelsLen ps with
    | none => .misfetch (pc + overrunLen ps) 0x8000
    | some len => decodeAt ps len

/-- The encoding of an instruction as ILLEGAL reports it, where its meaning finds that it may not run (R60, R149,
R150). -/
def encWord (i : Instr) : Word :=
  match encode i with
  | some ps => (encOf ps).zeroExtend 64
  | none => 0#64

end Sys2Proof.Machine
end

