-- ==== Sys2Proof/Machine/Alu.lean ====
section
/-!
DEFINITION. Sys2Proof/Machine/Alu.lean: majors 0x00 to 0x0E and their compact forms (R83 to R97, R58, R59): register
arithmetic, immediates, comparisons, predicate logic, constants, bit fields, pointers and distances.
-/
namespace Sys2Proof.Machine

/-! ### Shared operations -/

/-- Bits 127..64 of the signed product (R63). -/
def mulhWord (x y : Word) : Word := BitVec.ofInt 64 (x.toInt * y.toInt / 2 ^ 64)

/-- Bits 127..64 of the unsigned product (R63). -/
def mulhnWord (x y : Word) : Word := BitVec.ofNat 64 (x.toNat * y.toNat / 2 ^ 64)

/-- Signed quotient at any width, with the boundary cases of Table 4.1. -/
def divBv {w : Nat} (x y : BitVec w) : BitVec w := if y = 0 then BitVec.allOnes w else x.sdiv y
def divnBv {w : Nat} (x y : BitVec w) : BitVec w := if y = 0 then BitVec.allOnes w else x.udiv y
def remBv {w : Nat} (x y : BitVec w) : BitVec w := if y = 0 then x else x.srem y
def remnBv {w : Nat} (x y : BitVec w) : BitVec w := if y = 0 then x else x.umod y

def divWord (x y : Word) : Word := divBv x y
def divnWord (x y : Word) : Word := divnBv x y
def remWord (x y : Word) : Word := remBv x y
def remnWord (x y : Word) : Word := remnBv x y

/-- A guarded register form: sd := v (R86). -/
def writeGuarded (g : BitVec 3) (d : BitVec 5) (sp : Sp) (v : Word) (s : State) : Out :=
  guarded s g sp fun s => .next ((s.setS d v).retire (spLen sp) sp)

/-- An unguarded register form: sd := v. -/
def writeReg (len : Nat) (d : BitVec 5) (sp : Sp) (v : Word) (s : State) : Out :=
  .next ((s.setS d v).retire len sp)

/-- A compact register form: sd := v (R59). -/
def writeCompact (d : BitVec 4) (v : Word) (s : State) : Out := writeReg 2 (s4 d) none v s

/-- A guarded form that writes a predicate (R88, R89). -/
def writePred (g : BitVec 3) (d : BitVec 5) (sp : Sp) (v : Bool) (s : State) : Out :=
  guarded s g sp fun s => .next ((s.setP (pOf d) v).retire (spLen sp) sp)

/-- ADD as a function of its operands: sa + sb (Table 5.3) (R86). -/
def addFn (x y : Word) : Word := x + y

/-- SUB as a function of its operands: sa − sb (R86). -/
def subFn (x y : Word) : Word := x - y

/-- MUL as a function of its operands: low 64 bits of sa × sb (R86). -/
def mulFn (x y : Word) : Word := x * y

/-- MULH as a function of its operands: high half of the signed product (R86). -/
def mulhFn (x y : Word) : Word := mulhWord x y

/-- MULHN as a function of its operands: high half of the unsigned product (R86). -/
def mulhnFn (x y : Word) : Word := mulhnWord x y

/-- DIV as a function of its operands: signed quotient, Table 4.1 (R86). -/
def divFn (x y : Word) : Word := divWord x y

/-- DIVN as a function of its operands: unsigned quotient, Table 4.1 (R86). -/
def divnFn (x y : Word) : Word := divnWord x y

/-- REM as a function of its operands: signed remainder (R86). -/
def remFn (x y : Word) : Word := remWord x y

/-- REMN as a function of its operands: unsigned remainder (R86). -/
def remnFn (x y : Word) : Word := remnWord x y

/-- AND as a function of its operands: bitwise AND (R86). -/
def andFn (x y : Word) : Word := x &&& y

/-- OR as a function of its operands: bitwise OR (R86). -/
def orFn (x y : Word) : Word := x ||| y

/-- XOR as a function of its operands: bitwise XOR (R86). -/
def xorFn (x y : Word) : Word := x ^^^ y

/-- SHL as a function of its operands: shift left by sb[5:0] (R86). -/
def shlFn (x y : Word) : Word := x <<< (y.toNat % 64)

/-- SHR as a function of its operands: shift right by sb[5:0] (R86). -/
def shrFn (x y : Word) : Word := x >>> (y.toNat % 64)

/-- SHA as a function of its operands: arithmetic shift right by sb[5:0] (R86). -/
def shaFn (x y : Word) : Word := x.sshiftRight (y.toNat % 64)

/-- ROTL as a function of its operands: rotate left by sb[5:0] (R86). -/
def rotlFn (x y : Word) : Word := x.rotateLeft (y.toNat % 64)

/-- MIN as a function of its operands: signed minimum (R86). -/
def minFn (x y : Word) : Word := if x.slt y then x else y

/-- MAX as a function of its operands: signed maximum (R86). -/
def maxFn (x y : Word) : Word := if x.slt y then y else x

/-- MINN as a function of its operands: unsigned minimum (R86). -/
def minnFn (x y : Word) : Word := if x.ult y then x else y

/-- MAXN as a function of its operands: unsigned maximum (R86). -/
def maxnFn (x y : Word) : Word := if x.ult y then y else x

/-- CLZ as a function of its operand: leading zero count (R86). -/
def clzFn (x : Word) : Word := BitVec.ofNat 64 (clz64 x)

/-- CTZ as a function of its operand: trailing zero count (R86). -/
def ctzFn (x : Word) : Word := BitVec.ofNat 64 (ctz64 x)

/-- POPC as a function of its operand: population count (R86). -/
def popcFn (x : Word) : Word := BitVec.ofNat 64 (popc64 x)

/-- BSWAP as a function of its operand: byte reversal (R86). -/
def bswapFn (x : Word) : Word := bswap64 x

/-! ### Major 0x00 (Table 5.3) -/

def execAdd (g : BitVec 3) (b a d : BitVec 5) (sp : Sp) (s : State) : Out :=
  writeGuarded g d sp (addFn (s.regs.getS a) (s.regs.getS b)) s

def execSub (g : BitVec 3) (b a d : BitVec 5) (sp : Sp) (s : State) : Out :=
  writeGuarded g d sp (subFn (s.regs.getS a) (s.regs.getS b)) s

def execMul (g : BitVec 3) (b a d : BitVec 5) (sp : Sp) (s : State) : Out :=
  writeGuarded g d sp (mulFn (s.regs.getS a) (s.regs.getS b)) s

def execMulh (g : BitVec 3) (b a d : BitVec 5) (sp : Sp) (s : State) : Out :=
  writeGuarded g d sp (mulhFn (s.regs.getS a) (s.regs.getS b)) s

def execMulhn (g : BitVec 3) (b a d : BitVec 5) (sp : Sp) (s : State) : Out :=
  writeGuarded g d sp (mulhnFn (s.regs.getS a) (s.regs.getS b)) s

def execDiv (g : BitVec 3) (b a d : BitVec 5) (sp : Sp) (s : State) : Out :=
  writeGuarded g d sp (divFn (s.regs.getS a) (s.regs.getS b)) s

def execDivn (g : BitVec 3) (b a d : BitVec 5) (sp : Sp) (s : State) : Out :=
  writeGuarded g d sp (divnFn (s.regs.getS a) (s.regs.getS b)) s

def execRem (g : BitVec 3) (b a d : BitVec 5) (sp : Sp) (s : State) : Out :=
  writeGuarded g d sp (remFn (s.regs.getS a) (s.regs.getS b)) s

def execRemn (g : BitVec 3) (b a d : BitVec 5) (sp : Sp) (s : State) : Out :=
  writeGuarded g d sp (remnFn (s.regs.getS a) (s.regs.getS b)) s

def execAnd (g : BitVec 3) (b a d : BitVec 5) (sp : Sp) (s : State) : Out :=
  writeGuarded g d sp (andFn (s.regs.getS a) (s.regs.getS b)) s

def execOr (g : BitVec 3) (b a d : BitVec 5) (sp : Sp) (s : State) : Out :=
  writeGuarded g d sp (orFn (s.regs.getS a) (s.regs.getS b)) s

def execXor (g : BitVec 3) (b a d : BitVec 5) (sp : Sp) (s : State) : Out :=
  writeGuarded g d sp (xorFn (s.regs.getS a) (s.regs.getS b)) s

def execShl (g : BitVec 3) (b a d : BitVec 5) (sp : Sp) (s : State) : Out :=
  writeGuarded g d sp (shlFn (s.regs.getS a) (s.regs.getS b)) s

def execShr (g : BitVec 3) (b a d : BitVec 5) (sp : Sp) (s : State) : Out :=
  writeGuarded g d sp (shrFn (s.regs.getS a) (s.regs.getS b)) s

def execSha (g : BitVec 3) (b a d : BitVec 5) (sp : Sp) (s : State) : Out :=
  writeGuarded g d sp (shaFn (s.regs.getS a) (s.regs.getS b)) s

def execRotl (g : BitVec 3) (b a d : BitVec 5) (sp : Sp) (s : State) : Out :=
  writeGuarded g d sp (rotlFn (s.regs.getS a) (s.regs.getS b)) s

def execMin (g : BitVec 3) (b a d : BitVec 5) (sp : Sp) (s : State) : Out :=
  writeGuarded g d sp (minFn (s.regs.getS a) (s.regs.getS b)) s

def execMax (g : BitVec 3) (b a d : BitVec 5) (sp : Sp) (s : State) : Out :=
  writeGuarded g d sp (maxFn (s.regs.getS a) (s.regs.getS b)) s

def execMinn (g : BitVec 3) (b a d : BitVec 5) (sp : Sp) (s : State) : Out :=
  writeGuarded g d sp (minnFn (s.regs.getS a) (s.regs.getS b)) s

def execMaxn (g : BitVec 3) (b a d : BitVec 5) (sp : Sp) (s : State) : Out :=
  writeGuarded g d sp (maxnFn (s.regs.getS a) (s.regs.getS b)) s

def execClz (g : BitVec 3) (a d : BitVec 5) (sp : Sp) (s : State) : Out :=
  writeGuarded g d sp (clzFn (s.regs.getS a)) s

def execCtz (g : BitVec 3) (a d : BitVec 5) (sp : Sp) (s : State) : Out :=
  writeGuarded g d sp (ctzFn (s.regs.getS a)) s

def execPopc (g : BitVec 3) (a d : BitVec 5) (sp : Sp) (s : State) : Out :=
  writeGuarded g d sp (popcFn (s.regs.getS a)) s

def execBswap (g : BitVec 3) (a d : BitVec 5) (sp : Sp) (s : State) : Out :=
  writeGuarded g d sp (bswapFn (s.regs.getS a)) s

/-- SEL: the g field selects, and does not guard (R86). -/
def execSel (p : BitVec 3) (b a d : BitVec 5) (sp : Sp) (s : State) : Out :=
  writeReg (spLen sp) d sp (if s.regs.getP p then s.regs.getS a else s.regs.getS b) s

/-! ### Immediates (R87) -/

def execAddi (i : BitVec 14) (a d : BitVec 5) (sp : Sp) (s : State) : Out :=
  writeReg (spLen sp) d sp (s.regs.getS a + i.signExtend 64) s

def execAndi (i : BitVec 14) (a d : BitVec 5) (sp : Sp) (s : State) : Out :=
  writeReg (spLen sp) d sp (s.regs.getS a &&& i.signExtend 64) s

def execOri (i : BitVec 14) (a d : BitVec 5) (sp : Sp) (s : State) : Out :=
  writeReg (spLen sp) d sp (s.regs.getS a ||| i.zeroExtend 64) s

def execXori (i : BitVec 14) (a d : BitVec 5) (sp : Sp) (s : State) : Out :=
  writeReg (spLen sp) d sp (s.regs.getS a ^^^ i.zeroExtend 64) s

def execShli (i : BitVec 6) (a d : BitVec 5) (sp : Sp) (s : State) : Out :=
  writeReg (spLen sp) d sp (s.regs.getS a <<< i.toNat) s

def execShri (i : BitVec 6) (a d : BitVec 5) (sp : Sp) (s : State) : Out :=
  writeReg (spLen sp) d sp (s.regs.getS a >>> i.toNat) s

def execShai (i : BitVec 6) (a d : BitVec 5) (sp : Sp) (s : State) : Out :=
  writeReg (spLen sp) d sp ((s.regs.getS a).sshiftRight i.toNat) s

/-! ### Comparisons and predicates (R88, R89) -/

def execCmp (g : BitVec 3) (c : BitVec 4) (b a d : BitVec 5) (sp : Sp) (s : State) : Out :=
  writePred g d sp (condWord c (s.regs.getS a) (s.regs.getS b)) s

def execCmpi (i : BitVec 10) (c : BitVec 4) (a d : BitVec 5) (sp : Sp) (s : State) : Out :=
  .next ((s.setP (pOf d) (condWord c (s.regs.getS a) (cmpImm c i))).retire (spLen sp) sp)

def execPlog (g : BitVec 3) (t : BitVec 4) (b a d : BitVec 5) (sp : Sp) (s : State) : Out :=
  writePred g d sp (truthTable t (s.regs.getP (pOf a)) (s.regs.getP (pOf b))) s

/-! ### Constants and bit fields (R90, R91) -/

def execMovi (i : BitVec 19) (d : BitVec 5) (sp : Sp) (s : State) : Out :=
  writeReg (spLen sp) d sp (i.signExtend 64) s

def execMovhi (i : BitVec 19) (d : BitVec 5) (sp : Sp) (s : State) : Out :=
  writeReg (spLen sp) d sp ((s.regs.getS d <<< 19) ||| i.zeroExtend 64) s

/-- sa bits p + w .. p, where w is the width minus 1 (R91). -/
def extWord (x : Word) (w p : BitVec 6) : Word := BitVec.ofNat 64 (field x p.toNat (w.toNat + 1))

def execExt (w p : BitVec 6) (a d : BitVec 5) (sp : Sp) (s : State) : Out :=
  writeReg (spLen sp) d sp (extWord (s.regs.getS a) w p) s

/-- INS: bits p + w .. p of the old value replaced by the low bits of x (R91). -/
def insWord (old x : Word) (w p : BitVec 6) : Word := setField old p.toNat (w.toNat + 1) x.toNat

def execIns (w p : BitVec 6) (a d : BitVec 5) (sp : Sp) (s : State) : Out :=
  writeReg (spLen sp) d sp (insWord (s.regs.getS d) (s.regs.getS a) w p) s

/-! ### Pointers (R92 to R94) -/

def execMkptr (g : BitVec 3) (b : BitVec 2) (a d : BitVec 5) (sp : Sp) (s : State) : Out :=
  writeGuarded g d sp (mkptrWord (s.regs.getS a) b) s

def execPtrget (g : BitVec 3) (b a d : BitVec 5) (sp : Sp) (s : State) : Out :=
  writeGuarded g d sp (ptrgetWord (s.regs.getS a) b) s

def execPtradd (g : BitVec 3) (b a d : BitVec 5) (sp : Sp) (s : State) : Out :=
  writeGuarded g d sp (ptrAdd (s.regs.getS a) (s.regs.getS b).toInt) s

/-! ### Distances (R95 to R97) -/

def execDist (g : BitVec 3) (b a d : BitVec 5) (sp : Sp) (s : State) : Out :=
  let p := s.regs.getS a
  writeGuarded g d sp (distWord s.dev.part p (s.regs.getS b) (nomEighths s.dev.part s.xy.1 s.xy.2 p)) s

/-- The estimate of DISTA (R97). -/
def State.distaEighths (s : State) (p : Word) : Nat :=
  if !bit p 63 then 0
  else if isMemPtr p then
    match s.dev.part.memCore (ptrX p) with
    | .memory die i => actEighths s.core.site (memCoreSite die i) 0
    | .mesh _ _ | .pager _ _ | .control | .far _ _ _ | .port _ => 0
  else
    let hops := match s.dev.part.devEntry (ptrDev p) with
      | some e => e.hops
      | none => 0
    actEighths s.core.site
      (s.dev.part.phys s.core.exc (BitVec.ofNat 8 (ptrX p)) (BitVec.ofNat 8 (ptrY p))) hops

def execDista (g : BitVec 3) (b a d : BitVec 5) (sp : Sp) (s : State) : Out :=
  let p := s.regs.getS a
  writeGuarded g d sp (distWord s.dev.part p (s.regs.getS b) (s.distaEighths p)) s

/-! ### Compact forms (Table 3.8): d, d, a over s0 to s15 -/

def execAddCompact (a d : BitVec 4) (s : State) : Out :=
  writeCompact d (addFn (s.regs.getS (s4 d)) (s.regs.getS (s4 a))) s

def execSubCompact (a d : BitVec 4) (s : State) : Out :=
  writeCompact d (subFn (s.regs.getS (s4 d)) (s.regs.getS (s4 a))) s

def execAndCompact (a d : BitVec 4) (s : State) : Out :=
  writeCompact d (andFn (s.regs.getS (s4 d)) (s.regs.getS (s4 a))) s

def execOrCompact (a d : BitVec 4) (s : State) : Out :=
  writeCompact d (orFn (s.regs.getS (s4 d)) (s.regs.getS (s4 a))) s

def execXorCompact (a d : BitVec 4) (s : State) : Out :=
  writeCompact d (xorFn (s.regs.getS (s4 d)) (s.regs.getS (s4 a))) s

def execMulCompact (a d : BitVec 4) (s : State) : Out :=
  writeCompact d (mulFn (s.regs.getS (s4 d)) (s.regs.getS (s4 a))) s

def execShlCompact (a d : BitVec 4) (s : State) : Out :=
  writeCompact d (shlFn (s.regs.getS (s4 d)) (s.regs.getS (s4 a))) s

def execShrCompact (a d : BitVec 4) (s : State) : Out :=
  writeCompact d (shrFn (s.regs.getS (s4 d)) (s.regs.getS (s4 a))) s

def execShaCompact (a d : BitVec 4) (s : State) : Out :=
  writeCompact d (shaFn (s.regs.getS (s4 d)) (s.regs.getS (s4 a))) s

def execMinCompact (a d : BitVec 4) (s : State) : Out :=
  writeCompact d (minFn (s.regs.getS (s4 d)) (s.regs.getS (s4 a))) s

def execMaxCompact (a d : BitVec 4) (s : State) : Out :=
  writeCompact d (maxFn (s.regs.getS (s4 d)) (s.regs.getS (s4 a))) s

def execMinnCompact (a d : BitVec 4) (s : State) : Out :=
  writeCompact d (minnFn (s.regs.getS (s4 d)) (s.regs.getS (s4 a))) s

def execAddiCompact (i : BitVec 6) (d : BitVec 4) (s : State) : Out :=
  writeCompact d (s.regs.getS (s4 d) + i.signExtend 64) s

def execMoviCompact (i : BitVec 6) (d : BitVec 4) (s : State) : Out :=
  writeCompact d (i.signExtend 64) s

def execShliCompact (i : BitVec 6) (d : BitVec 4) (s : State) : Out :=
  writeCompact d (s.regs.getS (s4 d) <<< i.toNat) s

def execShriCompact (i : BitVec 6) (d : BitVec 4) (s : State) : Out :=
  writeCompact d (s.regs.getS (s4 d) >>> i.toNat) s

def execShaiCompact (i : BitVec 6) (d : BitVec 4) (s : State) : Out :=
  writeCompact d ((s.regs.getS (s4 d)).sshiftRight i.toNat) s

def execAndiCompact (i : BitVec 6) (d : BitVec 4) (s : State) : Out :=
  writeCompact d (s.regs.getS (s4 d) &&& i.signExtend 64) s

end Sys2Proof.Machine
end

