-- ==== Sys2Proof/Machine/Control.lean ====
section
/-!
DEFINITION. Sys2Proof/Machine/Control.lean: control transfers and FIN (R98 to R102), their compact forms, SAFE, TRAP,
TRET (R145, R148, R149) and encodings that are no instruction (R60).
-/
namespace Sys2Proof.Machine

/-- A taken transfer to `t` from the instruction of `len` bytes at the pc: MISFETCH on a bad target, with nothing
written (R47, R98); otherwise the register writes of `k` and the new pc. -/
def transfer (s : State) (t : Int) (len : Nat) (sp : Sp) (k : State → State) : Out :=
  if 0 ≤ t ∧ s.core.startBit t.toNat then .next ((k s).retireAt t.toNat sp)
  else .next (s.stop causeMisfetch len (BitVec.ofInt 64 t))

/-- The target of a relative branch: an offset in parcels from the branch's first parcel (R51). -/
def relTarget (s : State) (off : Int) : Int := (s.core.f.pc : Int) + 2 * off

/-- A conditional relative branch, guarded elsewhere (R98). -/
def branchRel (s : State) (taken : Bool) (off : Int) (len : Nat) (sp : Sp) : Out :=
  if taken then transfer s (relTarget s off) len sp id else .next (s.retire len sp)

def execBr (o : BitVec 16) (g : BitVec 3) (sp : Sp) (s : State) : Out :=
  guarded s g sp fun s => branchRel s true o.toInt (spLen sp) sp

def execBrz (o : BitVec 16) (g : BitVec 3) (d : BitVec 5) (sp : Sp) (s : State) : Out :=
  guarded s g sp fun s => branchRel s (s.regs.getS d = 0#64) o.toInt (spLen sp) sp

def execBrnz (o : BitVec 16) (g : BitVec 3) (d : BitVec 5) (sp : Sp) (s : State) : Out :=
  guarded s g sp fun s => branchRel s (s.regs.getS d ≠ 0#64) o.toInt (spLen sp) sp

/-- LOOP: decrement and branch while nonzero; a MISFETCH leaves the register as it was (R98). -/
def execLoop (o : BitVec 16) (g : BitVec 3) (d : BitVec 5) (sp : Sp) (s : State) : Out :=
  guarded s g sp fun s =>
    let v := s.regs.getS d - 1#64
    if v ≠ 0#64 then transfer s (relTarget s o.toInt) (spLen sp) sp fun s => s.setS d v
    else .next ((s.setS d v).retire (spLen sp) sp)

/-- The link value N: the address of the next instruction in sequence (R100). -/
def linkWord (s : State) (len : Nat) : Word := BitVec.ofNat 64 (s.core.f.pc + len)

def execJ (i : BitVec 19) (sp : Sp) (s : State) : Out :=
  transfer s (relTarget s i.toInt) (spLen sp) sp id

def execJl (i : BitVec 19) (d : BitVec 5) (sp : Sp) (s : State) : Out :=
  transfer s (relTarget s i.toInt) (spLen sp) sp fun t => t.setS d (linkWord s (spLen sp))

def execJr (g : BitVec 3) (a : BitVec 5) (sp : Sp) (s : State) : Out :=
  guarded s g sp fun s => transfer s (s.regs.getS a).toNat (spLen sp) sp id

/-- JLR reads sa before it writes sd (R100). -/
def execJlr (g : BitVec 3) (a d : BitVec 5) (sp : Sp) (s : State) : Out :=
  guarded s g sp fun s =>
    transfer s (s.regs.getS a).toNat (spLen sp) sp fun t => t.setS d (linkWord s (spLen sp))

/-- FIN performed: the region has ended, the per-firing state goes and the pipeline is free (R101). -/
def finish' (s : State) : Out :=
  irrevocably s fun s => .next ((s.trace 2 0 s.core.f.ctl.mnom).mapC Core.closeOwn).endFiring

def execFin (g : BitVec 3) (sp : Sp) (s : State) : Out := guarded s g sp finish'

def execBrzCompact (o : BitVec 6) (d : BitVec 4) (s : State) : Out :=
  branchRel s (s.regs.getS (s4 d) = 0#64) o.toInt 2 none

def execBrnzCompact (o : BitVec 6) (d : BitVec 4) (s : State) : Out :=
  branchRel s (s.regs.getS (s4 d) ≠ 0#64) o.toInt 2 none

def execJCompact (o : BitVec 10) (s : State) : Out := transfer s (relTarget s o.toInt) 2 none id

def execJrCompact (d : BitVec 4) (s : State) : Out := transfer s (s.regs.getS (s4 d)).toNat 2 none id

def execFinCompact (s : State) : Out := finish' s

/-- SAFE carries a safe point and does nothing else (R145). -/
def execSafe (sp : Sp) (s : State) : Out := .next (s.retire (spLen sp) sp)

/-- TRAP (R148). -/
def execTrap (g : BitVec 3) (i : BitVec 11) (sp : Sp) (s : State) : Out :=
  guarded s g sp fun s => .next (s.stop causeTrap (spLen sp) (i.zeroExtend 64))

/-- TRET (R149): ILLEGAL outside a stop entry; a MISFETCH at the target finds ACT still 1. -/
def execTret (i : BitVec 11) (sp : Sp) (s : State) : Out :=
  if !s.core.f.ctl.act || 2 ≤ i.toNat then .next (s.stop causeIllegal (spLen sp) (encWord (.tret i sp)))
  else
    let t := if i = 0#11 then s.core.f.ctl.tpc.toNat else s.core.f.ctl.tnpc.toNat
    if !s.core.startBit t then .next (s.stopWith causeMisfetch t t (BitVec.ofNat 64 t))
    else
      let s := s.returnFrom (i ≠ 0#11)
      match sp with
      | none => .next s
      | some m => .next (s.closeRegion (.boundary (liveOf m)))

/-- An encoding that is no instruction stops with ILLEGAL (R60); TADDR receives the encoding. -/
def execReservedEncoding (enc : BitVec 32) (len : Nat) (s : State) : Out :=
  .next (s.stop causeIllegal len (enc.zeroExtend 64))

end Sys2Proof.Machine
end

