-- ==== Sys2Proof/Machine/Directory.lean ====
section
/-!
DEFINITION. Sys2Proof/Machine/Directory.lean: stores into a core's buffers and the Primer directory they keep true
(R231 to R237).
-/
namespace Sys2Proof.Machine

/-! ### Entries (Table 11.2) -/

abbrev DirEntry := BitVec 32

def classZero : Nat := 0
def classConst : Nat := 1
def classIdent : Nat := 2
def classGeneral : Nat := 3

def dirClass (e : DirEntry) : Nat := field e 24 2
def dirFmt (e : DirEntry) : Nat := field e 20 4
def dirSpc (e : DirEntry) : Bool := bit e 19
def dirPhase (e : DirEntry) : Nat := field e 16 3
def dirValue (e : DirEntry) : Nat := field e 0 16

def dirEntry (cls fmt : Nat) (spc : Bool) (phase value : Nat) : DirEntry :=
  BitVec.ofNat 32 (cls * 2 ^ 24 + fmt * 2 ^ 20 + (if spc then 2 ^ 19 else 0) + phase * 2 ^ 16 + value)

/-- Format code of a type (Table 11.3). -/
def fmtCode : ETy → Nat
  | .int _ 8 => 0
  | .int _ 16 => 1
  | .int _ 32 => 2
  | .int _ _ => 3
  | .f16 => 4
  | .bf16 => 5
  | .f32 => 6
  | .q m => 7 + m

/-- Mantissa width of a .qm format code. -/
def fmtQ (fmt : Nat) : Nat := if fmt ≥ 9 then fmt - 7 else 0

/-- Bytes of an element of a byte-sized format. -/
def fmtSize : Nat → Nat
  | 0 => 1
  | 1 | 4 | 5 => 2
  | 2 | 6 => 4
  | 3 => 8
  | _ => 1

/-- Bits `8b + 7 .. 8b` of a bit string given bit by bit. -/
def byteOfBits (f : Nat → Bool) (b : Nat) : Byte := BitVec.ofFnLE fun t : Fin 8 => f (8 * b + t.val)

/-- The byte that an entry's class implies at position `b` of its panel; none for GENERAL (R233, R235). -/
def impliedByte (e : DirEntry) (b : Nat) : Option Byte :=
  let v := dirValue e
  let fmt := dirFmt e
  match dirClass e with
  | 0 => some 0#8
  | 1 =>
    if fmtQ fmt > 0 then some (byteOfBits (fun k => v.testBit (k % fmtQ fmt)) b)
    else some (BitVec.ofNat 8 (v / 2 ^ (8 * (b % fmtSize fmt))))
  | 2 =>
    let m := fmtQ fmt
    some (byteOfBits (fun k => (k / m / 64 = k / m % 64) && v.testBit (k % m)) (512 * dirPhase e + b))
  | _ => none

/-- Does the element of a floating format at panel position `b` have an all-ones exponent (R236)? -/
def spcAt (mem : Memory) (panel fmt b : Nat) : Bool :=
  let read (sz : Nat) : Nat := bytesToNat (mem.read (panelKey panel + b / sz * sz) sz)
  match fmt with
  | 4 => read 2 / 2 ^ 10 % 32 = 31
  | 5 => read 2 / 2 ^ 7 % 256 = 255
  | 6 => read 4 / 2 ^ 23 % 256 = 255
  | _ => false

/-- One byte of a partial store, already in memory (R235, R236). -/
def dirByte (mem : Memory) (dir : Table DirEntry) (key : Nat) (v : Byte) : Table DirEntry :=
  match panelOf key with
  | none => dir
  | some p =>
    let e := tget 0#32 dir p
    let b := keyOff key % 512
    let cls := if impliedByte e b = some v then dirClass e else classGeneral
    let spc := dirSpc e || spcAt mem p (dirFmt e) b
    let keep := cls = dirClass e
    tset 0#32 dir p (dirEntry cls (dirFmt e) spc (if keep then dirPhase e else 0) (if keep then dirValue e else 0))

def dirBytes (mem : Memory) : Table DirEntry → List (Nat × Byte) → Table DirEntry
  | d, [] => d
  | d, (k, v) :: r => dirBytes mem (dirByte mem d k v) r

def putCells (m : Memory) : List (Nat × Byte) → Memory
  | [] => m
  | (k, v) :: r => putCells (m.set k v) r

/-- The panels of these physical keys have taken a write (R191). -/
def stampKeys (t : Table Nat) (keys : List Nat) : Table Nat :=
  (keys.filterMap panelOf).dedup.foldl (fun t p => tset 0 t p (tget 0 t p + 1)) t

/-- Bytes written at physical keys as partial stores (R235). -/
def Mems.storeCells (m : Mems) (cells : List (Nat × Byte)) : Mems :=
  let data := putCells m.data cells
  { m with data := data, dir := dirBytes data m.dir cells, stamp := stampKeys m.stamp (cells.map Prod.fst) }

/-- The physical cells of a store through the windows. -/
def Core.cellsAt (c : Core) (key : Nat) (bs : List Byte) : List (Nat × Byte) :=
  ((List.range bs.length).zip bs).map fun p => (c.phys' (key + p.1), p.2)

/-- A scalar, remote or sync store (R237). -/
def Core.store (c : Core) (key : Nat) (bs : List Byte) : Core :=
  { c with mem := c.mem.storeCells (c.cellsAt key bs) }

/-! ### Whole-panel writes (R234, R236) -/

/-- The elements of a panel of a byte-sized format. -/
def panelElems (mem : Memory) (panel fmt : Nat) : List Nat :=
  let sz := fmtSize fmt
  (List.range (512 / sz)).map fun k => bytesToNat (mem.read (panelKey panel + k * sz) sz)

/-- Is every bit string of m bits in the panel the same mantissa? Only for the widths whose boundaries are fixed, or
the all-ones pattern (R233). -/
def panelMantissa (mem : Memory) (panel m : Nat) : Option Int :=
  let v := bytesToNat (mem.read (panelKey panel) 512)
  let k := v % 2 ^ m
  if (List.range (4096 / m)).all (fun j => v / 2 ^ (m * j) % 2 ^ m = k)
      && v / 2 ^ (m * (4096 / m)) % 2 ^ (4096 % m) = k % 2 ^ (4096 % m) then
    if m = 2 ∨ m = 4 ∨ m = 8 then some (signedOf m k)
    else if v = 2 ^ 4096 - 1 then some (-1) else none
  else none

/-- The entry of a panel written whole by one command in one type (R234, R236); `nan` says that it wrote a NaN
block. Table 8.3 names ZERO and GENERAL alone for VQNT, while R169 and R234 give CONST to a panel of one mantissa; the model follows these
two for VQNT as well (DESIGN CHOICE, log 90). -/
def classify (mem : Memory) (panel fmt : Nat) (nan : Bool) : DirEntry :=
  let bytes := mem.read (panelKey panel) 512
  let spc :=
    if fmtQ fmt > 0 then nan
    else (List.range (512 / fmtSize fmt)).any fun k => spcAt mem panel fmt (k * fmtSize fmt)
  if bytes.all (fun b => b = 0#8) then dirEntry classZero fmt spc 0 0
  else if fmtQ fmt > 0 then
    match panelMantissa mem panel (fmtQ fmt) with
    | some k => dirEntry classConst fmt spc 0 (wrapTo 8 k)
    | none => dirEntry classGeneral fmt spc 0 0
  else if fmt = 0 ∨ fmt = 1 ∨ fmt = 4 ∨ fmt = 5 then
    match panelElems mem panel fmt with
    | v :: vs => if vs.all (fun w => w = v) then dirEntry classConst fmt spc 0 v else dirEntry classGeneral fmt spc 0 0
    | [] => dirEntry classGeneral fmt spc 0 0
  else dirEntry classGeneral fmt spc 0 0

/-- Cells of a list that lie in a panel. -/
def cellsIn (p : Nat) (cells : List (Nat × Byte)) : List (Nat × Byte) := cells.filter fun c => panelOf c.1 = some p

/-- The cells write all 512 bytes of their panel. -/
def coverPanel (cells : List (Nat × Byte)) : Bool := ((cells.map Prod.fst).dedup).length = 512

/-- Format in which an engine command writes a panel whole, with every byte in one type: its own for data, .n8 for scale bytes;
none where its writes there are partial (R169, R234). -/
def EngineWrites.whole (w : EngineWrites) (p : Nat) : Option Nat :=
  let d := cellsIn p w.cells
  let sc := cellsIn p w.scales
  if sc.isEmpty && coverPanel d then some w.fmt
  else if d.isEmpty && coverPanel sc then some 0 else none

/-- The same writes at their physical places, as the windows map them now (R239). -/
def EngineWrites.atPhys (c : Core) (w : EngineWrites) : EngineWrites :=
  let panel (i : Nat) : Nat := (panelOf (c.phys' (panelKey i))).getD i
  { w with
    cells := w.cells.map fun q => (c.phys' q.1, q.2)
    scales := w.scales.map fun q => (c.phys' q.1, q.2)
    nan := w.nan.map panel
    ident := w.ident.map fun q => (panel q.1, q.2) }

/-- Sectors that a command writes, by key over 32. -/
def EngineWrites.sectors (w : EngineWrites) : List Nat := ((w.cells ++ w.scales).map fun c => c.1 / 32).dedup

/-- The panel holds special values from now on (R236). -/
def setSpc (e : DirEntry) : DirEntry := dirEntry (dirClass e) (dirFmt e) true (dirPhase e) (dirValue e)

/-- A panel that reads GENERAL until its last write (R234). -/
def general (e : DirEntry) : DirEntry := dirEntry classGeneral (dirFmt e) (dirSpc e) 0 0

/-- Every byte of the panel is what the entry claims. -/
def impliesPanel (mem : Memory) (panel : Nat) (e : DirEntry) : Bool :=
  (List.range 512).all fun b => impliedByte e b = some (mem.get (panelKey panel + b))

/-- The entry of a panel after the writes up to now, while the sectors `left` are still to be written: a panel written whole is
GENERAL until its last write and then classified, or IDENT after VIDENT, unless a write of another agent among its own has left other
bytes, for a claim is never false (R233); other panels took partial stores (R234 to R236, R180). -/
def EngineWrites.entry (w : EngineWrites) (data : Memory) (left : List Nat) (p : Nat) (e : DirEntry) : DirEntry :=
  match w.whole p with
  | none => if w.nan.contains p then setSpc e else e
  | some f =>
    if left.any fun k => panelOf (32 * k) = some p then general e
    else match w.ident.find? (fun q => q.1 = p) with
      | some q => if impliesPanel data p q.2 then q.2 else classify data p f (w.nan.contains p)
      | none => classify data p f (w.nan.contains p)

/-- An engine command's writes apply: all of them, or those of one sector, with `left` still to come (R250). -/
def Mems.engineWrite (m : Mems) (w : EngineWrites) (now : Option Nat) (left : List Nat) : Mems :=
  let cells := w.cells.filter fun c => now.all (· = c.1 / 32)
  let scales := w.scales.filter fun c => now.all (· = c.1 / 32)
  let data := putCells (putCells m.data cells) scales
  let part (c : Nat × Byte) : Bool := match panelOf c.1 with
    | some p => (w.whole p).isNone
    | none => false
  let dir := dirBytes data (dirBytes data m.dir (cells.filter part)) (scales.filter part)
  let panels := ((cells ++ scales).filterMap fun c => panelOf c.1).dedup
  { m with
    data := data
    dir := panels.foldl (fun d p => tset 0#32 d p (w.entry data left p (tget 0#32 d p))) dir
    stamp := stampKeys m.stamp ((cells ++ scales).map Prod.fst) }

end Sys2Proof.Machine
end

