-- ==== Sys2Proof/Machine/Shape.lean ====
section
/-!
DEFINITION. Sys2Proof/Machine/Shape.lean: shape records (R159 to R163): their fields, validity, element addresses and
the reading of elements.
-/
namespace Sys2Proof.Machine

abbrev Shape := BitVec 256

def shBase (r : Shape) : Word := BitVec.ofNat 64 (longAt r 0)
def shTypeCode (r : Shape) : Nat := field r 64 5
def shKind1 (r : Shape) : Bool := bit r 75
def shRank (r : Shape) : Nat := field r 72 3
def shSBuf (r : Shape) : Nat := field r 126 2
def shSOff (r : Shape) : Nat := field r 96 17
def shE (r : Shape) (k : Nat) : Nat := halfAt r (16 + 2 * k)
def shS (r : Shape) (k : Nat) : Int := shalfAt r (24 + 2 * k)

/-- Extent and stride of each used dimension, innermost first. -/
def shDims (r : Shape) : List (Nat × Int) := (List.range (shRank r)).map fun k => (shE r k, shS r k)

def shExtents (r : Shape) : List Nat := (shDims r).map Prod.fst

/-- The count of a record (R161). -/
def shCount (r : Shape) : Nat := (shExtents r).foldl (· * ·) 1

/-- Element offsets in iteration order, the first dimension fastest (R161). -/
def walkOffsets : List (Nat × Int) → List Int
  | [] => [0]
  | (e, st) :: outer => (walkOffsets outer).flatMap fun o => (List.range e).map fun i => o + st * i

def shOffsets (r : Shape) : List Int := walkOffsets (shDims r)

/-- Least and greatest element offset. -/
def offsetBounds : List (Nat × Int) → Int × Int
  | [] => (0, 0)
  | (e, st) :: rest =>
    let (lo, hi) := offsetBounds rest
    let x := st * ((e : Int) - 1)
    (if x < 0 then lo + x else lo, if x < 0 then hi else hi + x)

/-- Element size in bits of a type. -/
def bitsOf : ETy → Nat
  | .q m => m
  | t => 8 * t.size

/-- First byte and byte count of the data a KIND 0 record covers, relative to its buffer (R161). -/
def shSpan (r : Shape) (t : ETy) : Int × Nat :=
  let (lo, hi) := offsetBounds (shDims r)
  let first := (ptrOff (shBase r) : Int) + lo * bitsOf t / 8
  let last := (ptrOff (shBase r) : Int) + ((hi + 1) * bitsOf t + 7) / 8
  (first, (last - first).toNat)

/-- The scale bytes of a .qm record (R162): first offset and count. -/
def shScaleSpan (r : Shape) : Int × Nat :=
  let (lo, hi) := offsetBounds (shDims r)
  ((shSOff r : Int) + lo / 32, (hi / 32 - lo / 32 + 1).toNat)

def spanIn (p : Int × Nat) (buf : Nat) : Bool := 0 ≤ p.1 && decide (p.1 + p.2 ≤ bufSize buf)

/-- Dense strides of a KIND 1 record (R163). -/
def denseStrides : Nat → List (Nat × Int) → Bool
  | _, [] => true
  | k, (e, st) :: rest => st = k && denseStrides (k * e) rest

/-- Slots a KIND 1 command uses (R163). -/
def slotsFor (bytes slot : Nat) : Nat := ceilDiv bytes slot

/-- Validity of a record used by the focused core (R160, R163). A record touches a shadow range by the span from its lowest to its highest
byte: whether bytes between its elements count, the spec does not say (DESIGN CHOICE, log 95). -/
def State.shapeValid (s : State) (r : Shape) : Bool :=
  field r 69 3 = 0 && field r 76 4 = 0 && field r 80 16 = 0 && field r 113 13 = 0 &&
  1 ≤ shRank r && shRank r ≤ 4 &&
  (List.range 4).all (fun k =>
    if k < shRank r then shE r k ≠ 0 else shE r k = 0 && shS r k = 0) &&
  match ETy.ofCode (shTypeCode r) with
  | none => false
  | some t =>
    let isQ := match t with | .q _ => true | _ => false
    (isQ || shSBuf r = 0) &&
    (!isQ || (shE r 0 % 32 = 0 && shS r 0 = 1 && shS r 1 % 32 = 0 && shS r 2 % 32 = 0 && shS r 3 % 32 = 0
      && shSBuf r ≠ 3)) &&
    if shKind1 r then
      !isQ && field r 4 60 = 0 && denseStrides 1 (shDims r) &&
      match s.core.tab.cb[(shBase r).toNat % 16] with
      | .home rcd _ _ _ _ _ _ => slotsFor (shCount r * t.size) (cbSlot rcd) ≤ cbS rcd
      | .link _ _ _ | .empty => false
    else
      meshOk s.dev.part (shBase r) && s.isLocal (shBase r) && spanIn (shSpan r t) (ptrBuf (shBase r)) &&
      (!isQ || spanIn (shScaleSpan r) (shSBuf r)) &&
      !(s.core.inShadow (keyOf (ptrBuf (shBase r)) (shSpan r t).1.toNat) (shSpan r t).2) &&
      (!isQ || !(s.core.inShadow (keyOf (shSBuf r) (shScaleSpan r).1.toNat) (shScaleSpan r).2))

/-! ### Elements -/

/-- The key of stream byte `b` of a CB from slot `from_` on (R163). -/
def streamKey (rcd : BitVec 128) (from_ b : Nat) : Nat :=
  keyOf (cbBuf rcd) (cbOff rcd + (from_ + b / cbSlot rcd) % cbS rcd * cbSlot rcd + b % cbSlot rcd)

/-- Visible keys of the elements of a record whose type is byte-sized, in iteration order; `dst` selects the tail of a
KIND 1 record. -/
def Core.elemKeys (c : Core) (r : Shape) (t : ETy) (dst : Bool) : List Nat :=
  if shKind1 r then
    match c.tab.cb[(shBase r).toNat % 16] with
    | .home rcd h tl _ _ _ _ => (List.range (shCount r)).map fun k => streamKey rcd (if dst then tl else h) (k * t.size)
    | _ => []
  else (shOffsets r).map fun e => keyOf (ptrBuf (shBase r)) ((ptrOff (shBase r) : Int) + e * t.size).toNat

/-- Encoding of a byte-sized element at a visible key. -/
def Core.elemAt (c : Core) (size key : Nat) : Nat := bytesToNat (c.readBytes key size)

/-- Scale-byte key of the block that holds element offset `e` (R162). -/
def scaleKey (r : Shape) (e : Int) : Nat := keyOf (shSBuf r) ((shSOff r : Int) + e / 32).toNat

/-- Mantissa of the element at offset `e` (R73, R161). -/
def Core.mantissa (c : Core) (r : Shape) (m : Nat) (e : Int) : Int :=
  let p := e * m
  let k := keyOf (ptrBuf (shBase r)) ((ptrOff (shBase r) : Int) + p / 8).toNat
  signedOf m (bytesToNat (c.readBytes k 2) / 2 ^ (p % 8).toNat)

def Core.scaleAt (c : Core) (r : Shape) (e : Int) : Nat := (c.readByte (scaleKey r e)).toNat

/-- Exact values of the elements of a record of any type, in iteration order. -/
def Core.elemNums (c : Core) (r : Shape) (t : ETy) : List FNum :=
  match t with
  | .q m => (shOffsets r).map fun e => qNum (c.mantissa r m e) (c.scaleAt r e)
  | _ => (c.elemKeys r t false).map fun k => numOf t (c.elemAt t.size k)

/-- Encodings of the elements of a byte-sized record. -/
def Core.elemBits (c : Core) (r : Shape) (t : ETy) (dst : Bool) : List Nat :=
  (c.elemKeys r t dst).map fun k => c.elemAt t.size k

/-! ### Footprints (R298) -/

/-- A span of visible keys. -/
abbrev Span := Nat × Nat

/-- The parts of the slots that `bytes` bytes from slot `from_` of a CB on take (R163). -/
def slotSpans (rcd : BitVec 128) (from_ bytes : Nat) : List Span :=
  (List.range (slotsFor bytes (cbSlot rcd))).map fun j =>
    (streamKey rcd from_ (j * cbSlot rcd), Nat.min (cbSlot rcd) (bytes - j * cbSlot rcd))

/-- The spans of a record: data and scale bytes. A KIND 1 record takes slots of its CB from the head, or as a destination from
the tail, `ahead` slots on. -/
def Core.shSpansAt (c : Core) (r : Shape) (dst : Bool) (ahead : Nat) : List Span :=
  match ETy.ofCode (shTypeCode r) with
  | none => []
  | some t =>
    if shKind1 r then
      match c.tab.cb[(shBase r).toNat % 16] with
      | .home rcd h tl _ _ _ _ => slotSpans rcd ((if dst then tl else h) + ahead) (shCount r * t.size)
      | .link _ _ _ | .empty => []
    else
      let p := shSpan r t
      let data := (keyOf (ptrBuf (shBase r)) p.1.toNat, p.2)
      match t with
      | .q _ => [data, (keyOf (shSBuf r) (shScaleSpan r).1.toNat, (shScaleSpan r).2)]
      | _ => [data]

/-- The spans of a record as a source, with nothing before it in the queue. -/
def Core.shSpans (c : Core) (r : Shape) : List Span := c.shSpansAt r false 0

/-- One span from the lowest to the highest byte of the spans in each buffer (R298). -/
def hull (ps : List Span) : List Span :=
  (List.range 3).filterMap fun b => match ps.filter (fun p => keyBuf p.1 = b && p.2 ≠ 0) with
    | [] => none
    | p :: r =>
      let lo := r.foldl (fun m q => Nat.min m q.1) p.1
      let hi := r.foldl (fun m q => Nat.max m (q.1 + q.2)) (p.1 + p.2)
      some (lo, hi - lo)

/-- Whole sectors of a span (R298). -/
def widen (p : Span) : Span := (p.1 / 32 * 32, (p.1 + p.2 + 31) / 32 * 32 - p.1 / 32 * 32)

def spansMeet (a b : List Span) : Bool :=
  a.any fun p => b.any fun q => rangesMeet (widen p).1 (widen p).2 (widen q).1 (widen q).2

end Sys2Proof.Machine
end

