-- ==== Sys2Proof/Machine/Cb.lean ====
section
/-!
DEFINITION. Sys2Proof/Machine/Cb.lean: circular buffers at their home (R122 to R126, R272).
-/
namespace Sys2Proof.Machine

/-- The CB record is one that CBDEF takes (R122). -/
def cbRecordOk (r : BitVec 128) : Bool :=
  (cbBuf r = 0 || cbBuf r = 2) && cbOff r % 32 = 0 && cbSlot r % 32 = 0 &&
  decide (32 ≤ cbSlot r) && decide (cbSlot r ≤ 4096) && decide (2 ≤ cbS r) && decide (cbS r ≤ 256) &&
  decide (cbOff r + cbS r * cbSlot r ≤ bufSize (cbBuf r)) && decide (cbScope r ≤ 3) &&
  field r 17 13 = 0 && field r 72 56 = 0

/-- Byte offset of a slot in its buffer. -/
def cbSlotOff (r : BitVec 128) (i : Nat) : Nat := cbOff r + i * cbSlot r

/-- A mesh pointer to a place on a core, as any device names it (Table 1.9). -/
def corePtr (p : Partition) (id : CoreId) (buf off : Nat) : Word :=
  BitVec.ofNat 64 (2 ^ 63 + buf * 2 ^ 30 + off) ||| coordBits p.memEntry id

/-- Slot(i): the pointer to a slot at the home (R125). -/
def cbSlotPtr (p : Partition) (home : CoreId) (r : BitVec 128) (i : Nat) : Word := corePtr p home (cbBuf r) (cbSlotOff r i)

def cbSlotKey (r : BitVec 128) (i : Nat) : Nat := keyOf (cbBuf r) (cbSlotOff r i)

/-- The home handle's pointer, which a SCOPE refusal reports (R126). -/
def cbHandlePtr (p : Partition) (home : CoreId) (handle : Nat) : Word := corePtr p home 0 handle

/-- Bank of the slot that an operation accesses at its home (R105, R328): at the tail for a put, at the head for a get. A query and a
link's CBDEF access no slot, and take the bank of slot 0 (log 10). -/
def Core.cbBank (c : Core) (handle : Nat) (op : CbOp) : Nat :=
  match c.tab.cb.getD handle .empty with
  | .home rcd h t _ _ _ _ =>
    let i := match op with
      | .wait _ | .get _ | .pop _ => h
      | .free _ | .put _ | .push _ => t
      | .link | .query => 0
    cbSlotOff rcd i / 8192
  | .link _ _ _ | .empty => 0

def Core.setCb (c : Core) (handle : Nat) (e : CbEntry) : Core :=
  { c with tab := { c.tab with cb := c.tab.cb.setIfInBounds handle e } }

def Core.cbAt (c : Core) (handle : Nat) : CbEntry := c.tab.cb.getD handle .empty

/-- Watch updates to every watcher of a home entry (R272). -/
def tellWatchers (f slots : Nat) : List Watch → State → State
  | [], s => s
  | w :: r, s => tellWatchers f slots r (s.send w.core .sys (.watchUpd w.link f slots w.num w.ctx))

/-- Write the indices of a home entry of the focused core and tell its watchers when F changes (R272). -/
def State.cbMove (s : State) (handle h t f : Nat) : State :=
  match s.core.cbAt handle with
  | .home rcd _ _ f0 ws lh lin =>
    let s := s.mapC fun c => c.setCb handle (.home rcd h t f ws lh lin)
    if f = f0 then s else tellWatchers f (cbS rcd) ws s
  | _ => s

/-- Advance the head by k filled slots (CBADV.get). -/
def State.cbGet (s : State) (handle k : Nat) : State :=
  match s.core.cbAt handle with
  | .home rcd h t f _ _ _ => s.cbMove handle ((h + k) % cbS rcd) t (f - k)
  | _ => s

/-- Advance the tail by k slots (CBADV.put). -/
def State.cbPut (s : State) (handle k : Nat) : State :=
  match s.core.cbAt handle with
  | .home rcd h t f _ _ _ => s.cbMove handle h ((t + k) % cbS rcd) (f + k)
  | _ => s

/-- CBQ's word (R125). -/
def cbqWord (link : Bool) (h t f slots : Nat) : Word :=
  BitVec.ofNat 64 (t * 2 ^ 48 + h * 2 ^ 32 + (slots - f) * 2 ^ 16 + f + (if link then 2 ^ 63 else 0))

/-- The same word as a link reads it. -/
def asLink (link : Bool) (w : Word) : Word := if link then w ||| 0x8000000000000000#64 else w

/-- The cohort, by launch serial and linear index, in whose scope a firing acts (R133): that of its core, or on a memory core that
of the firing that caused it, or of the copy, which goes on when its firing has ended (R214). -/
def State.scopeCohort (s : State) (who : CoreId) (a : Agent) : Option (Nat × Nat) :=
  match s.coreAt who with
  | none => none
  | some c => match c.cohort with
    | some k => some (k.serial, k.lin)
    | none =>
      let fs := (if c.busy then [c.f] else []) ++ c.q.parked.map Parked.f
      match fs.find? fun f => f.serial.setWidth 16 = a.ser with
      | some f => if field f.lhnd 62 2 = 0 then some (field f.lhnd 0 32, f.lin) else none
      | none => match c.eng.walks.find? fun w => w.agent.ser = a.ser with
        | some w => if field w.lhnd 62 2 = 0 then some (field w.lhnd 0 32, w.lin) else none
        | none => none

/-- Does a firing of a core lie within the scope of a CB of the focused core, as it was placed at its CBDEF under this launch and
cohort (R133)? Scope 0 is the core itself, 1 the cohort, 2 the launch, 3 the job. -/
def State.cbInScope (s : State) (rcd : BitVec 128) (lh : Word) (lin : Nat) (who : CoreId) (a : Agent) : Bool :=
  who = s.core.id ||
    match cbScope rcd with
    | 0 => false
    | 3 => match who with
      | .mesh _ _ | .memory _ _ => true
      | .far d _ _ => (s.dev.part.devEntry d.toNat).isSome
      | .pager _ _ | .control | .port _ => false
    | k => match s.scopeCohort who a with
      | some (serial, l) => serial = field lh 0 32 && (k ≥ 2 || l = lin)
      | none => false

/-- The launch that placed the home of this handle is cancelled: a wait on it ends with the cancel (R126). -/
def State.homeCancelled (s : State) (handle : Nat) : Bool :=
  match s.core.cbAt handle with
  | .home _ _ _ _ _ lh _ => (s.dev.seq.launchOf lh).any LaunchSt.cancelled
  | .link _ _ _ | .empty => false

/-- What a CB operation finds at its home: it waits, is refused with a stop cause, is done with these words, or meets a
foreign open region with its slot access (R110). -/
inductive CbAns where
  | wait
  | refuse (cause : Nat) (addr : Word)
  | done (ws : List Word) (s : State)
  | conflict (e : Scrim) (key : Nat)

/-- The slot access of CBPUSH or CBPOP as a sync access (R110, Table 12.2): the entry that it meets, and the sector. -/
def Core.slotConflict (c : Core) (a : Agent) (key n : Nat) (write : Bool) : Option (Scrim × Nat) :=
  (c.conflict a (c.sectors key n) write).map fun e => (e, e.hitKey (c.sectors key n) write)

/-- A CB operation acts at the focused core, its home (R125). An entry that is a link is no home, and refuses as an empty one does:
of a link to a link the spec says nothing (DESIGN CHOICE, log 75). -/
def State.cbAct (s : State) (who : CoreId) (a : Agent) (handle : Nat) (op : CbOp) : CbAns :=
  match s.core.cbAt handle with
  | .home rcd h t f _ lh lin =>
    if !s.cbInScope rcd lh lin who a then .refuse causeScope (cbHandlePtr s.dev.part s.core.id handle)
    else
      let n := cbS rcd
      let p := s.dev.part
      match op with
      | .link => .done [BitVec.ofNat 64 (field rcd 0 64), BitVec.ofNat 64 (field rcd 64 64)] s
      | .wait k => if f ≥ k then .done [cbSlotPtr p s.core.id rcd h] s else .wait
      | .free k => if n - f ≥ k then .done [cbSlotPtr p s.core.id rcd t] s else .wait
      | .get k => if f ≥ k then .done [] (s.cbGet handle k) else .wait
      | .put k => if n - f ≥ k then .done [] (s.cbPut handle k) else .wait
      | .push ws =>
        if n - f < 1 then .wait
        else
          let key := cbSlotKey rcd t
          if s.core.inShadow key (8 * ws.length) then .refuse causeBound (cbSlotPtr p s.core.id rcd t) else
          match s.core.slotConflict a key (8 * ws.length) true with
          | some (e, at_) => .conflict e at_
          | none =>
            let bs := ws.flatMap fun w => natToBytes 8 w.toNat
            .done [] ((s.mapC fun c => c.store key bs).cbPut handle 1)
      | .pop m =>
        if f < 1 then .wait
        else
          let key := cbSlotKey rcd h
          if s.core.inShadow key (8 * m) then .refuse causeBound (cbSlotPtr p s.core.id rcd h) else
          match s.core.slotConflict a key (8 * m) false with
          | some (e, at_) => .conflict e at_
          | none =>
            let s := s.readOf key (8 * m)
            let ws := (List.range m).map fun j => BitVec.ofNat 64 (bytesToNat (s.core.readBytes (key + 8 * j) 8))
            .done ws (s.cbGet handle 1)
      | .query => .done [cbqWord false h t f n] s
  | _ => .refuse causeScope (cbHandlePtr s.dev.part s.core.id handle)

end Sys2Proof.Machine
end

