-- ==== Sys2Proof/Machine/Vector.lean ====
section
/-!
DEFINITION. Sys2Proof/Machine/Vector.lean: what a vector command computes (R172 to R182, R79, R80): lane operations,
reductions and scans, and the cells a command writes.
-/
namespace Sys2Proof.Machine

/-! ### Lanes -/

/-- Binary and ternary lane operations of majors 0x31 and 0x32. -/
inductive LaneOp where
  | add | sub | mul | fma | div | min | max | abs | neg | rsq | exp2 | log2
  | and | or | xor | shl | shr | sel
deriving DecidableEq, Repr

/-- An integer lane (R172, R174): x, y, and d's old element z, at width `w`. -/
def laneInt (op : LaneOp) (sg : Bool) (w x y z : Nat) : Nat :=
  let xi := intVal sg w x
  let yi := intVal sg w y
  match op with
  | .add => (x + y) % 2 ^ w
  | .sub => wrapTo w ((x : Int) - y)
  | .mul => x * y % 2 ^ w
  | .fma => (x * y + z) % 2 ^ w
  | .div =>
    let a := BitVec.ofNat w x
    let b := BitVec.ofNat w y
    (if sg then divBv a b else divnBv a b).toNat
  | .min => if xi ≤ yi then x % 2 ^ w else y % 2 ^ w
  | .max => if yi ≤ xi then x % 2 ^ w else y % 2 ^ w
  | .abs => if sg then wrapTo w xi.natAbs else x % 2 ^ w
  | .neg => wrapTo w (-xi)
  | .and => (BitVec.ofNat w x &&& BitVec.ofNat w y).toNat
  | .or => (BitVec.ofNat w x ||| BitVec.ofNat w y).toNat
  | .xor => (BitVec.ofNat w x ^^^ BitVec.ofNat w y).toNat
  | .shl => (BitVec.ofNat w x <<< (y % w)).toNat
  | .shr => if sg then ((BitVec.ofNat w x).sshiftRight (y % w)).toNat else (BitVec.ofNat w x >>> (y % w)).toNat
  | .sel => if z % 2 ^ w ≠ 0 then x % 2 ^ w else y % 2 ^ w
  | .rsq | .exp2 | .log2 => 0

/-- A floating lane (R172, R173). -/
def laneFloat (op : LaneOp) (f : Fmt) (rm : Rounding) (x y z : Nat) : Nat × Flags :=
  match op with
  | .add => fAdd f rm x y
  | .sub => fSub f rm x y
  | .mul => fMul f rm x y
  | .fma => fFma f rm x y z
  | .div => fDiv f rm x y
  | .min => fMinMax f false x y
  | .max => fMinMax f true x y
  | .abs => (x % 2 ^ (f.width - 1), 0#6)
  | .neg => ((BitVec.ofNat f.width x ^^^ BitVec.ofNat f.width (2 ^ (f.width - 1))).toNat, 0#6)
  | .rsq => fRsq f rm x
  | .exp2 => fExp2 f rm x
  | .log2 => fLog2 f rm x
  | .and | .or | .xor | .shl | .shr | .sel => (0, 0#6)

def lane (op : LaneOp) (t : ETy) (rm : Rounding) (x y z : Nat) : Nat × Flags :=
  match t with
  | .int sg w => (laneInt op sg w x y z, 0#6)
  | .f16 => laneFloat op fmtF16 rm x y z
  | .bf16 => laneFloat op fmtBF16 rm x y z
  | .f32 => laneFloat op fmtF32 rm x y z
  | .q _ => (0, 0#6)

/-- Results of a list of lanes, flags joined. -/
def lanes (op : LaneOp) (t : ETy) (rm : Rounding) : List Nat → List Nat → List Nat → List Nat × Flags
  | x :: xs, y :: ys, z :: zs =>
    let (r, f) := lane op t rm x y z
    let (rs, fs) := lanes op t rm xs ys zs
    (r :: rs, f ||| fs)
  | _, _, _ => ([], 0#6)

/-- One lane of VCMP (R175). -/
def cmpLane (c : Nat) (t : ETy) (x y : Nat) : Bool × Flags :=
  match t with
  | .int sg w => (condHolds c (intVal sg w x) (intVal sg w y)
      (if c ≤ 5 then wrapTo w (intVal sg w x) else x % 2 ^ w) (if c ≤ 5 then wrapTo w (intVal sg w y) else y % 2 ^ w), 0#6)
  | t =>
    match t.fmt with
    | none => (false, 0#6)
    | some f =>
      let (a, fa) := f.operand x
      let (b, fb) := f.operand y
      let nan := a.isNaN || b.isNaN
      let nv := if nan && 2 ≤ c && c ≤ 5 then flagNV else signalFlags [a, b]
      (condFloat c (numCompare a b), fa ||| fb ||| nv)

def cmpLanes (c : Nat) (t : ETy) (ones : Nat) : List Nat → List Nat → List Nat × Flags
  | x :: xs, y :: ys =>
    let (r, f) := cmpLane c t x y
    let (rs, fs) := cmpLanes c t ones xs ys
    ((if r then ones else 0) :: rs, f ||| fs)
  | _, _ => ([], 0#6)

/-! ### Reductions and scans (R79, R80) -/

/-- The lane operation of a reduction code (Table 3.5). -/
def redOp : Nat → LaneOp
  | 0 => .add
  | 1 => .max
  | 2 => .min
  | 3 => .and
  | 4 => .or
  | _ => .xor

/-- One level of the pairwise tree. -/
def redLevel (op : LaneOp) (t : ETy) (rm : Rounding) : List Nat → List Nat × Flags
  | x :: y :: r =>
    let (v, f) := lane op t rm x y 0
    let (vs, fs) := redLevel op t rm r
    (v :: vs, f ||| fs)
  | r => (r, 0#6)

/-- The tree of R79 over one run; `fuel` bounds its levels. -/
def redTree (op : LaneOp) (t : ETy) (rm : Rounding) : Nat → List Nat → Nat × Flags
  | 0, r => (r.headD 0, 0#6)
  | fuel + 1, r =>
    match r with
    | [] => (0, 0#6)
    | [x] => (x, 0#6)
    | r =>
      let (vs, f) := redLevel op t rm r
      let (v, fs) := redTree op t rm fuel vs
      (v, f ||| fs)

/-- Cut a list into runs of `n`; `fuel` bounds their number. -/
def runsOf {α : Type} (n : Nat) : Nat → List α → List (List α)
  | 0, _ => []
  | fuel + 1, xs => if xs.isEmpty then [] else xs.take n :: runsOf n fuel (xs.drop n)

/-- Run results combined one by one. -/
def redRuns (op : LaneOp) (t : ETy) (rm : Rounding) (acc : Nat) (fl : Flags) : List (Nat × Flags) → Nat × Flags
  | [] => (acc, fl)
  | (v, f) :: r =>
    let (w, g) := lane op t rm acc v 0
    redRuns op t rm w (fl ||| f ||| g) r

def reduce (op : LaneOp) (t : ETy) (rm : Rounding) (e0 : Nat) (xs : List Nat) : Nat × Flags :=
  match (runsOf e0 xs.length xs).map (redTree op t rm (e0 + 1)) with
  | [] => (0, 0#6)
  | (v, f) :: r => redRuns op t rm v f r

/-- The running combination of one run (R80). -/
def scanRun (op : LaneOp) (t : ETy) (rm : Rounding) (acc : Nat) : List Nat → List Nat × Flags
  | [] => ([], 0#6)
  | x :: xs =>
    let (v, f) := lane op t rm acc x 0
    let (vs, fs) := scanRun op t rm v xs
    (v :: vs, f ||| fs)

def scan (op : LaneOp) (t : ETy) (rm : Rounding) (e0 : Nat) (xs : List Nat) : List Nat × Flags :=
  let rs := (runsOf e0 xs.length xs).map fun r => match r with
    | [] => (([] : List Nat), (0#6 : Flags))
    | x :: t' => let (vs, f) := scanRun op t rm x t'; (x :: vs, f)
  (rs.flatMap Prod.fst, rs.foldl (fun f r => f ||| r.2) 0#6)

/-! ### What a command writes -/

/-- The writes of a command: data cells in order and scale-byte cells, as visible keys, the visible keys of the data of NaN
blocks, and the flags. -/
structure VResult where
  cells : List (Nat × Byte)
  scales : List (Nat × Byte)
  nan : List Nat
  flags : Flags
  /-- VIDENT: phase of the IDENT claim and its value, by the key of the panel (R180). -/
  ident : List (Nat × DirEntry)

/-- Byte-sized elements at their keys. -/
def elemCells (size : Nat) : List Nat → List Nat → List (Nat × Byte)
  | k :: ks, v :: vs => ((List.range size).map (k + ·)).zip (natToBytes size v) ++ elemCells size ks vs
  | _, _ => []

/-- Data cells of one .qm block whose first element has offset `e` (R73). -/
def blockCells (r : Shape) (m : Nat) (e : Int) (ks : List Int) : List (Nat × Byte) :=
  let first := keyOf (ptrBuf (shBase r)) ((ptrOff (shBase r) : Int) + e / 32 * (4 * m)).toNat
  ((List.range (4 * m)).map (first + ·)).zip (natToBytes (4 * m) (packMantissas m ks))

/-- A .qm destination, block by block: first offset, scale byte, mantissas. -/
def qCells (r : Shape) (m : Nat) (bs : List (Int × Nat × List Int)) : VResult :=
  { cells := bs.flatMap fun b => blockCells r m b.1 b.2.2
    scales := bs.map fun b => (scaleKey r b.1, BitVec.ofNat 8 b.2.1)
    nan := (bs.filter fun b => b.2.1 = 0xFF).flatMap fun b => (blockCells r m b.1 b.2.2).map Prod.fst
    flags := 0#6
    ident := [] }

def plainResult (size : Nat) (keys vals : List Nat) (fl : Flags) : VResult :=
  { cells := elemCells size keys vals, scales := [], nan := [], flags := fl, ident := [] }

/-- First offsets of the blocks of a .qm record, in iteration order. -/
def blockOffsets (r : Shape) : List Int := (shOffsets r).filter fun e => e % 32 = 0

/-- Elements with a constant missing operand. -/
def zerosLike (xs : List Nat) : List Nat := xs.map fun _ => 0

def quantBlocks (m : Nat) : List Int → List (List Nat) → List (Int × Nat × List Int) × Flags
  | e :: es, b :: bs =>
    let (sc, ks, f) := quantiseBlock m b
    let (r, fs) := quantBlocks m es bs
    ((e, sc, ks) :: r, f ||| fs)
  | _, _ => ([], 0#6)

/-- Conversion of a list of exact numbers (R177). -/
def cvtAll (dst : ETy) (rm : Rounding) (fromInt : Bool) : List FNum → List Nat × Flags
  | [] => ([], 0#6)
  | x :: xs =>
    let (v, f) := cvtTo dst rm fromInt x
    let (vs, fs) := cvtAll dst rm fromInt xs
    (v :: vs, f ||| fs)

/-- VTRN: element (i0, i1, i2, i3) of d is element (i1, i0, i2, i3) of a (R181): the order in which a's elements are
taken to fill d. -/
def trnOrder (e0 e1 : Nat) (xs : List Nat) : List Nat :=
  (runsOf (e0 * e1) xs.length xs).flatMap fun tile =>
    (List.range e0).flatMap fun i => (List.range e1).map fun j => tile.getD (j * e0 + i) 0

/-- Lane operation of an elementwise form. -/
def laneOf : Instr → Option LaneOp
  | .vadd .. => some .add
  | .vsub .. => some .sub
  | .vmul .. => some .mul
  | .vfma .. => some .fma
  | .vdiv .. => some .div
  | .vmin .. => some .min
  | .vmax .. => some .max
  | .vabs .. => some .abs
  | .vneg .. => some .neg
  | .vrsq .. => some .rsq
  | .vexp2 .. => some .exp2
  | .vlog2 .. => some .log2
  | .vand .. => some .and
  | .vor .. => some .or
  | .vxor .. => some .xor
  | .vshl .. => some .shl
  | .vshr .. => some .shr
  | .vsel .. => some .sel
  | _ => none

/-- Type of a record. -/
def shTy (r : Shape) : ETy := (ETy.ofCode (shTypeCode r)).getD (.int false 8)

/-- What a command computes from the core's buffers as they stand (R167: every source element is read before any
destination element is written). The old elements of a KIND 1 destination, which VFMA and VSEL read, are those of the slots
from the tail on that the command writes: the model's choice, since R163 names the head for sources only (log 71). -/
def Core.vecResult (c : Core) (k : VCmd) : VResult :=
  let rm := Rounding.ofCode k.rm.toNat
  let td := shTy k.d
  let dk := c.elemKeys k.d td true
  match laneOf k.form with
  | some op =>
    let t := td
    let xs := c.elemBits k.a t false
    -- the one-operand forms have no b record
    let ys := if k.b = 0#256 then zerosLike xs else c.elemBits k.b t false
    let zs := c.elemBits k.d t true
    let (rs, fl) := lanes op t rm xs ys zs
    plainResult t.size dk rs fl
  | none =>
    match k.form with
    | .vcmp cond .. =>
      let t := shTy k.a
      let (rs, fl) := cmpLanes cond.toNat t (2 ^ (8 * t.size) - 1) (c.elemBits k.a t false) (c.elemBits k.b t false)
      plainResult t.size dk rs fl
    | .vred o .. =>
      let (v, fl) := reduce (redOp o.toNat) td rm (shE k.a 0) (c.elemBits k.a td false)
      plainResult td.size dk [v] fl
    | .vscan o .. =>
      let (vs, fl) := scan (redOp o.toNat) td rm (shE k.a 0) (c.elemBits k.a td false)
      plainResult td.size dk vs fl
    | .vcvt .. =>
      let ta := shTy k.a
      let (vs, fl) := cvtAll td rm ta.isInt (c.elemNums k.a ta)
      plainResult td.size dk vs fl
    | .vqnt .. =>
      match td with
      | .q m =>
        let xs := c.elemBits k.a .f32 false
        let (bs, fl) := quantBlocks m (blockOffsets k.d) (runsOf 32 xs.length xs)
        { qCells k.d m bs with flags := fl }
      | _ => plainResult 1 [] [] 0#6
    | .vfill .. =>
      match td with
      | .q m =>
        qCells k.d m ((blockOffsets k.d).map fun e =>
          (e, field k.sval 8 8, List.replicate 32 (signedOf m k.sval.toNat)))
      | t => plainResult t.size dk (dk.map fun _ => k.sval.toNat % 2 ^ (8 * t.size)) 0#6
    | .vident .. =>
      match td with
      | .q m =>
        let v := signedOf 8 k.sval.toNat
        let sc := field k.sval 8 8
        let r := qCells k.d m ((List.range 128).map fun b =>
          (((32 * b : Nat) : Int), sc, (List.range 32).map fun j =>
            let e := 32 * b + j
            if e % 64 = e / 64 then v else 0))
        let first := ptrOff (shBase k.d) / 512
        { r with
          nan := []
          ident := (List.range m).map fun p =>
            (keyOf 0 ((first + p) * 512), dirEntry classIdent (7 + m) false p (sc * 256 + wrapTo 8 v)) }
      | _ => plainResult 1 [] [] 0#6
    | .vcpy .. =>
      match td with
      | .q m =>
        let r := qCells k.d m (((blockOffsets k.d).zip (blockOffsets k.a)).map fun p =>
          (p.1, c.scaleAt k.a p.2, (List.range 32).map fun j => c.mantissa k.a m (p.2 + j)))
        r
      | t => plainResult t.size dk (c.elemBits k.a t false) 0#6
    | .vgath .. =>
      let xs := c.elemBits k.a td false
      let js := c.elemBits k.b (shTy k.b) false
      plainResult td.size dk (js.map fun j => xs.getD j 0) 0#6
    | .vscat .. =>
      let xs := c.elemBits k.a td false
      let js := c.elemBits k.b (shTy k.b) false
      let ps := (js.zip xs).filter fun p => p.1 < dk.length
      plainResult td.size (ps.map fun p => dk.getD p.1 0) (ps.map Prod.snd) 0#6
    | .vtrn .. =>
      plainResult td.size dk (trnOrder (shE k.a 0) (shE k.a 1) (c.elemBits k.a td false)) 0#6
    | _ => plainResult 1 [] [] 0#6

end Sys2Proof.Machine
end

