-- ==== Sys2Proof/Machine/Box.lean ====
section
/-!
DEFINITION. Sys2Proof/Machine/Box.lean: box records (R204 to R210): fields, validity, the dense stream of a walk, where
each stream byte comes from and where it goes, and the charge of a copy.
-/
namespace Sys2Proof.Machine

abbrev Box := BitVec 512

def bxSrc (b : Box) : Word := BitVec.ofNat 64 (longAt b 0)
def bxMesh (b : Box) : Bool := bit b 63
def bxE (b : Box) (k : Nat) : Nat := if k < 4 then halfAt b (8 + 2 * k) else byteAt b 16
def bxTypeCode (b : Box) : Nat := field b 136 5
def bxRank (b : Box) : Nat := field b 141 3
def bxFill (b : Box) : Nat := field b 144 2
def bxSwz (b : Box) : Nat := field b 146 2
def bxRed (b : Box) : Nat := field b 148 3
def bxSX (b : Box) : Nat := field b 152 4
def bxSY (b : Box) : Nat := field b 156 4
def bxScale (b : Box) : Int := swordAt b 20
def bxX0 (b : Box) : Nat := byteAt b 24
def bxY0 (b : Box) : Nat := byteAt b 25
def bxMap (b : Box) : Nat := halfAt b 26

/-- Stride of a dimension: 32 bits for a mesh source, 64 bits and S0 = 1 for an external one (R204). -/
def bxS (b : Box) (k : Nat) : Int :=
  if bxMesh b then swordAt b (32 + 4 * k) else if k = 0 then 1 else slongAt b (24 + 8 * k)

/-- Extent and stride of each used dimension. -/
def bxDims (b : Box) : List (Nat × Int) := (List.range (bxRank b)).map fun k => (bxE b k, bxS b k)

def bxCount (b : Box) : Nat := ((bxDims b).map Prod.fst).foldl (· * ·) 1

/-- Element type; a reserved code reads as bytes and is refused by `boxValid`. -/
def bxTy (b : Box) : ETy := (ETy.ofCode (bxTypeCode b)).getD (.int false 8)

/-- Mantissa width of a .qm type, 0 for a byte-sized type. -/
def ETy.qWidth : ETy → Nat
  | .q m => m
  | .int _ _ | .f16 | .bf16 | .f32 => 0

def bxQ (b : Box) : Nat := (bxTy b).qWidth

/-- Bytes of elements or mantissas, and of scale bytes; the box bytes B (R205). -/
def bxDataBytes (b : Box) : Nat := if bxQ b > 0 then bxCount b * bxQ b / 8 else bxCount b * (bxTy b).size
def bxScaleBytes (b : Box) : Nat := if bxQ b > 0 then bxCount b / 32 else 0
def bxBytes (b : Box) : Nat := bxDataBytes b + bxScaleBytes b

/-- Row bytes RB of R207. -/
def bxRow (b : Box) : Nat := if bxQ b > 0 then bxE b 0 * bxQ b / 8 else bxE b 0 * (bxTy b).size

/-- Swizzle period P (Table 10.1). -/
def bxPeriod (b : Box) : Nat := match bxSwz b with | 1 => 4 | 2 => 8 | 3 => 16 | _ => 0

/-! ### Walk order -/

/-- Indices of element `j` (R205: i0 fastest). -/
def indicesOf : List (Nat × Int) → Nat → List Nat
  | [], _ => []
  | (e, _) :: r, j => (if e = 0 then 0 else j % e) :: indicesOf r (if e = 0 then 0 else j / e)

/-- Element offset of indices. -/
def offsetOf : List (Nat × Int) → List Nat → Int
  | (_, st) :: r, i :: is => st * i + offsetOf r is
  | _, _ => 0

/-- Element offset of element `j` of the walk. -/
def View.elem (v : View) (j : Nat) : Int := v.disp + offsetOf (bxDims v.box) (indicesOf (bxDims v.box) j)

/-- First byte of the data of the element at offset `e`, relative to the buffer or as an external address, and its
bytes; for .qm the first byte of its block. -/
def View.byteOf (v : View) (e : Int) : Int :=
  let src : Int := if bxMesh v.box then ptrOff (bxSrc v.box) else (bxSrc v.box).toNat
  if bxQ v.box > 0 then src + e * bxQ v.box / 8 else src + e * (bxTy v.box).size

/-- Does a mesh source place the element at offset `e` outside its buffer (R206)? -/
def View.outside (v : View) (e : Int) : Bool :=
  bxMesh v.box &&
    let last := if bxQ v.box > 0 then (ptrOff (bxSrc v.box) : Int) + ((e + 1) * bxQ v.box + 7) / 8
      else v.byteOf e + (bxTy v.box).size
    decide (v.byteOf e < 0) || decide ((bufSize (ptrBuf (bxSrc v.box)) : Int) < last)

/-- Does element `j` violate the chain descriptor's bounds (R223)? -/
def View.beyond (v : View) (j : Nat) : Bool :=
  let is := indicesOf (bxDims v.box) j
  let q0 := v.p0 + (is.getD 0 0 : Nat)
  let q1 := v.p1 + (is.getD 1 0 : Nat)
  (v.bd0 ≠ 0 && (decide (q0 < 0) || decide ((v.bd0 : Int) ≤ q0)))
    || (v.bd1 ≠ 0 && (decide (q1 < 0) || decide ((v.bd1 : Int) ≤ q1)))
    || decide (q0 < 0) || decide (q1 < 0)

/-- Element `j` is out of bounds (R206). -/
def View.oob (v : View) (j : Nat) : Bool := v.outside (v.elem j) || v.beyond j

/-- Address of the source scale byte of the block at element offset `e` (R205), and whether it lies outside the buffer
of a mesh source. -/
def View.scaleAddr (v : View) (e : Int) : Int :=
  (if bxMesh v.box then (ptrOff (bxSrc v.box) : Int) else (bxSrc v.box).toNat) + bxScale v.box + e / 32

def View.scaleOut (v : View) (e : Int) : Bool :=
  bxMesh v.box && (decide (v.scaleAddr e < 0) || decide ((bufSize (ptrBuf (bxSrc v.box)) : Int) ≤ v.scaleAddr e))

/-- Does the walk hold an element, or a scale byte, outside its mesh buffer? Checked on the extremes of its strides
(R213). -/
def View.leaves (v : View) : Bool :=
  let (lo, hi) := offsetBounds (bxDims v.box)
  v.outside (v.disp + lo) || v.outside (v.disp + hi)
    || (bxQ v.box > 0 && (v.scaleOut (v.disp + lo) || v.scaleOut (v.disp + hi)))

/-- Does the walk hold an out-of-bounds element of either kind? -/
def View.anyBeyond (v : View) : Bool :=
  let e0 := bxE v.box 0
  let e1 := if bxRank v.box > 1 then bxE v.box 1 else 1
  (v.bd0 ≠ 0 && decide ((v.bd0 : Int) < v.p0 + e0)) || (v.bd1 ≠ 0 && decide ((v.bd1 : Int) < v.p1 + e1))
    || decide (v.p0 < 0) || decide (v.p1 < 0)

/-! ### The dense stream (R205, R206) -/

/-- Where a byte of the stream comes from: an address of the source under a mask, or a constant. -/
structure SrcByte where
  addr : Option Int
  mask : Byte
  const : Byte
deriving DecidableEq, Repr

def constByte (v : Nat) : SrcByte := ⟨none, 0#8, BitVec.ofNat 8 v⟩

/-- Byte of an out-of-bounds element of a byte-sized type. -/
def fillByte (b : Box) (t : Nat) : SrcByte :=
  if bxFill b = 2 then
    match (bxTy b).fmt with
    | some f => constByte (f.canonNaN / 2 ^ (8 * t))
    | none => constByte 0
  else constByte 0

/-- Elements of block `k` of a .qm walk that are out of bounds. -/
def View.oobInBlock (v : View) (k : Nat) : List Nat := (List.range 32).filter fun t => v.oob (32 * k + t)

/-- Byte `t` of block `k` of a .qm walk. -/
def View.blockByte (v : View) (k t : Nat) : SrcByte :=
  let m := bxQ v.box
  let out := v.oobInBlock k
  if out = [] then ⟨some (v.byteOf (v.elem (32 * k)) + t), 0xFF#8, 0#8⟩
  else if bxFill v.box = 2 ∨ out.length = 32 then constByte 0
  else ⟨some (v.byteOf (v.elem (32 * k)) + t),
    BitVec.ofFnLE fun b : Fin 8 => !(out.contains ((8 * t + b.val) / m)), 0#8⟩

/-- Scale byte of block `k`. -/
def View.scaleByte (v : View) (k : Nat) : SrcByte :=
  let out := v.oobInBlock k
  if out ≠ [] ∧ bxFill v.box = 2 then constByte 0xFF
  else if out.length = 32 ∨ v.scaleOut (v.elem (32 * k)) then constByte 0
  else ⟨some (v.scaleAddr (v.elem (32 * k))), 0xFF#8, 0#8⟩

/-- Byte `k` of the dense stream: mantissas or elements first, then scale bytes (R303). -/
def View.stream (v : View) (k : Nat) : SrcByte :=
  let m := bxQ v.box
  if k < bxDataBytes v.box then
    if m > 0 then v.blockByte (k / (4 * m)) (k % (4 * m))
    else
      let sz := (bxTy v.box).size
      let j := k / sz
      if v.oob j then fillByte v.box (k % sz) else ⟨some (v.byteOf (v.elem j) + (k % sz : Nat)), 0xFF#8, 0#8⟩
  else v.scaleByte (k - bxDataBytes v.box)

/-- A stream byte, given the source's bytes. -/
def SrcByte.value (b : SrcByte) (read : Nat → Byte) : Byte :=
  match b.addr with
  | none => b.const
  | some a => if a < 0 then b.const else (read a.toNat &&& b.mask) ||| b.const

/-- Destination offset of stream byte `k`, with the swizzle of R207; scale bytes go to SCALE + block (R205). -/
def placeOf (b : Box) (k : Nat) : Int :=
  if k < bxDataBytes b then
    let p := bxPeriod b
    if p = 0 then k
    else
      let rb := bxRow b
      let r := k / rb
      (r * rb + 32 * ((k % rb / 32) ^^^ (r % p)) + k % 32 : Nat)
  else bxScale b + (k - bxDataBytes b : Nat)

/-- The part of the stream that the flit from byte `k` on carries: 64 bytes, mantissas and scale bytes apart (R303). -/
def flitLen (b : Box) (k : Nat) : Nat :=
  let stop := if k < bxDataBytes b then bxDataBytes b else bxBytes b
  Nat.min 64 (stop - k)

/-! ### Skim lattices (R208) -/

/-- Columns of row `r` in snake order. -/
def snakeRow (r : Nat) : List Nat := if r % 2 = 0 then [0, 1, 2, 3] else [3, 2, 1, 0]

/-- Selected lattice cores in snake order. -/
def lattice (b : Box) : List (Nat × Nat) :=
  (List.range 4).flatMap fun r => ((snakeRow r).filter fun c => (bxMap b).testBit (4 * r + c)).map fun c =>
    (bxX0 b + c * bxSX b, bxY0 b + r * bxSY b)

/-! ### Validity (Table 10.3) -/

/-- RED matches TYPE (R209). -/
def redOk (b : Box) : Bool :=
  match bxRed b, bxTy b with
  | 0, _ => true
  | 1, .f32 => true
  | 2, .bf16 => true
  | 3, .int true 32 => true
  | 4, .q _ | 5, .q _ => false
  | 4, _ | 5, _ => true
  | _, _ => false

/-- The conditions on a .qm box (R205). -/
def qBoxOk (b : Box) : Bool :=
  bxQ b = 0 || (bxE b 0 % 32 = 0 && bxS b 0 = 1
    && (List.range (bxRank b)).all (fun k => k = 0 || bxS b k % 32 = 0) && bxRed b = 0)

/-- The bytes of the issuing core that the walk of a local mesh source may read: from the lowest to the highest byte of an
element, and of a scale byte. -/
def View.spans (v : View) : List (Nat × Nat) :=
  let buf := ptrBuf (bxSrc v.box)
  let (lo, hi) := offsetBounds (bxDims v.box)
  let span (a e : Int) : List (Nat × Nat) := if e ≤ 0 then [] else [(keyOf buf a.toNat, (e - Nat.max 0 a.toNat).toNat)]
  let width : Int := if bxQ v.box > 0 then (bxQ v.box + 7) / 8 else (bxTy v.box).size
  span (v.byteOf (v.disp + lo)) (v.byteOf (v.disp + hi) + width)
    ++ if bxQ v.box > 0 then span (v.scaleAddr (v.disp + lo)) (v.scaleAddr (v.disp + hi) + 1) else []

/-- A mesh source on the issuing core whose walk touches a shadow range (R218): what leaves the buffer is FILL's. -/
def State.srcShadowed (s : State) (b : Box) : Bool :=
  bxMesh b && s.isLocal (bxSrc b) && (View.mk b 0 0 0 0 0).spans.any fun p =>
    s.core.inShadow p.1 (Nat.min p.2 (bufSize (keyBuf p.1) - keyOff p.1))

/-- The box checks of Table 10.3, order 2, first two rows apart from the pointer itself, and the shadow check of R218. The spec
gives SCALE ≠ 0 no consequence for types other than .qm (Table 10.1); the model's choice is BOUND, as for a reserved field
(log 67). A row width that R207 forbids is not among the checks, and the copy runs (R7). -/
def State.boxValid (s : State) (b : Box) : Bool :=
  field b 151 1 = 0 && wordAt b 28 = 0 && (!bxMesh b || field b (8 * 52) 96 = 0) &&
  1 ≤ bxRank b && bxRank b ≤ 5 && (ETy.ofCode (bxTypeCode b)).isSome &&
  (List.range 5).all (fun k =>
    if k < bxRank b then bxE b k ≠ 0
    else bxE b k = 0 && ((!bxMesh b && k = 0) || bxS b k = 0)) &&
  bxFill b ≠ 3 && !(bxFill b = 2 && (bxTy b).isInt) && redOk b && qBoxOk b &&
  (bxQ b > 0 || bxScale b = 0) &&
  (if bxMap b = 0 then bxSX b = 0 && bxSY b = 0
   else 1 ≤ bxSX b && 1 ≤ bxSY b && (lattice b).all fun p =>
     decide (p.1 < pextWidth s.dev.part.pext) && decide (p.2 < pextHeight s.dev.part.pext)) &&
  (if bxMesh b then meshOk s.dev.part (bxSrc b) else reservedOk (bxSrc b)) &&
  !(bxFill b = 0 && (View.mk b 0 0 0 0 0).leaves) && !s.srcShadowed b

/-- ALIGN of a mesh source: OFF a multiple of the element size, of 32 for .qm (Table 10.3). -/
def bxAlign (b : Box) : Nat := if bxQ b > 0 then 32 else (bxTy b).size

/-! ### The charge (R210) -/

/-- Eighths of one end of a copy from the focused core: an external end counts 128. -/
def State.endEighths (s : State) (v : Word) : Nat :=
  if !bit v 63 then 128 else nomEighths s.dev.part s.xy.1 s.xy.2 v

/-- (8B + 64) × (Ds + ΣDi) grains. -/
def State.copyCharge (s : State) (b : Box) (dsts : List Word) : Nat :=
  grains (bxBytes b) (s.endEighths (bxSrc b) + (dsts.map s.endEighths).foldl (· + ·) 0)

end Sys2Proof.Machine
end

