-- ==== Sys2Proof/Machine/Window.lean ====
section
/-!
DEFINITION. Sys2Proof/Machine/Window.lean: windows, bound fills, chains and touches (R217 to R226, R238, R239, R310), and
the effect of engine writes and publishes on open regions (Table 12.2).
-/
namespace Sys2Proof.Machine

/-! ### Engine writes and publishes against the Scrim tables (Table 12.2) -/

/-- A write to one of these sectors by a command of this agent is held behind a closing entry that has written it, and behind
the staged stores that its firing made before it (Table 12.4; log 69). -/
def Core.heldBack (c : Core) (a : Agent) (secs : List (Nat × Nat)) : Bool :=
  c.scrim.any fun e => (e.closing || a.follows e.agent && e.agent.id ≠ c.id) &&
    secs.any fun p => e.bank = p.1 && e.wr.getLsbD p.2

/-- The region of this agent has ended, so that a region stop would come too late for it; of an agent on another device nothing is
known here. -/
def State.regionOver (s : State) (a : Agent) : Bool :=
  match s.coreAt a.id with
  | some c => !(c.busy && c.agent = a)
  | none => false

/-- An engine's write is held at a closing entry, and at one whose region has ended and whose commit or close is still on its way: it
comes after that region (R242, R245). -/
def State.heldBack (s : State) (a : Agent) (secs : List (Nat × Nat)) : Bool :=
  s.core.heldBack a secs || s.core.scrim.any fun e => !e.closing && s.regionOver e.agent &&
    secs.any fun p => e.bank = p.1 && e.wr.getLsbD p.2

/-- Sectors of an open entry among these. -/
def Scrim.firstHit (e : Scrim) (secs : List (Nat × Nat)) : Option (Nat × Nat) :=
  if e.closing then none
  else secs.find? fun p => e.bank = p.1 && (e.rd.getLsbD p.2 || e.wr.getLsbD p.2)

/-- Each region of a list of entries whose maps hold a sector takes a region stop. -/
def stopEntries (secs : List (Nat × Nat)) (pc : Nat) (other : Word) : List Scrim → State → State
  | [], s => s
  | e :: es, s =>
    let s := match e.firstHit secs with
      | some p => s.stopAgent e (sectorKey p.1 p.2) pc other
      | none => s
    stopEntries secs pc other es s

/-- Every open region at the focused core that holds one of these sectors takes a region stop (R167, R221). -/
def State.stopHits (s : State) (secs : List (Nat × Nat)) (pc : Nat) (other : Word) : State :=
  stopEntries secs pc other s.core.scrim s

/-- Sectors of A and C that hold these physical keys. -/
def keySectors (keys : List Nat) : List (Nat × Nat) :=
  (keys.filterMap fun k => (bankOf k).map fun b => (b, sectorOf k)).dedup

/-! ### Windows -/

def Core.win (c : Core) (k : BitVec 4) : Window := c.tab.win[k.toNat]

def Core.setWin (c : Core) (k : BitVec 4) (w : Window) : Core :=
  { c with tab := { c.tab with win := c.tab.win.set k.toNat w } }

def State.setWin (s : State) (k : BitVec 4) (w : Window) : State := s.mapC fun c => c.setWin k w

/-- Key of the first visible byte. -/
def Window.key (w : Window) : Nat := keyOf w.buf w.off

/-- The window numbers. -/
def windows : List (BitVec 4) := (List.range 16).map (BitVec.ofNat 4)

/-- Physical key of a visible key in the shadow half (R238). -/
def Window.shadowKey (w : Window) (k : Nat) : Nat := if w.half then k else k + w.size

/-- All sectors of both halves of a window (R239). -/
def Window.sectors (w : Window) : List (Nat × Nat) :=
  keySectors ((List.range (2 * w.size / 32)).map fun j => w.key + 32 * j)

/-- The commands that are at work are told of a publish: what they still read comes from the new half, and its panels count as
written (R239, R316). -/
def Engines.published (e : Engines) (k : BitVec 4) : Engines :=
  { e with
    vq := e.vq.map fun c => if c.started then { c with prog := { c.prog with pubs := k :: c.prog.pubs } } else c
    mq := e.mq.map fun c => if c.started then { c with prog := { c.prog with pubs := k :: c.prog.pubs } } else c
    rq := e.rq.map fun c => if c.started then { c with prog := { c.prog with pubs := k :: c.prog.pubs } } else c }

/-- The publish of a window: HALF flips, and each open region that holds a sector of it takes a region stop (R221). -/
def State.publish (s : State) (k : BitVec 4) (pc : Nat) : State :=
  let w := s.core.win k
  let s := s.stopHits w.sectors pc (engineWord s.dev.part.memEntry 2 s.core.id)
  (s.setWin k { w with half := !w.half, st := .present }).mapC fun c => { c with eng := c.eng.published k }

/-- A box of this view lands inside the visible range of a window: elements, box bytes and scale bytes (R212, R220). -/
def Window.admits (w : Window) (key : Nat) (b : Box) : Bool :=
  let off : Int := (key : Int) - w.key
  let size : Int := w.size
  w.defined && decide (w.key ≤ key) && decide (off + bxBytes b ≤ size)
    && decide (off + bxDataBytes b ≤ size)
    && (bxQ b = 0 || (decide (0 ≤ off + bxScale b) && decide (off + bxScale b + bxScaleBytes b ≤ size)))

def Core.windowFor (c : Core) (key : Nat) (b : Box) : Option (BitVec 4) := windows.find? fun k => (c.win k).admits key b

/-! ### Walks -/

def activeWalks (ws : List Walk) : List Walk := ws.filter Walk.active

/-- The lowest of the 16 walk slots that is free (R303; which one is the model's choice, log 68). -/
def freeSlot (ws : List Walk) : Option Nat := (List.range 16).find? fun k => !(activeWalks ws).any fun w => w.slot = k

/-- Queue a walk: it takes a free slot at once, or waits; fills and links wait ahead of queued copies (R303). -/
def Engines.addWalk (e : Engines) (w : Walk) : Engines :=
  let waits := e.walks.any fun x => !x.active && (x.win.isSome || w.win.isNone)
  let slot := if waits then none else freeSlot e.walks
  let w := { w with num := e.nextWalk, active := slot.isSome, slot := slot.getD 0 }
  let ahead := e.walks.filter fun x => x.active || x.win.isSome
  let behind := e.walks.filter fun x => !(x.active || x.win.isSome)
  { e with
    nextWalk := e.nextWalk + 1
    nextOrd := e.nextOrd + 1
    walks := if w.win.isSome then ahead ++ w :: behind else e.walks ++ [w] }

/-- A walk over a whole box. -/
def plainView (b : Box) : View := ⟨b, 0, 0, 0, 0, 0⟩

/-- A walk as issued. -/
def State.newWalk (s : State) (v : View) (dst : CopyDst) (pending : List CoreId) (tag : BitVec 6) (pc : Nat) (lhnd : Word) :
    Walk :=
  { num := 0
    active := false
    view := v
    dst := dst
    ctr := none
    perd := false
    tag := tag
    slot := 0
    sent := 0
    secs := []
    pending := pending
    done := 0
    err := if bxFill v.box = 0 ∧ (v.leaves ∨ v.anyBeyond) then some (5, bxSrc v.box) else none
    failing := false
    bumping := false
    pc := pc
    lhnd := lhnd
    win := none
    link := 0
    at_ := s.core.clock
    ctx := s.core.ctx
    agent := s.core.agent
    cbTok := none
    cbSlot := none
    noNotice := false
    lin := s.core.scopeLin
    ord := s.core.eng.nextOrd }

/-! ### Chains (R223, R224, R310) -/

def dT (d : BitVec 128) (k : Nat) : Int := shalfAt d (2 * k)
def dL (d : BitVec 128) : Nat := halfAt d 10
def dBD (d : BitVec 128) (k : Nat) : Nat := halfAt d (12 + 2 * k)

/-- Displacement per link in elements: Σ Tk·Sk. -/
def linkStep (d : BitVec 128) (b : Box) : Int :=
  ((List.range (bxRank b)).map fun k => dT d k * bxS b k).foldl (· + ·) 0

/-- The view of link j (R223). -/
def linkView (d : BitVec 128) (b : Box) (j : Nat) : View :=
  ⟨b, j * linkStep d b, j * dT d 0, if bxRank b > 1 then j * dT d 1 else 0, dBD d 0, if bxRank b > 1 then dBD d 1 else 0⟩

/-- The depth D (R310). -/
def Chain.depth (ch : Chain) : Nat :=
  match ch.lat, ch.rel with
  | some l, some r => Nat.min ch.dmax (Nat.max ch.dmin (ceilDiv l (Nat.max r 1) + 1))
  | _, _ => ch.dmax

/-- A sample of LAT or REL. -/
def smooth (v : Option Nat) (x : Nat) : Nat :=
  match v with
  | none => x
  | some v => v - v / 4 + x / 4

/-- Core cycles of a span of the core's clock, which counts hundredths (R310). -/
def cyclesOf (n : Nat) : Nat := n / 100

def Core.chainOf (c : Core) (k : BitVec 4) : Option Chain :=
  match (c.win k).chain with
  | none => none
  | some first => c.tab.chains.find? fun ch => ch.first = first

def Core.setChain (c : Core) (ch : Chain) : Core :=
  { c with tab := { c.tab with chains := c.tab.chains.map fun x => if x.first = ch.first then ch else x } }

/-- Start the bound fill of a window, or link `j` of its chain: the window is FILLING (R219, R223). -/
def State.startFill (s : State) (k : BitVec 4) (v : View) (j : Nat) : State :=
  let w := s.core.win k
  match w.bound with
  | none => s
  | some b =>
    let walk := { s.newWalk v (.window k) [s.core.id] b.tag b.pc b.lhnd with win := some k, link := j }
    (s.mapC fun c => { c with eng := c.eng.addWalk walk }).setWin k { w with st := .filling, fill := true, started := true, noPublish := false }

/-- Issue the next link of a chain into its window, if that window is ABSENT (R223). -/
def State.issueLink (s : State) (ch : Chain) : State :=
  let k := ch.first + BitVec.ofNat 4 (ch.issued % ch.n)
  let w := s.core.win k
  if ch.issued < dL ch.desc ∧ w.st = .absent then
    match w.bound with
    | none => s
    | some b =>
      (s.startFill k (linkView ch.desc b.box ch.issued) ch.issued).mapC fun c =>
        c.setChain { ch with issued := ch.issued + 1 }
  else s

/-- Issue every link up to and including `upTo` (R223: a touch). -/
def issueUpTo (k : BitVec 4) (upTo : Nat) : Nat → State → State
  | 0, s => s
  | n + 1, s =>
    match s.core.chainOf k with
    | none => s
    | some ch => if ch.issued ≤ upTo then issueUpTo k upTo n (s.issueLink ch) else s

/-! ### Touches (R219, Table 10.4) -/

/-- A window that refuses a touch with BOUND: POISONED, or an exhausted chain window that is ABSENT. -/
def Core.refusesTouch (c : Core) (k : BitVec 4) : Bool :=
  let w := c.win k
  match w.st with
  | .poisoned => true
  | .absent => w.bound.isSome && match c.chainOf k with
    | some ch => decide (dL ch.desc ≤ w.nextLink)
    | none => false
  | .filling | .present => false

/-- A window whose touch is a region stop of cause ABSENT. -/
def Core.absentTouch (c : Core) (k : BitVec 4) : Bool :=
  let w := c.win k
  match w.st with
  | .filling => true
  | .absent => w.bound.isSome
  | .present | .poisoned => false

/-- The touches of ranges of visible keys. -/
def Core.touches (c : Core) (spans : List Span) : List (BitVec 4) :=
  windows.filter fun k => spans.any fun p => (c.touched p.1 p.2).contains k

/-- Some touched window refuses. -/
def Core.touchBound (c : Core) (spans : List Span) : Bool := (c.touches spans).any c.refusesTouch

/-- The first touched window that is ABSENT with a link available, or FILLING. -/
def Core.touchAbsent (c : Core) (spans : List Span) : Option (BitVec 4) := (c.touches spans).find? c.absentTouch

/-- A region stop of cause ABSENT at the instruction at the pc: the fill or links start, and the firing is requeued until
the window is PRESENT or POISONED (R219). -/
def State.absentStop (s : State) (k : BitVec 4) (addr : Word) : State :=
  let w := s.core.win k
  let pc := s.core.f.pc
  let s := if w.st = .absent then
      match s.core.chainOf k with
      | some ch => issueUpTo k w.nextLink (ch.n + 1) s
      | none => match w.bound with
        | some b => s.startFill k (plainView b.box) 0
        | none => s
    else s
  s.regionStop causeAbsent pc addr 0#64 (some k) none

end Sys2Proof.Machine
end

