-- ==== Sys2Proof/Machine/Copy.lean ====
section
/-!
DEFINITION. Sys2Proof/Machine/Copy.lean: the Stencil engine at work (R303 to R307, R312, R214, R215): flits sent, flits
landing, completions, failures and cancels.
-/
namespace Sys2Proof.Machine

/-! ### The source side -/

/-- The header of a walk's packets. -/
def Walk.hdr (w : Walk) (issuer : CoreId) (dst : FlitDst) (path : List CoreId) : CopyHdr :=
  { walk := w.num
    issuer := issuer
    ctx := w.ctx
    pc := w.pc
    lhnd := w.lhnd
    view := w.view
    dst := dst
    perd := if w.perd then w.ctr.map ptrKey else none
    path := path
    agent := w.agent }

/-- The cores a copy to a mesh destination lands at, in path order (R208). -/
def meshDests (b : Box) (p : Word) : List CoreId :=
  if bxMap b = 0 then [ptrCore p]
  else (lattice b).map fun q => .mesh (BitVec.ofNat 8 q.1) (BitVec.ofNat 8 q.2)

/-- Where a walk's flits go: the first core, and the header they carry. None while a destination CB has granted no slots,
and for an external destination. -/
def State.route (s : State) (w : Walk) : Option (CoreId × CopyHdr) :=
  match w.dst with
  | .mesh p =>
    let dst : FlitDst := if bxRed w.view.box = 0 then .shadow (ptrKey p) else .reduce (ptrKey p)
    match meshDests w.view.box p with
    | c :: r => some (c, w.hdr s.core.id dst r)
    | [] => none
  | .window k => some (s.core.id, w.hdr s.core.id (.shadow (s.core.win k).key) [])
  | .cb h =>
    match w.cbSlot with
    | none => none
    | some slot => match s.core.cbAt h.toNat with
      | .home _ _ _ _ _ _ _ => some (s.core.id, w.hdr s.core.id (.slots h.toNat slot) [])
      | .link home handle _ => some (home, w.hdr s.core.id (.slots handle slot) [])
      | .empty => none
  | .ext _ => none

def Engines.setWalk (e : Engines) (w : Walk) : Engines :=
  { e with walks := e.walks.map fun x => if x.num = w.num then w else x }

def State.setWalk (s : State) (w : Walk) : State := s.mapC fun c => { c with eng := c.eng.setWalk w }

/-- Slots of its CB that a KIND 1 record uses, with the handle (R163). -/
def Core.cbUse (c : Core) (r : Shape) : Option (Nat × Nat) :=
  if shKind1 r then
    let h := (shBase r).toNat % 16
    match c.cbAt h with
    | .home rcd _ _ _ _ _ _ => some (h, slotsFor (shCount r * (shTy r).size) (cbSlot rcd))
    | .link _ _ _ | .empty => none
  else none

/-- The active walk in a slot. -/
def Core.walkAt (c : Core) (slot : Nat) : Option Walk := (activeWalks c.eng.walks).find? fun w => w.slot = slot

/-! ### Cursors (R309, R312) -/

/-- DST of a cursor: the destination value, or the window's shadow origin (Table 17.3). -/
def State.cursorDst (s : State) (w : Walk) : Nat :=
  let (x, y) := s.xy
  match w.dst with
  | .mesh p => p.toNat
  | .ext a => a
  | .cb h => h.toNat
  | .window k =>
    let win := s.core.win k
    (mkPtr x y win.buf (win.off + win.size)).toNat

/-- The walk index J of stream byte `k`: the element, or, among the scale bytes, the first element of the block; the count once all is
sent. -/
def Walk.index (w : Walk) (k : Nat) : Nat :=
  let b := w.view.box
  if bxBytes b ≤ k then bxCount b
  else if bxDataBytes b ≤ k then 32 * (k - bxDataBytes b)
  else if bxQ b > 0 then 8 * k / bxQ b else k / (bxTy b).size

/-- The cursor of a walk whose next byte is stream byte `k` (Table 17.3). -/
def State.cursor (s : State) (w : Walk) (k : Nat) : BitVec 1024 :=
  let cbd := match w.dst with | .cb _ => 4 | .mesh _ | .ext _ | .window _ => 0
  let flags := (if w.ctr.isSome then 1 else 0) + (if w.perd then 2 else 0) + cbd + (if w.err.isSome then 8 else 0)
    + (if bxDataBytes w.view.box ≤ k && decide (k < bxBytes w.view.box) then 16 else 0)
  let win := match w.win with | some n => n.toNat + 16 + w.link % 2048 * 32 | none => 0
  BitVec.ofNat 1024 (w.view.box.toNat + 2 ^ 512 * s.cursorDst w + 2 ^ 576 * ((w.ctr.map BitVec.toNat).getD 0)
    + 2 ^ 640 * (w.index k % 2 ^ 48) + 2 ^ 688 * w.tag.toNat + 2 ^ 696 * flags + 2 ^ 704 * w.done
    + 2 ^ 768 * (w.pc % 2 ^ 15) + 2 ^ 784 * win + 2 ^ 800 * w.ctx.toNat)

/-- Tell every destination whose completion is awaited that the copy fails (R214, R216). -/
def tellFail (h : CopyHdr) (code : Nat) (addr : Word) : List CoreId → State → State
  | [], s => s
  | c :: cs, s => tellFail h code addr cs (s.send c .data (.flitFail h code addr))

/-- Header of a failing copy: as its flits carry it, one core at a time. -/
def State.failHdr (s : State) (w : Walk) : CopyHdr :=
  match s.route w with
  | some (_, h) => { h with path := [] }
  | none => w.hdr s.core.id (.slots 16 0) []

/-- A walk with an error tells its destinations once. One whose destinations have all completed, and whose counter's increment is on its
way, is past failing. -/
def State.failWalk (s : State) (w : Walk) (code : Nat) (addr : Word) : State :=
  if w.bumping then s
  else
    let s := tellFail (s.failHdr w) code addr w.pending s
    s.setWalk { w with err := some (code, addr), failing := true }

/-- Foreign open writes that a source read meets, one per sector: the sector and its oldest entry (R167, R215). The regions of
the issuing firing that its program order puts before the command are not foreign (R243). -/
def Core.openWrites (c : Core) (a : Agent) (secs : List (Nat × Nat)) : List ((Nat × Nat) × Scrim) :=
  secs.filterMap fun p =>
    (c.scrim.find? fun e => e.bank = p.1 && e.wr.getLsbD p.2 && !a.follows e.agent).map fun e => (p, e)

/-- Conflict notices of a read at core `src` for a launch (R215). -/
def noticeReads (src : CoreId) (pc : Nat) (lhnd : Word) (tag : Nat) : List ((Nat × Nat) × Scrim) → State → State
  | [], s => s
  | (p, e) :: r, s =>
    let part := s.dev.part
    noticeReads src pc lhnd tag r (s.onCore src (Core.notice s.dev lhnd 3 0 tag (some pc)
      (sectorPtr part src (((s.coreAt src).map fun c => c.phys' (sectorKey p.1 p.2)).getD (sectorKey p.1 p.2)))
      (agentWord part.memEntry e.agent)))

/-- Addresses of the source that `n` stream bytes from `k` on read. -/
def View.addrs (v : View) (k n : Nat) : List Nat :=
  (List.range n).filterMap fun t => match (v.stream (k + t)).addr with
    | some a => if a < 0 then none else some a.toNat
    | none => none

/-- Visible sectors of the source that these stream bytes read, as key over 32. -/
def View.sectorKeys (v : View) (k n : Nat) : List Nat :=
  ((v.addrs k n).map fun a => keyOf (ptrBuf (bxSrc v.box)) a / 32).dedup

/-- Stream bytes from source sectors that have been read. -/
def View.fromSectors (v : View) (secs : Table (List Byte)) (k n : Nat) : List Byte :=
  let buf := ptrBuf (bxSrc v.box)
  (List.range n).map fun t => (v.stream (k + t)).value fun a =>
    (tget [] secs (keyOf buf a / 32)).getD (keyOf buf a % 32) 0#8

/-- Bytes of the pieces that a reduction works on, its elements; one byte where a copy is none (R209, R312). -/
def View.grain (v : View) : Nat := if bxRed v.box = 0 then 1 else (bxTy v.box).size

/-- The longest run of stream bytes from `k` on that one page holds, at most `n` (R312); `page` is the page met so far. An element that
is to be reduced stays whole, with the page that holds its first byte. -/
def View.pageRun (v : View) : Nat → Nat → Option Nat → Nat
  | 0, _, _ => 0
  | n + 1, k, page =>
    match (if k % v.grain = 0 then (v.stream k).addr else none) with
    | none => 1 + v.pageRun n (k + 1) page
    | some a =>
      let q := a.toNat / 4096
      match page with
      | none => 1 + v.pageRun n (k + 1) (some q)
      | some p => if p = q then 1 + v.pageRun n (k + 1) page else 0

/-- The page a run reads, if it reads one. -/
def View.pageOf (v : View) (k n : Nat) : Option Nat := ((v.addrs k n).head?).map (· / 4096)

/-- Split stream bytes of an external destination into parts of one sector each (R308); an element of `g` bytes that is
to be reduced stays whole, with the sector that holds its first byte. -/
def sectorParts (g : Nat) : Nat → Nat → List Byte → List (Nat × List Byte)
  | 0, _, _ => []
  | fuel + 1, a, bs =>
    if bs.isEmpty then []
    else
      let n := Nat.min bs.length (ceilDiv (32 - a % 32) g * g)
      (a, bs.take n) :: sectorParts g fuel (a + n) (bs.drop n)

/-- The serving memory core of an external address (R24, R308). -/
def State.serving (s : State) (va : Nat) : CoreId := s.dev.part.memCore (va / 4096 % 128)

/-- A later stream byte of this walk, from byte `k` on, begins a part that memory core `c` serves. -/
def State.servedLater (s : State) (w : Walk) (base : Nat) (k : Nat) (c : CoreId) : Bool :=
  let b := w.view.box
  let g := if bxRed b = 0 then 1 else (bxTy b).size
  (List.range (bxBytes b - k)).any fun t => (k + t) % g = 0 && s.serving (base + placeOf b (k + t)).toNat = c

/-- The storer parts of one flit; the last of all for its memory core is marked (R308, R325). -/
def sendParts (h : CopyHdr) (src : CoreId) (more : CoreId → Bool) : List (Nat × List Byte) → State → State
  | [], s => s
  | (a, bs) :: r, s =>
    let dst := s.serving a
    let last := !more dst && r.all fun p => s.serving p.1 ≠ dst
    sendParts h src more r (s.sendAs src dst .data (.store h a bs last))

/-- Send stream bytes from byte `sent` on, already read, as from core `src`. -/
def State.emit (s : State) (w : Walk) (src : CoreId) (bytes : List Byte) : State :=
  let sent := w.sent + bytes.length
  let s := s.mapC fun c => { c with eng := { c.eng with lastSlot := w.slot } }
  match w.dst with
  | .ext base =>
    let at_ := ((base : Int) + placeOf w.view.box w.sent).toNat
    let g := if bxRed w.view.box = 0 then 1 else (bxTy w.view.box).size
    let parts := sectorParts g (bytes.length + 1) at_ bytes
    (sendParts (w.hdr s.core.id (.reduce 0) []) src (s.servedLater w base sent) parts s).setWalk { w with sent := sent }
  | _ => match s.route w with
    | none => s
    | some (dst, h) => (s.sendAs src dst .data (.flit h w.sent bytes)).setWalk { w with sent := sent }

/-- Walks of this core into its CB entry `h`, oldest first. -/
def Core.cbWalks (c : Core) (h : BitVec 4) : List Walk := c.eng.walks.filter fun w => w.dst = .cb h

/-- A destination CB: at home it needs the free slots; through a link it asks the home for them once (R212, R163). Copies of
one core into one entry take their slots one after the other, each behind the advance of the one before, and behind earlier vector
commands that fill the same CB (R163). The request charges no firing (R327). -/
def State.needSlots (s : State) (w : Walk) (h : BitVec 4) : State :=
  if ((s.core.cbWalks h).head?.map Walk.num) ≠ some w.num
      || s.core.eng.vq.any (fun k => decide (k.ord < w.ord) && (s.core.cbUse k.d).any fun p => p.1 = h.toNat) then s
  else match s.core.cbAt h.toNat with
  | .home rcd _ t f _ _ _ =>
    let n := slotsFor (bxBytes w.view.box) (cbSlot rcd)
    if cbS rcd - f ≥ n then s.setWalk { w with cbSlot := some t } else s
  | .link home handle rcd =>
    if w.cbTok.isSome then s
    else
      let n := slotsFor (bxBytes w.view.box) (cbSlot rcd)
      let tok := s.token
      ((s.useToken).setWalk { w with cbTok := some tok }).send home .req
        (.cb tok w.agent handle (.free n) none none)
  | .empty => s.failWalk w 2 0#64

/-- The sectors that the next flit of a mesh source adds to those read, at their physical places. -/
def Walk.newSectors (w : Walk) (c : Core) (n : Nat) : List Nat × List (Nat × Nat) :=
  let ks := (w.view.sectorKeys w.sent n).filter fun k => !w.secs.any fun e => e.1 = k
  (ks, keySectors (ks.map fun k => c.phys' (32 * k)))

/-- The next flit waits for the commit of a remote store that the issuing firing made before the copy (R243, Table 12.4; log
69). -/
def Walk.behindOwn (w : Walk) (c : Core) (n : Nat) : Bool :=
  (w.newSectors c n).2.any fun p => c.scrim.any fun e =>
    e.bank = p.1 && e.wr.getLsbD p.2 && w.agent.follows e.agent && e.agent.id ≠ c.id

/-- A core that a move has frozen sends on only what a PEND of its own windows counts (R336). -/
def Core.maySend (c : Core) (w : Walk) : Bool :=
  !c.moving.freezes || c.eng.landings.any fun l => l.issuer = c.id && l.walk = w.num && l.win.isSome

/-- The walk has a flit or a pull that it can send now. -/
def State.canSend (s : State) (w : Walk) : Bool :=
  let b := w.view.box
  let granted := match w.dst, w.cbSlot with | .cb _, none => false | _, _ => true
  w.active && !w.failing && w.err.isNone && s.core.maySend w && granted && decide (w.sent < bxBytes b) &&
    !(bxMesh b && match s.coreAt (ptrCore (bxSrc b)) with
      | some c => w.behindOwn c (flitLen b w.sent)
      | none => false)

/-- The slot whose walk sends next: round-robin in slot order among the walks that can (R303). -/
def State.slotTurn (s : State) : Option Nat :=
  ((List.range 16).map fun k => (s.core.eng.lastSlot + 1 + k) % 16).find? fun k => (s.core.walkAt k).any s.canSend

/-- One flit from a core's own buffers: sectors not yet read are read whole, with a notice for each that meets a foreign open
write (R215). A sector with an uncorrectable error fails the copy with code 1, and is a machine check of its core (R283); a shadow
range is refused (R218). -/
def State.flitFrom (s : State) (w : Walk) (c : Core) : State :=
  let n := flitLen w.view.box w.sent
  let (ks, secs) := w.newSectors c n
  let at_ (k : Nat) : Word := sectorPtr s.dev.part c.id (32 * k)
  match ks.find? (fun k => c.inShadow (32 * k) 32), ks.find? (fun k => c.badSecs.contains (c.phys' (32 * k) / 32)) with
    | some k, _ => s.failWalk w 2 (at_ k)
    | none, some k => (s.onCore c.id fun c => { c with checkDue := true }).failWalk w 1 (at_ k)
    | none, none =>
      let s := noticeReads c.id w.pc w.lhnd w.tag.toNat (c.openWrites w.agent secs) s
      let w := { w with secs := ks.foldl (fun t k => tset [] t k (c.readBytes (32 * k) 32)) w.secs }
      s.emit w c.id (w.view.fromSectors w.secs w.sent n)

/-- The engine sends the next flit of an active walk, or the next pull of an external source (R303, R312). Errors and requests
for slots take no turn. -/
def State.flitSend (s : State) (slot : Nat) : State :=
  match s.core.walkAt slot with
  | none => s
  | some w =>
    let b := w.view.box
    if w.failing || !s.core.maySend w then s
    else match w.err with
      | some (code, addr) => s.failWalk w code addr
      | none =>
        match w.dst, w.cbSlot with
        | .cb h, none => s.needSlots w h
        | _, _ =>
          if s.slotTurn ≠ some slot then s
          else
            let pull (dst : CoreId) (run : Nat) : State := match s.route w with
              | some (to_, h) => ((s.send dst .req (.pull h to_ w.sent run (s.cursor w w.sent))).setWalk
                  { w with sent := w.sent + run }).mapC fun c => { c with eng := { c.eng with lastSlot := slot } }
              | none => s
            if bxMesh b then
              match s.coreAt (ptrCore (bxSrc b)) with
              -- a source on another device: the pull leaves the device (log 10)
              | none => pull (ptrCore (bxSrc b)) (flitLen b w.sent)
              | some c => s.flitFrom w c
            else
              let run := w.view.pageRun (bxBytes b - w.sent) w.sent none
              match w.view.pageOf w.sent run with
              | none => s.emit w s.core.id (w.view.fromSectors [] w.sent (flitLen b w.sent))
              | some page => pull (s.serving (4096 * page)) run

/-! ### The destination side -/

def Core.landing (c : Core) (h : CopyHdr) : Option Landing :=
  c.eng.landings.find? fun l => l.issuer = h.issuer && l.walk = h.walk

/-- Bytes of the flit at the head of a source's flow that are written already (R250). -/
def Landing.part (l : Landing) (src : CoreId) : Nat := ((l.parts.find? fun p => p.1 = src).map Prod.snd).getD 0

def Landing.setPart (l : Landing) (src : CoreId) (n : Nat) : Landing :=
  { l with parts := (if n = 0 then [] else [(src, n)]) ++ l.parts.filter fun p => p.1 ≠ src }

def Core.setLanding (c : Core) (l : Landing) : Core :=
  { c with eng := { c.eng with
    landings := l :: c.eng.landings.filter fun x => !(x.issuer = l.issuer && x.walk = l.walk) } }

def Core.dropLanding (c : Core) (h : CopyHdr) : Core :=
  { c with eng := { c.eng with
    landings := c.eng.landings.filter fun x => !(x.issuer = h.issuer && x.walk = h.walk) } }

/-- How a destination meets the first flit of a copy. -/
inductive Begin where
  | hold
  | refuse (code : Nat)
  | ok (win : Option (BitVec 4))
deriving DecidableEq, Repr

/-- The first sector of a copy reaches its destination (R213, Table 10.4); a counter in a shadow range is refused with it (R218). -/
def Core.beginLanding (c : Core) (h : CopyHdr) : Begin :=
  let b := h.view.box
  let ctrBad := h.perd.any fun k => c.inShadow k 8
  match h.dst with
  | .shadow key => match c.windowFor key b with
    | none => .refuse 2
    | some k =>
      let w := c.win k
      if w.st = .poisoned then .refuse 4 else if ctrBad then .refuse 2 else if w.pend ≥ 255 then .hold else .ok (some k)
  | .reduce key =>
    if ctrBad then .refuse 2
    else if keyBuf key ≠ 1 && decide (keyOff key + bxDataBytes b ≤ bufSize (keyBuf key)) && !c.inShadow key (bxDataBytes b)
    then .ok none else .refuse 2
  | .slots hnd slot => match c.cbAt hnd with
    | .home rcd _ _ _ _ _ _ =>
      if ctrBad || (List.range (slotsFor (bxBytes b) (cbSlot rcd))).any fun j =>
          c.inShadow (cbSlotKey rcd ((slot + j) % cbS rcd)) (cbSlot rcd)
      then .refuse 2 else .ok none
    | .link _ _ _ | .empty => .refuse 2

/-- Visible keys of the stream bytes from `at_` on. -/
def Core.landKeys (c : Core) (h : CopyHdr) (at_ n : Nat) : List Nat :=
  match h.dst with
  | .shadow key | .reduce key => (List.range n).map fun t => ((key : Int) + placeOf h.view.box (at_ + t)).toNat
  | .slots hnd slot => match c.cbAt hnd with
    | .home rcd _ _ _ _ _ _ => (List.range n).map fun t => streamKey rcd slot (at_ + t)
    | .link _ _ _ | .empty => []

/-- One element of a reduction (R209): RNE, flags discarded. -/
def redValue (code : Nat) (t : ETy) (old new : Nat) : Nat :=
  let op : LaneOp := match code with | 4 => .max | 5 => .min | _ => .add
  (lane op t .rne old new 0).1

/-- Bytes after a reduction, element by element. -/
def redBytes (code : Nat) (t : ETy) : Nat → List Byte → List Byte → List Byte
  | 0, _, _ => []
  | fuel + 1, old, new =>
    if new.isEmpty then []
    else natToBytes t.size (redValue code t (bytesToNat (old.take t.size)) (bytesToNat (new.take t.size)))
      ++ redBytes code t fuel (old.drop t.size) (new.drop t.size)

/-- Physical key of a landing byte: the shadow half for a window. -/
def Core.landPhys (c : Core) (l : Landing) (key : Nat) : Nat :=
  match l.win with
  | some k => (c.win k).shadowKey key
  | none => c.phys' key

/-- Format in which the whole of a copy writes a panel in one type; none where its writes there are partial, and for reductions
(R234, R237). -/
def Core.copyWhole (c : Core) (h : CopyHdr) (l : Landing) (p : Nat) : Option Nat :=
  let b := h.view.box
  let within (k n : Nat) : Nat := (((c.landKeys h k n).map (c.landPhys l)).filter fun x => panelOf x = some p).length
  let data := within 0 (bxDataBytes b)
  let scale := within (bxDataBytes b) (bxScaleBytes b)
  match h.dst with
  | .reduce _ => none
  | .shadow _ | .slots _ _ =>
    if data = 512 && scale = 0 then some (fmtCode (bxTy b)) else if data = 0 && scale = 512 then some 0 else none

/-- Bytes per panel after these physical keys. -/
def countPanels (t : Table Nat) : List Nat → Table Nat
  | [] => t
  | k :: ks => countPanels (match panelOf k with
      | some p => tset 0 t p (tget 0 t p + 1)
      | none => t) ks

/-- Panels of a NaN block whose scale byte is stream byte `k` (R236). -/
def Core.nanPanels (c : Core) (h : CopyHdr) (phys : Nat → Nat) (k : Nat) : List Nat :=
  let m := bxQ h.view.box
  let b := k - bxDataBytes h.view.box
  ((c.landKeys h (4 * m * b) (4 * m)).filterMap fun v => panelOf (phys v)).dedup

/-- The entry of a panel that a copy has just written: GENERAL until the last write of a panel written whole, which classifies it
(R234 to R236). -/
def Core.landEntry (c : Core) (h : CopyHdr) (l : Landing) (mem : Memory) (nan : List Nat) (p got : Nat) (e : DirEntry) : DirEntry :=
  match c.copyWhole h l p with
  | none => if nan.contains p then setSpc e else e
  | some f => if got < 512 then general e else classify mem p f (nan.contains p)

/-- Bytes of a flit written at their physical keys, with the directory (R234 to R237). -/
def Core.landWrite (c : Core) (h : CopyHdr) (l : Landing) (at_ : Nat) (bytes : List Byte) : Core × Landing :=
  let b := h.view.box
  let phys := (c.landKeys h at_ bytes.length).map (c.landPhys l)
  let bs := if bxRed b = 0 then bytes else redBytes (bxRed b) (bxTy b) bytes.length (phys.map c.mem.data.get) bytes
  let cells := phys.zip bs
  let data := putCells c.mem.data cells
  let panels := countPanels l.panels phys
  let nan := if at_ < bxDataBytes b then [] else
    ((List.range bytes.length).filter fun t => bytes.getD t 0#8 = 0xFF#8).flatMap fun t =>
      c.nanPanels h (c.landPhys l) (at_ + t)
  let nans := (l.nan ++ nan).dedup
  let part (x : Nat × Byte) : Bool := match panelOf x.1 with
    | some p => (c.copyWhole h l p).isNone
    | none => false
  let dir := dirBytes data c.mem.dir (cells.filter part)
  let now := ((phys.filterMap panelOf) ++ nan).dedup
  let dir := now.foldl (fun d p => tset 0#32 d p (c.landEntry h l data nans p (tget 0 panels p) (tget 0#32 d p))) dir
  -- a reduction reads what it writes over (R282)
  let bad := bxRed b ≠ 0 && phys.any fun k => c.badSecs.contains (k / 32)
  ({ c with
    mem := { c.mem with data := data, dir := dir, stamp := stampKeys c.mem.stamp phys }
    checkDue := c.checkDue || bad }, { l with got := l.got + bytes.length, panels := panels, nan := nans })

/-- A counter of the focused core rises by 1 (R214): a reduce-on-store checked as Table 12.2 says. -/
def State.bumpAt (s : State) (key pc : Nat) (other : Word) : State :=
  let v := BitVec.ofNat 64 (bytesToNat (s.core.readBytes key 8)) + 1#64
  let secs := s.core.sectors key 8
  ((s.readOf key 8).mapC fun c => c.store key (natToBytes 8 v.toNat)).stopHits secs pc other

/-- A window publishes itself when its fill is done and PEND is 0 (Table 10.4, R222); a halted core defers it (R359). The
regions it stops are told of the instruction that armed the fill (R245). -/
def State.settleWin (s : State) (k : BitVec 4) (pc : Nat) : State :=
  let w := s.core.win k
  if w.st = .filling ∧ !w.fill ∧ w.pend = 0 ∧ !w.noPublish ∧ !s.core.phys.halted then
    s.publish k ((w.bound.map Bound.pc).getD pc)
  else s

/-- Is this landing the bound fill or link of its window? -/
def Core.isFill (c : Core) (h : CopyHdr) (k : BitVec 4) : Bool :=
  h.issuer = c.id && c.eng.walks.any fun w => w.num = h.walk && w.win = some k

/-- LAT takes a sample when a link completes in its window (R310). -/
def State.sampleLat (s : State) (h : CopyHdr) (k : BitVec 4) : State :=
  match s.core.chainOf k, s.core.eng.walks.find? (fun w => w.num = h.walk) with
  | some ch, some w => s.mapC fun c => c.setChain { ch with lat := some (smooth ch.lat (cyclesOf (s.core.clock - w.at_))) }
  | _, _ => s

/-- The window side of a completion at the focused core; an error poisons the window (R214, Table 10.4). -/
def State.winDone (s : State) (h : CopyHdr) (k : BitVec 4) (ok : Bool) : State :=
  let fill := s.core.isFill h k
  let s := if fill && ok then s.sampleLat h k else s
  let w := s.core.win k
  let w := { w with pend := w.pend - 1, fill := if fill then false else w.fill }
  if ok then (s.setWin k w).settleWin k h.pc
  else s.setWin k { w with st := .poisoned }

/-- The destination sends its completion to the issuer (R305), with the sender and the path of the packet that it answers (R326). -/
def State.reportCopy (s : State) (src : CoreId) (h : CopyHdr) (path : List Site) (err : Option (Nat × Word)) : State :=
  s.send h.issuer .rep (.copied h.walk h.ctx err (s.trailer path src 16 none 0#16))

/-- Address of a destination, as a notice reports it. -/
def State.dstAddr (s : State) (h : CopyHdr) : Word :=
  let (x, y) := whereXY s.dev.part s.core.id
  match h.dst with
  | .shadow key | .reduce key => mkPtr x y (keyBuf key) (keyOff key)
  | .slots hnd _ => cbHandlePtr s.dev.part s.core.id hnd

/-- Send a flit on to the next lattice core (R306). -/
def State.skimOn (s : State) (h : CopyHdr) (at_ : Nat) (bytes : List Byte) : State :=
  match h.path with
  | [] => s
  | c :: r => s.send c .data (.flit { h with path := r } at_ bytes)

/-- Agent word of a copy (R373). -/
def State.copyAgent (s : State) (h : CopyHdr) : Word := engineWord s.dev.part.memEntry 2 h.issuer

/-- Sectors that a landing's bytes write under the Scrim tables: none in a shadow, which no agent sees (R215). -/
def Core.landSectors (c : Core) (h : CopyHdr) (l : Landing) (at_ n : Nat) : List (Nat × Nat) :=
  if l.win.isSome then [] else keySectors ((c.landKeys h at_ n).map (c.landPhys l))

/-- Landing of the rest of a flit with the landing already begun; none when an engine write or the counter is held behind a
closing entry (Table 12.2). -/
def State.landFlit (s : State) (src : CoreId) (h : CopyHdr) (l : Landing) (at_ : Nat) (bytes : List Byte) : Option State :=
  let at0 := at_
  let at_ := at0 + l.part src
  let rest := bytes.drop (l.part src)
  let final := l.got + rest.length ≥ bxBytes h.view.box
  let secs := s.core.landSectors h l at_ rest.length
  let ctr := if final then h.perd else none
  let ctrSecs := match ctr with | some k => s.core.sectors k 8 | none => []
  if s.heldBack h.agent secs || s.heldBack h.agent ctrSecs then none
  else
    let (c, l) := s.core.landWrite h l at_ rest
    let s := { s with core := c.setLanding (l.setPart src 0) }
    let s := s.stopHits secs h.pc (s.copyAgent h)
    if !final then some (s.skimOn h at0 bytes)
    else
      -- a window defined since may have put the counter in its shadow (R218)
      let err := (ctr.filter fun k => s.core.inShadow k 8).map fun _ => (2, s.dstAddr h)
      let s := match ctr with
        | some k => if err.isSome then s else s.bumpAt k h.pc (s.copyAgent h)
        | none => s
      let s := s.skimOn h at0 bytes
      let s := match l.win, h.dst with
        | some k, _ => s.winDone h k err.isNone
        | none, .slots hnd _ => match s.core.cbAt hnd with
          | .home rcd _ _ _ _ _ _ => s.cbPut hnd (slotsFor (bxBytes h.view.box) (cbSlot rcd))
          | .link _ _ _ | .empty => s
        | none, _ => s
      some ((s.mapC fun c => c.dropLanding h).reportCopy src h l.path err)

/-- The mark of a copy that this destination takes no more of. -/
def deadLanding (h : CopyHdr) : Landing :=
  { issuer := h.issuer, walk := h.walk, win := none, got := 0, parts := [], panels := [], nan := [], dead := true, path := [] }

/-- What a flit finds at its destination: its landing, begun now if it is the first. -/
inductive Found where
  | hold
  | dead
  | refused (code : Nat)
  | ready (l : Landing) (s : State)

def State.findLanding (s : State) (h : CopyHdr) : Found :=
  match s.core.landing h with
  | some l => if l.dead then .dead else .ready l s
  | none =>
    let l : Landing :=
      { deadLanding h with dead := false }
    match s.core.beginLanding h with
    | .hold => .hold
    | .refuse code => .refused code
    | .ok none => .ready l s
    | .ok (some k) =>
      let w := s.core.win k
      .ready { l with win := some k } (s.setWin k { w with pend := w.pend + 1 })

/-- No fill or link of this walk is in flight any more in a window of the focused core. -/
def State.fillRefused (s : State) (h : CopyHdr) : State :=
  match windows.find? fun k => s.core.isFill h k && (s.core.win k).fill with
  | some k => s.setWin k { s.core.win k with fill := false }
  | none => s

/-- A flit arrives at the focused core (R305, R306, R214). A POISONED window refuses its own fill too, which is then no longer in flight
(R226). -/
def State.flitArrive (s : State) (src : CoreId) (path : List Site) (h : CopyHdr) (at_ : Nat) (bytes : List Byte) : Option State :=
  match s.findLanding h with
  | .hold => none
  | .dead => some (s.skimOn h at_ bytes)
  | .refused code =>
    let s := (s.fillRefused h).mapC fun c => c.setLanding (deadLanding h)
    some ((s.skimOn h at_ bytes).reportCopy src h path (some (code, s.dstAddr h)))
  | .ready l s => s.landFlit src h { l with path := path } at_ bytes

/-- One sector's part of a flit that goes on after it is written, and the flit stays at the head of its flow (R250). -/
def State.flitPart (s : State) (src : CoreId) (h : CopyHdr) (at_ : Nat) (bytes : List Byte) : Option State :=
  match s.findLanding h with
  | .ready l s =>
    let done := l.part src
    let rest := bytes.drop done
    let keys := (s.core.landKeys h (at_ + done) rest.length).map (s.core.landPhys l)
    let n := (keys.takeWhile fun k => k / 32 = keys.headD 0 / 32).length
    let secs := s.core.landSectors h l (at_ + done) n
    if rest.length ≤ n || s.heldBack h.agent secs then none
    else
      let (c, l) := s.core.landWrite h l (at_ + done) (rest.take n)
      some ({ s with core := { c.setLanding (l.setPart src (done + n)) with tear := false } }.stopHits secs h.pc (s.copyAgent h))
  | .hold | .dead | .refused _ => none

/-- The news that a copy fails arrives at a destination (R214, R216, R222). -/
def State.failArrive (s : State) (src : CoreId) (path : List Site) (h : CopyHdr) (code : Nat) (addr : Word) : State :=
  match s.core.landing h with
  | some l =>
    if l.dead then s
    else
      let s := match l.win with
        | some k => s.winDone h k false
        | none => s
      (s.mapC fun c => c.setLanding (deadLanding h)).reportCopy src h path (some (code, addr))
  | none =>
    let fillWin := windows.find? fun k => s.core.isFill h k && (s.core.win k).fill
    let s := match fillWin with
      | some k =>
        let w := s.core.win k
        s.setWin k { w with fill := false, st := .poisoned }
      | none => s
    (s.mapC fun c => c.setLanding (deadLanding h)).reportCopy src h path (some (code, addr))

/-! ### Completion at the issuer -/

def Core.setTag (c : Core) (t : BitVec 6) (err : Bool) : Core :=
  { c with tab := { c.tab with
    tags := c.tab.tags ||| (1#64 <<< t.toNat)
    tagerr := if err then c.tab.tagerr ||| (1#64 <<< t.toNat) else c.tab.tagerr } }

/-- The walk has ended: its tag is set, an error is noticed, and its slot is free (R214). -/
def State.endWalk (s : State) (w : Walk) : State :=
  let s := s.mapC fun c => { c.setTag w.tag w.err.isSome with
    eng := { c.eng with walks := c.eng.walks.filter fun x => x.num ≠ w.num } }
  match w.err with
  | some (code, addr) =>
    if w.noNotice then s else s.notice w.lhnd 2 0 w.tag.toNat (some w.pc) addr (BitVec.ofNat 64 code)
  | none => s

/-- Every destination has completed a walk of the focused core (R214): the single counter rises before the tag is set. -/
def State.walkDone (s : State) (w : Walk) : State :=
  let all := w.pending = [] && !w.bumping
  if !all then s.setWalk w
  else match w.ctr with
    | some p =>
      if w.perd || w.err.isSome then s.endWalk w
      else
        let home := ptrCore p
        (s.setWalk { w with bumping := true }).send home .req (.bump w.num (ptrKey p) w.ctx w.pc w.agent)
    | none => s.endWalk w

/-- A completion of a destination or of the counter's home reaches the issuer (R305). -/
def State.copied (s : State) (src : CoreId) (num : Nat) (err : Option (Nat × Word)) : State :=
  match s.core.eng.walks.find? (fun w => w.num = num) with
  | none => s
  | some w =>
    if w.bumping then s.endWalk { w with bumping := false, err := err }
    else
      let w := { w with pending := w.pending.erase src, done := w.done + 1, err := w.err.or err }
      s.walkDone w

/-- Cancel walks of the focused core: each completes with an error and no notice (R216). One whose counter's increment is on its way
completes as it is. -/
def cancelWalks (p : Walk → Bool) : List Walk → State → State
  | [], s => s
  | w :: ws, s =>
    if !p w || w.bumping then cancelWalks p ws s
    else
      let w := { w with active := true, noNotice := true }
      let s := if w.failing then s.setWalk w else s.failWalk w ((w.err.map Prod.fst).getD 0) 0#64
      let s := match s.core.eng.walks.find? (fun x => x.num = w.num) with
        | some x => s.walkDone x
        | none => s
      cancelWalks p ws s

def State.cancelCopies (s : State) (p : Walk → Bool) : State := cancelWalks p s.core.eng.walks s

/-- A queued walk takes a free slot, oldest first (R303). -/
def Engines.activate (e : Engines) : Engines :=
  match freeSlot e.walks, e.walks.find? (fun w => !w.active) with
  | some k, some w => e.setWalk { w with active := true, slot := k }
  | _, _ => e

end Sys2Proof.Machine
end

