-- ==== Sys2Proof/Machine/VecEngine.lean ====
section
/-!
DEFINITION. Sys2Proof/Machine/VecEngine.lean: the vector engine's queue at work (R163, R167, R169, R298 to R300):
footprints and the completion of the command at its head.
-/
namespace Sys2Proof.Machine

/-- Does the form read the destination's old elements (R172, R174)? -/
def readsDst : Instr → Bool
  | .vfma .. | .vsel .. => true
  | _ => false

/-- The records a command reads as sources; a = 0 or b = 0 marks a record the form has not. -/
def VCmd.sources (k : VCmd) : List Shape := [k.a, k.b].filter (· ≠ 0#256)

/-- Slots of CB `h` that queued commands of an earlier order of issue take first, at the tail or at the head. -/
def Core.cbAhead (c : Core) (ord h : Nat) (dst : Bool) : Nat :=
  let uses (k : VCmd) : List (Nat × Nat) := if dst then (c.cbUse k.d).toList else k.sources.filterMap c.cbUse
  (((c.eng.vq.filter fun k => k.ord < ord).flatMap uses).filter fun p => p.1 = h).foldl (fun n p => n + p.2) 0

/-- Spans of a record of the command with this order of issue. -/
def Core.usedSpans (c : Core) (ord : Nat) (dst : Bool) (r : Shape) : List Span :=
  c.shSpansAt r dst (c.cbAhead ord ((shBase r).toNat % 16) dst)

/-- The footprint of a vector command: one span for each record and buffer (R298). -/
def VCmd.reads (c : Core) (k : VCmd) : List Span :=
  k.sources.flatMap (fun r => hull (c.usedSpans k.ord false r)) ++
    (if readsDst k.form then hull (c.usedSpans k.ord true k.d) else [])

def VCmd.writes (c : Core) (k : VCmd) : List Span := hull (c.usedSpans k.ord true k.d)

/-- Visible keys of every byte of a record's elements and scale bytes. -/
def Core.recordKeys (c : Core) (r : Shape) (dst : Bool) : List Nat :=
  match shTy r with
  | .q m => (blockOffsets r).flatMap fun e =>
      (blockCells r m e []).map Prod.fst ++ [scaleKey r e]
  | t => (c.elemKeys r t dst).flatMap fun k => (List.range t.size).map (k + ·)

/-- The sources' slots are filled and the destination's are free (R163). Two sources that name one CB wait for the sum of their
slots, are both read from the head, and each advance it: the model's choice, since R163 speaks of one record (log 71). A command waits
for both before it reads, and advances both at its end, so that one CB as source and destination needs its free slots before its own
get (DESIGN CHOICE, log 71). Copies into the destination's CB that were issued before come first (R163, R212). -/
def Core.cbReady (c : Core) (k : VCmd) : Bool :=
  let gets := k.sources.filterMap c.cbUse
  gets.all (fun p => match c.cbAt p.1 with
    | .home _ _ _ f _ _ _ => decide (((gets.filter fun q => q.1 = p.1).map Prod.snd).foldl (· + ·) 0 ≤ f)
    | .link _ _ _ | .empty => false) &&
  match c.cbUse k.d with
  | none => true
  | some (h, n) => match c.cbAt h with
    | .home rcd _ _ f _ _ _ => decide (n ≤ cbS rcd - f) && !((c.cbWalks (BitVec.ofNat 4 h)).any fun w => decide (w.ord < k.ord))
    | .link _ _ _ | .empty => false

/-- Flags of an engine command reach FSTAT of its firing, running or parked, and the checkpoint that a later region of it
would restore (R72, R167). -/
def Core.raiseFor (c : Core) (serial : Word) (fl : Flags) : Core :=
  let put (f : Firing) : Firing :=
    if f.serial = serial then
      { f with ctl := f.ctl.raise fl, ckpt := { f.ckpt with ctl := f.ckpt.ctl.raise fl } }
    else f
  { c with
    f := if c.busy then put c.f else c.f
    q := { c.q with parked := c.q.parked.map fun p => { p with f := put p.f } } }

/-- A command of the other engine that was issued before and whose footprint meets this one's (R299). -/
def blocks (reads writes : List Span) (otherReads otherWrites : List Span) : Bool :=
  spansMeet otherWrites reads || spansMeet otherWrites writes || spansMeet otherReads writes

/-- Agent word of a vector or matrix command of the focused core (R373). -/
def State.engineAgent (s : State) : Word := engineWord s.dev.part.memEntry 1 s.core.id

/-- Advance the CBs of a command's KIND 1 records (R163). -/
def cbAdvance (gets : List (Nat × Nat)) (put : Option (Nat × Nat)) (s : State) : State :=
  let s := gets.foldl (fun s p => s.cbGet p.1 p.2) s
  match put with
  | some p => s.cbPut p.1 p.2
  | none => s

/-! ### The parts of a command's effect (R167, R239, R250, R316) -/

/-- The physical panel that shows at a visible one. -/
def Core.panelAt (c : Core) (v : Nat) : Option Nat := panelOf (c.phys' (512 * v))

/-- The visible panel lies in a window that was published since the command started. -/
def Core.published (c : Core) (p : Progress) (v : Nat) : Bool :=
  p.pubs.any fun k => decide ((c.win k).key ≤ 512 * v) && decide (512 * v < (c.win k).key + (c.win k).size)

/-- The entry of a panel as a command takes it: that taken with its last sector; GENERAL where a store applied since its first sector
was read, or where it was not read whole when its window was published (R191, R316; log 91). -/
def Core.readEntry (c : Core) (p : Progress) (v : Nat) (e : DirEntry) : DirEntry :=
  match p.entries.find? fun q => q.1 = v with
  | some q => q.2
  | none =>
    let stored := (p.firsts.find? fun q => q.1 = v).any fun (q : Nat × Nat) => ((c.panelAt v).map (tget 0 c.mem.stamp)) ≠ some q.2
    if stored || c.published p v then general e else e

/-- The core as a command has read it: sectors read before stand as they were, with the entries that the command takes (R191). -/
def Core.asRead (c : Core) (p : Progress) : Core :=
  match p.seen, p.pubs with
  | [], [] => c
  | seen, pubs =>
    let cells := seen.flatMap fun q => c.cellsAt (32 * q.1) q.2
    let panels := (seen.map (fun (q : Nat × List Byte) => q.1 / 16) ++ pubs.flatMap fun k =>
      (List.range ((c.win k).size / 512)).map fun j => (c.win k).key / 512 + j).dedup
    { c with mem := { c.mem with
      data := putCells c.mem.data cells
      dir := panels.foldl (fun d v => match c.panelAt v with
        | some q => tset 0#32 d q (c.readEntry p v (tget 0#32 d q))
        | none => d) c.mem.dir } }

/-- A sector has been read, with its bytes; `keys` are what the command reads. The panel's entry is taken with its last sector
(R191). -/
def Core.sectorRead (c : Core) (p : Progress) (k : Nat) (keys : Core → List Nat) : Progress :=
  let v := k / 16
  let p := { p with
    seen := tset [] p.seen k (c.readBytes (32 * k) 32)
    firsts := if p.firsts.any (fun q => q.1 = v) then p.firsts
      else match c.panelAt v with
        | some q => p.firsts ++ [(v, tget 0 c.mem.stamp q)]
        | none => p.firsts }
  let more := (keys (c.asRead p)).any fun j => j / 512 = v && !p.seen.any fun e => e.1 = j / 32
  match more, c.panelAt v with
  | false, some q => { p with entries := p.entries ++ [(v, c.readEntry p v (tget 0#32 c.mem.dir q))] }
  | _, _ => p

/-- Sectors of these visible keys that a command has not read yet, by key over 32. -/
def Progress.unread (p : Progress) (keys : List Nat) : List Nat :=
  ((keys.map (· / 32)).dedup).filter fun k => !p.seen.any fun e => e.1 = k

/-- Reads of sectors by a command of this agent: a notice for each that meets a foreign open write (R167). -/
def State.readSectors (s : State) (pc : Nat) (lhnd : Word) (a : Agent) (ks : List Nat) : State :=
  noticeReads s.core.id pc lhnd 0 (s.core.openWrites a (keySectors (ks.map fun k => s.core.phys' (32 * k))))
    (ks.foldl (fun s k => s.readOf (32 * k) 32) s)

/-- What is still to be written where it lands now: in a window that was published amid the writes, what went to the old half is no
part of the panel any more (R239). -/
def Core.writesNow (c : Core) (p : Progress) (w : EngineWrites) : EngineWrites :=
  let still (q : Nat × Byte) : Bool := !c.published p (q.1 / 512) || p.left.contains (q.1 / 32)
  ({ w with cells := w.cells.filter still, scales := w.scales.filter still } : EngineWrites).atPhys c

/-- What a command writes applies, all that is left or one sector of it; open regions that it meets are stopped. None while a
write is held (R167, Table 12.2). -/
def State.engineWrite (s : State) (p : Progress) (w : EngineWrites) (pc : Nat) (a : Agent) (other : Word) : Option (State × Progress) :=
  let (now, left) : List Nat × List Nat := if s.core.tear then (p.left.take 1, p.left.drop 1) else (p.left, [])
  let phys (k : Nat) : Nat := s.core.phys' (32 * k) / 32
  let secs := keySectors (now.map fun k => 32 * phys k)
  if s.heldBack a secs then none
  else
    let one := if s.core.tear then now.head?.map phys else none
    let s := s.mapC fun c => { c with mem := c.mem.engineWrite (c.writesNow p w) one (left.map phys), tear := false }
    some (s.stopHits secs pc other, { p with left := left })

/-- The effect of a command goes on: its reads, then its writes, in one step, or one sector of either when the step is torn. -/
def State.engineStep (s : State) (p : Progress) (pc : Nat) (lhnd : Word) (a : Agent) (other : Word)
    (keys : Core → List Nat) (compute : Core → EngineWrites) : Option (State × Progress) :=
  match p.out with
  | some w => s.engineWrite p w pc a other
  | none =>
    let ks := p.unread (keys (s.core.asRead p))
    match (if s.core.tear then ks else []) with
    | k :: _ =>
      let t := (s.readSectors pc lhnd a [k]).mapC fun c => { c with tear := false }
      some (t, s.core.sectorRead p k keys)
    | [] =>
      let w := compute (s.core.asRead p)
      (s.readSectors pc lhnd a ks).engineWrite { p with out := some w, left := w.sectors, pubs := [] } w pc a other

/-- Nothing of the command is left to read or to write. -/
def Progress.ended (p : Progress) : Bool := p.out.isSome && p.left.isEmpty

/-! ### Vector commands -/

/-- A command of the core whose firing and region these are. -/
def Core.commandAgent (c : Core) (serial : Word) (gen : BitVec 8) : Agent := ⟨c.id, serial.setWidth 16, gen⟩

/-- What a vector command writes, by visible keys. -/
def Core.vecWrites (k : VCmd) (c : Core) : EngineWrites :=
  let r := c.vecResult k
  { fmt := fmtCode (shTy k.d)
    cells := r.cells
    scales := r.scales
    nan := (r.nan.filterMap panelOf).dedup
    ident := r.ident.filterMap fun p => (panelOf p.1).map fun i => (i, p.2)
    flags := r.flags
    elided := false }

/-- Visible keys of the bytes that a vector command reads. -/
def VCmd.keys (k : VCmd) (c : Core) : List Nat :=
  k.sources.flatMap (fun x => c.recordKeys x false) ++ (if readsDst k.form then c.recordKeys k.d true else [])

/-- The effect of a vector command goes on; once it has ended, CBs advance and its flags reach FSTAT (R163, R167, R169). None
while a write is held behind a closing entry or a CB is not ready. -/
def State.vecEffect (s : State) (k : VCmd) : Option (State × Progress) :=
  if k.prog.out.isNone && !s.core.cbReady k then none
  else
    (s.engineStep k.prog k.pc k.lhnd (s.core.commandAgent k.serial k.gen) s.engineAgent k.keys (Core.vecWrites k)).map fun r =>
      let (s, p) := r
      if !p.ended then (s, p)
      else
        let s := cbAdvance (k.sources.filterMap s.core.cbUse) (s.core.cbUse k.d) s
        (s.mapC fun c => c.raiseFor k.serial ((p.out.map EngineWrites.flags).getD 0#6), p)

end Sys2Proof.Machine
end

