-- ==== Sys2Proof/Machine/MatEngine.lean ====
section
/-!
DEFINITION. Sys2Proof/Machine/MatEngine.lean: the matrix engine (R183 to R201, R301, R302): capabilities, latches and
their summaries, matrix steps, recurrences, and the completion of commands.
-/
namespace Sys2Proof.Machine

/-! ### Capabilities (R154) -/

structure SipState where
  v0 : Word
  v1 : Word
  v2 : Word
  v3 : Word

def sipRound (s : SipState) : SipState :=
  let v0 := s.v0 + s.v1
  let v1 := s.v1.rotateLeft 13 ^^^ v0
  let v0 := v0.rotateLeft 32
  let v2 := s.v2 + s.v3
  let v3 := s.v3.rotateLeft 16 ^^^ v2
  let v0 := v0 + v3
  let v3 := v3.rotateLeft 21 ^^^ v0
  let v2 := v2 + v1
  let v1 := v1.rotateLeft 17 ^^^ v2
  let v2 := v2.rotateLeft 32
  ⟨v0, v1, v2, v3⟩

/-- Absorb one message word. -/
def sipWord (s : SipState) (m : Word) : SipState :=
  let s := sipRound (sipRound { s with v3 := s.v3 ^^^ m })
  { s with v0 := s.v0 ^^^ m }

/-- SipHash-2-4 of one 8-byte message under a 128-bit key. -/
def sipHash (key : BitVec 128) (m : Word) : Word :=
  let k0 : Word := key.extractLsb' 0 64
  let k1 : Word := key.extractLsb' 64 64
  let s : SipState := ⟨k0 ^^^ 0x736f6d6570736575#64, k1 ^^^ 0x646f72616e646f6d#64,
    k0 ^^^ 0x6c7967656e657261#64, k1 ^^^ 0x7465646279746573#64⟩
  let s := sipWord (sipWord s m) 0x0800000000000000#64
  let s := { s with v2 := s.v2 ^^^ 0xFF#64 }
  let s := sipRound (sipRound (sipRound (sipRound s)))
  s.v0 ^^^ s.v1 ^^^ s.v2 ^^^ s.v3

/-- CHK of a capability (R154): the bytes SER, RIGHTS, X, Y and three zeros. -/
def capChk (key : BitVec 128) (ser rights x y : Nat) : Nat :=
  (sipHash key (BitVec.ofNat 64 (ser + rights * 2 ^ 16 + x * 2 ^ 24 + y * 2 ^ 32))).toNat % 256

def capSer (c : BitVec 32) : Nat := field c 16 16
def capRights (c : BitVec 32) : Nat := field c 8 8
def capChkOf (c : BitVec 32) : Nat := field c 0 8

/-- A capability word. -/
def capWord (key : BitVec 128) (ser rights x y : Nat) : Nat := ser * 2 ^ 16 + rights * 2 ^ 8 + capChk key ser rights x y

/-- Rights bit of a remote operation. -/
def MOp.bit : MOp → Nat
  | .mma => 0
  | .mmaz => 1
  | .mrec => 2

/-! ### Configuration and shadows -/

def mxNoElide (w : Word) : Bool := bit w 0
def mxRacc (w : Word) : Bool := bit w 1
def mxCstr (w : Word) : Nat := field w 8 4

/-! ### Latches -/

/-- Exact elements of an A row: two blocks of 32 (R190). -/
def ARow.nums (r : ARow) : List FNum :=
  (r.mant.take 32).map (qNum · r.e0.toNat) ++ (r.mant.drop 32).map (qNum · r.e1.toNat)

/-- Exact elements of row k of the B latch: row k has scale bytes 2k and 2k + 1. -/
def BLatch.rowNums (b : BLatch) (k : Nat) : List FNum :=
  let row := b.rows.getD k []
  (row.take 32).map (qNum · (b.scales.getD (2 * k) 0#8).toNat)
    ++ (row.drop 32).map (qNum · (b.scales.getD (2 * k + 1) 0#8).toNat)

/-- Column n of rows of exact elements. -/
def columnOf (rows : List (List FNum)) (n : Nat) : List FNum := rows.map fun r => r.getD n (.fin false 0 0)

/-! ### Summaries (R191) -/

/-- Directory entries of the panels that `n` bytes of visible keys from `key` on lie in. -/
def Core.panelsAt (c : Core) (key n : Nat) : List Nat :=
  ((List.range n).filterMap fun j => panelOf (c.phys' (key + j))).dedup

def Core.entry (c : Core) (p : Nat) : DirEntry := tget 0#32 c.mem.dir p

/-- A CONST entry as the matrix issue stage reads it: only in the latch's own format (R233). -/
def constOf (fmt : Nat) (e : DirEntry) : Option Int :=
  if dirClass e = classConst ∧ dirFmt e = fmt then some (signedOf 8 (dirValue e)) else none

/-- An IDENT entry: VALUE, whose low byte is the mantissa, and phase. -/
def identOf (fmt : Nat) (e : DirEntry) : Option (Nat × Nat) :=
  if dirClass e = classIdent ∧ dirFmt e = fmt then some (dirValue e, dirPhase e) else none

/-- The one value that all of a list are, if it is not empty. -/
def allSame {α : Type} [DecidableEq α] : List (Option α) → Option α
  | [] => none
  | x :: xs => if xs.all (fun y => y = x) then x else none

/-- Start of a panel inside its buffer, as an offset. -/
def panelOff (p : Nat) : Int := if p < 192 then (p * 512 : Nat) else ((p - 192) * 512 : Nat)

/-- VALUE and tile base that the panels of a row imply, if they are all IDENT with the same of both (R191). -/
def Core.rowIdent (c : Core) (fmt : Nat) (panels : List Nat) : Option (Nat × Int) :=
  allSame (panels.map fun p => (identOf fmt (c.entry p)).map fun q => (q.1, panelOff p - 512 * q.2))

/-- The summary of an A latch whose rows were gathered from these row keys (visible), none for a zero row. -/
def Core.aSummary (c : Core) (m : Nat) (rows : List ARow) (keys : List (Option Nat)) : Summary :=
  let fmt := 7 + m
  let live := (rows.zip keys).filterMap fun p => p.2.map fun k => (p.1, k)
  let panels := live.map fun p => c.panelsAt p.2 (8 * m)
  let scales := live.flatMap fun p => [p.1.e0, p.1.e1]
  let uni := allSame (scales.map some)
  let idents := live.map fun p => (c.rowIdent fmt (c.panelsAt p.2 (8 * m))).map fun q =>
    (q.1, q.2, (keyOff (c.phys' p.2) : Int) - q.2)
  let zeroRows := keys.any (· = none)
  { spec := panels.any (fun ps => ps.any fun p => dirSpc (c.entry p)) || scales.any (· = 0xFF#8)
    uni := uni
    zero := panels.all fun ps => ps.all fun p => dirClass (c.entry p) = classZero
    const := if zeroRows || uni.isNone then none
      else match allSame (panels.flatten.map fun p => constOf fmt (c.entry p)) with
        | some k => if k = 0 then none else some k
        | none => none
    ident := if zeroRows || uni.isNone then none
      else match allSame (idents.map fun q => q.map fun r => (r.1, r.2.1)) with
        | none => none
        | some (k, _) =>
          let offs : List Int := idents.filterMap fun q => q.map fun r => r.2.2
          if offs.all (fun o => decide (0 ≤ o) && decide (o < 512 * m) && decide (o % (8 * m) = 0))
          then some (signedOf 8 k, offs.map fun (o : Int) => (o / (8 * (m : Int))).toNat) else none }

def Core.bSummary (c : Core) (m key : Nat) (scales : List (BitVec 8)) : Summary :=
  let panels := c.panelsAt key (512 * m)
  { Summary.empty with
    spec := panels.any (fun p => dirSpc (c.entry p)) || scales.any (· = 0xFF#8)
    zero := panels.all fun p => dirClass (c.entry p) = classZero }

/-- The path of Table 9.4 is an elided one. -/
def elided (noElide : Bool) (a b : Summary) : Bool :=
  !noElide && ((a.zero && !b.spec) || (b.zero && !a.spec) || (a.ident.isSome && !b.spec) || (a.const.isSome && !b.spec))

/-! ### Steps over a C region -/

/-- Visible key of output (i, n) of a C region. -/
def cKey (off stride i n : Nat) : Nat := keyOf 2 (off + i * stride + 4 * n)

def cellsOf (k v : Nat) : List (Nat × Byte) := (List.range 4).zip (natToBytes 4 v) |>.map fun p => (k + p.1, p.2)

/-- Outputs of one row: `f` computes an encoding and flags from the old element and the column number. -/
def rowOut (f : Nat → Nat → Nat × Flags) (old : Nat → Nat) (key : Nat → Nat) : Nat → List (Nat × Byte) × Flags
  | 0 => ([], 0#6)
  | n + 1 =>
    let (cells, fl) := rowOut f old key n
    let (v, g) := f (old n) n
    (cells ++ cellsOf (key n) v, fl ||| g)

/-- Outputs of every row of the A latch. -/
def regionOut (c : Core) (off stride : Nat) (f : ARow → Nat → Nat → Nat × Flags) : Nat → List ARow → List (Nat × Byte) × Flags
  | _, [] => ([], 0#6)
  | i, r :: rs =>
    let old n := bytesToNat (c.readBytes (cKey off stride i n) 4)
    let (cells, fl) := rowOut (f r) old (cKey off stride i) 64
    let (more, g) := regionOut c off stride f (i + 1) rs
    (cells ++ more, fl ||| g)

/-! ### Recurrences (R82, R195, R196) -/

/-- A cell value: an f32 encoding, or the exact value of a .qm element. -/
inductive RVal where
  | enc (bits : Nat)
  | num (x : FNum)

def RVal.val : RVal → FNum
  | .enc b => fmtF32.unpack b
  | .num x => x

def RVal.bits : RVal → Nat × Flags
  | .enc b => (b, 0#6)
  | .num x => fmtF32.ofNum .rne x

/-- A .qm element as a cell value; an element of a NaN block is the canonical NaN. -/
def RVal.ofElem (x : FNum) : RVal := if x.isNaN then .enc fmtF32.canonNaN else .num x

def RVal.negate : RVal → RVal
  | .enc b => .enc (b ^^^ 2 ^ 31)
  | .num x => .num x.neg

def FNum.isNeg : FNum → Bool
  | .nan _ => false
  | .inf n => n
  | .fin n _ _ => n

def RVal.absolute : RVal → RVal
  | .enc b => .enc (b % 2 ^ 31)
  | .num x => if x.isNeg then .num x.neg else .num x

/-- max or min of two cell values (R71). -/
def RVal.minMax (wantMax : Bool) (x y : RVal) : RVal × Flags :=
  let fl := signalFlags [x.val, y.val]
  if x.val.isNaN && y.val.isNaN then (.enc fmtF32.canonNaN, fl)
  else if x.val.isNaN then (y, fl)
  else if y.val.isNaN then (x, fl)
  else (if numLtTotal y.val x.val != wantMax then y else x, fl)

def slotOp (sl : BitVec 16) : Nat := field sl 0 4
def slotDst (sl : BitVec 16) : Bool := bit sl 4
def slotX (sl : BitVec 16) : Nat := field sl 5 2
def slotY (sl : BitVec 16) : Nat := field sl 7 2
def slotZ (sl : BitVec 16) : Nat := field sl 9 2
def slotCond (sl : BitVec 16) : Nat := field sl 11 3

/-- An operand: 0 s, 1 a, 2 b, 3 t. -/
def pick (s t a b : RVal) : Nat → RVal
  | 0 => s
  | 1 => a
  | 2 => b
  | _ => t

/-- One slot: new s and t, and flags. -/
def runSlot (sl : BitVec 16) (s t a b : RVal) : (RVal × RVal) × Flags :=
  let x := pick s t a b (slotX sl)
  let y := pick s t a b (slotY sl)
  let z := pick s t a b (slotZ sl)
  let cur := if slotDst sl then t else s
  let round (r : FNum × Flags) : RVal × Flags := let q := finish fmtF32 .rne r 0#6; (.enc q.1, q.2)
  let (r, fl) := match slotOp sl with
    | 0 => round (numAdd .rne x.val y.val)
    | 1 => round (numAdd .rne x.val y.val.neg)
    | 2 => round (numMul x.val y.val)
    | 3 => RVal.minMax true x y
    | 4 => RVal.minMax false x y
    | 5 => (x.negate, 0#6)
    | 6 => (x.absolute, 0#6)
    | 7 => (if condFloat (slotCond sl) (numCompare x.val y.val) then z else cur, signalFlags [x.val, y.val])
    | _ => (cur, 0#6)
  (if slotDst sl then (s, r) else (r, t), fl)

/-- The four slots of a microprogram. -/
def muSlots (m : Word) : List (BitVec 16) := (List.range 4).map fun j => m.extractLsb' (16 * j) 16

def runSlots : List (BitVec 16) → RVal → RVal → RVal → RVal → (RVal × RVal) × Flags
  | [], s, t, _, _ => ((s, t), 0#6)
  | sl :: r, s, t, a, b =>
    let ((s, t), f) := runSlot sl s t a b
    let (q, g) := runSlots r s t a b
    (q, f ||| g)

/-- The recurrence of one output over k = 0 to 63. -/
def recur (m : Word) : List FNum → List FNum → RVal → RVal → RVal × Flags
  | a :: as, b :: bs, s, t =>
    let ((s, t), f) := runSlots (muSlots m) s t (.ofElem a) (.ofElem b)
    let (r, g) := recur m as bs s t
    (r, f ||| g)
  | _, _, s, _ => (s, 0#6)

/-- MREC for one output (R196). -/
def recurOut (m : Word) (a b : List FNum) (c : Nat) : Nat × Flags :=
  let (r, f) := recur m a b (.enc c) (.enc 0)
  let (v, g) := r.bits
  (v, f ||| g)

/-! ### Commands -/

/-- C region of a command as a span of visible keys; none when the A latch is empty. -/
def cSpan (off stride rows : Nat) : List Span :=
  if rows = 0 then [] else [(keyOf 2 off, (rows - 1) * stride + 256)]

/-- The footprint of a matrix command (R298). -/
def MCmd.reads (c : Core) (k : MCmd) : List Span :=
  match k.form with
  | .mbld .. => hull (c.shSpans k.a)
  | .mgat .. => hull (c.shSpans k.a) ++ hull (c.shSpans k.b)
  | .mma .. | .mrec .. => cSpan (ptrOff k.sval) (256 * k.cstr) k.rows
  | _ => []

def MCmd.writes (k : MCmd) : List Span :=
  match k.form with
  | .mma .. | .mmaz .. | .mrec .. => cSpan (ptrOff k.sval) (256 * k.cstr) k.rows
  | _ => []

/-- What the array computes over a C region from an A latch: cells, flags, and whether the step was elided (R192 to R196). A remote
command that is accepted while the MBLD behind BT has not filled the B latch yet finds no operand: it writes nothing, raises no flag and
completes (DESIGN CHOICE, log 90). -/
def Core.arrayRun (c : Core) (op : MOp) (a : ALatch) (off stride : Nat) : List (Nat × Byte) × Flags × Bool :=
  match c.eng.bLatch with
  | none => ([], 0#6, false)
  | some b =>
    let rows := (List.range 64).map b.rowNums
    let f (r : ARow) (old n : Nat) : Nat × Flags := match op with
      | .mma => matrixStep old r.nums (columnOf rows n)
      | .mmaz => matrixStep 0 r.nums (columnOf rows n)
      | .mrec => recurOut c.eng.mupr r.nums (columnOf rows n) old
    let (cells, fl) := regionOut c off stride f 0 a.rows
    (cells, fl, op ≠ .mrec && elided (mxNoElide c.eng.mxcfg) a.sum b.sum)

/-- What the array writes over a C region, which has no directory. -/
def Core.arrayWrites (op : MOp) (a : ALatch) (off stride : Nat) (c : Core) : EngineWrites :=
  let (cells, fl, el) := c.arrayRun op a off stride
  { fmt := 0, cells := cells, scales := [], nan := [], ident := [], flags := fl, elided := el }

/-- Visible keys of the C words that a step reads; MMAZ reads none (R192). -/
def arrayKeys (op : MOp) (rows off stride : Nat) : List Nat :=
  if op = .mmaz then []
  else (List.range rows).flatMap fun i => (List.range 64).map fun n => keyOf 2 (off + i * stride + 4 * n)

/-- The effect of a step over a C region goes on, with ELC once it has ended (R187, R194). -/
def State.arrayEffect (s : State) (p : Progress) (op : MOp) (a : ALatch) (off stride pc : Nat) (lhnd other : Word) (ag : Agent) :
    Option (State × Progress) :=
  (s.engineStep p pc lhnd ag other (fun _ => arrayKeys op a.rows.length off stride) (Core.arrayWrites op a off stride)).map fun r =>
    let elided := r.2.ended && (r.2.out.map EngineWrites.elided).getD false
    (r.1.mapC fun c => { c with eng := { c.eng with elc := if elided then c.eng.elc + 1#16 else c.eng.elc } }, r.2)

/-- MBLD reads its tile (R189). -/
def Core.loadB (c : Core) (r : Shape) (m : Nat) : BLatch :=
  let rows := (List.range 64).map fun k => (List.range 64).map fun n => c.mantissa r m ((64 * k + n : Nat) : Int)
  let scales := (List.range 128).map fun j => BitVec.ofNat 8 (c.scaleAt r ((32 * j : Nat) : Int))
  { rows := rows, scales := scales, sum := c.bSummary m (keyOf (ptrBuf (shBase r)) (ptrOff (shBase r))) scales }

/-- MGAT gathers its rows (R190). -/
def Core.gatherA (c : Core) (r ix : Shape) (m : Nat) : ALatch :=
  let picks := c.elemBits ix (shTy ix) false
  let e (k : Nat) (j : Nat) : Int := (k : Int) + (j : Int) * shS r 1
  let row (j : Nat) : ARow × Option Nat :=
    if j < shE r 1 then
      ({ mant := (List.range 64).map fun k => c.mantissa r m (e k j)
         e0 := BitVec.ofNat 8 (c.scaleAt r (e 0 j))
         e1 := BitVec.ofNat 8 (c.scaleAt r (e 32 j))
         src := some j },
       some (keyOf (ptrBuf (shBase r)) ((ptrOff (shBase r) : Int) + e 0 j * m / 8).toNat))
    else ({ mant := List.replicate 64 0, e0 := 0#8, e1 := 0#8, src := none }, none)
  let got := picks.map row
  { rows := got.map Prod.fst, sum := c.aSummary m (got.map Prod.fst) (got.map Prod.snd) }

/-- Visible keys of the rows that MGAT gathers, behind its index record (R190): rows past E1 are not read. -/
def Core.gatherKeys (c : Core) (r ix : Shape) (m : Nat) : List Nat :=
  let e (k j : Nat) : Int := (k : Int) + (j : Int) * shS r 1
  c.recordKeys ix false ++ ((c.elemBits ix (shTy ix) false).filter fun j => j < shE r 1).flatMap fun j =>
    let first := keyOf (ptrBuf (shBase r)) ((ptrOff (shBase r) : Int) + e 0 j * m / 8).toNat
    (List.range (8 * m)).map (first + ·) ++ [scaleKey r (e 0 j), scaleKey r (e 32 j)]

/-- A command that writes no buffer. -/
def noWrites : EngineWrites := { fmt := 0, cells := [], scales := [], nan := [], ident := [], flags := 0#6, elided := false }

/-- Remote operation of an MCMD's op field. -/
def mopOf (o : BitVec 5) : MOp := match o.toNat with | 0 => .mma | 1 => .mmaz | _ => .mrec

/-- The A latch travels to the target of an MCMD (R199). -/
def State.sendMcmd (s : State) (k : MCmd) (o : BitVec 5) : State :=
  let r : RCmd :=
    { src := s.core.id
      op := mopOf o
      cap := k.sval2.setWidth 32
      tag := BitVec.ofNat 6 (field k.sval2 32 6)
      off := ptrOff k.sval
      at_ := k.at_
      a := s.core.eng.aLatch
      pc := k.pc
      target := k.sval
      ctx := s.core.ctx
      lhnd := k.lhnd
      started := false
      prog := Progress.fresh
      agent := s.core.commandAgent k.serial k.gen
      path := [] }
  (s.send (ptrCore k.sval) .data (.mcmd r)).mapC fun c => { c with eng := { c.eng with outstanding := c.eng.outstanding + 1 } }

/-- A latch load goes on: its reads, and then what the latch takes from the core as it was read (R191). -/
def State.loadEffect (s : State) (k : MCmd) (keys : Core → List Nat) (take : Core → Core → Core) : Option (State × Progress) :=
  (s.engineStep k.prog k.pc k.lhnd (s.core.commandAgent k.serial k.gen) s.engineAgent keys (fun _ => noWrites)).map fun r =>
    if r.2.ended then (r.1.mapC (take (s.core.asRead k.prog)), r.2) else r

/-- The effect of a local matrix command goes on; none while a write is held (R186 to R199). -/
def State.matEffect (s : State) (k : MCmd) : Option (State × Progress) :=
  let done (s : State) : Option (State × Progress) := some (s, { k.prog with out := some noWrites, left := [] })
  let local_ (op : MOp) : Option (State × Progress) :=
    (s.arrayEffect k.prog op s.core.eng.aLatch (ptrOff k.sval) (256 * k.cstr) k.pc k.lhnd s.engineAgent
      (s.core.commandAgent k.serial k.gen)).map fun r =>
      if r.2.ended then (r.1.mapC fun c => c.raiseFor k.serial ((r.2.out.map EngineWrites.flags).getD 0#6), r.2) else r
  match k.form with
  | .mcfg .. => done (s.mapC fun c => { c with eng := { c.eng with
      mxcfg := k.sval &&& ~~~4#64
      rflags := if bit k.sval 2 then 0#6 else c.eng.rflags } })
  | .mbld t .. => s.loadEffect k (fun c => c.recordKeys k.a false) fun r c =>
      { c with eng := { c.eng with bLatch := some (r.loadB k.a (t.toNat % 16)) } }
  | .mgat t .. => s.loadEffect k (fun c => c.gatherKeys k.a k.b (t.toNat % 16)) fun r c =>
      { c with eng := { c.eng with aLatch := r.gatherA k.a k.b (t.toNat % 16) } }
  | .mma .. => local_ .mma
  | .mmaz .. => local_ .mmaz
  | .mrec .. => local_ .mrec
  | .mupl .. => done (s.mapC fun c => { c with eng := { c.eng with mupr := k.sval } })
  | .mcmd o .. => done (s.sendMcmd k o)
  | _ => done s

/-- The target's acceptance, when the engine takes the command (R200); a C region in a shadow range is refused (R218). -/
def State.accepts (s : State) (r : RCmd) : Bool :=
  let c := s.core
  let ser := capSer r.cap
  let rights := capRights r.cap
  let (x, y) := s.xy
  c.cohort.isSome && mxRacc c.eng.mxcfg && c.eng.bt ≠ 0
    && capChkOf r.cap = capChk s.dev.part.capkey ser rights x y
    && rights.testBit r.op.bit
    && match c.tab.grants.find? (fun g => g.ser.toNat = ser) with
      | some g => rights &&& (255 - g.rights.toNat) = 0 && decide (g.off ≤ r.off)
          && decide (r.off + 256 * r.a.rows.length ≤ g.off + g.len)
          && !c.inShadow (keyOf 2 r.off) (256 * r.a.rows.length)
      | none => false

/-- The completion of a remote command leaves for its requester (R201). -/
def State.mcmdAnswer (s : State) (r : RCmd) (fl : Flags) (err : Bool) : State :=
  s.send r.src .rep (.mcmdDone { r with a := ⟨[], Summary.empty⟩, prog := Progress.fresh } fl err (s.trailer r.path r.src 16 none 0#16))

/-- The effect of an accepted remote command goes on, with its completion at the end (R200, R201). -/
def State.remoteEffect (s : State) (r : RCmd) : Option (State × Progress) :=
  (s.arrayEffect r.prog r.op r.a r.off 256 r.pc r.lhnd (engineWord s.dev.part.memEntry 1 r.src) r.agent).map fun q =>
    if q.2.ended then (q.1.mcmdAnswer r ((q.2.out.map EngineWrites.flags).getD 0#6) false, q.2) else q

/-! ### The queues (R298, R299, R200) -/

/-- The vector command at the head may run: no earlier matrix command meets its footprint (R299). -/
def Core.vecFree (c : Core) (k : VCmd) : Bool :=
  !(c.eng.mq.any fun m => m.ord < k.ord && blocks (k.reads c) (k.writes c) (m.reads c) m.writes)

def Core.matFree (c : Core) (k : MCmd) : Bool :=
  !(c.eng.vq.any fun v => v.ord < k.ord && blocks (k.reads c) k.writes (v.reads c) (v.writes c))

/-- Start the vector command at the head of the queue once interlocks and CBs allow (R163, R298). One that still waits for a CB when
its launch is cancelled ends with it (R163, R166). -/
def State.vecStart (s : State) : State :=
  match s.core.eng.vq with
  | k :: r =>
    if k.prog.out.isNone && !s.core.cbReady k && s.cancelDue then s.mapC fun c => { c with eng := { c.eng with vq := r } }
    else if !k.started && s.core.vecFree k && s.core.cbReady k then
      s.mapC fun c => { c with eng := { c.eng with vq := { k with started := true } :: r } }
    else s
  | [] => s

/-- The vector command that has started goes on, and leaves when it has ended. -/
def State.vecComplete (s : State) : Option State :=
  match s.core.eng.vq with
  | k :: r => if !k.started then none
    else (s.vecEffect k).map fun q => q.1.mapC fun c => { c with eng := { c.eng with
      vq := if q.2.ended then r else { k with prog := q.2 } :: r } }
  | [] => none

/-- A remote command that the engine takes: it starts, or is answered with an error and leaves (R200, R201). -/
def State.remoteStart (s : State) (k : RCmd) (r : List RCmd) : State :=
  if s.accepts k then
    s.mapC fun c => { c with eng := { c.eng with rq := { k with started := true } :: r, remoteTurn := false } }
  else (s.mcmdAnswer k 0#6 true).mapC fun c => { c with eng := { c.eng with rq := r, remoteTurn := false } }

/-- Take the next matrix command, local or remote in turn (R200). -/
def State.matStart (s : State) : State :=
  let e := s.core.eng
  if e.mq.any MCmd.started || e.rq.any RCmd.started then s
  else
    let loc := match e.mq with | k :: _ => s.core.matFree k | [] => false
    let remote := !e.rq.isEmpty
    if remote && (e.remoteTurn || !loc) then
      match e.rq with
      | k :: r => s.remoteStart k r
      | [] => s
    else if loc then
      match e.mq with
      | k :: r => s.mapC fun c => { c with eng := { c.eng with mq := { k with started := true } :: r, remoteTurn := true } }
      | [] => s
    else s

def State.localComplete (s : State) (k : MCmd) (r : List MCmd) : Option State :=
  (s.matEffect k).map fun q => q.1.mapC fun c => { c with eng := { c.eng with
    mq := if q.2.ended then r else { k with prog := q.2 } :: r } }

def State.remoteComplete (s : State) (k : RCmd) (r : List RCmd) : Option State :=
  (s.remoteEffect k).map fun q => q.1.mapC fun c => { c with eng := { c.eng with
    rq := if q.2.ended then r else { k with prog := q.2 } :: r } }

/-- The matrix command that has started goes on, and leaves when it has ended. -/
def State.matComplete (s : State) : Option State :=
  match s.core.eng.mq, s.core.eng.rq with
  | k :: r, rq =>
    if k.started then s.localComplete k r
    else match rq with
      | q :: r => if q.started then s.remoteComplete q r else none
      | [] => none
  | [], q :: r => if q.started then s.remoteComplete q r else none
  | [], [] => none

/-! ### Forcing completion (R28, R299; log 7) -/

/-- One engine step forward: a command of either engine completes, the older of the two heads first; none when neither
can. -/
def State.engineForward (s : State) : Option State :=
  let v := (s.vecStart).vecComplete
  let m := (s.matStart).matComplete
  let vFirst : Bool := match s.core.eng.vq, s.core.eng.mq with
    | a :: _, b :: _ => decide (a.ord < b.ord)
    | _, _ => true
  if vFirst then v.or m else m.or v

/-- Let the engines run while `busy` holds; none when it still holds and neither engine can go on. -/
def settleWhile (busy : Core → Bool) : Nat → State → Option State
  | 0, s => if busy s.core then none else some s
  | n + 1, s => if !busy s.core then some s else match s.engineForward with
    | some t => settleWhile busy n t
    | none => none

/-- An incomplete command writes, or for a store reads, one of these spans. -/
def Core.engineMeets (store : Bool) (spans : List Span) (c : Core) : Bool :=
  (c.eng.vq.any fun k => spansMeet (k.writes c) spans || (store && spansMeet (k.reads c) spans))
    || (c.eng.mq.any fun k => spansMeet k.writes spans || (store && spansMeet (k.reads c) spans))

/-- The commands in a queue beside the one at work (R28, R298). -/
def waitingCmds (q : List MCmd) : Nat := (q.filter fun k => !k.started).length

/-- The engines have finished with these spans, or the access waits (R299). -/
def settled (s : State) (store : Bool) (spans : List Span) (k : State → Out) : Out :=
  match settleWhile (Core.engineMeets store spans) 16 s with
  | some s => k s
  | none => .next s.poll

/-- A vector command or a copy of this core has still to advance the CB of a handle (R163, R212). -/
def Core.cbPending (h : Nat) (c : Core) : Bool :=
  (c.eng.vq.any fun k => (k.sources ++ [k.d]).any fun r => (c.cbUse r).any fun p => p.1 = h)
    || !(c.cbWalks (BitVec.ofNat 4 h)).isEmpty

/-- A CB instruction waits until the advances of earlier commands on its handle are done (R163). -/
def cbSettled (s : State) (h : Nat) (k : State → Out) : Out :=
  match settleWhile (Core.cbPending h) 16 s with
  | some s => k s
  | none => .next s.poll

end Sys2Proof.Machine
end

