-- ==== Sys2Proof/Machine/Paging.lean ====
section
/-!
DEFINITION. Sys2Proof/Machine/Paging.lean: translation on memory cores (R289 to R293): page walks, the TLBs, and faults to
pager cores.
-/
namespace Sys2Proof.Machine

/-! ### Page-table entries (Table 15.7) -/

def pteV (e : Word) : Bool := bit e 0
def pteR (e : Word) : Bool := bit e 1
def pteW (e : Word) : Bool := bit e 2
def pteLeaf (e : Word) : Bool := bit e 3
def pteKres (e : Word) : Bool := bit e 4
def pteD (e : Word) : Bool := bit e 6
def pteHost (e : Word) : Bool := bit e 7
def pteFrame (e : Word) : Nat := field e 12 40
def pteReserved (e : Word) : Bool := field e 8 4 ≠ 0 || field e 52 8 ≠ 0

/-- log2 of the bytes that an entry of a level maps (R289). -/
def levelShift (level : Nat) : Nat := 12 + 9 * level

/-- A physical range meets a locked range (R291). -/
def lockedMeets (locked : List (Nat × Nat)) (a n : Nat) : Bool := locked.any fun r => rangesMeet a n r.1 r.2

/-- The outcomes of a walk (R290): the leaf with its level and its own address, or none. -/
inductive WalkRes where
  | leaf (pte : Word) (level at_ : Nat)
  | absent
  | denied
deriving DecidableEq, Repr

/-- The leaf permits the access (R290, R291): a kernel-reserved frame only for a pager core or the control cluster, whose walks
`kernel` marks; a locked range only through a kernel-reserved leaf. -/
def leafPermits (locked : List (Nat × Nat)) (e : Word) (level : Nat) (write kernel : Bool) : Bool :=
  level ≤ 2 && pteFrame e % 2 ^ (9 * level) = 0 && (if write then pteW e else pteR e) && (!pteKres e || kernel)
    && (pteHost e || pteKres e || !lockedMeets locked (4096 * pteFrame e) (2 ^ levelShift level))

/-- The walk from a table of this level on (R289). The channel refuses the walker a table in a locked range (R291). -/
def walkFrom (ext : Memory) (locked : List (Nat × Nat)) (va : Nat) (write kernel : Bool) : Nat → Nat → WalkRes
  | level, frame =>
    let at_ := 4096 * frame + 8 * (va / 2 ^ levelShift level % 512)
    let e := BitVec.ofNat 64 (bytesToNat (ext.read at_ 8))
    if !kernel && lockedMeets locked at_ 8 then .denied
    else if !pteV e then .absent
    else if pteReserved e then .denied
    else if pteLeaf e then if leafPermits locked e level write kernel then .leaf e level at_ else .denied
    else match level with
      | 0 => .denied
      | l + 1 => walkFrom ext locked va write kernel l (pteFrame e)

/-! ### The TLBs (R292) -/

def TlbEntry.covers (e : TlbEntry) (asid : BitVec 8) (va : Nat) : Bool := e.asid = asid && e.vpn = va / 2 ^ levelShift e.level

/-- Add an entry to a TLB of `n` entries, newest first; the oldest goes. -/
def tlbAdd (n : Nat) (t : List TlbEntry) (e : TlbEntry) : List TlbEntry :=
  (e :: t.filter fun x => !(x.asid = e.asid && x.level = e.level && x.vpn = e.vpn)).take n

/-- Set of the last-level TLB that an entry lies in. -/
def TlbEntry.set (e : TlbEntry) : Nat := e.vpn % 1024

/-- Add an entry to the last-level TLB: 1,024 sets of 8 ways, at most 2 of them for 1 GiB entries; the oldest goes. -/
def lastLevelAdd (t : List TlbEntry) (e : TlbEntry) : List TlbEntry :=
  let others := t.filter fun x => x.set ≠ e.set
  let mine := tlbAdd 8 (t.filter fun x => x.set = e.set) e
  let big := (mine.filter fun x => x.level = 2).take 2
  mine.filter (fun x => x.level ≠ 2 || big.contains x) ++ others

def ptEn (p : Word) : Bool := bit p 0
def ptAsid (p : Word) : BitVec 8 := p.extractLsb' 4 8
def ptFrame (p : Word) : Nat := field p 12 40

def Device.onDie (d : Device) (k : Nat) (g : DieSt → DieSt) : Device :=
  { d with dies := d.dies.setIfInBounds k (g (d.dies.getD k DieSt.reset)) }

/-- The translation of an access at a memory core. -/
inductive Trans where
  | ok (pa : Nat) (host : Bool) (s : State)
  | absent
  | denied

/-- Physical address that a leaf gives. -/
def physOf (pte : Word) (level va : Nat) : Nat := 4096 * pteFrame pte + va % 2 ^ levelShift level

/-- A TLB entry that serves the access: a write needs D set, or the walk is made to set it. -/
def tlbFind (t : List TlbEntry) (asid : BitVec 8) (va : Nat) (write : Bool) : Option TlbEntry :=
  t.find? fun e => e.covers asid va && (!write || pteD e.pte)

/-- Translate at the focused memory core (R289 to R292). -/
def State.translate (s : State) (va : Nat) (write kernel : Bool) : Trans :=
  let root := s.core.phys.ptroot
  let asid := ptAsid root
  let die := dieOf s.core.site
  let last := (s.dev.dies.getD die DieSt.reset).tlb
  let use (e : TlbEntry) (s : State) : Trans :=
    if write && !pteW e.pte || !write && !pteR e.pte || pteKres e.pte && !kernel then .denied
    else .ok (physOf e.pte e.level va) (pteHost e.pte)
      (s.mapC fun c => { c with phys := { c.phys with tlb := tlbAdd 64 c.phys.tlb e } })
  if !ptEn root then .denied
  else match tlbFind s.core.phys.tlb asid va write with
    | some e => use e s
    | none => match tlbFind last asid va write with
      | some e => use e s
      | none =>
        match walkFrom s.dev.ext s.dev.boot.locked va write kernel 4 (ptFrame root) with
        | .absent => .absent
        | .denied => .denied
        | .leaf pte level at_ =>
          let pte := pte ||| 0x20#64 ||| (if write then 0x40#64 else 0#64)
          let e : TlbEntry := ⟨asid, level, va / 2 ^ levelShift level, pte⟩
          let s := s.mapD fun d =>
            { (d.onDie die fun x => { x with tlb := lastLevelAdd x.tlb e }) with ext := d.ext.write at_ (natToBytes 8 pte.toNat) }
          use e s

/-! ### Accesses that a translation serves -/

/-- The parts of an external range, one page each. -/
def pageParts (va n : Nat) : List (Nat × Nat) :=
  let va := va % 2 ^ 57
  let k := Nat.min n (4096 - va % 4096)
  if k = n then [(va, n)] else [(va, k), ((va + k) % 2 ^ 57, n - k)]

/-- Translate every part of a range; a part that is denied decides before one that is not present (R276). -/
def translateAll (write kernel : Bool) : List (Nat × Nat) → State → Except (Bool × Nat) (List (Nat × Nat × Bool) × State)
  | [], s => .ok ([], s)
  | (va, n) :: r, s =>
    match s.translate va write kernel with
    | .denied => .error (false, va)
    | .absent => match translateAll write kernel r s with
      | .error (false, v) => .error (false, v)
      | _ => .error (true, va)
    | .ok pa host s =>
      match translateAll write kernel r s with
      | .ok (ps, s) => .ok ((pa, n, host) :: ps, s)
      | .error e => .error e

def Device.physRead (d : Device) (host : Bool) (pa n : Nat) : List Byte :=
  if host then d.host.read pa n else d.ext.read pa n

def Device.physWrite (d : Device) (host : Bool) (pa : Nat) (bs : List Byte) : Device :=
  if host then { d with host := d.host.write pa bs } else { d with ext := d.ext.write pa bs }

def physReads (d : Device) (ps : List (Nat × Nat × Bool)) : List Byte := ps.flatMap fun p => d.physRead p.2.2 p.1 p.2.1

def physWrites : List (Nat × Nat × Bool) → List Byte → Device → Device
  | [], _, d => d
  | (pa, n, host) :: r, bs, d => physWrites r (bs.drop n) (d.physWrite host pa (bs.take n))

/-! ### Faults (R290) -/

/-- A walk that waits for its pager, for this page and owner. -/
def Core.pageWait (c : Core) (va : Nat) (write : Bool) (own : Option (CoreId × Nat)) : Option PageWait :=
  c.pageWaits.find? fun w => w.va / 4096 = va / 4096 && w.write = write && w.own = own

def Core.dropPageWait (c : Core) (tok : Nat) : Core := { c with pageWaits := c.pageWaits.filter fun w => w.tok ≠ tok }

/-- The pager core that takes faults of a page. -/
def pagerOf (site : Site) (va : Nat) : CoreId := .pager (BitVec.ofNat 3 (dieOf site)) (BitVec.ofNat 2 (va / 4096))

/-- The walker sends a fault, with the context of the access (R290), and waits for its token. -/
def State.pageFault (s : State) (va : Nat) (write : Bool) (own : Option (CoreId × Nat)) (ctx : BitVec 32) : State :=
  let tok := s.token
  ((s.useToken).send (pagerOf s.core.site va) .sys (.pageFault va write tok ctx)).mapC fun c =>
    { c with pageWaits := c.pageWaits ++ [⟨tok, va, write, own, none⟩] }

/-- What a walk comes to when the pager's answers are counted (R290). -/
inductive PageAns where
  | done (parts : List (Nat × Nat × Bool)) (s : State)
  /-- Not present: the fault is out, under this token. -/
  | waiting (tok va : Nat) (s : State)
  | denied (va : Nat) (s : State)

/-- The pager has answered that the access fails (R290). -/
def Core.pagerRefused (c : Core) (va n : Nat) (write : Bool) (own : Option (CoreId × Nat)) : Option PageWait :=
  (pageParts va n).findSome? fun p => match c.pageWait p.1 write own with
    | some w => if w.res.isSome then some w else none
    | none => none

/-- Translate a range at the focused memory core for an access of this context, with the pager's answers. -/
def State.paged (s : State) (va n : Nat) (write : Bool) (own : Option (CoreId × Nat)) (ctx : BitVec 32) (kernel : Bool) :
    PageAns :=
  match s.core.pagerRefused va n write own with
  | some w => .denied w.va (s.mapC fun c => c.dropPageWait w.tok)
  | none =>
    match translateAll write kernel (pageParts va n) s with
    | .ok (ps, s) => .done ps s
    | .error (false, va) => .denied va s
    | .error (true, va) =>
      match s.core.pageWait va write own with
      | some w => .waiting w.tok va s
      | none => .waiting s.token va (s.pageFault va write own ctx)

end Sys2Proof.Machine
end

