-- ==== Sys2Proof/Machine/Access.lean ====
section
/-!
DEFINITION. Sys2Proof/Machine/Access.lean: scalar accesses to buffers and external memory: their checks and charge (R103 to
R105), plain loads and stores with the region they belong to (R107, R111, R112, R278), and sync accesses (R110, R113 to
R116).
-/
namespace Sys2Proof.Machine

/-! ### Checks and charge (R104, R105) -/

/-- The charge of an access of `n` payload bytes: none when it is local, and none at an external address. -/
def State.chargeOf (s : State) (v : Word) (n : Nat) : Nat :=
  if s.isLocal v then 0
  else
    let (x, y) := s.xy
    grains n (nomEighths s.dev.part x y v)

/-- The charge is added to MNOM when the instruction is performed (R104). -/
def State.pay (s : State) (charge : Nat) : State :=
  s.mapF fun f => { f with ctl := { f.ctl with mnom := satAdd f.ctl.mnom charge } }

/-- The charge passes MLIM (R104, step 4). -/
def State.overMeter (s : State) (charge : Nat) : Bool := overLimit s.core.f.ctl.mlim s.core.f.ctl.mnom charge

/-- The bytes a scalar access names, when they are this core's own. -/
def State.ownSpan (s : State) (v : Word) (n : Nat) : List Span := if s.isLocal v then [(ptrKey v, n)] else []

/-- A local access to a shadow range, or a touch of a window that refuses it (R218, R219). -/
def State.spanRefused (s : State) (spans : List Span) : Bool :=
  spans.any (fun p => s.core.inShadow p.1 p.2) || s.core.touchBound spans

/-- Stops of R104, steps 2 to 4, for an access of `n` bytes at a mesh pointer. -/
def State.accessStop (s : State) (v : Word) (n : Nat) (write : Bool) (align charge : Nat) : Option Nat :=
  if !accessOk s.dev.part v n write || s.spanRefused (s.ownSpan v n) then some causeBound
  else if ptrOff v % align ≠ 0 then some causeAlign
  else if s.overMeter charge then some causeMeter
  else none

/-- A touch that takes a region stop of cause ABSENT at issue, after every precise stop (R219, R276). -/
def touching (s : State) (spans : List Span) (addr : Word) (k : State → Out) : Out :=
  match s.core.touchAbsent spans with
  | some w => .next (s.absentStop w addr)
  | none => k s

/-! ### The open region of a plain access (R107, R244, R248, R278) -/

/-- Banks the region has touched or will touch with its held stores. -/
def Region.banks (r : Region) : List (CoreId × Nat) :=
  (r.touched ++ r.probed.filterMap fun h => (bankOf h.key).map fun b => (h.tgt, b)).dedup

/-- There is room in the touched-bank set; without it the region ends first (R248). -/
def withRoom (s : State) (bs : List (CoreId × Nat)) (k : State → Out) : Out :=
  if (bs.foldl Region.touch { s.core.f.region with touched := s.core.f.region.banks, held := [] }).touched.length ≤ 64
  then k s else .next s.split

/-- Ask the agent of a bank's oldest open entry for a split, once (R248); there is none to ask while every entry is closing. -/
def State.askSplit (s : State) (oldest : Option Agent) : State :=
  match oldest with
  | none => s
  | some a =>
    let body : Body := .split a
    if s.net.any (fun p => p.src = s.core.id && p.dst = a.id && p.body = body) then s else s.send a.id .req body

/-- An access of the core's own firing that a bank holds (R248). -/
def Slotted.isOwn (x : Slotted) (c : Core) (bank : Nat) : Bool := x.src = c.id && x.bank = bank

/-- Accesses that a bank holds in front of the running firing's. -/
def Core.slottedAhead (c : Core) (bank : Nat) : Nat :=
  ((c.slots.filter fun x => x.bank = bank).takeWhile fun x => !x.isOwn c bank).length

/-- The running firing's access waits for an entry of a bank: in one of the bank's two slots, if one is free, else in the pipeline
(R248). -/
def State.holdOwn (s : State) (bank key n : Nat) (oldest : Option Agent) : State :=
  let held := s.core.slots.any fun x => x.isOwn s.core bank
  let s := if held || 2 ≤ s.core.slotted bank then s
    else s.mapC fun c => { c with
      slots := c.slots ++ [⟨c.id, bank, .access 0 c.agent c.f.pc key (.read n) none none, [], c.halves⟩] }
  s.askSplit oldest

/-- Blocks of the read map that a range covers (R278). -/
def readBlocks (key n : Nat) : List Nat :=
  if keyBuf key = 1 then []
  else
    let base := if keyBuf key = 2 then 96 else 0
    ((List.range n).map fun j => (base + keyOff (key + j) / 1024) % 96).dedup

def Region.reads (r : Region) (key n : Nat) : Bool := (readBlocks key n).any fun b => r.rmap.getLsbD b

def Region.addReads (r : Region) (key n : Nat) : Region :=
  { r with rmap := (readBlocks key n).foldl (fun m b => m ||| (1#96 <<< b)) r.rmap }

/-- A plain local access that has entered the buffers at its banks: checked, then recorded in the region's entries (R245). -/
def entered (s : State) (key n : Nat) (write : Bool) (k : State → Out) : Out :=
  let secs := s.core.sectors key n
  let banks := secs.map fun p => (s.core.id, p.1)
  withRoom s banks fun s =>
    match s.core.bankAccess s.agent secs write false ((bankOf key).getD 0) s.core.slottedAhead with
    | .conflict e => .next (s.conflictStop e (e.hitKey secs write))
    | .full bank oldest => .next (s.holdOwn bank key n oldest).poll
    | .ok t =>
      let r := banks.foldl Region.touch s.core.f.region
      let r := if write then r else r.addReads key n
      let s := if write then s else s.readOf key n
      k (s.mapC fun c => { c with
        scrim := t
        slots := c.slots.filter fun x => x.src ≠ c.id
        f := { c.f with region := r } })

/-- A plain local access: one that a bank holds keeps the halves under which it entered (R239, R248). -/
def localBank (s : State) (key n : Nat) (write : Bool) (k : State → Out) : Out :=
  match s.core.slots.find? fun x => x.src = s.core.id with
  | some x => s.enteredAs x.halves fun s => entered s key n write k
  | none => entered s key n write k

/-! ### Held stores (R107) -/

/-- Bytes that one access takes from a byte on: inside one sector and one 16-byte part (R107, R111, R170). -/
def partLen (key done n : Nat) : Nat := Nat.min (n - done) (Nat.min (32 - (key + done) % 32) (16 - done % 16))

/-- The youngest held store's byte at a key of a core, or at a physical address of a memory core's external memory. -/
def heldByte (hs : List Held) (space : HeldSpace) (tgt : CoreId) (key : Nat) : Option Byte :=
  match hs.reverse.find? (fun h => h.space = space && h.tgt = tgt && decide (h.key ≤ key) && decide (key < h.key + h.data.length)) with
  | some h => h.data[key - h.key]?
  | none => none

/-- Loaded bytes with the firing's own held stores laid over them. -/
def overlay (hs : List Held) (tgt : CoreId) (key : Nat) (bs : List Byte) : List Byte :=
  ((List.range bs.length).zip bs).map fun p => (heldByte hs .buffer tgt (key + p.1)).getD p.2

/-- Parts of a remote store, one entry of the outbound queue each. -/
def storeParts : Nat → Nat → Nat → List Byte → List (Nat × List Byte)
  | 0, _, _, _ => []
  | fuel + 1, key, done, bs =>
    if bs.isEmpty then []
    else
      let m := partLen key done (done + bs.length)
      (key + done, bs.take m) :: storeParts fuel key (done + m) (bs.drop m)

/-- The context service appends to a saved context's log (R287). -/
def logTo (ctx : BitVec 32) (entry : CoreId × Net × Body) (ctxs : List Context) : List Context :=
  ctxs.map fun k => if k.ctx = ctx then { k with log := k.log ++ [entry] } else k

/-! ### External addresses on a memory core (R103, R289, R290) -/

def Core.isMemory (c : Core) : Bool :=
  match c.id with
  | .memory _ _ => true
  | .mesh _ _ | .pager _ _ | .control | .far _ _ _ | .port _ => false

/-- A memory core's own access at an external address: checks, translation, and what a failed one does. A denied walk is a
BOUND check, before ALIGN and METER; a page that is not present comes after every precise stop (R276). -/
def extAccess (s : State) (ea : Word) (n align len : Nat) (write : Bool) (k : List (Nat × Nat × Bool) → State → Out) : Out :=
  if !s.core.isMemory || !reservedOk ea then .next (s.stop causeBound len ea)
  else
    let ans := s.paged ea.toNat n write none s.core.ctx false
    match ans with
    | .denied _ t => .next (t.stop causeBound len ea)
    | .done ps t =>
      if ea.toNat % align ≠ 0 then .next (s.stop causeAlign len ea)
      else if s.overMeter 0 then .next (s.stop causeMeter len ea)
      -- behind the copies of this core that its storer still holds (R256)
      else if !write && s.core.taken.any (fun q => q.src = s.core.id) then .next s.poll
      else k ps t
    | .waiting tok _ t =>
      if ea.toNat % align ≠ 0 then .next (s.stop causeAlign len ea)
      else if s.overMeter 0 then .next (s.stop causeMeter len ea)
      else .next (t.regionStop causeAbsent t.core.f.pc ea 0#64 none (some tok))

def spaceOf (host : Bool) : HeldSpace := if host then .host else .device

/-- Stores of a memory core's ended regions that are on their way to its storer, oldest first. -/
def State.extPending (s : State) : List (Nat × Bool × List Byte) :=
  let of (b : Body) : List (Nat × Bool × List Byte) := match b with
    | .commitExt _ ws => ws
    | _ => []
  (s.net.filter fun k => k.src = s.core.id).flatMap (fun k => of k.body) ++ s.core.ack.waiting.flatMap fun w => of w.2.2

/-- The youngest of these stores' bytes at a physical address. -/
def pendingByte (ws : List (Nat × Bool × List Byte)) (host : Bool) (pa : Nat) : Option Byte :=
  match ws.reverse.find? fun w => w.2.1 = host && decide (w.1 ≤ pa) && decide (pa < w.1 + w.2.2.length) with
  | some w => w.2.2[pa - w.1]?
  | none => none

/-- Bytes of external memory as the firing reads them: they come behind the stores that its core has sent to the storer before
(R256), and its own held stores lie over them (R107). -/
def State.extRead (s : State) (ps : List (Nat × Nat × Bool)) : List Byte :=
  ps.flatMap fun p =>
    let bs := s.dev.physRead p.2.2 p.1 p.2.1
    ((List.range bs.length).zip bs).map fun q =>
      ((heldByte s.core.f.region.held (spaceOf p.2.2) s.core.id (p.1 + q.1)).or
        (pendingByte s.extPending p.2.2 (p.1 + q.1))).getD q.2

/-! ### Plain loads (R107, R111) -/

/-- A remote plain load sends its next part and waits for the reply. -/
def sendLoad (s : State) (ea : Word) (n : Nat) (op : Nat → BankOp) (got : List Byte) : Out :=
  let key := ptrKey ea
  let tgt := ptrCore ea
  let m := partLen key got.length n
  let at_ := key + got.length
  withRoom s ((bankOf at_).map (fun b => (tgt, b))).toList fun s =>
    if s.core.ack.waiting ≠ [] then .next s.poll
    else
      let tok := s.token
      let s := (s.useToken).send tgt .req (.access tok s.agent s.core.f.pc at_ (op m) none (some m))
      .next (s.mapF fun f => { f with
        wait := .reply tok got
        region := match bankOf at_ with
          | some b => f.region.touch (tgt, b)
          | none => f.region })

/-- Bytes of a local plain access whose parts are done already. -/
def Firing.partDone (f : Firing) : List Byte := match f.wait with | .part got => got | _ => []

/-- The access goes on with one part of several: the step is torn there (R111, R170, R250). -/
def State.torn (s : State) (key done n : Nat) : Bool := s.core.tear && decide (partLen key done n < n - done)

/-- One part of a local access is done. -/
def State.setPart (s : State) (got : List Byte) : State := (s.setWait (.part got)).mapC fun c => { c with tear := false }

/-- The bank accesses of a local plain load: what is left of it at once, or one part. -/
def localLoad (s : State) (ea : Word) (n : Nat) (fin : List Byte → State → Out) : Out :=
  let got := s.core.f.partDone
  let key := ptrKey ea + got.length
  if s.torn (ptrKey ea) got.length n then
    let m := partLen (ptrKey ea) got.length n
    localBank s key m false fun s => .next (s.setPart (got ++ s.core.readBytes key m))
  else localBank s key (n - got.length) false fun s => fin (got ++ s.core.readBytes key (n - got.length)) s

/-- A plain load of `n` bytes; `done` takes them when all have come. -/
def plainLoad (s : State) (ea : Word) (n align len : Nat) (ext : Bool) (sp : Sp) (done : List Byte → State → State) : Out :=
  let charge := s.chargeOf ea n
  let fin (bs : List Byte) (s : State) : Out := .next ((done bs (s.pay charge)).retire len sp)
  if !bit ea 63 && ext then extAccess s ea n align len false fun ps s => fin (s.extRead ps) s
  else match s.accessStop ea n false align charge with
    | some cause => .next (s.stop cause len ea)
    | none =>
      if s.isLocal ea then
        touching s [(ptrKey ea, n)] ea fun s =>
          settled s false [(ptrKey ea, n)] fun s =>
            localLoad s ea n fin
      else match s.core.f.wait with
        | .replied (.data bs) got =>
          let got := got ++ bs
          if got.length ≥ n then fin (overlay s.core.f.region.held (ptrCore ea) (ptrKey ea) got) s
          else sendLoad s ea n .read got
        | _ => sendLoad s ea n .read []

/-! ### Plain stores (R107, R111, R278) -/

/-- A local plain store: it applies in place at its banks, what is left of it at once or one part. -/
def localStore (s : State) (ea : Word) (bs : List Byte) (k : State → Out) : Out :=
  let key := ptrKey ea
  touching s [(key, bs.length)] ea fun s => messagesFirst s fun s =>
    settled s true [(key, bs.length)] fun s =>
      let got := s.core.f.partDone
      let at_ := key + got.length
      if s.core.f.region.reads at_ (bs.length - got.length) then .next s.split
      else if s.torn key got.length bs.length then
        let m := partLen key got.length bs.length
        localBank s at_ m true fun s =>
          .next ((s.mapC fun c => c.store at_ ((bs.drop got.length).take m)).setPart (bs.take (got.length + m)))
      else localBank s at_ (bs.length - got.length) true fun s => k (s.mapC fun c => c.store at_ (bs.drop got.length))

/-- A remote plain store: it is held in the outbound queue until its region ends. -/
def holdStore (s : State) (ea : Word) (bs : List Byte) (k : State → Out) : Out :=
  let tgt := ptrCore ea
  let parts := storeParts bs.length (ptrKey ea) 0 bs
  withRoom s (parts.filterMap fun p => (bankOf p.1).map fun b => (tgt, b)) fun s =>
    if s.core.f.region.held.length + parts.length > 32 then .next s.split
    else k (s.mapF fun f => { f with
      region := { f.region with held := f.region.held ++ parts.map fun p => ⟨tgt, p.1, p.2, f.pc, ea, .buffer⟩ } })

/-- Entries of the outbound queue for a store to these physical ranges. -/
def extParts : List (Nat × Nat × Bool) → List Byte → List (Nat × List Byte × Bool)
  | [], _ => []
  | (pa, n, host) :: r, bs =>
    ((storeParts n pa 0 (bs.take n)).map fun p => (p.1, p.2, host)) ++ extParts r (bs.drop n)

/-- A memory core's store to external memory is remote (R22): it is held until its region ends (R107, R108). -/
def holdExt (s : State) (ea : Word) (ps : List (Nat × Nat × Bool)) (bs : List Byte) (k : State → Out) : Out :=
  let parts := extParts ps bs
  if s.core.f.region.held.length + parts.length > 32 then .next s.split
  else k (s.mapF fun f => { f with
    region := { f.region with
      held := f.region.held ++ parts.map fun p => ⟨s.core.id, p.1, p.2.1, f.pc, ea, spaceOf p.2.2⟩ } })

/-- A plain store of bytes at `ea`. -/
def plainStore (s : State) (ea : Word) (bs : List Byte) (align len : Nat) (ext : Bool) (sp : Sp) : Out :=
  let charge := s.chargeOf ea bs.length
  let fin (s : State) : Out := .next ((s.pay charge).retire len sp)
  if !bit ea 63 && ext then
    extAccess s ea bs.length align len true fun ps s => holdExt s ea ps bs fin
  else match s.accessStop ea bs.length true align charge with
    | some cause => .next (s.stop cause len ea)
    | none => if s.isLocal ea then localStore s ea bs fin else holdStore s ea bs fin

/-! ### The invariant cache (R112, R230) -/

/-- Set of a sector. -/
def invSet (id : CoreId) (key : Nat) : Nat :=
  let (x, y) := match id with
    | .mesh x y => (x.toNat, y.toNat)
    | .far _ x y => (x.toNat, y.toNat)
    | .memory _ _ | .pager _ _ | .control | .port _ => (0, 0)
  ((keyOff key / 32) ^^^ (2 * x) ^^^ (8 * y) ^^^ (32 * keyBuf key)) % 128

/-- The cached sector, which becomes the most recently used of its set. -/
def invLookup (t : List InvLine) (id : CoreId) (key : Nat) : Option (List Byte × List InvLine) :=
  (takeFirst (fun l => l.id = id && l.key = key) t).map fun r => (r.1.data, r.1 :: r.2)

/-- A fetched sector takes the place of the least recently used of its set of 4. -/
def invInsert (t : List InvLine) (l : InvLine) : List InvLine :=
  let mine := t.filter fun x => invSet x.id x.key = invSet l.id l.key
  let others := t.filter fun x => invSet x.id x.key ≠ invSet l.id l.key
  l :: (mine.take 3 ++ others)

/-- Bytes of a range from the cache, or the first sector that is absent. -/
def invRead (id : CoreId) (key n : Nat) : List Nat → List InvLine → Except Nat (List Byte × List InvLine)
  | [], t => .ok ([], t)
  | sk :: r, t =>
    match invLookup t id sk with
    | none => .error sk
    | some (bs, t) =>
      match invRead id key n r t with
      | .error k => .error k
      | .ok (more, t) => .ok ((bs.drop (key - sk)).take (key + n - Nat.max key sk) ++ more, t)

/-- A sector of the invariant cache has come, whoever still waits for it (R230). -/
def Phys.takeFetch (p : Phys) (tok : Nat) (r : Reply) : Phys :=
  match p.fetches.find? (fun f => f.tok = tok) with
  | none => p
  | some f =>
    let p := { p with fetches := p.fetches.erase f }
    match r with
    | .data bs => { p with inv := invInsert p.inv ⟨f.id, f.key, bs⟩ }
    | _ => p

/-- LDI's load of `n` bytes: unchecked by the Scrim table (R112). A sector that is on its way already is waited for (R230). -/
def invariantLoad (s : State) (ea : Word) (n len : Nat) (sp : Sp) (done : List Byte → State → State) : Out :=
  let charge := s.chargeOf ea n
  let key := ptrKey ea
  let tgt := ptrCore ea
  let fin (bs : List Byte) (s : State) : Out := .next ((done bs (s.pay charge)).retire len sp)
  match s.accessStop ea n false 1 charge with
  | some cause => .next (s.stop cause len ea)
  | none =>
    if s.isLocal ea then
      touching s [(key, n)] ea fun s => settled s false [(key, n)] fun s =>
        fin (s.core.readBytes key n) ((s.readOf key n).mapF fun f => { f with region := f.region.addReads key n })
    else
      let sectors := ([key / 32 * 32, (key + n - 1) / 32 * 32]).dedup
      let take (s : State) : Out :=
        match invRead tgt key n sectors s.core.phys.inv with
        | .ok (bs, t) =>
          fin (overlay s.core.f.region.held tgt key bs) (s.mapC fun c => { c with phys := { c.phys with inv := t } })
        | .error sk =>
          match s.core.phys.fetches.find? (fun f => f.id = tgt && f.key = sk) with
          | some f => .next (s.setWait (.reply f.tok []))
          | none =>
            if s.core.ack.waiting ≠ [] then .next s.poll
            else
              let tok := s.token
              let s := (s.useToken).send tgt .req (.access tok s.agent s.core.f.pc (Nat.max key sk) (.readInv 32) none (some n))
              .next ((s.mapC fun c => { c with phys := { c.phys with fetches := c.phys.fetches ++ [⟨tok, tgt, sk⟩] } }).setWait
                (.reply tok []))
      take s

/-! ### Sync accesses at the bank (R110, R113, R115, R116) -/

/-- What a sync access comes to at its bank. -/
inductive BankSync where
  | done (r : Reply) (s : State)
  | conflict (e : Scrim) (key : Nat)
  /-- The counter has not reached its target (R144). -/
  | wait

/-- New value and flags of a bank-ALU operation on an operand of `n` bytes (R115). -/
def aluResult (op : AOp) (n : Nat) (old b expected : Nat) : Nat × Flags :=
  let w := 8 * n
  let m := 2 ^ w
  let b := b % m
  match op with
  | .add => ((old + b) % m, 0#6)
  | .and => (old &&& b, 0#6)
  | .or => (old ||| b, 0#6)
  | .xor => (old ^^^ b, 0#6)
  | .min => (if signedOf w old ≤ signedOf w b then old else b, 0#6)
  | .max => (if signedOf w b ≤ signedOf w old then old else b, 0#6)
  | .minn => (Nat.min old b, 0#6)
  | .maxn => (Nat.max old b, 0#6)
  | .swp => (b, 0#6)
  | .cas => (if old = expected % m then b else old, 0#6)
  | .faddF32 => lane .add .f32 .rne old b 0
  | .faddBF16 => lane .add .bf16 .rne old b 0

/-- The chunk of ACLAIM (R116). -/
def claimSize (next total minc p : Nat) : Nat :=
  let rem := total - next
  Nat.min rem (Nat.max (Nat.max minc 1) (ceilDiv rem (Nat.max p 1)))

def Core.longAtKey (c : Core) (key : Nat) : Nat := bytesToNat (c.readBytes key 8)

/-- Bytes that a sync access covers, and whether it writes. -/
def BankOp.size : BankOp → Nat
  | .read n | .readInv n | .syncRead n => n
  | .syncWrite bs => bs.length
  | .atomic _ n _ _ => n
  | .claim _ _ => 16
  | .counter _ => 8

def BankOp.writes : BankOp → Bool
  | .read _ | .readInv _ | .syncRead _ | .counter _ => false
  | .syncWrite _ | .atomic _ _ _ _ | .claim _ _ => true

/-- Does it read what its bank holds? -/
def BankOp.reads : BankOp → Bool
  | .read _ | .readInv _ | .syncRead _ | .counter _ | .atomic _ _ _ _ | .claim _ _ => true
  | .syncWrite _ => false

/-- A sync access is performed at the focused core's bank, against foreign open maps (R110). -/
def State.bankSync (s : State) (a : Agent) (key : Nat) (op : BankOp) : BankSync :=
  let secs := s.core.sectors key op.size
  match s.core.conflict a secs op.writes with
  | some e => .conflict e (e.hitKey secs op.writes)
  | none =>
    let s := if op.reads then s.readOf key op.size else s
    match op with
    | .read n | .readInv n | .syncRead n => .done (.data (s.core.readBytes key n)) s
    | .syncWrite bs => .done .ok (s.mapC fun c => c.store key bs)
    | .atomic op n b ex =>
      let old := bytesToNat (s.core.readBytes key n)
      let (new, fl) := aluResult op n old b.toNat ex.toNat
      .done (.words [BitVec.ofNat 64 old, fl.zeroExtend 64]) (s.mapC fun c => c.store key (natToBytes n new))
    | .claim minc p =>
      let next := s.core.longAtKey key
      let c := claimSize next (s.core.longAtKey (key + 8)) minc p
      .done (.words [BitVec.ofNat 64 next, BitVec.ofNat 64 c])
        (s.mapC fun k => k.store key (natToBytes 8 (next + c)))
    | .counter target =>
      let v := s.core.longAtKey key
      if target.toNat ≤ v then .done (.words [BitVec.ofNat 64 v]) s else .wait

/-! ### Sync accesses of a firing (R109, R110) -/

/-- The checks of R104 come before the region ends, and are not made again once it has. -/
def checkedOnce (s : State) (stop : Option (Nat × Word)) (len : Nat) (k : State → Out) : Out :=
  if s.core.f.irrev then k s
  else match stop with
    | some (cause, addr) => .next (s.stop cause len addr)
    | none => k s

/-- Touches are decided at issue, before the region ends (R219). -/
def touchingOnce (s : State) (spans : List Span) (addr : Word) (k : State → Out) : Out :=
  if s.core.f.irrev then k s else touching s spans addr k

/-- The firing sends a sync access to its home and blocks until the reply (R109). -/
def sendSync (s : State) (ea : Word) (op : BankOp) (low : Option Nat) (n : Nat) : State :=
  let tok := s.token
  let s := (s.useToken).send (ptrCore ea) .req (.access tok s.agent s.core.f.pc (ptrKey ea) op low (some n))
  let s := match low with
    | some sc => s.mapC fun c => { c with ack := c.ack.raise (.store sc) }
    | none => s
  s.setWait (.reply tok [])

/-- An access that stores waits for commands that read its bytes too: R299 names the scalar stores alone, and R28 has every command take
effect as if it had completed before an atomic or an ACLAIM (DEDUCED, log 97). -/
def BankOp.stores (op : BankOp) : Bool := op.writes

/-- A draining sync access of a firing (R109, R110, R113, R115): `n` payload bytes are charged; `done` takes the answer. -/
def syncAccess (s : State) (ea : Word) (align len payload : Nat) (op : BankOp) (stop : Option (Nat × Word)) (sp : Sp)
    (done : Reply → State → State) : Out :=
  let n := op.size
  let charge := s.chargeOf ea payload
  let stop := match s.accessStop ea n op.writes align charge with
    | some c =>
      -- a count check belongs to the BOUND step, before ALIGN and METER
      if c = causeBound then some (c, ea) else stop.or (some (c, ea))
    | none => stop
  let fin (r : Reply) (s : State) : Out := .next ((done r (s.pay charge)).retireIrrev len sp)
  checkedOnce s stop len fun s =>
    touchingOnce s (s.ownSpan ea n) ea fun s =>
      irrevocably s fun s =>
        draining s fun s => messagesFirst s fun s =>
          if s.isLocal ea then
            settled s op.stores [(ptrKey ea, n)] fun s =>
              match s.bankSync s.agent (ptrKey ea) op with
              | .done r s => fin r s
              | .conflict e key => .next (s.conflictStop e key)
              | .wait => .next s.poll
          else match s.core.f.wait with
            | .replied r _ => fin r s
            | _ =>
              let low := match op with
                | .syncWrite _ => some (s.scopeOf (ptrCore ea))
                | _ => none
              .next (sendSync s ea op low payload)

end Sys2Proof.Machine
end

