-- ==== Sys2Proof/Machine/CbForms.lean ====
section
/-!
DEFINITION. Sys2Proof/Machine/CbForms.lean: CBDEF to CBQ (R122 to R126).
-/
namespace Sys2Proof.Machine

/-- CB handle of a five-bit field. -/
def cbOf (r : BitVec 5) : Nat := r.toNat % 16

/-- The home of a defined entry: core, handle there and record; none for an empty entry. -/
def Core.cbHome (c : Core) (h : Nat) : Option (CoreId × Nat × BitVec 128) :=
  match c.cbAt h with
  | .home rcd _ _ _ _ _ _ => some (c.id, h, rcd)
  | .link home handle rcd => some (home, handle, rcd)
  | .empty => none

/-- Charge of a CB operation of `n` payload bytes: the distance to the home core's slots, none at home (R105). -/
def State.cbCharge (s : State) (home : CoreId) (n : Nat) : Nat :=
  if home = s.core.id then 0
  else
    let (x, y) := s.xy
    grains n (nomEighths s.dev.part x y (0x8000000000000000#64 ||| coordBits s.dev.part.memEntry home))

/-- Send a CB operation to its home and wait for the answer (R125). -/
def sendCb (s : State) (home : CoreId) (handle : Nat) (op : CbOp) (low : Option Nat) (n : Nat) : State :=
  let tok := s.token
  let s := (s.useToken).send home .req (.cb tok s.agent handle op low (some n))
  let s := match low with
    | some sc => s.mapC fun c => { c with ack := c.ack.raise (.store sc) }
    | none => s
  s.setWait (.reply tok [])

/-- A CB operation at its home core, performed by the firing itself; a wait on a CB of a cancelled launch ends with the cancel (R126). -/
def localCb (s : State) (handle : Nat) (op : CbOp) (len : Nat) (fin : List Word → State → Out) : Out :=
  match s.cbAct s.core.id s.agent handle op with
  | .wait => .next (if s.homeCancelled handle then s.discardRegion.endFiring else s.poll)
  | .refuse cause addr => .next (s.stop cause len addr)
  | .conflict e key => .next (s.conflictStop e key)
  | .done ws s => fin ws s

/-- Bytes of the slot that CBPUSH or CBPOP accesses at home. -/
def Core.slotSpan (c : Core) (handle : Nat) (op : CbOp) : List Span :=
  match c.cbAt handle, op with
  | .home rcd _ t _ _ _ _, .push ws => [(cbSlotKey rcd t, 8 * ws.length)]
  | .home rcd h _ _ _ _ _, .pop n => [(cbSlotKey rcd h, 8 * n)]
  | _, _ => []

/-- A slot access that stores waits, as an atomic does, for commands that read its bytes (R28, R299; log 97). -/
def CbOp.stores : CbOp → Bool
  | .push _ => true
  | .link | .wait _ | .free _ | .get _ | .put _ | .pop _ | .query => false

/-- A CB operation through an entry (R123, R125): handle, count and slot checks, then the operation at the home. `irr`
marks the forms that drain (R109). METER is tested for an operation at home too, whose charge is zero: R104 lists it for every
instruction of the chapter (DEDUCED, log 86). Two values of TADDR are the model's choice (DESIGN CHOICE, log 74): the handle number for a
slot smaller than 8n bytes, and Slot(0) for METER, since which slot is used is known only at the home. -/
def cbForm (s : State) (h : BitVec 5) (op : CbOp) (k words : Nat) (irr : Bool) (sp : Sp)
    (done : List Word → State → State) : Out :=
  let len := spLen sp
  let hw := BitVec.ofNat 64 (cbOf h)
  match s.core.cbHome (cbOf h) with
  | none => .next (s.stop causeBound len hw)
  | some (home, handle, rcd) =>
    let charge := s.cbCharge home (8 * words)
    let slot := cbSlotPtr s.dev.part home rcd 0
    let stop :=
      if decide (cbS rcd < k) || decide (cbSlot rcd < 8 * words) then some (causeBound, hw)
      else if s.overMeter charge then some (causeMeter, slot) else none
    let fin (ws : List Word) (s : State) : Out :=
      let s := done ws (s.pay charge)
      .next (if irr then s.retireIrrev len sp else s.retire len sp)
    let act (s : State) : Out :=
      cbSettled s (cbOf h) fun s =>
      if home = s.core.id then
        settled s op.stores (s.core.slotSpan handle op) fun s => localCb s handle op len fin
      else
          let low := match op with
            | .put _ | .push _ => some (s.scopeOf home)
            | _ => none
          if s.core.ack.waiting ≠ [] then .next s.poll else .next (sendCb s home handle op low (8 * words))
    -- an operation whose answer has come has acted at its home, and is not sent again
    checkedOnce s stop len fun s => match s.core.f.wait with
      | .replied (.words ws) _ => fin ws s
      | .replied .ok _ => fin [] s
      | _ => if irr then irrevocably s fun s => draining s fun s => messagesFirst s act else act s

def execCbwait (k : BitVec 9) (a d : BitVec 5) (sp : Sp) (s : State) : Out :=
  cbForm s a (.wait k.toNat) k.toNat 0 false sp fun ws s => s.setS d (ws.headD 0#64)

def execCbfree (k : BitVec 9) (a d : BitVec 5) (sp : Sp) (s : State) : Out :=
  cbForm s a (.free k.toNat) k.toNat 0 false sp fun ws s => s.setS d (ws.headD 0#64)

def execCbadvGet (k : BitVec 9) (a : BitVec 5) (sp : Sp) (s : State) : Out :=
  cbForm s a (.get k.toNat) k.toNat 0 true sp fun _ s => s

def execCbadvPut (k : BitVec 9) (a : BitVec 5) (sp : Sp) (s : State) : Out :=
  cbForm s a (.put k.toNat) k.toNat 0 true sp fun _ s => s

def execCbpush (n : BitVec 4) (a d : BitVec 5) (sp : Sp) (s : State) : Out :=
  cbForm s a (.push (s.regs.getSMany d n.toNat)) 0 n.toNat true sp fun _ s => s

def execCbpop (n : BitVec 4) (a d : BitVec 5) (sp : Sp) (s : State) : Out :=
  cbForm s a (.pop n.toNat) 0 n.toNat true sp fun ws s => s.setSMany d ws

/-- The entry is a link. -/
def Core.isLink (c : Core) (h : Nat) : Bool :=
  match c.cbAt h with
  | .link _ _ _ => true
  | .home _ _ _ _ _ _ _ | .empty => false

/-- CBQ; through a link bit 63 is set (R125). -/
def execCbq (a d : BitVec 5) (sp : Sp) (s : State) : Out :=
  cbForm s a .query 0 0 false sp fun ws t => t.setS d (asLink (s.core.isLink (cbOf a)) (ws.headD 0#64))

/-- The pointer of a link's CBDEF names a handle at its home (R124). -/
def linkPtrOk (p : Partition) (v : Word) : Bool := meshOk p v && ptrBuf v = 0 && decide (ptrOff v < 16)

/-- CBDEF (R124): a home from a record, or a link that takes its geometry from the home. A record index beyond the image's table
is refused as a bad record is (DESIGN CHOICE, log 74). -/
def execCbdef (i : BitVec 11) (a d : BitVec 5) (sp : Sp) (s : State) : Out :=
  let len := spLen sp
  let h := cbOf d
  let hw := BitVec.ofNat 64 h
  let used := s.core.cbAt h ≠ .empty
  if a = 0#5 then
    let rcd := s.dev.image.cbs[i.toNat]?
    let stop := match rcd with
      | none => some (causeBound, i.zeroExtend 64)
      | some r => if !cbRecordOk r then some (causeBound, i.zeroExtend 64) else if used then some (causeBound, hw) else none
    checkedOnce s stop len fun s => irrevocably s fun s => draining s fun s =>
      let (lh, lin) := match s.core.cohort with
        | some k => (k.lhnd, k.lin)
        | none => (s.core.f.lhnd, s.core.f.lin)
      let s := s.mapC fun c => c.setCb h (.home (rcd.getD 0#128) 0 0 0 [] lh lin)
      .next (s.retireIrrev len sp)
  else
    let v := s.regs.getS a
    let home := ptrCore v
    let charge := s.cbCharge home 0
    let stop :=
      if !linkPtrOk s.dev.part v then some (causeBound, v)
      else if used then some (causeBound, hw)
      else if s.overMeter charge then some (causeMeter, v) else none
    let fin (ws : List Word) (s : State) : Out :=
      let rcd : BitVec 128 := (ws.getD 1 0#64) ++ (ws.getD 0 0#64)
      .next (((s.mapC fun c => c.setCb h (.link home (ptrOff v) rcd)).pay charge).retireIrrev len sp)
    checkedOnce s stop len fun s => irrevocably s fun s => draining s fun s =>
      if home = s.core.id then localCb s (ptrOff v) .link len fin
      else match s.core.f.wait with
        | .replied (.words ws) _ => fin ws s
        | _ => .next (sendCb s home (ptrOff v) .link none 0)

end Sys2Proof.Machine
end

