-- ==== Sys2Proof/Machine/VecIssue.lean ====
section
/-!
DEFINITION. Sys2Proof/Machine/VecIssue.lean: issuing the vector forms (R164 to R167, R172 to R182): record checks, touches,
the end of the region, and the place in the queue.
-/
namespace Sys2Proof.Machine

/-! ### Record checks (R165, R166) -/

/-- A record of a command: its register, whether it is the destination, the type codes it may have, whether it must
conform, and a condition of the entry's own. -/
structure RecUse where
  reg : BitVec 5
  dest : Bool
  ty : Nat → Bool
  conform : Bool
  own : Shape → Bool

def RecUse.shape (u : RecUse) (s : State) : Shape := s.regs.getH (hOf u.reg)

/-- A .qm record. -/
def shQ (r : Shape) : Bool := match ETy.ofCode (shTypeCode r) with | some (.q _) => true | _ => false

/-- A destination that is refused: KIND 0 in W, or with scale bytes there (R27, Table 1.11). -/
def destRefused (r : Shape) : Bool := !shKind1 r && (ptrBuf (shBase r) = 1 || shQ r && shSBuf r = 1)

/-- Spans of a record of the command that is about to issue. -/
def RecUse.spans (u : RecUse) (s : State) : List Span := s.core.usedSpans s.core.eng.nextOrd u.dest (u.shape s)

/-- A record fails on its own, or does not conform with the first record of its group. -/
def recFails (s : State) (first : Option Shape) (u : RecUse) : Bool :=
  let r := u.shape s
  !s.shapeValid r || !u.ty (shTypeCode r) || (u.dest && destRefused r) || !u.own r ||
    (shKind1 r && (u.spans s).any fun p => s.core.inShadow p.1 p.2) ||
    (u.conform && match first with
      | some f => shRank r ≠ shRank f || shExtents r ≠ shExtents f
      | none => false)

/-- The first failing record in the order given. -/
def firstFailing (s : State) (us : List RecUse) : Option RecUse :=
  let first := ((us.filter RecUse.conform).head?).map fun u => u.shape s
  us.find? (recFails s first)

/-- A KIND 0 record of a byte-sized type whose OFF is no multiple of its element size (R166, step 3). -/
def misaligned (r : Shape) : Bool :=
  !shKind1 r && match ETy.ofCode (shTypeCode r) with
    | some (.q _) => false
    | some t => ptrOff (shBase r) % t.size ≠ 0
    | none => false

/-- The first record that touches a window among those `p` picks. -/
def touchedBase (s : State) (us : List RecUse) (p : Core → List Span → Bool) : Option Word :=
  (us.find? fun u => p s.core (u.spans s)).map fun u => shBase (u.shape s)

/-- Stops of a command whose records these are (R166). R218 and R219 give the BOUND of a shadow range and of a poisoned or exhausted window
no place in R166's order: a shadow range makes a record invalid, in step 2 with its register's number in TADDR, and such a window comes
after every record and before step 3, with the record's BASE in TADDR (DESIGN CHOICE, log 90). -/
def recordStop (s : State) (us : List RecUse) : Option (Nat × Word) :=
  match firstFailing s us with
  | some u => some (causeBound, u.reg.zeroExtend 64)
  | none => match touchedBase s us Core.touchBound with
    | some v => some (causeBound, v)
    | none => (us.find? fun u => misaligned (u.shape s)).map fun u => (causeAlign, shBase (u.shape s))

/-- Touches of a command's records (R219). -/
def touchingRecs (s : State) (us : List RecUse) (k : State → Out) : Out :=
  touchingOnce s (us.flatMap fun u => u.spans s)
    ((touchedBase s us fun c sp => (c.touchAbsent sp).isSome).getD 0#64) k

/-! ### The queue (R28, R167, R299) -/

/-- Room in a command queue of two entries; the engines are let run to make it (log 7). -/
def queueRoom (full : Core → Bool) (s : State) (k : State → Out) : Out :=
  match settleWhile full 16 s with
  | some s => k s
  | none => .next s.poll

/-- Issue a vector command: checks, touches, the region's end without a drain, and its entry into the queue. -/
def vecIssue (s : State) (form : Instr) (us : List RecUse) (a b d : Shape) (sval : Word) (more : Option (Nat × Word))
    (sp : Sp) : Out :=
  checkedOnce s ((recordStop s us).or more) (spLen sp) fun s =>
    touchingRecs s us fun s =>
      irrevocably s fun s => messagesFirst s fun s =>
        queueRoom (fun c => (c.eng.vq.filter fun k => !k.started).length ≥ 2) s fun s =>
          let f := s.core.f
          let cmd : VCmd :=
            { form := form
              a := a
              b := b
              d := d
              sval := sval
              rm := f.ctl.rm
              serial := f.serial
              gen := f.region.gen
              pc := f.pc
              lhnd := f.lhnd
              started := false
              prog := Progress.fresh
              ord := s.core.eng.nextOrd }
          let s := s.mapC fun c => { c with eng := { c.eng with vq := c.eng.vq ++ [cmd], nextOrd := c.eng.nextOrd + 1 } }
          .next (s.retireIrrev (spLen sp) sp)

/-- The shape register that a field names. -/
def hReg (s : State) (r : BitVec 5) : Shape := s.regs.getH (hOf r)

def useA (a t : BitVec 5) : RecUse := ⟨a, false, (· = t.toNat), true, fun _ => true⟩
def useD (d t : BitVec 5) : RecUse := ⟨d, true, (· = t.toNat), true, fun _ => true⟩

/-- A form with two source records, all of the operation type. -/
def vec3 (s : State) (form : Instr) (t b a d : BitVec 5) (sp : Sp) : Out :=
  vecIssue s form [useA a t, useA b t, useD d t] (hReg s a) (hReg s b) (hReg s d) 0#64 none sp

/-- A form with one source record of the operation type. -/
def vec2 (s : State) (form : Instr) (t a d : BitVec 5) (sp : Sp) : Out :=
  vecIssue s form [useA a t, useD d t] (hReg s a) 0#256 (hReg s d) 0#64 none sp

/-! ### Elementwise forms (R172 to R174) -/

def execVadd (t b a d : BitVec 5) (sp : Sp) (s : State) : Out := vec3 s (.vadd t b a d sp) t b a d sp
def execVsub (t b a d : BitVec 5) (sp : Sp) (s : State) : Out := vec3 s (.vsub t b a d sp) t b a d sp
def execVmul (t b a d : BitVec 5) (sp : Sp) (s : State) : Out := vec3 s (.vmul t b a d sp) t b a d sp
def execVfma (t b a d : BitVec 5) (sp : Sp) (s : State) : Out := vec3 s (.vfma t b a d sp) t b a d sp
def execVdiv (t b a d : BitVec 5) (sp : Sp) (s : State) : Out := vec3 s (.vdiv t b a d sp) t b a d sp
def execVmin (t b a d : BitVec 5) (sp : Sp) (s : State) : Out := vec3 s (.vmin t b a d sp) t b a d sp
def execVmax (t b a d : BitVec 5) (sp : Sp) (s : State) : Out := vec3 s (.vmax t b a d sp) t b a d sp
def execVabs (t a d : BitVec 5) (sp : Sp) (s : State) : Out := vec2 s (.vabs t a d sp) t a d sp
def execVneg (t a d : BitVec 5) (sp : Sp) (s : State) : Out := vec2 s (.vneg t a d sp) t a d sp
def execVrsq (t a d : BitVec 5) (sp : Sp) (s : State) : Out := vec2 s (.vrsq t a d sp) t a d sp
def execVexp2 (t a d : BitVec 5) (sp : Sp) (s : State) : Out := vec2 s (.vexp2 t a d sp) t a d sp
def execVlog2 (t a d : BitVec 5) (sp : Sp) (s : State) : Out := vec2 s (.vlog2 t a d sp) t a d sp
def execVand (t b a d : BitVec 5) (sp : Sp) (s : State) : Out := vec3 s (.vand t b a d sp) t b a d sp
def execVor (t b a d : BitVec 5) (sp : Sp) (s : State) : Out := vec3 s (.vor t b a d sp) t b a d sp
def execVxor (t b a d : BitVec 5) (sp : Sp) (s : State) : Out := vec3 s (.vxor t b a d sp) t b a d sp
def execVshl (t b a d : BitVec 5) (sp : Sp) (s : State) : Out := vec3 s (.vshl t b a d sp) t b a d sp
def execVshr (t b a d : BitVec 5) (sp : Sp) (s : State) : Out := vec3 s (.vshr t b a d sp) t b a d sp
def execVsel (t b a d : BitVec 5) (sp : Sp) (s : State) : Out := vec3 s (.vsel t b a d sp) t b a d sp

/-! ### Compare, reduce, scan, convert (R175 to R178) -/

/-- Code of the .n type as wide as a type (R175). -/
def maskType (t : BitVec 5) : Nat :=
  if t.toNat ≤ 7 then 4 + t.toNat % 4 else if t.toNat = 10 then 6 else 5

def execVcmp (c : BitVec 4) (t b a d : BitVec 5) (sp : Sp) (s : State) : Out :=
  vecIssue s (.vcmp c t b a d sp) [useA a t, useA b t, { useD d t with ty := (· = maskType t) }]
    (hReg s a) (hReg s b) (hReg s d) 0#64 none sp

/-- VRED: the destination holds one element (R176). -/
def execVred (o : BitVec 4) (t a d : BitVec 5) (sp : Sp) (s : State) : Out :=
  vecIssue s (.vred o t a d sp)
    [{ useA a t with conform := false }, { useD d t with conform := false, own := fun r => shCount r = 1 }]
    (hReg s a) 0#256 (hReg s d) 0#64 none sp

def execVscan (o : BitVec 4) (t a d : BitVec 5) (sp : Sp) (s : State) : Out := vec2 s (.vscan o t a d sp) t a d sp

/-- VCVT: any source type but the operation's own (R177). -/
def execVcvt (t a d : BitVec 5) (sp : Sp) (s : State) : Out :=
  vecIssue s (.vcvt t a d sp) [{ useA a t with ty := (· ≠ t.toNat) }, useD d t] (hReg s a) 0#256 (hReg s d) 0#64 none sp

/-- VQNT: from f32 (R178). -/
def execVqnt (t a d : BitVec 5) (sp : Sp) (s : State) : Out :=
  vecIssue s (.vqnt t a d sp) [{ useA a t with ty := (· = 10) }, useD d t] (hReg s a) 0#256 (hReg s d) 0#64 none sp

/-! ### Fill and identity (R179, R180) -/

def execVfill (t a d : BitVec 5) (sp : Sp) (s : State) : Out :=
  vecIssue s (.vfill t a d sp) [useD d t] 0#256 0#256 (hReg s d) (s.regs.getS a) none sp

/-- The tile that VIDENT admits. -/
def identTile (r : Shape) : Bool :=
  shRank r = 2 && shE r 0 = 64 && shE r 1 = 64 && shS r 1 = 64 && !shKind1 r && ptrBuf (shBase r) = 0
    && ptrOff (shBase r) % 512 = 0

/-- The mantissa and scale byte that VIDENT admits for .qm. -/
def identValue (m : Nat) (v : Word) : Bool :=
  let k := signedOf 8 (field v 0 8)
  k ≠ 0 && inRange (-(2 ^ (m - 1))) (2 ^ (m - 1) - 1) k && field v 8 8 ≠ 255

/-- VIDENT (R180). The spec gives no order between the record's BOUND and the one for s[a]; the record comes first here (log 71). -/
def execVident (t a d : BitVec 5) (sp : Sp) (s : State) : Out :=
  let v := s.regs.getS a
  vecIssue s (.vident t a d sp) [{ useD d t with own := identTile }] 0#256 0#256 (hReg s d) v
    (if identValue (t.toNat % 16) v then none else some (causeBound, v)) sp

/-! ### Copy, gather, scatter, transpose (R181, R182) -/

def execVcpy (t a d : BitVec 5) (sp : Sp) (s : State) : Out := vec2 s (.vcpy t a d sp) t a d sp

/-- An index record: .n16 or .n32. -/
def useIndex (b : BitVec 5) : RecUse := ⟨b, false, (fun k => k = 5 || k = 6), true, fun _ => true⟩

/-- VGATH: the indices conform with the destination, and a is a flat sequence. -/
def execVgath (t b a d : BitVec 5) (sp : Sp) (s : State) : Out :=
  vecIssue s (.vgath t b a d sp) [{ useA a t with conform := false }, useIndex b, useD d t]
    (hReg s a) (hReg s b) (hReg s d) 0#64 none sp

/-- VSCAT: the indices conform with a, and the destination is a flat sequence. -/
def execVscat (t b a d : BitVec 5) (sp : Sp) (s : State) : Out :=
  vecIssue s (.vscat t b a d sp) [useA a t, useIndex b, { useD d t with conform := false }]
    (hReg s a) (hReg s b) (hReg s d) 0#64 none sp

/-- VTRN: the two innermost extents change places. -/
def transposed (a d : Shape) : Bool :=
  shRank d = shRank a && shE d 0 = shE a 1 && shE d 1 = shE a 0 && shE d 2 = shE a 2 && shE d 3 = shE a 3

def execVtrn (t a d : BitVec 5) (sp : Sp) (s : State) : Out :=
  let ra := hReg s a
  vecIssue s (.vtrn t a d sp)
    [{ useA a t with conform := false, own := fun r => 2 ≤ shRank r },
      { useD d t with conform := false, own := transposed ra }]
    ra 0#256 (hReg s d) 0#64 none sp

/-! ### The engine's own steps -/

/-- VECTOR_COMMAND_START (R163, R168, R298 to R300). -/
def execVectorCommandStart (s : State) : Out := .next s.vecStart

/-- VECTOR_COMMAND_COMPLETION (R72, R167 to R169): a write held behind a closing entry keeps the command in its engine. -/
def execVectorCommandCompletion (s : State) : Out := .next (s.vecComplete.getD s)

end Sys2Proof.Machine
end

