-- ==== Sys2Proof/Machine/MatIssue.lean ====
section
/-!
DEFINITION. Sys2Proof/Machine/MatIssue.lean: issuing the matrix forms (R184 to R199, R202), and the arrival of remote
matrix commands and of their completions (R200, R201).
-/
namespace Sys2Proof.Machine

/-! ### Issue (R185, R186) -/

/-- A matrix command enters the local queue behind the end of the region; `shadow` updates the issue shadows (R183). -/
def matIssue (s : State) (form : Instr) (us : List RecUse) (stop : Option (Nat × Word)) (spans : List Span) (addr : Word)
    (a b : Shape) (v v2 : Word) (charge : Nat) (shadow : Engines → Engines) (sp : Sp) (also : State → State := id) : Out :=
  checkedOnce s stop (spLen sp) fun s =>
    touchingOnce s (us.flatMap (fun u => u.spans s) ++ spans)
      ((touchedBase s us fun c q => (c.touchAbsent q).isSome).getD addr) fun s =>
      irrevocably s fun s => messagesFirst s fun s =>
        queueRoom (fun c => waitingCmds c.eng.mq ≥ 2) s fun s =>
          let f := s.core.f
          let e := s.core.eng
          let cmd : MCmd :=
            { form := form
              a := a
              b := b
              sval := v
              sval2 := v2
              cstr := e.cstr
              rows := e.am
              at_ := e.at_
              serial := f.serial
              gen := f.region.gen
              pc := f.pc
              lhnd := f.lhnd
              started := false
              prog := Progress.fresh
              ord := e.nextOrd }
          let s := s.mapC fun c => { c with
            eng := shadow { c.eng with mq := c.eng.mq ++ [cmd], nextOrd := c.eng.nextOrd + 1 } }
          .next (((also s).pay charge).retireIrrev (spLen sp) sp)

/-- A command without records, charge or touches. -/
def matScalar (s : State) (form : Instr) (stop : Option (Nat × Word)) (v : Word) (shadow : Engines → Engines) (sp : Sp) :
    Out :=
  matIssue s form [] stop [] v 0#256 0#256 v 0#64 0 shadow sp

/-! ### MCFG and MUPL (R188, R195) -/

def mcfgOk (v : Word) : Bool := field v 3 5 = 0 && field v 12 52 = 0 && 1 ≤ mxCstr v && mxCstr v ≤ 8

def execMcfg (a : BitVec 5) (sp : Sp) (s : State) : Out :=
  let v := s.regs.getS a
  matScalar s (.mcfg a sp) (if mcfgOk v then none else some (causeBound, v)) v
    (fun e => { e with cstr := mxCstr v }) sp

/-- Which of Y, Z and COND an operation uses (Table 9.6). -/
def slotUses (op : Nat) : Bool × Bool × Bool :=
  match op with
  | 5 | 6 => (false, false, false)
  | 7 => (true, true, true)
  | _ => (true, false, false)

/-- A valid slot of a microprogram (R195). -/
def slotOk (sl : BitVec 16) : Bool :=
  slotOp sl = 15 ||
    (field sl 14 2 = 0 && slotOp sl ≤ 7 &&
      let (y, z, c) := slotUses (slotOp sl)
      (y || slotY sl = 0) && (z || slotZ sl = 0) && (if c then slotCond sl ≤ 5 else slotCond sl = 0))

def execMupl (a : BitVec 5) (sp : Sp) (s : State) : Out :=
  let v := s.regs.getS a
  matScalar s (.mupl a sp) (if (muSlots v).all slotOk then none else some (causeBound, v)) v id sp

/-! ### MBLD and MGAT (R189, R190) -/

/-- The tile that MBLD admits (R189); the engine reads A only for MGAT (R27, Table 1.11). -/
def bTile (r : Shape) : Bool :=
  !shKind1 r && shSBuf r ≠ 0 && ptrBuf (shBase r) = 1 && shRank r = 2 && shE r 0 = 64 && shE r 1 = 64 && shS r 0 = 1 && shS r 1 = 64

def execMbld (t a : BitVec 5) (sp : Sp) (s : State) : Out :=
  let r := hReg s a
  let us : List RecUse := [⟨a, false, (· = t.toNat), false, bTile⟩]
  let stop := (recordStop s us).or
    (if ptrOff (shBase r) % 512 ≠ 0 then some (causeAlign, shBase r) else none)
  matIssue s (.mbld t a sp) us stop [] 0#64 r 0#256 0#64 0#64 0 (fun e => { e with bt := t.toNat }) sp

/-- The rows that MGAT admits, and its index record (R190); the engine reads W only for MBLD (R27, Table 1.11). -/
def aRows (r : Shape) : Bool :=
  !shKind1 r && shSBuf r ≠ 1 && ptrBuf (shBase r) = 0 && shRank r = 2 && shE r 0 = 64 && shS r 0 = 1

def aIndex (r : Shape) : Bool := !shKind1 r && ptrBuf (shBase r) ≠ 1 && shRank r = 1 && decide (1 ≤ shE r 0) && decide (shE r 0 ≤ 64)

def execMgat (t b a : BitVec 5) (sp : Sp) (s : State) : Out :=
  let us : List RecUse :=
    [⟨a, false, (· = t.toNat), false, aRows⟩, ⟨b, false, (fun k => k = 4 || k = 5), false, aIndex⟩]
  let rb := hReg s b
  matIssue s (.mgat t b a sp) us (recordStop s us) [] 0#64 (hReg s a) rb 0#64 0#64 0
    (fun e => { e with am := shE rb 0, at_ := t.toNat }) sp

/-! ### MMA, MMAZ and MREC (R192, R196) -/

/-- Stops of a step over a local C region (R192). -/
def stepStop (s : State) (v : Word) : Option (Nat × Word) :=
  let e := s.core.eng
  let bad := !accessOk s.dev.part v 0 true || !s.isLocal v || ptrBuf v ≠ 2 || e.am = 0 || e.bt = 0
    || decide (32768 < ptrOff v + ((e.am - 1) * e.cstr + 1) * 256)
    || s.spanRefused (cSpan (ptrOff v) (256 * e.cstr) e.am)
  if bad then some (causeBound, v) else if ptrOff v % 256 ≠ 0 then some (causeAlign, v) else none

def matStep (s : State) (form : Instr) (a : BitVec 5) (sp : Sp) : Out :=
  let v := s.regs.getS a
  let e := s.core.eng
  matIssue s form [] (stepStop s v) (cSpan (ptrOff v) (256 * e.cstr) e.am) v 0#256 0#256 v 0#64 0 id sp

def execMma (a : BitVec 5) (sp : Sp) (s : State) : Out := matStep s (.mma a sp) a sp
def execMmaz (a : BitVec 5) (sp : Sp) (s : State) : Out := matStep s (.mmaz a sp) a sp
def execMrec (a : BitVec 5) (sp : Sp) (s : State) : Out := matStep s (.mrec a sp) a sp

/-! ### MSYNC and MSTAT (R197, R198) -/

/-- MSYNC waits until the local queue is empty (log 7). -/
def execMsync (sp : Sp) (s : State) : Out :=
  irrevocably s fun s =>
    match settleWhile (fun c => !c.eng.mq.isEmpty) 16 s with
    | some s => .next (s.retireIrrev (spLen sp) sp)
    | none => .next s.poll

/-- MSTAT's word (Table 9.7). -/
def Core.mstatWord (c : Core) : Word :=
  let e := c.eng
  let busy := e.mq.any MCmd.started || e.rq.any RCmd.started
  BitVec.ofNat 64 (c.tab.grants.length * 2 ^ 52 + e.cstr * 2 ^ 48 + e.elc.toNat * 2 ^ 32 + e.rflags.toNat * 2 ^ 26
    + (if busy then 2 ^ 25 else 0) + (e.rq.filter fun k => !k.started).length * 2 ^ 22 + waitingCmds e.mq * 2 ^ 20 + e.bt * 2 ^ 15 + e.at_ * 2 ^ 10 + e.am)

def execMstat (d : BitVec 5) (sp : Sp) (s : State) : Out :=
  .next ((s.setS d s.core.mstatWord).retire (spLen sp) sp)

/-! ### MCMD and MCAP (R199, R202) -/

/-- Payload of an MCMD packet (R199). -/
def mcmdPayload (e : Engines) : Nat := 16 + e.am * (8 * (e.at_ % 16) + 2)

def execMcmd (o b a : BitVec 5) (sp : Sp) (s : State) : Out :=
  let v := s.regs.getS a
  let w := s.regs.getS b
  let e := s.core.eng
  let charge := s.chargeOf v (mcmdPayload e)
  let stop :=
    if !accessOk s.dev.part v 0 true || ptrBuf v ≠ 2 || e.am = 0 || decide (32768 < ptrOff v + e.am * 256)
        || s.isLocal v && s.core.inShadow (ptrKey v) (256 * e.am) then
      some (causeBound, v)
    else if field w 38 26 ≠ 0 then some (causeBound, w)
    else if ptrOff v % 256 ≠ 0 then some (causeAlign, v)
    else if s.overMeter charge then some (causeMeter, v)
    else if !(capRights (w.setWidth 32)).testBit (mopOf o).bit then some (causeCaprej, w)
    else none
  matIssue s (.mcmd o b a sp) [] stop [] v 0#256 0#256 v w charge id sp

/-- The attenuated capability, or 0 (R202). -/
def mcapWord (key : BitVec 128) (cap mask : Word) : Word :=
  let c : BitVec 32 := cap.setWidth 32
  let x := field mask 32 8
  let y := field mask 40 8
  if capChkOf c ≠ capChk key (capSer c) (capRights c) x y then 0#64
  else BitVec.ofNat 64 (capWord key (capSer c) (capRights c &&& field mask 0 8) x y)

/-- MCAP (R202): s[d] takes its result as the form issues, and the command takes its place in the queue (R184, Table 9.3). -/
def execMcap (b a d : BitVec 5) (sp : Sp) (s : State) : Out :=
  let v := s.regs.getS a
  let w := s.regs.getS b
  let p := s.dev.part
  let stop :=
    if field v 32 32 ≠ 0 then some (causeBound, v)
    else if field w 8 24 ≠ 0 || field w 48 16 ≠ 0 || decide (pextWidth p.pext ≤ field w 32 8)
        || decide (pextHeight p.pext ≤ field w 40 8) then some (causeBound, w)
    else none
  matIssue s (.mcap b a d sp) [] stop [] 0#64 0#256 0#256 v w 0 id sp (fun s => s.setS d (mcapWord p.capkey v w))

/-! ### Remote commands (R200, R201) -/

def Body.isMcmd : Body → Bool
  | .mcmd _ => true
  | _ => false

/-- REMOTE_MATRIX_PACKET (R200): the packet enters the queue of four, and waits in the network while that is full. -/
def execRemoteMatrixPacket (src : CoreId) (s : State) : Out :=
  let path := s.pathOf src .data Body.isMcmd
  match s.recv src .data Body.isMcmd with
  | some (.mcmd r, t) =>
    if (t.core.eng.rq.filter fun k => !k.started).length ≥ 4 then .next s
    else .next (t.mapC fun c => { c with eng := { c.eng with rq := c.eng.rq ++ [{ r with path := path }] } })
  | _ => .next s

def Body.isMcmdDone : Body → Bool
  | .mcmdDone _ _ _ _ => true
  | _ => false

/-- The requester's residency is gone: retired or cancelled, and not saved (Table 9.8). -/
def State.ctxKnown (s : State) (ctx : BitVec 32) : Bool := s.dev.ctxs.any fun x => x.ctx = ctx

/-- A completion is applied to the requester's residency. -/
def State.mcmdDone (s : State) (r : RCmd) (fl : Flags) (err : Bool) : State :=
  let s := s.mapC fun c => { c.setTag r.tag err with
    eng := { c.eng with
      rflags := if err then c.eng.rflags else c.eng.rflags ||| fl
      outstanding := c.eng.outstanding - 1 } }
  if err then s.notice r.lhnd 4 causeCaprej r.tag.toNat (some r.pc) (r.cap.zeroExtend 64) r.target else s

/-- MCMD_COMPLETION at the requester (R201, Table 9.8, R287). -/
def execMcmdCompletion (src : CoreId) (qw : BitVec 16) (s : State) : Out :=
  let path := s.pathOf src .rep Body.isMcmdDone
  match s.recv src .rep Body.isMcmdDone with
  | some (.mcmdDone r fl err t, s) =>
    let s := s.takeTrailer src none false path t qw
    if s.core.ctx = r.ctx && s.core.cohort.isSome then .next (s.mcmdDone r fl err)
    else if s.ctxKnown r.ctx then
      .next (s.mapD fun d => { d with ctxs := logTo r.ctx (src, .rep, .mcmdDone r fl err t) d.ctxs })
    else if err then .next (s.notice r.lhnd 4 causeCaprej r.tag.toNat (some r.pc) (r.cap.zeroExtend 64) r.target)
    else .next s
  | _ => .next s

/-! ### The engine's own steps -/

/-- MATRIX_COMMAND_START (R187, R193, R200, R298, R301, R302). -/
def execMatrixCommandStart (s : State) : Out := .next s.matStart

/-- MATRIX_COMMAND_COMPLETION (R72, R81, R186, R187, R191 to R194, R201). -/
def execMatrixCommandCompletion (s : State) : Out := .next (s.matComplete.getD s)

end Sys2Proof.Machine
end

