-- ==== Sys2Proof/Machine/CopyForms.lean ====
section
/-!
DEFINITION. Sys2Proof/Machine/CopyForms.lean: the forms of majors 0x3C and 0x3D (R211 to R225), and the steps of the
Stencil engine and of the memory cores that serve it (R303 to R312).
-/
namespace Sys2Proof.Machine

/-! ### Records read through a local pointer (R107, R212, R223) -/

/-- A local pointer to `n` bytes of A or C that a plain local read may use. -/
def recordPtrOk (s : State) (v : Word) (n : Nat) : Bool :=
  bit v 63 && accessOk s.dev.part v n false && s.isLocal v && ptrBuf v ≠ 1 && !s.spanRefused [(ptrKey v, n)]

/-- A plain local read of a record at issue: touches, then the banks (R107, R219). -/
def readRecord (s : State) (v : Word) (n : Nat) (k : State → Out) : Out :=
  touching s [(ptrKey v, n)] v fun s => localBank s (ptrKey v) n false k

/-! ### Masks (R143) -/

/-- The mask of a tag form: s[a], or one tag. -/
def tagMask (s : State) (i : BitVec 11) (a : BitVec 5) : Word :=
  if a = 0#5 then 1#64 <<< (i.toNat % 64) else s.regs.getS a

/-! ### CBOX and CRED (R212, R213) -/

/-- A destination as the form names it, with the pointer that its checks use: with a Skim list X, Y and DEV are
ignored (R208). -/
def copyDstWord (b : Box) (v : Word) : Word := if bxMap b = 0 then v else v &&& ~~~0x7F00FFFF00000000#64

/-- Some destination core is the issuing core. -/
def State.landsHere (s : State) (b : Box) (v : Word) : Bool := (meshDests b v).contains s.core.id

/-- The destination fails a BOUND check of Table 10.3. -/
def State.dstFails (s : State) (red : Bool) (b : Box) (v : Word) : Bool :=
  let w := copyDstWord b v
  if bit v 63 then
    !accessOk s.dev.part w (bxBytes b) false || (red && ptrBuf w = 1) ||
      (s.landsHere b v &&
        if red then s.core.inShadow (ptrKey w) (bxBytes b) else (s.core.windowFor (ptrKey w) b).isNone)
  else !reservedOk v || !bxMesh b || bxMap b ≠ 0 || bxSwz b ≠ 0

/-- A CB destination fails a BOUND check of Table 10.3. A box of more slots than the CB has is none of these: its copy waits for free slots
(R163; log 30). -/
def State.cbDstFails (s : State) (b : Box) (h : Nat) : Bool :=
  bxQ b ≠ 0 || bxMap b ≠ 0 || bxSwz b ≠ 0 || (s.core.cbHome h).isNone

/-- A counter pointer fails a BOUND check of Table 10.3, or names a shadow range of this core (R218). -/
def State.ctrFails (s : State) (v : Word) : Bool := !accessOk s.dev.part v 8 true || s.isLocal v && s.core.inShadow (ptrKey v) 8

/-- The ends that R210 charges for a copy's destination. -/
def State.copyEnds (s : State) (b : Box) (cb : Option Nat) (v : Word) : List Word :=
  match cb with
  | some h => match s.core.cbHome h with
    | some (home, _, _) => [0x8000000000000000#64 ||| coordBits s.dev.part.memEntry home]
    | none => []
  | none => if bxMap b = 0 then [v] else (lattice b).map fun q => mkPtr q.1 q.2 0 0

/-- The first stop of Table 10.3 once the box is read: `v` names the box, `dst` the destination, `cb` a destination CB,
`ctr` the counter. METER reports s[a], which the table leaves open (DESIGN CHOICE, log 90). -/
def State.copyStop (s : State) (red : Bool) (v : Word) (b : Box) (cb : Option Nat) (dst : Word) (ctr : Option Word) :
    Option (Nat × Word) :=
  let dstAddr : Word := match cb with
    | some h => BitVec.ofNat 64 h
    | none => dst
  let dstBad : Bool := match cb with
    | some h => s.cbDstFails b h
    | none => s.dstFails red b dst
  if !s.boxValid b || decide ((bxRed b ≠ 0) ≠ red) then some (causeBound, v)
  else if dstBad then some (causeBound, dstAddr)
  else match ctr.filter s.ctrFails with
    | some c => some (causeBound, c)
    | none =>
      if bit v 63 && ptrOff v % 64 ≠ 0 then some (causeAlign, v)
      else match ctr.filter (fun c => ptrOff c % 8 ≠ 0) with
        | some c => some (causeAlign, c)
        | none =>
          if bxMesh b && ptrOff (bxSrc b) % bxAlign b ≠ 0 then some (causeAlign, v)
          else if cb.isNone && bit dst 63 && ptrOff dst % bxAlign b ≠ 0 then some (causeAlign, dst)
          else if s.overMeter (s.copyCharge b (s.copyEnds b cb dst)) then some (causeMeter, v)
          else none

/-- The memory cores that serve an external destination, in the order of their first bytes (R308). -/
def State.extDests (s : State) (b : Box) (base : Nat) : List CoreId :=
  let g := if bxRed b = 0 then 1 else (bxTy b).size
  (((List.range (bxBytes b)).filter fun k => k % g = 0).map fun k => s.serving (base + placeOf b k).toNat).dedup

/-- The destination of a walk and the cores whose completion it awaits. -/
def State.copyDst (s : State) (b : Box) (cb : Option Nat) (dst : Word) : CopyDst × List CoreId :=
  match cb with
  | some h => (.cb (BitVec.ofNat 4 h), match s.core.cbHome h with
    | some (home, _, _) => [home]
    | none => [])
  | none => if bit dst 63 then (.mesh dst, meshDests b dst) else (.ext dst.toNat, s.extDests b dst.toNat)

/-- Tags named by a copy or a binding are cleared (R212, R220). -/
def Core.clearTags (c : Core) (m : Word) : Core :=
  { c with tab := { c.tab with tags := c.tab.tags &&& ~~~m, tagerr := c.tab.tagerr &&& ~~~m } }

/-- The Stencil engine's queue of two is full (R28, R303). -/
def Core.copyQueueFull (c : Core) : Bool :=
  decide (2 ≤ (c.eng.walks.filter fun w => !w.active && w.win.isNone).length)

/-- CBOX and CRED: the box is read, the stops are taken in order, and the walk is queued behind the region's end. -/
def copyForm (red : Bool) (i : BitVec 11) (a d : BitVec 5) (sp : Sp) (s : State) : Out :=
  let len := spLen sp
  let v := s.regs.getS a
  let ptr := bit v 63
  let cb := if bit i 8 then some d.toNat else none
  let dst := s.regs.getS d
  let ctr := if bit i 6 then some (s.regs.getS (d + 1#5)) else none
  let tag : BitVec 6 := i.setWidth 6
  if ptr && !recordPtrOk s v 64 || !ptr && decide (s.dev.image.boxes.length ≤ v.toNat) then
    .next (s.stop causeBound len v)
  else
    settled s false (if ptr then [(ptrKey v, 64)] else []) fun s =>
      let b : Box := if ptr then recordOf 512 (s.core.readBytes (ptrKey v) 64) else s.dev.image.boxes.getD v.toNat 0#512
      match s.copyStop red v b cb dst ctr with
      | some (cause, addr) => .next (s.stop cause len addr)
      | none =>
        let issue (s : State) : Out := irrevocably s fun s => messagesFirst s fun s =>
          if s.core.copyQueueFull then .next s.poll
          else
            let (to_, pending) := s.copyDst b cb dst
            let walk := { s.newWalk (plainView b) to_ pending tag s.core.f.pc s.core.f.lhnd with
              ctr := ctr
              perd := bit i 7 }
            let charge := s.copyCharge b (s.copyEnds b cb dst)
            let s := s.mapC fun c => { c.clearTags (1#64 <<< tag.toNat) with eng := c.eng.addWalk walk }
            .next ((s.pay charge).retireIrrev len sp)
        if ptr then readRecord s v 64 issue else issue s

def execCbox (i : BitVec 11) (a d : BitVec 5) (sp : Sp) (s : State) : Out := copyForm false i a d sp s
def execCred (i : BitVec 11) (a d : BitVec 5) (sp : Sp) (s : State) : Out := copyForm true i a d sp s

/-! ### CCAN and CSTAT (R216) -/

/-- A walk whose tag is in a mask. -/
def Walk.tagged (m : Word) (w : Walk) : Bool := bit m w.tag.toNat

def execCcan (i : BitVec 11) (a : BitVec 5) (sp : Sp) (s : State) : Out :=
  let m := tagMask s i a
  irrevocably s fun s =>
    let s := s.cancelCopies (Walk.tagged m)
    if s.core.eng.walks.any (Walk.tagged m) then .next s.poll else .next (s.retireIrrev (spLen sp) sp)

/-- The tags that have an incomplete copy. -/
def Core.openTags (c : Core) : Word := c.eng.walks.foldl (fun m w => m ||| (1#64 <<< w.tag.toNat)) 0#64

def execCstat (i : BitVec 11) (a d : BitVec 5) (sp : Sp) (s : State) : Out :=
  .next ((s.setS d (tagMask s i a &&& s.core.openTags)).retire (spLen sp) sp)

/-! ### WDEF and WBIND (R217, R220) -/

def wrBuf (r : BitVec 64) : Nat := field r 30 2
def wrOff (r : BitVec 64) : Nat := field r 0 17
def wrSize (r : BitVec 64) : Nat := field r 32 16

/-- The window record is one that WDEF takes. -/
def windowRecordOk (r : BitVec 64) : Bool :=
  wrBuf r ≠ 3 && field r 17 13 = 0 && field r 48 16 = 0 && wrOff r % 512 = 0 && 1 ≤ wrSize r && wrSize r ≤ 64
    && decide (wrOff r + 1024 * wrSize r ≤ bufSize (wrBuf r))

def Core.overlapsWindow (c : Core) (r : BitVec 64) : Bool :=
  c.tab.win.toList.any fun w => w.defined &&
    rangesMeet (keyOf (wrBuf r) (wrOff r)) (1024 * wrSize r) w.key (2 * w.size)

/-- WDEF (R217): nothing changes the table between its check and its effect, so it may be checked again. -/
def execWdef (i : BitVec 11) (d : BitVec 5) (sp : Sp) (s : State) : Out :=
  let k := hOf d
  let idx : Word := i.zeroExtend 64
  let stop := match s.dev.image.windows[i.toNat]? with
    | none => some (causeBound, idx)
    | some r => if !windowRecordOk r || s.core.overlapsWindow r || (s.core.win k).defined then some (causeBound, idx) else none
  match stop with
  | some (cause, addr) => .next (s.stop cause (spLen sp) addr)
  | none => irrevocably s fun s =>
    let r := s.dev.image.windows.getD i.toNat 0#64
    let w := { Window.reset with defined := true, buf := wrBuf r, off := wrOff r, size := 512 * wrSize r }
    .next ((s.setWin k w).retireIrrev (spLen sp) sp)

/-- Pointer to the first visible byte of a window of the focused core. -/
def State.winPtr (s : State) (w : Window) : Word := let (x, y) := s.xy; mkPtr x y w.buf w.off

/-- The charge of one fill of a window (R210, R220). -/
def State.fillCharge (s : State) (w : Window) (b : Box) : Nat := s.copyCharge b [s.winPtr w]

/-- WBIND (R220). A misaligned mesh SRC stops with ALIGN, as it does a copy (Table 10.3): of ALIGN R220 says nothing (DESIGN CHOICE, log
95). -/
def execWbind (i : BitVec 11) (a d : BitVec 5) (sp : Sp) (s : State) : Out :=
  let k := hOf d
  let w := s.core.win k
  let idx : Word := i.zeroExtend 64
  let b := s.dev.image.boxes.getD i.toNat 0#512
  let tag : BitVec 6 := a.zeroExtend 6
  let bad := s.dev.image.boxes.length ≤ i.toNat || !s.boxValid b || bxMap b ≠ 0 || bxRed b ≠ 0 || bxSwz b ≠ 0
    || !w.admits w.key b
  let stop :=
    if !w.defined || w.st ≠ .absent || w.chain.isSome then some (causeBound, d.zeroExtend 64)
    else if bad then some (causeBound, idx)
    else if bxMesh b && ptrOff (bxSrc b) % bxAlign b ≠ 0 then some (causeAlign, idx)
    else if s.overMeter (s.fillCharge w b) then some (causeMeter, idx) else none
  checkedOnce s stop (spLen sp) fun s => irrevocably s fun s =>
    let w := s.core.win k
    let s := s.setWin k { w with bound := some ⟨b, tag, s.core.f.pc, s.core.f.lhnd⟩, started := false }
    let s := s.mapC fun c => c.clearTags (1#64 <<< tag.toNat)
    .next ((s.pay (s.fillCharge w b)).retireIrrev (spLen sp) sp)

/-! ### WPUB and WABS (R221, R222) -/

/-- WPUB (R221). One that waits on a FILLING window whose fill publishes itself meanwhile publishes when its own wait ends: whether that
second publish is meant, the spec does not say (DESIGN CHOICE, log 95). -/
def execWpub (a d : BitVec 5) (sp : Sp) (s : State) : Out :=
  let k := hOf a
  let stop := if (s.core.win k).defined then none else some (causeBound, a.zeroExtend 64)
  checkedOnce s stop (spLen sp) fun s => irrevocably s fun s =>
    let w := s.core.win k
    if w.st = .poisoned then .next ((s.setS d 1#64).retireIrrev (spLen sp) sp)
    else if w.pend ≠ 0 then .next s.poll
    else .next (((s.publish k s.core.f.pc).setS d 0#64).retireIrrev (spLen sp) sp)

/-- Issue the links that are due while the chain lets it (R223). -/
def issueDue (first : BitVec 4) : Nat → State → State
  | 0, s => s
  | n + 1, s =>
    match s.core.tab.chains.find? (fun ch => ch.first = first) with
    | none => s
    | some ch =>
      if ch.issued - ch.released < ch.depth then
        let t := s.issueLink ch
        if (t.core.tab.chains.find? fun x => x.first = first).map Chain.issued = some ch.issued then s
        else issueDue first n t
      else s

/-- WABS lets go of a chain window (R223, R310): the oldest unreleased link is released, and REL takes a sample. -/
def State.release (s : State) (k : BitVec 4) (ch : Chain) : State :=
  let now := s.core.clock
  let rel := match ch.lastAbs with
    | some t => some (smooth ch.rel (cyclesOf (now - t)))
    | none => ch.rel
  let w := s.core.win k
  let s := s.setWin k { w with nextLink := w.nextLink + ch.n }
  let s := s.mapC fun c => c.setChain { ch with released := ch.released + 1, rel := rel, lastAbs := some now }
  issueDue ch.first 16 s

/-- The window that WABS names may be released: the holder of its chain's oldest unreleased link (R222). -/
def Chain.holds (ch : Chain) (k : BitVec 4) : Bool :=
  decide (ch.released < ch.issued) && k = ch.first + BitVec.ofNat 4 (ch.released % ch.n)

def execWabs (a : BitVec 5) (sp : Sp) (s : State) : Out :=
  let k := hOf a
  let w := s.core.win k
  let num : Word := a.zeroExtend 64
  let charge := match w.chain, w.bound with
    | none, some b => s.fillCharge w b.box
    | _, _ => 0
  let stop :=
    if !w.defined then some (causeBound, num)
    else match s.core.chainOf k with
      | some ch => if ch.holds k then none else some (causeBound, num)
      | none => if s.overMeter charge then some (causeMeter, num) else none
  checkedOnce s stop (spLen sp) fun s => irrevocably s fun s =>
    let w := s.core.win k
    let waits := match w.st with
      | .present => false
      | .filling => w.pend ≠ 0 || w.fill || s.core.eng.walks.any fun x => x.win = some k
      | .absent | .poisoned => w.pend ≠ 0
    if waits then .next (s.setWin k { w with noPublish := true }).poll
    else
      -- the next fill, or the link that this window holds next, is armed here (R245)
      let bound := w.bound.map fun b => { b with pc := s.core.f.pc, lhnd := s.core.f.lhnd }
      let s := s.setWin k { w with st := .absent, started := false, noPublish := false, bound := bound }
      let s := match s.core.chainOf k with
        | some ch => s.release k ch
        | none => s
      .next ((s.pay charge).retireIrrev (spLen sp) sp)

/-! ### Chains (R223 to R225) -/

/-- The first window of a would-be chain that fails its condition. -/
def Core.chainFails (c : Core) (d : BitVec 4) (n : Nat) : Option Nat :=
  let w0 := c.win d
  (List.range n).find? fun j =>
    let w := c.win (d + BitVec.ofNat 4 j)
    if j = 0 then !w.defined || w.bound.isNone || w.chain.isSome || w.st = .poisoned
    else !w.defined || w.st ≠ .absent || w.bound.isSome || w.chain.isSome || w.size ≠ w0.size

/-- The descriptor is one that a chain of this box takes. -/
def descOk (ds : BitVec 128) (b : Box) : Bool :=
  dL ds ≠ 0 && (List.range 5).all (fun k => k < bxRank b || dT ds k = 0) && (bxQ b = 0 || linkStep ds b % 32 = 0)

/-- The windows of a new chain: each holds its own link, bound to the first window's box and tag. -/
def chainWindows (d : BitVec 4) (b : Bound) : Nat → State → State
  | 0, s => s
  | j + 1, s =>
    let k := d + BitVec.ofNat 4 j
    let w := s.core.win k
    let bound := if j = 0 then w.bound else some b
    chainWindows d b j (s.setWin k { w with chain := some d, nextLink := j, bound := bound })

def execWstep (i : BitVec 11) (a d : BitVec 5) (sp : Sp) (s : State) : Out :=
  let len := spLen sp
  let k := hOf d
  let n := i.toNat
  let v := s.regs.getS a
  if s.core.f.irrev = false ∧ (n < 2 ∨ 16 < n ∨ 16 < k.toNat + n) then .next (s.stop causeBound len (i.zeroExtend 64))
  else match (if s.core.f.irrev then none else s.core.chainFails k n), (s.core.win k).bound with
    | some j, _ => .next (s.stop causeBound len (BitVec.ofNat 64 (k.toNat + j)))
    | none, none => .next (s.stop causeBound len (d.zeroExtend 64))
    | none, some b =>
      if !recordPtrOk s v 16 then .next (s.stop causeBound len v)
      else settled s false [(ptrKey v, 16)] fun s =>
        let ds : BitVec 128 := recordOf 128 (s.core.readBytes (ptrKey v) 16)
        let charge := (dL ds - 1) * s.fillCharge (s.core.win k) b.box
        if !descOk ds b.box then .next (s.stop causeBound len v)
        else if ptrOff v % 16 ≠ 0 then .next (s.stop causeAlign len v)
        else if s.overMeter charge then .next (s.stop causeMeter len v)
        else readRecord s v 16 fun s => irrevocably s fun s =>
          let started := (s.core.win k).started
          let ch : Chain :=
            { first := k
              n := n
              desc := ds
              issued := if started then 1 else 0
              released := 0
              dmin := 1
              dmax := n
              lat := none
              rel := none
              lastAbs := none }
          let s := chainWindows k { b with pc := s.core.f.pc, lhnd := s.core.f.lhnd } n s
          let s := s.mapC fun c => { c with tab := { c.tab with chains := c.tab.chains ++ [ch] } }
          .next (((issueDue k 16 s).pay charge).retireIrrev len sp)

/-- A field of WDEPTH, in which 0 stands for 16. -/
def depthField (n : Nat) : Nat := if n = 0 then 16 else n

def execWdepth (a d : BitVec 5) (sp : Sp) (s : State) : Out :=
  let k := hOf d
  let v := s.regs.getS a
  let lo := depthField (field v 0 4)
  let hi := depthField (field v 4 4)
  let bad := field v 8 56 ≠ 0 || match s.core.tab.chains.find? (fun ch => ch.first = k) with
    | none => true
    | some ch => decide (hi < lo) || decide (ch.n < hi)
  checkedOnce s (if bad then some (causeBound, v) else none) (spLen sp) fun s => irrevocably s fun s =>
    let s := s.mapC fun c => { c with tab := { c.tab with chains := c.tab.chains.map fun ch =>
      if ch.first = k then { ch with dmin := lo, dmax := hi } else ch } }
    .next ((issueDue k 16 s).retireIrrev (spLen sp) sp)

/-- WQRY's snapshot (Table 10.5). NL of a window whose link has issued is that link until WABS adds n to it: which link is "next" there,
the spec does not say (DESIGN CHOICE, log 95). -/
def Core.wqryWord (c : Core) (k : BitVec 4) : Word :=
  let w := c.win k
  let st := match w.st with | .absent => 0 | .filling => 1 | .present => 2 | .poisoned => 3
  let own := 32 + (if w.bound.isSome then 8 else 0) + (if w.half then 4 else 0) + st + w.pend * 2 ^ 8
    + (match w.bound with | some b => b.tag.toNat * 2 ^ 16 | none => 0)
  if !w.defined then 0#64
  else match c.chainOf k with
    | none => BitVec.ofNat 64 own
    | some ch => BitVec.ofNat 64 (own + 16 + ch.depth % 16 * 2 ^ 24 + ch.first.toNat * 2 ^ 28
        + ch.released % 2 ^ 16 * 2 ^ 32 + w.nextLink % 2 ^ 16 * 2 ^ 48)

def execWqry (a d : BitVec 5) (sp : Sp) (s : State) : Out :=
  .next ((s.setS d (s.core.wqryWord (hOf a))).retire (spLen sp) sp)

/-! ### The Stencil engine's steps (R303 to R306, R223) -/

/-- WALK_ACTIVATION. -/
def execWalkActivation (s : State) : Out := .next (s.mapC fun c => { c with eng := c.eng.activate })

def Body.isFlit : Body → Bool
  | .flit _ _ _ | .flitFail _ _ _ => true
  | _ => false

/-- COPY_FLIT_ARRIVAL: a flit that may not be written yet, or only in part, stays in the network. -/
def execCopyFlitArrival (src : CoreId) (s : State) : Out :=
  let path := s.pathOf src .data Body.isFlit
  match s.recv src .data Body.isFlit with
  | some (.flit h at_ bytes, t) => match (if s.core.tear then s.flitPart src h at_ bytes else none) with
    | some u => .next u
    | none => .next ((t.flitArrive src path h at_ bytes).getD s)
  | some (.flitFail h code addr, t) => .next (t.failArrive src path h code addr)
  | _ => .next s

def Body.isCopied : Body → Bool
  | .copied _ _ _ _ => true
  | _ => false

/-- A saved context of this core. -/
def Context.isOf (c : CoreId) (x : Context) : Bool := match x.core with | some k => k.id = c | none => false

/-- COPY_COMPLETION at the issuer (R214, R305, R287, R328). -/
def execCopyCompletion (src : CoreId) (qw : BitVec 16) (s : State) : Out :=
  let path := s.pathOf src .rep Body.isCopied
  match s.recv src .rep Body.isCopied with
  | some (.copied walk ctx err t, s) =>
    let s := s.takeTrailer src none false path t qw
    if s.core.ctx = ctx && s.core.eng.walks.any (fun w => w.num = walk) then .next (s.copied src walk err)
    else .next (s.mapD fun d => { d with ctxs := logTo ctx (src, .rep, .copied walk ctx err t) d.ctxs })
  | _ => .next s

/-- CHAIN_LINK_ISSUE: the chain that holds this window issues its next link if it is due. -/
def execChainLinkIssue (win : BitVec 4) (s : State) : Out :=
  match s.core.chainOf win with
  | some ch => .next (issueDue ch.first 1 s)
  | none => .next s

/-! ### Memory cores (R308, R312, R289, R290) -/

/-- The walks of pager cores and of the control cluster may use kernel-reserved leaves (R291). -/
def kernelCore : CoreId → Bool
  | .pager _ _ | .control => true
  | .mesh _ _ | .memory _ _ | .far _ _ _ | .port _ => false

def Body.isPull : Body → Bool
  | .pull _ _ _ _ _ => true
  | _ => false

/-- A translated page of a part: its number, where it lies, and whether that is host memory. -/
structure PagePlace where
  page : Nat
  pa : Nat
  host : Bool
deriving DecidableEq, Repr

/-- Where a byte of the source lies: in the page that holds it. -/
def pagePlace (ps : List PagePlace) (a : Nat) : Bool × Nat :=
  match ps.find? fun p => p.page = a / 4096 with
  | some p => (p.host, p.pa + a % 4096)
  | none => (false, 0)

/-- Stream bytes whose source lies in translated pages. -/
def View.fromPages (v : View) (d : Device) (ps : List PagePlace) (k n : Nat) : List Byte :=
  (List.range n).map fun t => (v.stream (k + t)).value fun a =>
    (d.physRead (pagePlace ps a).1 (pagePlace ps a).2 1).headD 0#8

/-- The flits of a part. -/
def sendFlits (h : CopyHdr) (dst : CoreId) (ps : List PagePlace) : Nat → Nat → Nat → State → State
  | 0, _, _, s => s
  | fuel + 1, k, n, s =>
    if n = 0 then s
    else
      let m := Nat.min n (flitLen h.view.box k)
      sendFlits h dst ps fuel (k + m) (n - m) (s.send dst .data (.flit h k (h.view.fromPages s.dev ps k m)))

/-- The memory core serves a request of a copy: one whose page has come and that it took before, or else the next of its flow. `serve` says
whether the request still waits for a pager. One that waits is taken from the fabric and held, and so are the later ones of its source
behind it: each source's requests are served in the order of their arrival (R256, R290, R330). -/
def State.memServe (s : State) (src : CoreId) (net : Net) (p : Body → Bool) (serve : State → Packet → Bool × State) : State :=
  let c := s.core
  match (c.taken.find? fun k => k.src = src).filter fun k => p k.body && !(serve s k).1 with
  | some k => (serve (s.mapC fun c => { c with taken := c.taken.erase k }) k).2
  | none => match s.recvPacket src net p with
    | none => s
    | some (k, t) =>
      let hold (s : State) : State := s.mapC fun c => { c with taken := c.taken ++ [k] }
      if c.taken.any (fun j => j.src = src) then hold t
      else
        let r := serve t k
        if r.1 then hold r.2 else r.2

/-- The answer of a memory core to a copy's issuer (R325, R326). -/
def State.copyAnswer (s : State) (h : CopyHdr) (k : Packet) (err : Option (Nat × Word)) : State :=
  s.send h.issuer .rep (.copied h.walk h.ctx err (s.trailer k.path k.src 16 none 0#16))

/-- A part of an external source is translated and streamed. A denied walk completes the copy with code 3, a source sector with an
uncorrectable error with code 1 (R214, R312). -/
def State.servePull (s : State) (k : Packet) : Bool × State :=
  match k.body with
  | .pull h dst at_ len _ =>
    match h.view.pageOf at_ len with
    | none => (false, sendFlits h dst [] (len + 1) at_ len s)
    | some page =>
      -- the last element may reach into the next page
      let pages := if (h.view.addrs at_ len).all fun a => a / 4096 = page then 1 else 2
      match s.paged (4096 * page) (4096 * pages) false (some (h.issuer, h.walk)) h.ctx (kernelCore h.issuer) with
      | .waiting _ _ u => (true, u)
      | .denied va u => (false, u.copyAnswer h k (some (3, BitVec.ofNat 64 va)))
      | .done parts u =>
        let ps := ((List.range pages).zip parts).map fun p => PagePlace.mk (page + p.1) p.2.1 p.2.2.2
        match (h.view.addrs at_ len).find? fun a => u.dev.badExt.contains ((pagePlace ps a).1, (pagePlace ps a).2 / 32) with
        | some a => (false, u.copyAnswer h k (some (1, BitVec.ofNat 64 a)))
        | none => (false, sendFlits h dst ps (len + 1) at_ len u)
  | _ => (false, s)

/-- PULL_REQUEST (R312). -/
def execPullRequest (src : CoreId) (s : State) : Out := .next (s.memServe src .req Body.isPull State.servePull)

def Body.isStore : Body → Bool
  | .store _ _ _ _ => true
  | _ => false

/-- One write or reduction, indivisibly (R308). The memory core completes the copy with its last part, or at once when a walk is denied,
and takes no more of it then (R214, R325). -/
def State.serveStore (s : State) (k : Packet) : Bool × State :=
  match k.body with
  | .store h addr data last =>
    if (s.core.landing h).any Landing.dead then (false, s)
    else match s.paged addr data.length true (some (h.issuer, h.walk)) h.ctx (kernelCore h.issuer) with
    | .waiting _ _ u => (true, u)
    | .denied va u =>
      (false, (u.mapC fun c => c.setLanding (deadLanding h)).copyAnswer h k (some (3, BitVec.ofNat 64 va)))
    | .done ps u =>
      let b := h.view.box
      let bs := if bxRed b = 0 then data
        else redBytes (bxRed b) (bxTy b) data.length (physReads u.dev ps) data
      let u := u.mapD (physWrites ps bs)
      (false, if last then u.copyAnswer h k none else u)
  | _ => (false, s)

/-- STORER_REQUEST (R308). -/
def execStorerRequest (src : CoreId) (s : State) : Out := .next (s.memServe src .data Body.isStore State.serveStore)

end Sys2Proof.Machine
end

