-- ==== Sys2Proof/Machine/Home.lean ====
section
/-!
DEFINITION. Sys2Proof/Machine/Home.lean: the home's side of remote accesses (R108, R110, R125, R144, R245 to R248) and the
requester's reply unit (R325 to R329).
-/
namespace Sys2Proof.Machine

/-- Bank number of a key as the delay accumulators count it (R328). -/
def dacBank (key : Nat) : Nat := keyOff key / 8192

/-- A mesh pointer to a key of the focused core. -/
def State.ptrHere (s : State) (key : Nat) : Word :=
  let (x, y) := whereXY s.dev.part s.core.id
  mkPtr x y (keyBuf key) (keyOff key)

/-- The answer that carries a region stop, with the PC that travelled with the request (R245). -/
def State.conflictReply (s : State) (e : Scrim) (key pc : Nat) : Reply :=
  .conflict (sectorPtr s.dev.part s.core.id (s.core.phys' key)) (agentWord s.dev.part.memEntry e.agent) pc

/-- BOUND from the home for a shadow range (R218). -/
def State.shadowReply (s : State) (key : Nat) : Reply := .refuse (BitVec.ofNat 8 causeBound) (s.ptrHere key)

/-! ### Plain loads, probes, commits and closes at the home -/

def Body.isPlainAccess : Body → Bool
  | .access _ _ _ _ (.read _) _ _ | .access _ _ _ _ (.readInv _) _ _ => true
  | _ => false

/-- A plain access at its bank (R245, R112): the state with its answer on the way, or the bank that has no entry for it and the
agent of the oldest open entry there (R248). `kept` counts the accesses that each bank holds in front of this one. -/
def State.serveRead (s : State) (kept : Nat → Nat) (src : CoreId) (path : List Site) : Body → Except (Nat × Option Agent) State
  | .access tok a pc key0 op _ n =>
    let tr := s.trailer path src (dacBank key0) n a.ser
    let reply (s : State) (r : Reply) : State := s.answer src tok r none tr
    let inv := match op with | .readInv _ => true | _ => false
    let key := if inv then key0 / 32 * 32 else key0
    if s.core.inShadow key op.size then .ok (reply s (s.shadowReply key0))
    else
      let data := Reply.data (s.core.readBytes key op.size)
      if inv then .ok (reply (s.readOf key op.size) data)
      else
        let secs := s.core.sectors key op.size
        match s.core.bankAccess a secs false false ((bankOf key).getD 0) kept with
        | .conflict e => .ok (reply s (s.conflictReply e (e.hitKey secs false) pc))
        | .full bank oldest => .error (bank, oldest)
        | .ok table => .ok (reply ((s.readOf key op.size).mapC fun c => { c with scrim := table }) data)
  | _ => .ok s

/-- The access of this other core that its bank has held longest. -/
def Core.slotOf (c : Core) (src : CoreId) : Option Slotted :=
  c.slots.find? fun x => x.src = src && src ≠ c.id && (c.slots.find? fun y => y.bank = x.bank) = some x

/-- A new access is taken: a bank without an entry for it asks for a split, and holds up to two accesses; a third stays in the
network, and what follows it with it (R248). -/
def State.takeRead (s : State) (src : CoreId) : State :=
  match s.recvPacket src .req Body.isPlainAccess with
  | none => s
  | some (k, t) => match t.serveRead t.core.slotted src k.path k.body with
    | .ok t => t
    | .error (bank, oldest) =>
      if t.core.slotted bank < 2 then
        (t.mapC fun c => { c with slots := c.slots ++ [⟨src, bank, k.body, k.path, c.halves⟩] }).askSplit oldest
      else s.askSplit oldest

/-- REMOTE_ACCESS_REQUEST (R245, R248, R112): a held access takes the entry that is free for it before a new one comes, under the
halves with which it entered (R239); one that finds none again has a split asked for again. -/
def execRemoteAccessRequest (src : CoreId) (s : State) : Out :=
  match s.core.slotOf src with
  | some x => match (s.mapC fun c => c.setHalves x.halves).serveRead (fun _ => 0) src x.path x.body with
    | .ok t => .next (t.mapC fun c => { c.setHalves s.core.halves with slots := c.slots.erase x })
    | .error (_, oldest) => .next ((s.askSplit oldest).takeRead src)
  | none => .next (s.takeRead src)

def Body.isProbe : Body → Bool
  | .probe _ _ _ _ _ => true
  | _ => false

/-- PROBE_ARRIVAL (R108, R245, R218): the store is staged as an open write at its physical place. -/
def execProbeArrival (src : CoreId) (s : State) : Out :=
  match s.recv src .req Body.isProbe with
  | some (.probe tok a pc key data, t) =>
    let tr := t.trailer (s.pathOf src .req Body.isProbe) src (dacBank key) (some data.length) a.ser
    let reply (t : State) (r : Reply) : Out := .next (t.answer src tok r none tr)
    if t.core.inShadow key data.length then reply t (t.shadowReply key)
    else
      let secs := t.core.sectors key data.length
      let via := (bankOf key).getD 0
      match t.core.bankAccess a secs true true via t.core.slotted with
      | .conflict e => reply t (t.conflictReply e (e.hitKey secs true) pc)
      | .full _ _ => .next s
      | .ok table =>
        reply (t.mapC fun c => { c with scrim := table, staged := c.staged ++ [⟨a, c.phys' key, data, via⟩] }) .ok
  | _ => .next s

def Body.isCommit : Body → Bool
  | .commit _ _ _ | .commitExt _ _ => true
  | _ => false

/-- Staged data applies at its physical place (R108, R235). -/
def applyStaged : List Staged → Core → Core
  | [], c => c
  | x :: xs, c =>
    let cells := ((List.range x.data.length).zip x.data).map fun p => (x.key + p.1, p.2)
    applyStaged xs { c with mem := c.mem.storeCells cells }

/-- The write map of an agent's entry while these stores stay staged. -/
def stagedMap (bank : Nat) (left : List Staged) : BitVec 256 :=
  left.foldl (fun m x => if bankOf x.key = some bank then setSector m (sectorOf x.key) else m) 0#256

/-- The staged stores of an agent that `now` selects apply; an entry whose last one applies is free, and another keeps the
sectors of those that are left (R244, R250). -/
def Core.commitSome (c : Core) (a : Agent) (now : Staged → Bool) : Core :=
  let mine := c.staged.filter fun x => x.agent = a
  let left := mine.filter fun x => !now x
  let banks := mine.filterMap fun x => bankOf x.key
  { applyStaged (mine.filter now) c with
    staged := c.staged.filter fun x => x.agent ≠ a || !now x
    scrim := c.scrim.filterMap fun e =>
      if e.agent ≠ a || !banks.contains e.bank then some e
      else if stagedMap e.bank left = 0#256 then none
      else some { e with wr := stagedMap e.bank left } }

/-- The storer of a memory core applies the stores of a region to external memory, oldest first (R108, R256). -/
def applyExternal : List (Nat × Bool × List Byte) → Device → Device
  | [], d => d
  | (pa, host, bs) :: r, d => applyExternal r (d.physWrite host pa bs)

/-- COMMIT_ARRIVAL (R108, R244): the agent's staged stores apply, each sector by itself in an order that the spec leaves free
(Table 12.3); the acknowledgment leaves with the last. -/
def execCommitArrival (src : CoreId) (s : State) : Out :=
  match s.recv src .req Body.isCommit with
  | some (.commit a scope bank, t) =>
    let mine := t.core.staged.filter fun x => x.agent = a
    let sectors := (mine.map fun x => x.key / 32).dedup
    if sectors.length ≤ 1 || !s.core.tear then
      let t := t.mapC fun c => c.commitSome a fun _ => true
      .next (t.send src .rep (.ack scope none (t.trailer (s.pathOf src .req Body.isCommit) src bank none a.ser)))
    else
      let (w, s) := s.free
      let sector := sectors.getD (w.toNat % sectors.length) 0
      .next (s.mapC fun c => { c.commitSome a (fun x => x.key / 32 = sector) with tear := false })
  | some (.commitExt a ws, t) =>
    -- behind what the core has sent to the storer before (R256)
    if s.core.taken.any fun k => k.src = src then .next s
    else
    let t := t.mapD (applyExternal ws)
    .next (t.send src .rep (.ack 3 none (t.trailer [] src 16 none a.ser)))
  | _ => .next s

def Body.isClose : Body → Bool
  | .close _ _ _ => true
  | _ => false

/-- A slotted access is this agent's, and named this bank. -/
def Slotted.isOf (x : Slotted) (a : Agent) (bank : Nat) : Bool :=
  match x.body with
  | .access _ b _ key _ _ _ => b = a && (bankOf key).getD 0 = bank
  | _ => false

/-- A close of one bank (R246, R279): entries that only accesses naming this bank opened turn closing, with WR alone, while
staged writes remain there, and are free otherwise; a discard takes the staged writes with it. An abandoned access that the
bank still holds goes (R248). -/
def Core.closeAgent (c : Core) (a : Agent) (bank : Nat) (discard : Bool) : Core :=
  let staged := if discard then c.staged.filter fun x => x.agent ≠ a || x.via ≠ bank else c.staged
  let waits (e : Scrim) : Bool := staged.any fun x => x.agent = a && bankOf x.key = some e.bank
  { c with
    staged := staged
    slots := c.slots.filter fun x => !x.isOf a bank
    scrim := c.scrim.filterMap fun e =>
      if e.agent ≠ a || !e.via.contains bank then some e
      else if e.via ≠ [bank] then some { e with via := e.via.erase bank }
      else if waits e then some { e with closing := true, rd := 0#256 } else none }

/-- CLOSE_MESSAGE (R246). -/
def execCloseMessage (src : CoreId) (s : State) : Out :=
  match s.recv src .req Body.isClose with
  | some (.close a bank discard, t) =>
    let t := t.mapC fun c => c.closeAgent a bank discard
    .next (t.send src .rep (.closeAck (t.trailer (s.pathOf src .req Body.isClose) src 16 none a.ser)))
  | _ => .next s

def Body.isSplit : Body → Bool
  | .split _ => true
  | _ => false

/-- SPLIT_REQUEST (R248): the named agent's region ends at this boundary; an agent that has left it takes no notice. -/
def execSplitRequest (src : CoreId) (s : State) : Out :=
  match s.recv src .req Body.isSplit with
  | some (.split a, t) =>
    let closing := match t.core.f.wait with | .probes _ _ => true | _ => false
    if t.core.busy && t.core.agent = a && !closing then .next t.split else .next t
  | _ => .next s

/-! ### Sync accesses and CB operations at the home -/

def Body.isSync : Body → Bool
  | .access _ _ _ _ op _ _ => match op with
    | .read _ | .readInv _ => false
    | .syncRead _ | .syncWrite _ | .atomic _ _ _ _ | .claim _ _ | .counter _ => true
  | .bump _ _ _ _ _ => true
  | _ => false

/-- Register a request that waits at its home. -/
def State.addWait (s : State) (w : HomeWait) : State := s.mapC fun c => { c with q := { c.q with waits := c.q.waits ++ [w] } }

def State.dropWait (s : State) (tok : Nat) : State :=
  s.mapC fun c => { c with q := { c.q with waits := c.q.waits.filter fun w => w.tok ≠ tok } }

/-- A sync access at the bank answers, waits, or meets a conflict. A counter that is waited for is the one of the half that showed as the
request entered (R239). -/
def State.serveSync (s : State) (src : CoreId) (path : List Site) (tok : Nat) (a : Agent) (pc key : Nat) (op : BankOp)
    (low : Option Nat) (n : Option Nat) : State :=
  let tr := s.trailer path src (dacBank key) n a.ser
  if s.core.inShadow key op.size then s.answer src tok (s.shadowReply key) low tr
  else match s.bankSync a key op with
    | .conflict e at_ => s.answer src tok (s.conflictReply e at_ pc) low tr
    | .wait => match op with
      | .counter target => s.addWait ⟨src, tok, a, .counter key target pc, low, n, path, s.core.halves⟩
      | _ => s
    | .done r t => match low with
      | some sc => t.send src .rep (.ack sc (some tok) tr)
      | none => t.answer src tok r none tr

/-- A waiting counter request of this source whose target is reached. -/
def State.readyCounter (s : State) (src : CoreId) : Option (HomeWait × Nat × Word × Nat) :=
  s.core.q.waits.findSome? fun w =>
    match w.op with
    | .counter key target pc =>
      if w.src = src && decide (target.toNat ≤ (s.core.setHalves w.halves).longAtKey key) then some (w, key, target, pc) else none
    | .cb _ _ => none

/-- SYNC_ACCESS_ARRIVAL (R110, R144, R214): a waiting counter request is tested again before a new access is taken. -/
def execSyncAccessArrival (src : CoreId) (s : State) : Out :=
  match s.readyCounter src with
  | some (w, key, target, pc) =>
    let t := (s.dropWait w.tok).mapC fun c => c.setHalves w.halves
    .next ((t.serveSync src w.path w.tok w.agent pc key (.counter target) w.low w.n).mapC fun c => c.setHalves s.core.halves)
  | none =>
    let path := s.pathOf src .req Body.isSync
    match s.recv src .req Body.isSync with
    | some (.access tok a pc key op low n, t) => .next (t.serveSync src path tok a pc key op low n)
    | some (.bump walk key ctx pc a, t) =>
      let secs := t.core.sectors key 8
      if t.heldBack a secs then .next s
      else
        let answer (t : State) (err : Option (Nat × Word)) : Out :=
          .next (t.send src .rep (.copied walk ctx err (t.trailer path src 16 none 0#16)))
        -- a counter in a shadow range is refused (R218)
        if t.core.inShadow key 8 then answer t (some (2, corePtr t.dev.part t.core.id (keyBuf key) (keyOff key)))
        else answer (t.bumpAt key pc (engineWord t.dev.part.memEntry 2 src)) none
    | _ => .next s

def Body.isCb : Body → Bool
  | .cb _ _ _ _ _ _ => true
  | _ => false

/-- A CB operation acts at the home, waits, or is refused; one that would wait for a CB of a cancelled launch ends with the cancel (R125,
R126). -/
def State.serveCb (s : State) (src : CoreId) (path : List Site) (tok : Nat) (a : Agent) (handle : Nat) (op : CbOp)
    (low : Option Nat) (n : Option Nat) : State :=
  let tr := s.trailer path src (s.core.cbBank handle op) n a.ser
  match s.cbAct src a handle op with
  | .wait =>
    if s.homeCancelled handle then s.answer src tok (.cancelled (cbHandlePtr s.dev.part s.core.id handle)) low tr
    else s.addWait ⟨src, tok, a, .cb handle op, low, n, path, 0#16⟩
  | .refuse cause addr => s.answer src tok (.refuse (BitVec.ofNat 8 cause) addr) low tr
  | .conflict e key => s.answer src tok (s.conflictReply e key 0) low tr
  | .done ws t => match low with
    | some sc => t.send src .rep (.ack sc (some tok) tr)
    | none => t.answer src tok (.words ws) none tr

/-- The home of this handle has been saved with its residency, and the core holds no other home of that number (R284). -/
def State.savedHome (s : State) (handle : Nat) : Bool :=
  let home (c : Core) : Bool := match c.cbAt handle with
    | .home _ _ _ _ _ _ _ => true
    | .link _ _ _ | .empty => false
  !home s.core && s.dev.ctxs.any fun x => match x.core with | some c => c.id = s.core.id && home c | none => false

/-- A waiting CB request of this source that can act now. -/
def State.readyCb (s : State) (src : CoreId) : Option (HomeWait × Nat × CbOp) :=
  s.core.q.waits.findSome? fun w =>
    match w.op with
    | .cb h op =>
      if w.src = src && !s.savedHome h then match s.cbAct src w.agent h op with
        | .wait => none
        | _ => some (w, h, op)
      else none
    | .counter _ _ _ => none

/-- CB_REQUEST (R125): a waiting request is tested again before a new one is taken. A request waits while its home is saved. -/
def execCbRequest (src : CoreId) (s : State) : Out :=
  match s.readyCb src with
  | some (w, h, op) => .next ((s.dropWait w.tok).serveCb src w.path w.tok w.agent h op w.low w.n)
  | none =>
    match s.recv src .req Body.isCb with
    | some (.cb tok a h op low n, t) =>
      if s.savedHome h then .next s else .next (t.serveCb src (s.pathOf src .req Body.isCb) tok a h op low n)
    | _ => .next s

/-! ### The reply unit (R325 to R329) -/

def Body.isReply : Body → Bool
  | .reply _ _ _ _ | .regionStop _ _ _ _ => true
  | _ => false

/-- Length of the instruction at the pc, for TNPC. -/
def Core.lenHere (c : Core) : Nat := (parcelsLen (c.parcels c.f.pc 6)).getD 4

/-- The running firing takes a reply to its own request: the result waits for its instruction, a conflict is a region stop
reporting the instruction the firing still stands at (R245), a refusal is a precise stop there (R126, R218). -/
def State.takeReply (s : State) (r : Reply) (got : List Byte) : State :=
  match r with
  | .conflict addr other _ => s.regionStop causeConflict s.core.f.pc addr other none none
  | .refuse cause addr => s.stop cause.toNat s.core.lenHere (addr - BitVec.ofNat 64 got.length)
  | .data _ | .words _ | .ok => s.setWait (.replied r got)
  | .cancelled _ => s.discardRegion.endFiring

/-- A granted, stopped or refused probe of a closing region: a stop reports the held store's instruction (R108, R245, R218). -/
def State.probeReply (s : State) (tok : Nat) (toks : List Nat) (next : After) (r : Reply) : State :=
  match r with
  | .conflict addr other pc => s.regionStop causeConflict pc addr other none none
  | .refuse cause addr =>
    let part := s.core.f.region.held.find? fun h => h.tgt = ptrCore addr && h.key = ptrKey addr
    let s := s.discardRegion
    let s := s.mapF Firing.restore
    s.stopWith cause.toNat s.core.f.pc s.core.f.pc ((part.map Held.ea).getD addr)
  | .data _ | .words _ | .ok =>
    let left := toks.erase tok
    if left.isEmpty then s.granted next else s.setWait (.probes left next)
  | .cancelled _ => s

/-- The firing waits for the reply with this token. -/
def Firing.waitsFor (f : Firing) (tok : Nat) : Bool :=
  match f.wait with
  | .reply k _ => k = tok
  | _ => false

/-- A parked firing takes a reply: a conflict puts it back at its instruction, as a region stop does. -/
def Parked.takeReply (p : Parked) (r : Reply) (order : Nat) : Parked :=
  match r with
  | .conflict addr other _ =>
    { p with f := { p.f.stopped causeConflict p.f.pc addr other with wait := Wait.none }, ready := some order }
  | .data _ | .words _ | .ok | .refuse _ _ | .cancelled _ =>
    { p with f := { p.f with wait := .replied r [] }, ready := some order }

/-- Order number for the next parked firing whose condition comes to hold (Table 14.2, rank 1). -/
def nextReady (l : List Parked) : Nat := l.foldl (fun m p => Nat.max m ((p.ready.map (· + 1)).getD 0)) 0
def Queues.nextReady (q : Queues) : Nat := Machine.nextReady q.parked

/-- A nest's claim has its answer: a chunk, or the end of the nest (R116, R273). -/
def claimed (tok : Nat) (next c : Nat) (b : Binding) : Binding :=
  match b with
  | .nest r m p n k (some t) =>
    if t ≠ tok then b
    else if c = 0 then (if k = 0 then .empty else .nest r m p n k none)
    else .nest r m p (if k = 0 then next else n) (k + c) none
  | _ => b

/-- The reply to a nest's claim: a conflict lets it be made again; a refusal ends the binding (R245, R218). -/
def claimReply (tok : Nat) (r : Reply) (b : Binding) : Binding :=
  match r, b with
  | .words (next :: k :: _), b => claimed tok next.toNat k.toNat b
  | .conflict _ _ _, .nest rcd m p n k (some t) => if t = tok then .nest rcd m p n k none else b
  | .refuse _ _, .nest _ _ _ _ _ (some t) => if t = tok then .empty else b
  | _, _ => b

/-- A reply for a walk's request for slots (R163, R212). -/
def State.slotReply (s : State) (tok : Nat) (r : Reply) : State :=
  match s.core.eng.walks.find? (fun w => w.cbTok = some tok) with
  | none => s
  | some w => match r with
    | .words (p :: _) => match s.core.cbAt (match w.dst with | .cb h => h.toNat | _ => 16) with
      | .link _ _ rcd => s.setWalk { w with cbSlot := some ((ptrOff p - cbOff rcd) / cbSlot rcd) }
      | .home _ _ _ _ _ _ _ | .empty => s
    | .refuse _ addr | .cancelled addr => s.failWalk w 2 addr
    | _ => s

/-- A region stop that a home delivers reaches its agent (R245, R279). A region that an engine's write met before it ended takes its
stop before it ends (`State.granted`); one that had ended already is ordered before that write, and takes none (log 87). -/
def State.stopArrives (s : State) (a : Agent) (addr other : Word) (pc : Nat) : State :=
  if s.core.busy && s.core.agent = a then s.regionStop causeConflict pc addr other none none else s

/-- A parked firing whose wait ends with the cancel of the CB's launch ends (R126). -/
def State.endCancelled (s : State) (tok : Nat) (r : Reply) : State :=
  match r with
  | .cancelled _ => s.endParked fun p => match p.f.wait with
    | .replied (.cancelled _) _ => true
    | _ => p.f.waitsFor tok
  | .data _ | .words _ | .ok | .conflict _ _ _ | .refuse _ _ => s

/-- The answer with this token reaches what waits for it: a parked or running firing, a nest's claim, a walk's request for
slots, or a probe of a closing region. -/
def State.deliver (s : State) (tok : Nat) (r : Reply) : State :=
  let order := s.core.q.nextReady
  let s := match r with
    | .conflict addr _ _ => match s.core.q.parked.find? (fun (p : Parked) => p.f.waitsFor tok) with
      | some p => s.mapC (Core.traceOf s.dev p.f 4 causeConflict addr)
      | none => s
    | _ => s
  let s := s.mapC fun c => { c with
    q := { c.q with parked := c.q.parked.map fun (p : Parked) => if p.f.waitsFor tok then p.takeReply r order else p }
    tab := { c.tab with bind := c.tab.bind.map (claimReply tok r) } }
  let s := (s.slotReply tok r).endCancelled tok r
  if !s.core.busy then s
  else match s.core.f.wait with
    | .reply k got => if k = tok then s.takeReply r got else s
    | .probes toks next =>
      if toks.contains tok then s.probeReply tok toks next r
      else match next with
        | .park (some k) none => if k = tok then s.setWait (.probes toks (.park (some k) (some r))) else s
        | _ => s
    | _ => s

/-- REPLY_ARRIVAL (R245, R325 to R328). -/
def execReplyArrival (src : CoreId) (qw : BitVec 16) (s : State) : Out :=
  let back := s.pathOf src .rep Body.isReply
  match s.recv src .rep Body.isReply with
  | some (.regionStop a addr other pc, s) => .next (s.stopArrives a addr other pc)
  | some (.reply tok r low t, s) =>
    let s := (s.takeTrailer src (some tok) true back t qw).mapC fun c => { c with phys := c.phys.takeFetch tok r }
    let s := match low with
      | some k => s.mapC fun c => { c with ack := c.ack.sub k }
      | none => s
    .next (s.postDue.deliver tok r)
  | _ => .next s

def Body.isAck : Body → Bool
  | .ack _ _ _ | .closeAck _ => true
  | _ => false

/-- ACKNOWLEDGMENT_ARRIVAL (R329, R246): the count falls, packets that waited for it leave, and a firing that waits for this
one goes on, running or parked (R125). -/
def execAcknowledgmentArrival (src : CoreId) (qw : BitVec 16) (s : State) : Out :=
  let back := s.pathOf src .rep Body.isAck
  match s.recv src .rep Body.isAck with
  | some (.ack scope tok t, s) =>
    let s := (s.takeTrailer src tok true back t qw).mapC fun c => { c with ack := c.ack.sub scope }
    let s := s.postDue
    .next (match tok with
      | some k => s.deliver k .ok
      | none => s)
  | some (.closeAck t, s) =>
    let s := (s.takeTrailer src none false back t qw).mapC fun c => { c with ack := { c.ack with closes := c.ack.closes - 1 } }
    .next s.postDue
  | _ => .next s

end Sys2Proof.Machine
end

