-- ==== Sys2Proof/Machine/Memory.lean ====
section
/-!
DEFINITION. Sys2Proof/Machine/Memory.lean: LD to STL, the bank atomics, ACLAIM and FENCE (R111 to R116), the compact loads
and stores (R58), SHLD and SHST (R170) and SHMOD (R171).
-/
namespace Sys2Proof.Machine

/-! ### Types and addresses -/

/-- Bytes of a memory type (R54). -/
def mtySize (m : BitVec 3) : Nat := 2 ^ (m.toNat % 4)

/-- A loaded value, sign-extended for .i types and zero-extended for .n types (R111). -/
def loaded (m : BitVec 3) (bs : List Byte) : Word :=
  if m.toNat < 4 then BitVec.ofInt 64 (signedOf (8 * mtySize m) (bytesToNat bs)) else BitVec.ofNat 64 (bytesToNat bs)

/-- Base and displacement (R103). -/
def dispAddr (s : State) (a : BitVec 5) (i : BitVec 11) : Word := ptrAdd (s.regs.getS a) i.toInt

/-- Base and scaled index (R111). -/
def indexAddr (s : State) (a b : BitVec 5) (c : BitVec 2) (m : BitVec 3) : Word :=
  ptrAdd (s.regs.getS a) ((s.regs.getS b).toInt * (if c = 1#2 then (mtySize m : Int) else 1))

/-- Base and unscaled offset of a compact form (R58). -/
def compactAddr (s : State) (a : BitVec 4) (off : Nat) : Word := ptrAdd (s.regs.getS (s4 a)) (off : Int)

/-- The low bytes of a register, as a store takes them. -/
def regBytes (s : State) (d : BitVec 5) (n : Nat) : List Byte := natToBytes n (s.regs.getS d).toNat

/-- Two words of a register pair from 16 bytes; a write to s0 is discarded (R111). -/
def putPair (d : BitVec 5) (bs : List Byte) (s : State) : State :=
  s.setSMany d [BitVec.ofNat 64 (bytesToNat (bs.take 8)), BitVec.ofNat 64 (bytesToNat (bs.drop 8))]

/-! ### Plain loads and stores (R111) -/

def execLd (i : BitVec 11) (m : BitVec 3) (a d : BitVec 5) (sp : Sp) (s : State) : Out :=
  plainLoad s (dispAddr s a i) (mtySize m) 1 (spLen sp) true sp fun bs s => s.setS d (loaded m bs)

def execSt (i : BitVec 11) (m : BitVec 3) (a d : BitVec 5) (sp : Sp) (s : State) : Out :=
  plainStore s (dispAddr s a i) (regBytes s d (mtySize m)) 1 (spLen sp) true sp

def execLdx (g : BitVec 3) (c : BitVec 2) (m : BitVec 3) (b a d : BitVec 5) (sp : Sp) (s : State) : Out :=
  guarded s g sp fun s =>
    plainLoad s (indexAddr s a b c m) (mtySize m) 1 (spLen sp) true sp fun bs s => s.setS d (loaded m bs)

def execStx (g : BitVec 3) (c : BitVec 2) (m : BitVec 3) (b a d : BitVec 5) (sp : Sp) (s : State) : Out :=
  guarded s g sp fun s =>
    plainStore s (indexAddr s a b c m) (regBytes s d (mtySize m)) 1 (spLen sp) true sp

/-- LDP: two words, 8-aligned (R111). -/
def execLdp (i : BitVec 11) (_m : BitVec 3) (a d : BitVec 5) (sp : Sp) (s : State) : Out :=
  plainLoad s (dispAddr s a i) 16 8 (spLen sp) true sp (putPair d)

def execStp (i : BitVec 11) (_m : BitVec 3) (a d : BitVec 5) (sp : Sp) (s : State) : Out :=
  plainStore s (dispAddr s a i) (regBytes s d 8 ++ regBytes s (d + 1#5) 8) 8 (spLen sp) true sp

def execLdN64Compact (k : BitVec 2) (a d : BitVec 4) (s : State) : Out :=
  plainLoad s (compactAddr s a (8 * k.toNat)) 8 1 2 true none fun bs s => s.setS (s4 d) (loaded 7#3 bs)

def execStN64Compact (k : BitVec 2) (a d : BitVec 4) (s : State) : Out :=
  plainStore s (compactAddr s a (8 * k.toNat)) (regBytes s (s4 d) 8) 1 2 true none

def execLdN32Compact (k : BitVec 2) (a d : BitVec 4) (s : State) : Out :=
  plainLoad s (compactAddr s a (4 * k.toNat)) 4 1 2 true none fun bs s => s.setS (s4 d) (loaded 6#3 bs)

def execStN32Compact (k : BitVec 2) (a d : BitVec 4) (s : State) : Out :=
  plainStore s (compactAddr s a (4 * k.toNat)) (regBytes s (s4 d) 4) 1 2 true none

/-- LDI (R112). -/
def execLdi (i : BitVec 11) (m : BitVec 3) (a d : BitVec 5) (sp : Sp) (s : State) : Out :=
  invariantLoad s (dispAddr s a i) (mtySize m) (spLen sp) sp fun bs s => s.setS d (loaded m bs)

/-! ### Acquire, release and fence (R113, R114) -/

/-- The bytes of an answer. -/
def Reply.bytes : Reply → List Byte
  | .data bs => bs
  | .words _ | .ok | .conflict _ _ _ | .refuse _ _ | .cancelled _ => []

/-- Word `k` of an answer. -/
def Reply.word (r : Reply) (k : Nat) : Word :=
  match r with
  | .words ws => ws.getD k 0#64
  | .data _ | .ok | .conflict _ _ _ | .refuse _ _ | .cancelled _ => 0#64

def execLda (i : BitVec 11) (m : BitVec 3) (a d : BitVec 5) (sp : Sp) (s : State) : Out :=
  syncAccess s (dispAddr s a i) (mtySize m) (spLen sp) (mtySize m) (.syncRead (mtySize m)) none sp
    fun r s => s.setS d (loaded m r.bytes)

def execStl (i : BitVec 11) (m : BitVec 3) (a d : BitVec 5) (sp : Sp) (s : State) : Out :=
  syncAccess s (dispAddr s a i) (mtySize m) (spLen sp) (mtySize m) (.syncWrite (regBytes s d (mtySize m))) none sp
    fun _ s => s

/-- FENCE: the region ends, and the counts up to the scope, with the close acknowledgments, come to zero (R114, R246). -/
def execFence (g : BitVec 3) (sc : BitVec 2) (sp : Sp) (s : State) : Out :=
  guarded s g sp fun s => irrevocably s fun s =>
    if s.core.ack.clearUpTo sc.toNat then .next (s.retireIrrev (spLen sp) sp) else .next s.poll

/-! ### Bank atomics (R115, R116) -/

/-- A guarded atomic of operand size `n` at s[a]; the old value returns in s[d], zero-extended, and AFADD's flags join
FSTAT. -/
def atomic (g : BitVec 3) (op : AOp) (n k : Nat) (b a d : BitVec 5) (sp : Sp) (s : State) : Out :=
  guarded s g sp fun s =>
    syncAccess s (s.regs.getS a) n (spLen sp) (k * n) (.atomic op n (s.regs.getS b) (s.regs.getS d)) none sp
      fun r s => (s.setS d (r.word 0)).raise ((r.word 1).setWidth 6)

/-- Operand size of an integer atomic: fn bit 4 selects 32 bits. -/
def atomicSize (w : BitVec 1) : Nat := if w = 1#1 then 4 else 8

def execAadd (g : BitVec 3) (w : BitVec 1) (b a d : BitVec 5) (sp : Sp) (s : State) : Out :=
  atomic g .add (atomicSize w) 2 b a d sp s

def execAand (g : BitVec 3) (w : BitVec 1) (b a d : BitVec 5) (sp : Sp) (s : State) : Out :=
  atomic g .and (atomicSize w) 2 b a d sp s

def execAor (g : BitVec 3) (w : BitVec 1) (b a d : BitVec 5) (sp : Sp) (s : State) : Out :=
  atomic g .or (atomicSize w) 2 b a d sp s

def execAxor (g : BitVec 3) (w : BitVec 1) (b a d : BitVec 5) (sp : Sp) (s : State) : Out :=
  atomic g .xor (atomicSize w) 2 b a d sp s

def execAmin (g : BitVec 3) (w : BitVec 1) (b a d : BitVec 5) (sp : Sp) (s : State) : Out :=
  atomic g .min (atomicSize w) 2 b a d sp s

def execAmax (g : BitVec 3) (w : BitVec 1) (b a d : BitVec 5) (sp : Sp) (s : State) : Out :=
  atomic g .max (atomicSize w) 2 b a d sp s

def execAminn (g : BitVec 3) (w : BitVec 1) (b a d : BitVec 5) (sp : Sp) (s : State) : Out :=
  atomic g .minn (atomicSize w) 2 b a d sp s

def execAmaxn (g : BitVec 3) (w : BitVec 1) (b a d : BitVec 5) (sp : Sp) (s : State) : Out :=
  atomic g .maxn (atomicSize w) 2 b a d sp s

def execAswp (g : BitVec 3) (w : BitVec 1) (b a d : BitVec 5) (sp : Sp) (s : State) : Out :=
  atomic g .swp (atomicSize w) 2 b a d sp s

def execAcas (g : BitVec 3) (w : BitVec 1) (b a d : BitVec 5) (sp : Sp) (s : State) : Out :=
  atomic g .cas (atomicSize w) 3 b a d sp s

/-- AFADD: f32 or bf16, rounded RNE (R115). -/
def execAfadd (g : BitVec 3) (t : BitVec 1) (b a d : BitVec 5) (sp : Sp) (s : State) : Out :=
  if t = 1#1 then atomic g .faddBF16 2 2 b a d sp s else atomic g .faddF32 4 2 b a d sp s

/-- ACLAIM (R116). -/
def execAclaim (g : BitVec 3) (b a d : BitVec 5) (sp : Sp) (s : State) : Out :=
  guarded s g sp fun s =>
    let v := s.regs.getS b
    let stop := if field v 48 16 ≠ 0 then some (causeBound, v) else none
    syncAccess s (s.regs.getS a) 16 (spLen sp) 24 (.claim (field v 0 32) (field v 32 16)) stop sp
      fun r s => s.setSMany d [r.word 0, r.word 1]

/-! ### Shape registers (R170, R171) -/

/-- SHLD from memory, or record-table entry imm11 when a = 0. -/
def execShld (i : BitVec 11) (a d : BitVec 5) (sp : Sp) (s : State) : Out :=
  if a = 0#5 then
    match s.dev.image.shapes[i.toNat]? with
    | some r => .next ((s.setH (hOf d) r).retire (spLen sp) sp)
    | none => .next (s.stop causeBound (spLen sp) (i.zeroExtend 64))
  else
    plainLoad s (s.regs.getS a) 32 8 (spLen sp) false sp fun bs s => s.setH (hOf d) (recordOf 256 bs)

def execShst (a d : BitVec 5) (sp : Sp) (s : State) : Out :=
  plainStore s (s.regs.getS a) (natToBytes 32 (s.regs.getH (hOf d)).toNat) 8 (spLen sp) false sp

/-- BASE moved by a count of elements (Table 8.4, selector 1): the product of s[a] and the size is signed and exact, and wraps as the
pointer does (DESIGN CHOICE, log 35); under a reserved type code the spec states no element
size, and the count of bytes is a free value. -/
def movedBase (s : State) (r : Shape) (v : Word) : Word × State :=
  match ETy.ofCode (shTypeCode r) with
  | some (.q m) => (ptrAdd (shBase r) ((v.toInt * m).tdiv 8), s)
  | some t => (ptrAdd (shBase r) (v.toInt * t.size), s)
  | none => let (w, s) := s.free; (ptrAdd (shBase r) w.toInt, s)

/-- SHMOD (Table 8.4). -/
def execShmod (i : BitVec 11) (a d : BitVec 5) (sp : Sp) (s : State) : Out :=
  let r := s.regs.getH (hOf d)
  let v := s.regs.getS a
  let sel := i.toNat
  let put (lo n : Nat) (s : State) (v : Word) : Out :=
    .next ((s.setH (hOf d) (setField r lo n v.toNat)).retire (spLen sp) sp)
  if sel = 0 then put 0 64 s v
  else if sel = 1 then let (w, s) := movedBase s r v; put 0 64 s w
  else if sel ≤ 5 then put (128 + 16 * (sel - 2)) 16 s v
  else if sel ≤ 9 then put (192 + 16 * (sel - 6)) 16 s v
  else if sel = 10 then put 64 5 s v
  else if sel = 11 then
    let r := setField (setField r 72 3 (field v 0 3)) 75 1 (field v 3 1)
    .next ((s.setH (hOf d) r).retire (spLen sp) sp)
  else put 96 32 s v

end Sys2Proof.Machine
end

