-- ==== Sys2Proof/Machine/Messages.lean ====
section
/-!
DEFINITION. Sys2Proof/Machine/Messages.lean: active messages (R117 to R121, R331, R346), their injection and arrival,
notices (R280, R281), and the answers that WFR and the page walker wait for (R158, R290).
-/
namespace Sys2Proof.Machine

/-! ### Send queues -/

def sqReqLim (w : Word) : Nat := field w 0 5
def sqRepLim (w : Word) : Nat := field w 8 5
def sqHold (w : Word) : Bool := bit w 17

def Core.sendQ (c : Core) (rep : Bool) : List SendEntry := if rep then c.q.sendRep else c.q.sendReq

/-- Free entries of a send queue under its limit (R346). -/
def Core.sendRoom (c : Core) (rep : Bool) : Nat :=
  (if rep then sqRepLim c.tab.sqctl else sqReqLim c.tab.sqctl) - (c.sendQ rep).length

/-- The destination checks of SEND, SENDT and REPLY (R21, R24, R117). -/
def msgDestOk (p : Partition) (v : Word) : Bool :=
  meshOk p v || (isMemPtr v && reservedOk v && ptrBuf v ≠ 3)

/-- The logical core a message goes to (R24). -/
def State.msgDest (s : State) (v : Word) : CoreId := if isMemPtr v then s.dev.part.memCore (ptrX v) else ptrCore v

/-- CLS of a message that the firing sends: the class of its launch (Table 6.3). -/
def State.msgClass (s : State) : Bool :=
  match s.dev.seq.launchOf s.core.f.lhnd with
  | some l => recClass l.rcd
  | none => false

/-- Entries of a send queue up to the last that this firing sent. -/
def upToOwn (ser : BitVec 16) (q : List SendEntry) : Nat := (q.reverse.dropWhile fun e => e.ser ≠ ser).length

/-- A message enters a send queue; HOLD keeps it for its firing (R346). It leaves behind what its firing has sent over the other queue
before it (R251). -/
def State.queueMsg (s : State) (rep : Bool) (dst : CoreId) (hdr : Word) (args : List Word) : State :=
  let by_ := if sqHold s.core.tab.sqctl then some s.core.f.serial else none
  let ser := s.core.f.serial.setWidth 16
  let e : SendEntry := ⟨dst, hdr, args, s.core.f.lhnd, by_, s.core.scopeLin, ser, upToOwn ser (s.core.sendQ (!rep))⟩
  s.mapC fun c => { c with q :=
    if rep then { c.q with sendRep := c.q.sendRep ++ [e] } else { c.q with sendReq := c.q.sendReq ++ [e] } }

/-- SEND, SENDT and REPLY (R117, R119, R331, R346): `try_` stops on a full queue. -/
def message (rep try_ : Bool) (h : BitVec 8) (n : BitVec 4) (a d : BitVec 5) (sp : Sp) (s : State) : Out :=
  let v := s.regs.getS a
  let charge := s.chargeOf v (8 + 8 * n.toNat)
  let stop :=
    if !msgDestOk s.dev.part v then some (causeBound, v)
    else if s.overMeter charge then some (causeMeter, v) else none
  checkedOnce s stop (spLen sp) fun s =>
    irrevocably s fun s =>
      draining s fun s =>
        if s.core.sendRoom rep = 0 then
          if try_ || s.core.f.fromRep || sqHold s.core.tab.sqctl then .next (s.stop causeSqfull (spLen sp) v)
          else .next s.poll
        else
          let hdr := msgHeader s.dev.part s.core.id rep n.toNat s.msgClass h.toNat
          .next (((s.queueMsg rep (s.msgDest v) hdr (s.regs.getSMany d n.toNat)).pay charge).retireIrrev (spLen sp) sp)

def execSend (h : BitVec 8) (n : BitVec 4) (a d : BitVec 5) (sp : Sp) (s : State) : Out := message false false h n a d sp s
def execSendt (h : BitVec 8) (n : BitVec 4) (a d : BitVec 5) (sp : Sp) (s : State) : Out := message false true h n a d sp s
def execReply (h : BitVec 8) (n : BitVec 4) (a d : BitVec 5) (sp : Sp) (s : State) : Out := message true false h n a d sp s

/-- MSGQ's word (R121, R346). -/
def Core.msgqWord (c : Core) : Word :=
  BitVec.ofNat 64 (c.q.rep.length * 2 ^ 24 + c.q.req.length * 2 ^ 16 + c.sendRoom true * 2 ^ 8 + c.sendRoom false)

def execMsgq (d : BitVec 5) (sp : Sp) (s : State) : Out :=
  .next ((s.setS d s.core.msgqWord).retire (spLen sp) sp)

/-! ### Injection (R119, R281, R346) -/

/-- A message packet of the focused core leaves: the outbound count and the total sent rise (R263). -/
def State.inject (s : State) (rep : Bool) (dst : CoreId) (hdr : Word) (args : List Word) (lhnd : Word) (lin : Nat) (note : Bool) :
    State :=
  (s.send dst (if rep then .rep else .req) (.msg hdr args lhnd lin none note)).mapC fun c =>
    { c with q := { c.q with sent := c.q.sent + 1, outbound := c.q.outbound + 1 } }

/-- The oldest entry of a send queue may leave: no firing holds it, and no earlier message of its firing is in the other queue. -/
def Core.sendReady (c : Core) (rep : Bool) : Bool :=
  match c.sendQ rep with
  | e :: _ => e.by_.isNone && e.ahead = 0
  | [] => false

/-- An entry of the other send queue has left. -/
def oneAhead (q : List SendEntry) : List SendEntry := q.map fun e => { e with ahead := e.ahead - 1 }

/-- MESSAGE_INJECTION: the oldest entry leaves unless HOLD keeps it, and commits that followed it may leave. A REQ message and a
notice that are both ready take the port in turn (R281). -/
def execMessageInjection (rep : Bool) (s : State) : Out :=
  if !s.core.sendReady rep || (!rep && !s.core.q.notices.isEmpty && !s.core.q.turn) then .next s
  else match s.core.sendQ rep with
  | e :: r =>
    let s := s.inject rep e.dst e.hdr e.args e.lhnd e.lin false
    .next (s.mapC fun c => { c with q :=
      if rep then { c.q with sendRep := r, sendReq := oneAhead c.q.sendReq }
      else { c.q with sendReq := r, sendRep := oneAhead c.q.sendRep, turn := false } }).postDue
  | [] => .next s

/-- NOTICE_INJECTION: the oldest notice leaves on REQ, in turn with a ready message (R281). -/
def execNoticeInjection (s : State) : Out :=
  match s.core.q.notices with
  | (dst, hdr, args) :: r =>
    if s.core.q.turn && s.core.sendReady false then .next s
    else
      let (lhnd, lin) := match s.core.cohort with | some k => (k.lhnd, k.lin) | none => (0#64, 0)
      let s := s.inject false dst hdr args lhnd lin true
      .next (s.mapC fun c => { c with q := { c.q with notices := r, turn := true } })
  | [] => .next s

/-! ### Arrival (R120, R158, R264, R287) -/

def Body.isMsg : Body → Bool
  | .msg _ _ _ _ _ _ => true
  | _ => false

def Body.isAccepted : Body → Bool
  | .accepted _ => true
  | _ => false

def hdrHnd (h : Word) : Nat := field h 0 8
def hdrCls (h : Word) : Bool := bit h 16

/-- The handler table that serves a core's messages: the set's, and system software's on a pager core (R17, R25). -/
def State.messageTable (s : State) : Table (BitVec 128) :=
  match s.core.id with
  | .pager _ _ => s.dev.sysTable
  | .mesh _ _ | .memory _ _ | .control | .far _ _ _ | .port _ => s.core.tab.handlers

/-- Entry of a handler table, if it is valid. -/
def entryOf (t : Table (BitVec 128)) (hnd : Nat) : Option (BitVec 128) :=
  let e := tget 0#128 t hnd
  if hValid e then some e else none

/-- The handler's entry, if the core's table has one. -/
def State.handlerEntry (s : State) (hnd : Nat) : Option (BitVec 128) := entryOf s.messageTable hnd

/-- A core that holds no cohort keeps its messages for the next one (R264). -/
def Core.awaitsCohort (c : Core) : Bool :=
  match c.id with
  | .mesh _ _ => c.cohort.isNone
  | .memory _ _ | .pager _ _ | .control | .far _ _ _ | .port _ => false

/-- The launch whose sink takes the notice of a message with no handler (R120, R25). -/
def Core.noHandlerLaunch (c : Core) (sender : Word) : Word :=
  match c.id, c.cohort with
  | .mesh _ _, some k => k.lhnd
  | _, _ => sender

/-- A message with no handler is discarded with a notice of kind 5, unless it is itself a notice (R120, R280). -/
def State.discardMsg (s : State) (hdr : Word) (args : List Word) (sender : Word) (note : Bool) : State :=
  if note then s else s.notice (s.core.noHandlerLaunch sender) 5 0 0 none hdr (args.headD 0#64)

/-- A waiting WFR whose token is this: the instruction at the firing's pc (R158). -/
def Core.wfrWaits (c : Core) (f : Firing) (tok : Word) : Bool :=
  f.wait = .poll && match ({ c with f := f } : Core).fetch with
    | .instr (.wfr a _ _) => f.regs.getS a = tok
    | _ => false

/-- WFR_MATCH: the message goes to the waiting WFR: one that runs and has drained, or one that is parked, which had drained before. -/
def State.wfrMatch (s : State) (tok value : Word) : Option State :=
  let c := s.core
  if c.busy && c.ack.drained && c.wfrWaits c.f tok then some (s.setWait (.replied (.words [value]) []))
  else if c.q.parked.any fun p => c.wfrWaits p.f tok then
    let order := c.q.nextReady
    match takeFirst (fun p => c.wfrWaits p.f tok) c.q.parked with
    | some (p, _) => some (s.mapC fun c => { c with q := { c.q with parked := c.q.parked.map fun x =>
        if x = p then { x with f := { x.f with wait := .replied (.words [value]) [] }, ready := some order } else x } })
    | none => none
  else none

def Core.oneAccepted (c : Core) : Core := { c with q := { c.q with outbound := c.q.outbound - 1 } }

/-- A saved context of a core, of this launch. -/
def Context.sentBy (src : CoreId) (lhnd : Word) (x : Context) : Bool :=
  match x.core with
  | some c => c.id = src && (match c.cohort with | some k => k.lhnd = lhnd | none => true)
  | none => false

/-- The destination mailbox has accepted a message of a firing of this launch on `src`: the outbound count of its residency
falls, saved or not (R263). -/
def State.countAccepted (s : State) (src : CoreId) (lhnd : Word) : State :=
  if s.dev.ctxs.any (Context.sentBy src lhnd) then
    s.mapD fun d => { d with
      ctxs := d.ctxs.map fun x => if x.sentBy src lhnd then { x with core := x.core.map Core.oneAccepted } else x }
  else s.onCore src Core.oneAccepted

/-- The sender learns of it: a core of this device at once, one of another device by a packet on REP. -/
def State.tellAccepted (s : State) (src : CoreId) (lhnd : Word) : State :=
  match src with
  | .far _ _ _ => s.send src .rep (.accepted lhnd)
  | .mesh _ _ | .memory _ _ | .pager _ _ | .control | .port _ => s.countAccepted src lhnd

/-- A message has come to rest in a mailbox or a system queue: it has taken the next number (R270). -/
def State.rested (s : State) : State := s.mapD fun d => { d with arrivals := d.arrivals + 1 }

/-- The context whose log takes what reaches a logical core that is out, or whose residency is still to be restored: the one that is
due, else the one saved last (R287, R288). -/
def State.absent (s : State) : Option (BitVec 32) :=
  let mine := s.dev.ctxs.filter fun x => match x.core with | some c => c.id = s.core.id | none => false
  match mine.find? Context.due with
  | some x => some x.ctx
  | none =>
    if (s.dev.seq.out || s.dev.seq.preempting) && s.core.cohort.isNone then mine.getLast?.map Context.ctx else none

/-- The saved context that a packet for the focused core belongs to: the named one, which is not resident while it is saved, and for a
message that names none the one that is absent (R287). -/
def State.redirect (s : State) (ctx : Option (BitVec 32)) : Option (BitVec 32) :=
  match ctx with
  | some k => if s.dev.ctxs.any (fun x => x.ctx = k) then some k else none
  | none => s.absent

/-- A message enters the mailbox of its network, is consumed by a WFR, or is discarded (R120). -/
def State.acceptMsg (s : State) (rep : Bool) (hdr : Word) (args : List Word) (lhnd : Word) (lin : Nat) (note : Bool) :
    Option State :=
  let hnd := hdrHnd hdr
  let wfr := if rep && hnd = 255 then s.wfrMatch (args.getD 0 0#64) (args.getD 1 0#64) else none
  match wfr with
  | some t => some t
  | none =>
    if !s.core.awaitsCohort && (s.handlerEntry hnd).isNone then some (s.discardMsg hdr args lhnd note)
    else
      let box := if rep then s.core.q.rep else s.core.q.req
      if box.length ≥ 32 then none
      else
        let m : Mail := ⟨hdr, args, lhnd, s.dev.time, none, note, lin, false, s.dev.arrivals⟩
        some (s.mapC fun c => { c with q :=
          if rep then { c.q with rep := c.q.rep ++ [m], accepted := c.q.accepted + 1 }
          else { c.q with req := c.q.req ++ [m], accepted := c.q.accepted + 1 } }).rested

/-- The message is the pager's answer that a walk at this core waits for. -/
def Core.isPagerAnswer (c : Core) (rep : Bool) (hdr : Word) (args : List Word) : Bool :=
  rep && hdrHnd hdr = 255 && c.pageWaits.any fun w => BitVec.ofNat 64 w.tok = args.getD 0 0#64

/-- A message on SYS for a handler of system software (R17, R146). A page fault is one to its pager core, with the address, the
access kind, the token and the context (R290). -/
def sysMail (time num : Nat) : Body → Option Mail
  | .msg hdr args lhnd lin _ note => some ⟨hdr, args, lhnd, time, none, note, lin, true, num⟩
  | .pageFault va write tok ctx =>
    some ⟨BitVec.ofNat 64 (4 * 2 ^ 48 + Config.pageFaultHandler.toNat),
      [BitVec.ofNat 64 va, if write then 1#64 else 0#64, BitVec.ofNat 64 tok, ctx.zeroExtend 64], 0#64, time, none, false, 0, true, num⟩
  | _ => none

/-- A message on SYS waits for its supervisor handler, or is discarded where the table of system software has none. One to a core that is
out goes to the log of its context (R287). -/
def State.sysArrival (s : State) (src : CoreId) : State :=
  match s.recv src .sys (fun b => (sysMail 0 0 b).isSome) with
  | none => s
  | some (b, t) => match sysMail t.dev.time t.dev.arrivals b with
    | some m => match t.absent with
      | some k => t.mapD fun d => { d with ctxs := logTo k (src, .sys, b) d.ctxs }
      | none => if (entryOf t.dev.sysTable (hdrHnd m.hdr)).isNone then t
        else (t.mapC fun c => { c with q := { c.q with sys := c.q.sys ++ [m] } }).rested
    | none => s

/-- MESSAGE_ARRIVAL (R120, R158, R287). A full mailbox leaves the packet in the network. With nothing on REQ, a message on SYS is
taken. -/
def execMessageArrival (src : CoreId) (rep : Bool) (s : State) : Out :=
  let net : Net := if rep then .rep else .req
  match s.recv src net (fun b => b.isMsg || b.isAccepted) with
  | some (.accepted lhnd, t) => .next (t.countAccepted t.core.id lhnd)
  | some (.msg hdr args lhnd lin ctx note, t) =>
    if t.core.isPagerAnswer rep hdr args then .next s
    else match t.redirect ctx with
      | some k =>
        .next ((t.mapD fun d => { d with ctxs := logTo k (src, net, .msg hdr args lhnd lin ctx note) d.ctxs }).tellAccepted src lhnd)
      | none => match t.acceptMsg rep hdr args lhnd lin note with
        | some t => .next (t.tellAccepted src lhnd)
        | none => .next s
  | _ => if rep then .next s else .next (s.sysArrival src)

/-- The pager's answer to a walk of the focused core (R290): 0 makes the walk again, 1 and 2 make the access fail. Firings requeued
for the walk become ready. -/
def State.pagerAnswer (s : State) (tok res : Nat) : State :=
  let order := s.core.q.nextReady
  s.mapC fun c => { c with
    pageWaits := if res = 0 then c.pageWaits.filter (fun w => w.tok ≠ tok)
      else c.pageWaits.map fun w => if w.tok = tok then { w with res := some res } else w
    q := { c.q with parked := c.q.parked.map fun p =>
      if p.walk = some tok then { p with walk := none, ready := some order } else p } }

/-- The walk with this token is a firing's own, not a copy's. -/
def Core.firingWalk (c : Core) (tok : Nat) : Bool := c.pageWaits.any fun w => w.tok = tok && w.own.isNone

/-- PAGER_RESULT (R290). An answer to a walk of a firing whose residency is saved goes to its log (R287). -/
def execPagerResult (src : CoreId) (s : State) : Out :=
  match s.recv src .rep Body.isMsg with
  | some (.msg hdr args lhnd lin ctx note, t) =>
    if !t.core.isPagerAnswer true hdr args then .next s
    else
      let tok := (args.getD 0 0#64).toNat
      let t := match (if t.core.firingWalk tok then t.redirect none else none) with
        | some k => t.mapD fun d => { d with ctxs := logTo k (src, .rep, .msg hdr args lhnd lin ctx note) d.ctxs }
        | none => t.pagerAnswer tok (args.getD 1 0#64).toNat
      .next (t.tellAccepted src lhnd)
  | _ => .next s

end Sys2Proof.Machine
end

