-- ==== Sys2Proof/Machine/SysForms.lean ====
section
/-!
DEFINITION. Sys2Proof/Machine/SysForms.lean: actors and nests (R139 to R142), launches, graphs, phases, their cancels and
waits (R130 to R138), waits on counters and tags (R143, R144), BRK, TRACE and capabilities (R154 to R157).
-/
namespace Sys2Proof.Machine

/-! ### Actor and nest records (Tables 7.4, 7.5) -/

/-- SH0 to SH3 at byte `k` of a record each name a shape record or are empty. -/
def shapeSlotsOk {w : Nat} (d : Device) (r : BitVec w) (k : Nat) : Bool :=
  (List.range 4).all fun j => halfAt r (k + 2 * j) = 0xFFFF || decide (halfAt r (k + 2 * j) < d.image.shapes.length)

def acEntry (r : BitVec 256) : Nat := halfAt r 0
def acNin (r : BitVec 256) : Nat := byteAt r 2
def acNout (r : BitVec 256) : Nat := byteAt r 3

/-- The CBs in use, as handle and rate: inputs, then outputs. -/
def acIns (r : BitVec 256) : List (Nat × Nat) := (List.range (acNin r)).map fun k => (byteAt r (4 + 2 * k), byteAt r (5 + 2 * k))
def acOuts (r : BitVec 256) : List (Nat × Nat) := (List.range (acNout r)).map fun k => (byteAt r (12 + 2 * k), byteAt r (13 + 2 * k))

/-- A named CB has an entry, and its rate is between 1 and its slot count (R139). -/
def Core.rateOk (c : Core) (p : Nat × Nat) : Bool :=
  match c.cbHome p.1 with
  | some (_, _, rcd) => p.2 ≠ 0 && decide (p.2 ≤ cbS rcd)
  | none => false

def State.actorRecordOk (s : State) (r : BitVec 256) : Bool :=
  decide (acNin r ≤ 4) && decide (acNout r ≤ 4) && (acNin r ≠ 0 || acNout r ≠ 0) && field r 224 32 = 0
    && (acIns r ++ acOuts r).all s.core.rateOk && shapeSlotsOk s.dev r 20

def nsEntry (r : BitVec 192) : Nat := halfAt r 0
def nsRank (r : BitVec 192) : Nat := byteAt r 2
def nsExt (r : BitVec 192) (k : Nat) : Nat := halfAt r (4 + 2 * k)
def nsMinc (r : BitVec 192) : Nat := wordAt r 12

/-- The product of the extents in use. -/
def nsCount (r : BitVec 192) : Nat := ((List.range (nsRank r)).map (nsExt r)).foldl (· * ·) 1

/-- The nest record is one that NESTDEF takes. The spec lists no refusal for RANK outside 1 to 4, an extent of 0 in use, an extent past
RANK that is not 0, or MINC 0; the model refuses them with BOUND (DESIGN CHOICE, log 90). -/
def State.nestRecordOk (s : State) (r : BitVec 192) : Bool :=
  decide (1 ≤ nsRank r) && decide (nsRank r ≤ 4) && byteAt r 3 = 0
    && (List.range 4).all (fun k => if k < nsRank r then nsExt r k ≠ 0 else nsExt r k = 0)
    && nsMinc r ≠ 0 && shapeSlotsOk s.dev r 16

/-! ### Bindings -/

def Core.bindAt (c : Core) (k : BitVec 4) : Binding := c.tab.bind[k.toNat]

def State.setBind (s : State) (k : BitVec 4) (b : Binding) : State :=
  s.mapC fun c => { c with tab := { c.tab with bind := c.tab.bind.set k.toNat b } }

/-- The handles that an actor names, one each. -/
def acHandles (r : BitVec 256) : List Nat := ((acIns r ++ acOuts r).map Prod.fst).dedup

/-- Register a watch of the focused core on the home of a link (R272): the home notes it and sends its F and S. Bindings that name
one link share the watch's number. -/
def State.watch (s : State) (handle : Nat) : State :=
  match s.core.cbAt handle with
  | .link home h _ =>
    let known := s.core.tab.watch.find? fun p => p.1 = handle
    let num := (known.map Prod.snd).getD s.token
    let s := if known.isSome then s else (s.useToken).mapC fun c => { c with tab := { c.tab with watch := (handle, num) :: c.tab.watch } }
    s.send home .sys (.watch h handle num s.core.ctx true)
  | .home _ _ _ _ _ _ _ | .empty => s

/-- End a watch with its binding (R272); the link's number goes with the last one. -/
def State.unwatch (s : State) (handle : Nat) : State :=
  match s.core.cbAt handle with
  | .link home h _ =>
    let num := tget 0 s.core.tab.watch handle
    let used := s.core.tab.bind.toList.any fun b => match b with
      | .actor r _ _ _ _ => (acHandles r).contains handle
      | .nest _ _ _ _ _ _ | .empty => false
    let s := if used then s else
      s.mapC fun c => { c with tab := { c.tab with watch := c.tab.watch.filter fun p => p.1 ≠ handle } }
    s.send home .sys (.watch h handle num s.core.ctx false)
  | .home _ _ _ _ _ _ _ | .empty => s

def watchAll (hs : List Nat) (s : State) : State := hs.foldl State.watch s
def unwatchAll (hs : List Nat) (s : State) : State := hs.foldl State.unwatch s

/-- The job's own handle. -/
def jobHandle : Word := 0xC000000000000000#64

/-- An actor or a nest bound on a memory core acts in the scope of the firing that binds it (R133). -/
def Core.bindBy (k : BitVec 4) (c : Core) : Core :=
  if c.isMemory then { c with tab := { c.tab with binders := tset (jobHandle, 0) c.tab.binders k.toNat (c.f.lhnd, c.f.lin) } } else c

/-- ACTDEF (R139, R272). -/
def execActdef (i : BitVec 11) (d : BitVec 5) (sp : Sp) (s : State) : Out :=
  let k := hOf d
  let stop := match s.dev.image.actors[i.toNat]? with
    | some r => if s.core.bindAt k ≠ .empty || !s.actorRecordOk r then some (causeBound, i.zeroExtend 64) else none
    | none => some (causeBound, i.zeroExtend 64)
  checkedOnce s stop (spLen sp) fun s => irrevocably s fun s =>
    let r := s.dev.image.actors.getD i.toNat 0#256
    let s := (s.setBind k (.actor r s.core.f.smode 0#64 false [])).mapC (Core.bindBy k)
    .next ((watchAll (acHandles r) s).retireIrrev (spLen sp) sp)

/-- Cores of the cohort that a core holds: P of the fetcher's claims (R142). -/
def Core.cohortSize (c : Core) : Nat :=
  match c.cohort with
  | some k => byteAt k.rcd 2 * byteAt k.rcd 3
  | none => 1

/-- The iteration fetcher claims the next chunk of a nest that has none queued and no claim in flight (R142, R273). A local
conflict lets it be claimed again. -/
def State.nestClaim (s : State) (k : BitVec 4) : State :=
  match s.core.bindAt k with
  | .nest r m ptr n 0 none =>
    let op : BankOp := .claim (nsMinc r) s.core.cohortSize
    let ag : Agent := ⟨s.core.id, s.core.f.serial.setWidth 16, s.core.f.region.gen⟩
    if s.isLocal ptr then
      if s.core.inShadow (ptrKey ptr) 16 then s.setBind k .empty
      else match s.bankSync ag (ptrKey ptr) op with
        | .done r s => s.mapC fun c => { c with tab := { c.tab with
            bind := c.tab.bind.set k.toNat (claimReply s.token r
              (match c.bindAt k with
                | .nest rcd m p n 0 none => .nest rcd m p n 0 (some s.token)
                | b => b)) } }
        | .conflict _ _ | .wait => s
    else
      let tok := s.token
      ((s.useToken).send (ptrCore ptr) .req (.access tok ag s.core.f.pc (ptrKey ptr) op none none)).setBind k
        (.nest r m ptr n 0 (some tok))
  | _ => s

/-- NESTDEF (R141, R273): the pointer checks of ACLAIM, the record checks, and the first claim. -/
def execNestdef (i : BitVec 11) (a d : BitVec 5) (sp : Sp) (s : State) : Out :=
  let k := hOf d
  let v := s.regs.getS a
  let idx : Word := i.zeroExtend 64
  let recordBad : Bool := match s.dev.image.nests[i.toNat]? with
    | some r => s.core.bindAt k ≠ .empty || !s.nestRecordOk r
    | none => true
  let stop := match s.accessStop v 16 true 16 0 with
    | some c => if c = causeBound then some (causeBound, v) else if recordBad then some (causeBound, idx) else
        if c = causeAlign then some (causeAlign, v) else none
    | none => if recordBad then some (causeBound, idx) else none
  checkedOnce s stop (spLen sp) fun s => irrevocably s fun s =>
    let r := s.dev.image.nests.getD i.toNat 0#192
    let s := (s.setBind k (.nest r s.core.f.smode v 0 0 none)).mapC (Core.bindBy k)
    .next ((s.nestClaim k).retireIrrev (spLen sp) sp)

/-! ### Launch records (R131, Table 7.3) -/

def lrSet (r : BitVec 512) : Nat := halfAt r 0
def lrCW (r : BitVec 512) : Nat := byteAt r 2
def lrCH (r : BitVec 512) : Nat := byteAt r 3

/-- Grid extents GX′, GY′ and GZ′. -/
def lrG (r : BitVec 512) (axis : Nat) : Nat := halfAt r (4 + 2 * axis) + 1
def lrNdep (r : BitVec 512) : Nat := field r 85 3
def lrOrder (r : BitVec 512) : Nat := field r 82 3
def lrGang (r : BitVec 512) : Bool := bit r 81
def lrMlim (r : BitVec 512) : Word := BitVec.ofNat 64 (longAt r 24)

/-- Component of a dependence vector on an axis. -/
def lrDep (r : BitVec 512) (k axis : Nat) : Int := signedOf 4 (field r (96 + 16 * k + 4 * axis) 4)

/-- The axes that ORDER names, most significant first. -/
def orderAxes : Nat → List Nat
  | 0 => [0, 1, 2]
  | 1 => [0, 2, 1]
  | 2 => [1, 0, 2]
  | 3 => [1, 2, 0]
  | 4 => [2, 0, 1]
  | _ => [2, 1, 0]

/-- The first nonzero component is positive. -/
def lexPositive : List Int → Bool
  | [] => false
  | x :: xs => if x = 0 then lexPositive xs else decide (0 < x)

/-- The record checks of R131 that stop with BOUND. -/
def State.launchRecordOk (s : State) (r : BitVec 512) : Bool :=
  let p := s.dev.part.pext
  byteAt r 11 = 0 && (List.range 4).all (fun k => field r (108 + 16 * k) 4 = 0) && field r 160 32 = 0
    && field r 281 7 = 0 && field r 288 224 = 0
    && decide (1 ≤ lrCW r) && decide (lrCW r ≤ 16) && decide (lrCW r ≤ pextWidth p)
    && decide (1 ≤ lrCH r) && decide (lrCH r ≤ 16) && decide (lrCH r ≤ pextHeight p)
    && decide (lrOrder r < 6) && decide (lrNdep r ≤ 4)
    && (match s.dev.image.sets[lrSet r]? with
      | some h => hValid (tget 0#128 h.handlers 0)
      | none => false)
    && (!recSinkV r || (decide (recSinkX r < pextWidth p) && decide (recSinkY r < pextHeight p)))

/-- The vectors in use make the DEPCYCLE test of R131 fail. -/
def depCycle (r : BitVec 512) : Bool :=
  (List.range (lrNdep r)).any fun k => !lexPositive ((orderAxes (lrOrder r)).map fun x => -lrDep r k x)

/-- The stop that a list of record indexes takes: BOUND of any record before DEPCYCLE of any (R128, R134). -/
def State.recordStop (s : State) (idx : List Nat) : Option (Nat × Word) :=
  let rec? (i : Nat) : Option (BitVec 512) := s.dev.image.launches[i]?
  match idx.find? (fun i => match rec? i with | some r => !s.launchRecordOk r | none => true) with
  | some i => some (causeBound, BitVec.ofNat 64 i)
  | none => (idx.find? (fun i => match rec? i with | some r => depCycle r | none => false)).map fun i =>
      (causeDepcycle, BitVec.ofNat 64 i)

/-! ### Handles (R130, Table 7.2) -/

def hdLevel (h : Word) : Nat := field h 62 2
def hdPhase (h : Word) : Nat := field h 32 16
def hdSerial (h : Word) : Nat := field h 0 32

/-- A handle. -/
def handleWord (level ph serial : Nat) : Word := BitVec.ofNat 64 (level * 2 ^ 62 + ph * 2 ^ 32 + serial)

/-- The phase that the next hand-over joins: phases opened and those still on their way (R135). -/
def Seq.openPhase (q : Seq) : Nat :=
  q.inbox.foldl (fun p h => match h with | .phase k => Nat.max p k | .launch _ _ _ _ _ _ | .cancel _ _ => p) q.phase

/-- LWAIT and CNCL accept the handle (R130). -/
def Seq.handleOk (q : Seq) (h : Word) : Bool :=
  field h 48 14 = 0 &&
    match hdLevel h with
    | 0 => decide (hdSerial h < q.nextLaunch)
    | 1 => decide (hdSerial h < q.nextGraph)
    | 2 => hdSerial h = hdPhase h && decide (hdSerial h ≤ q.openPhase)
    | _ => h = jobHandle

/-! ### Units and their status (R136) -/

/-- A launch the sequencer has not taken yet. -/
def Seq.pendingLaunch (q : Seq) (serial : Nat) : Bool :=
  q.inbox.any fun h => match h with
    | .launch k _ _ _ _ _ => k = serial
    | .phase _ | .cancel _ _ => false

/-- Status of a launch that has ended. -/
def Seq.launchStatus (q : Seq) (serial : Nat) : Option Nat :=
  if q.pendingLaunch serial then none
  else match q.launches.find? (fun l => l.serial = serial) with
    | some l => if l.ended then some l.status else none
    | none => none

/-- The status of several launches, once all have ended: 1 if one of them was cancelled. -/
def statusOf (l : List (Option Nat)) : Option Nat := if l.any Option.isNone then none else some ((l.filterMap id).foldl Nat.max 0)

/-- Status of a graph that has ended. -/
def Seq.graphStatus (q : Seq) (serial : Nat) : Option Nat :=
  match q.graphs.find? (fun g => g.serial = serial) with
  | some g => (statusOf (g.launches.map q.launchStatus)).map fun k => if g.cancelled then Nat.max k 1 else k
  | none => none

/-- Launches of one phase. -/
def Seq.ofPhase (q : Seq) (p : Nat) : List LaunchSt := q.launches.filter fun l => l.phase = p

/-- Status of a phase that has ended (R135). -/
def Seq.phaseStatus (q : Seq) (p : Nat) : Option Nat :=
  if p < q.phase || q.jobEnded then
    (statusOf ((q.ofPhase p).map fun l => if l.ended then some l.status else none)).map fun k =>
      if q.phaseCancelled.contains p then Nat.max k 1 else k
  else none

/-- Status of the unit that a handle names, once it has ended. -/
def Seq.status (q : Seq) (h : Word) : Option Nat :=
  match hdLevel h with
  | 0 => q.launchStatus (hdSerial h)
  | 1 => q.graphStatus (hdSerial h)
  | 2 => q.phaseStatus (hdSerial h)
  | _ => if q.jobEnded then some (if q.jobCancelled then 1 else 0) else none

/-- The unit contains the launch with this handle (R136, R137). -/
def Seq.contains (q : Seq) (h own : Word) : Bool :=
  match hdLevel h with
  | 0 => hdSerial h = hdSerial own
  | 1 => q.graphs.any fun g => g.serial = hdSerial h && g.launches.contains (hdSerial own)
  | 2 => hdPhase h = hdPhase own
  | _ => true

/-- The unit contains the running firing's own launch; a firing on a core without a cohort, as on a memory core, has none (R25,
R136, R137). -/
def State.ownUnit (s : State) (h : Word) : Bool := s.core.cohort.isSome && s.dev.seq.contains h s.core.f.lhnd

/-! ### LNCH, GRAPH, PHASE, CNCL and LWAIT -/

/-- The cohorts of a launch. -/
def lrCohorts (r : BitVec 512) : Nat := lrG r 0 * lrG r 1 * lrG r 2

/-- Every cohort of the launch has been placed, or the launch has ended. -/
def LaunchSt.placed (l : LaunchSt) : Bool := l.ended || (decide (lrCohorts l.rcd ≤ l.admitNext) && l.live.all Admitted.placed)

/-- Launches of the job that are not fully placed, those on their way to the sequencer included (R132). -/
def Seq.unplaced (q : Seq) : Nat :=
  (q.launches.filter fun l => !l.placed).length
    + (q.inbox.filter fun h => match h with | .launch _ _ _ _ _ _ => true | .phase _ | .cancel _ _ => false).length

/-- Hand work to the lead sequencer. -/
def State.hand (s : State) (h : Handed) : State :=
  s.mapD fun d => { d with seq := { d.seq with inbox := d.seq.inbox ++ [h] } }

/-- Hand launches over with consecutive serials (R132, R134). -/
def handLaunches (graph : Option Nat) : List (Nat × Word) → State → State
  | [], s => s
  | (i, arg) :: r, s =>
    let (x, y) := s.xy
    let k := s.dev.seq.nextLaunch
    let s := s.hand (.launch k (s.dev.image.launches.getD i 0#512) arg (BitVec.ofNat 8 x) (BitVec.ofNat 8 y) graph)
    handLaunches graph r (s.mapD fun d => { d with seq := { d.seq with nextLaunch := k + 1 } })

/-- LNCH (R132). -/
def execLnch (i : BitVec 11) (a d : BitVec 5) (sp : Sp) (s : State) : Out :=
  checkedOnce s (s.recordStop [i.toNat]) (spLen sp) fun s => irrevocably s fun s => draining s fun s => messagesFirst s fun s =>
    if 64 ≤ s.dev.seq.unplaced then .next s.poll
    else
      let q := s.dev.seq
      let h := handleWord 0 q.openPhase q.nextLaunch
      .next (((handLaunches none [(i.toNat, s.regs.getS a)] s).setS d h).retireIrrev (spLen sp) sp)

def Core.nat (c : Core) (key n : Nat) : Nat := bytesToNat (c.readBytes key n)

/-- The descriptor at a local pointer, as its bytes stand; none when it is refused. -/
def State.graphDesc (s : State) (v : Word) : Option GraphDesc :=
  let key := ptrKey v
  let c := s.core
  let room (n : Nat) : Bool := decide (ptrOff v + n ≤ bufSize (ptrBuf v)) && !s.spanRefused [(key, n)]
  if !(bit v 63 && accessOk s.dev.part v 1 false && s.isLocal v && ptrBuf v ≠ 1 && room 8) then none
  else
    let l := c.nat key 1
    let e := c.nat (key + 1) 1
    let n := 8 + 16 * l + 2 * e
    if l = 0 || decide (16 < l) || decide (32 < e) || c.nat (key + 2) 6 ≠ 0 || !room n then none
    else
      let rows := (List.range l).map fun k => key + 8 + 16 * k
      let edges := (List.range e).map fun j => (c.nat (key + 8 + 16 * l + 2 * j) 1, c.nat (key + 9 + 16 * l + 2 * j) 1)
      if rows.any (fun k => c.nat (k + 2) 6 ≠ 0) || edges.any (fun x => !(decide (x.1 < x.2) && decide (x.2 < l))) then none
      else some ⟨n, rows.map fun k => (c.nat k 2, BitVec.ofNat 64 (c.nat (k + 8) 8)), edges⟩

/-- The largest descriptor: 16 launches and 32 edges. -/
def graphSpan (v : Word) : Span := (ptrKey v, 328)

/-- The first stop of GRAPH once its descriptor is in order (R131, R134). -/
def State.graphStop (s : State) (v : Word) (g : GraphDesc) : Option (Nat × Word) :=
  match s.recordStop (g.launches.map Prod.fst) with
  | some (cause, addr) =>
    if cause = causeBound then some (cause, addr)
    else if ptrOff v % 8 ≠ 0 then some (causeAlign, v) else some (cause, addr)
  | none => if ptrOff v % 8 ≠ 0 then some (causeAlign, v) else none

/-- GRAPH's launches and edges are handed over (R134). -/
def State.handGraph (s : State) (g : GraphDesc) (d : BitVec 5) (sp : Sp) : State :=
  let q := s.dev.seq
  let k := q.nextGraph
  let ph := q.openPhase
  let first := q.nextLaunch
  let st : GraphSt :=
    { serial := k
      phase := ph
      launches := (List.range g.launches.length).map (first + ·)
      edges := g.edges.map fun e => (first + e.1, first + e.2)
      cancelled := false }
  let s := s.mapD fun d => { d with seq := { d.seq with nextGraph := k + 1, graphs := d.seq.graphs ++ [st] } }
  (((handLaunches (some k) g.launches s).setS d (handleWord 1 ph k)).mapF fun f => { f with graph := none }).retireIrrev (spLen sp) sp

/-- GRAPH (R134): the descriptor's sync read, its checks and those of its records, once, and then the drain; what was read and checked
is what is handed over. The read counts as a touch of the core's own windows, which R218 and R219 do not list it among (DESIGN CHOICE, log
95). -/
def execGraph (a d : BitVec 5) (sp : Sp) (s : State) : Out :=
  let v := s.regs.getS a
  let perform (s : State) (g : GraphDesc) : Out := irrevocably s fun s => draining s fun s => messagesFirst s fun s =>
    if 64 < s.dev.seq.unplaced + g.launches.length then .next s.poll else .next (s.handGraph g d sp)
  match (if s.core.f.irrev then s.core.f.graph else none) with
  | some g => perform s g
  | none =>
    settled s false (if s.isLocal v then [graphSpan v] else []) fun s =>
      match s.graphDesc v with
      | none => .next (s.stop causeBound (spLen sp) v)
      | some g => checkedOnce s (s.graphStop v g) (spLen sp) fun s =>
        touchingOnce s [(ptrKey v, g.n)] v fun s =>
          match s.bankSync s.agent (ptrKey v) (.syncRead g.n) with
          | .conflict e key => .next (s.conflictStop e key)
          | .wait | .done _ _ => perform (s.mapF fun f => { f with graph := some g }) g

/-- PHASE (R135). The number is checked again at the hand-over, which other cores' phases may have come before. -/
def execPhase (d : BitVec 5) (sp : Sp) (s : State) : Out :=
  let full (s : State) : Bool := decide (0xFFFF ≤ s.dev.seq.openPhase)
  let stop := if full s then some (causeBound, 0xFFFF#64) else none
  checkedOnce s stop (spLen sp) fun s => irrevocably s fun s => draining s fun s => messagesFirst s fun s =>
    if full s then .next (s.stop causeBound (spLen sp) 0xFFFF#64)
    else
      let k := s.dev.seq.openPhase + 1
      .next (((s.hand (.phase k)).setS d (handleWord 2 k k)).retireIrrev (spLen sp) sp)

/-- CNCL (R137): a cancel of a unit that has ended does nothing; the issuer of a cancel that reaches its own unit ends. -/
def execCncl (a : BitVec 5) (sp : Sp) (s : State) : Out :=
  let h := s.regs.getS a
  let stop := if s.dev.seq.handleOk h then none else some (causeBound, h)
  checkedOnce s stop (spLen sp) fun s => irrevocably s fun s =>
    if (s.dev.seq.status h).isSome then .next (s.retireIrrev (spLen sp) sp)
    else
      let own := s.ownUnit h
      let s := s.hand (.cancel h s.core.id)
      if own then .next ((s.mapC Core.closeOwn).endFiring) else .next (s.retireIrrev (spLen sp) sp)

/-- LWAIT (R136). -/
def execLwait (a d : BitVec 5) (sp : Sp) (s : State) : Out :=
  let h := s.regs.getS a
  let q := s.dev.seq
  let own := s.core.f.lhnd
  if !q.handleOk h then .next (s.stop causeBound (spLen sp) h)
  else if s.ownUnit h || (s.core.cohort.isSome && hdLevel h = 2 && decide (hdPhase own ≤ hdPhase h)) then
    .next (s.stop causeDepcycle (spLen sp) h)
  else match q.status h with
    | some k => .next ((s.setS d (BitVec.ofNat 64 k)).retire (spLen sp) sp)
    | none => .next s.poll

/-! ### Waits on counters and tags (R143, R144) -/

/-- WAITC (R144): a local counter is read until it reaches the target; a remote one answers once it has. A local read
counts as a touch of the core's own windows, which R219 does not list it among (DESIGN CHOICE, log 95). -/
def execWaitc (a d : BitVec 5) (sp : Sp) (s : State) : Out :=
  let v := s.regs.getS a
  let len := spLen sp
  let target := s.regs.getS d
  let charge := s.chargeOf v 16
  let stop := if bit v 63 && ptrBuf v = 1 then some causeBound else s.accessStop v 8 false 8 charge
  let fin (s : State) : Out := .next ((s.pay charge).retire len sp)
  match stop with
  | some cause => .next (s.stop cause len v)
  | none =>
    touching s (s.ownSpan v 8) v fun s =>
      if s.isLocal v then
        settled s false [(ptrKey v, 8)] fun s =>
          let read (s : State) : State := s.mapF fun f => { f with region := f.region.addReads (ptrKey v) 8 }
          match s.bankSync s.agent (ptrKey v) (.counter target) with
          | .done _ s => fin (read s)
          | .conflict e key => .next (s.conflictStop e key)
          | .wait => .next (read s).poll
      else match s.core.f.wait with
        | .replied _ _ => fin s
        | _ => if s.core.ack.waiting ≠ [] then .next s.poll else .next (sendSync s v (.counter target) none 16)

def execWaitt (i : BitVec 11) (a : BitVec 5) (sp : Sp) (s : State) : Out :=
  let m := tagMask s i a
  if s.core.tab.tags &&& m = m then .next (s.retire (spLen sp) sp) else .next s.poll

def execWaita (i : BitVec 11) (a d : BitVec 5) (sp : Sp) (s : State) : Out :=
  let m := tagMask s i a
  let t := s.core.tab.tags &&& m
  if m ≠ 0#64 ∧ t = 0#64 then .next s.poll else .next ((s.setS d t).retire (spLen sp) sp)

/-- Number of trailing zeros of a nonzero word. -/
def lowestBit (w : Word) : Nat := ((List.range 64).find? fun k => bit w k).getD 64

def execTfirst (i : BitVec 11) (a d : BitVec 5) (sp : Sp) (s : State) : Out :=
  .next ((s.setS d (BitVec.ofNat 64 (lowestBit (s.core.tab.tags &&& tagMask s i a)))).retire (spLen sp) sp)

def execTagclr (i : BitVec 11) (a : BitVec 5) (sp : Sp) (s : State) : Out :=
  .next ((s.mapC fun c => c.clearTags (tagMask s i a)).retire (spLen sp) sp)

/-! ### BRK and TRACE (R156, R157) -/

/-- BRK: with BRKEN the region ends at the boundary after it, and the core halts there with this record's code. -/
def execBrk (i : BitVec 11) (sp : Sp) (s : State) : Out :=
  if !s.core.phys.brken then .next (s.retire (spLen sp) sp)
  else
    .next ((s.advance (spLen sp)).closeRegion (.brk (liveAfter sp) (1 + 16 * i.toNat)))

def execTrace (i : BitVec 11) (a : BitVec 5) (sp : Sp) (s : State) : Out :=
  irrevocably s fun s => .next ((s.trace 5 i.toNat (s.regs.getS a)).retireIrrev (spLen sp) sp)

/-! ### Capabilities (R154, R155) -/

/-- CAPMINT: the range OFF and LEN of s[a], the rights of imm11. -/
def execCapmint (i : BitVec 11) (a d : BitVec 5) (sp : Sp) (s : State) : Out :=
  let v := s.regs.getS a
  let off := field v 0 15
  let n := field v 16 15
  let bad := field v 15 1 ≠ 0 || field v 31 33 ≠ 0 || off % 256 ≠ 0 || n % 256 ≠ 0 || decide (n < 256)
    || decide (32768 < off + n) || decide (16 ≤ s.core.tab.grants.length)
  checkedOnce s (if bad then some (causeBound, v) else none) (spLen sp) fun s => irrevocably s fun s =>
    let ser := s.core.tab.capser
    let rights : BitVec 8 := i.setWidth 8
    let (x, y) := s.xy
    let w := BitVec.ofNat 64 (capWord s.dev.part.capkey ser.toNat rights.toNat x y)
    let s := s.mapC fun c => { c with tab := { c.tab with
      grants := c.tab.grants ++ [⟨ser, rights, off, n⟩]
      capser := ser + 1#16 } }
    .next ((s.setS d w).retireIrrev (spLen sp) sp)

/-- CAPREV: the entry that matches the capability is dropped. -/
def execCaprev (a : BitVec 5) (sp : Sp) (s : State) : Out :=
  irrevocably s fun s =>
    let w : BitVec 32 := (s.regs.getS a).setWidth 32
    let (x, y) := s.xy
    let same (g : Grant) : Bool := g.ser.toNat = capSer w && g.rights.toNat = capRights w
      && capChkOf w = capChk s.dev.part.capkey g.ser.toNat g.rights.toNat x y
    let s := s.mapC fun c => { c with tab := { c.tab with grants := c.tab.grants.filter fun g => !same g } }
    .next (s.retireIrrev (spLen sp) sp)

end Sys2Proof.Machine
end

