-- ==== Sys2Proof/Machine/Power.lean ====
section
/-!
DEFINITION. Sys2Proof/Machine/Power.lean: quads, their operating points, droop, gating and copies of TIME (R351 to R356).
-/
namespace Sys2Proof.Machine

/-! ### Quads -/

def Core.isMesh (c : Core) : Bool :=
  match c.id with
  | .mesh _ _ => true
  | .memory _ _ | .pager _ _ | .control | .far _ _ _ | .port _ => false

/-- The logical core that a site holds. -/
def Core.onSite (c : Core) (site : Site) : Bool := c.isMesh && c.site = site

/-- The logical cores at the sites of a quad: the residencies it holds. -/
def State.residents (s : State) (q : Quad) : List Core := s.cores.filter fun c => c.isMesh && quadOf c.site = q

/-! ### Operating points (R351, R352) -/

/-- The requested point: the highest OPREQ.PT among the sites that hold a residency, at most CAP. -/
def State.request (s : State) (q : Quad) : Nat :=
  Nat.min (s.dev.quadAt q).cap (((s.residents q).map fun c => field c.phys.opreq 0 2).foldl Nat.max 0)

/-- The quad takes its requested point, unless a ramp is in progress: a raise switches the clock after the ramp, a lowering
before it. -/
def State.retarget (s : State) (q : Quad) : State :=
  let x := s.dev.quadAt q
  let r := s.request q
  if x.ramping then s
  else if r = x.point then s.setQuad x
  else if r < x.point then s.setQuad { x with point := r, target := r, ramping := true }
  else s.setQuad { x with target := r, ramping := true }

/-- RAMP_COMPLETE (R351): the ramp ends, and a request that came meanwhile is taken. -/
def execRampComplete (q : Quad) (s : State) : Out :=
  let x := s.dev.quadAt q
  if x.ramping then .next ((s.setQuad { x with point := x.target, ramping := false }).retarget q) else .next s

/-- CAP of a quad. -/
def State.setCap (s : State) (q : Quad) (n : Nat) : State := (s.setQuad { s.dev.quadAt q with cap := n }).retarget q

/-- The move service lowers CAP; how far, R352 does not say, and the new value is a free one below the old (log 17). A CAP
of 0 cannot be lowered. -/
def State.lowerCap (s : State) (q : Quad) : State :=
  let cap := (s.dev.quadAt q).cap
  if 0 < cap then
    let (w, s) := s.free
    s.setCap q (w.toNat % cap)
  else s

/-- The move service raises CAP, at most to 3; how far, R352 does not say, and the new value is a free one above the old
(log 17). -/
def State.raiseCap (s : State) (q : Quad) : State :=
  let cap := (s.dev.quadAt q).cap
  if cap < 3 then
    let (w, s) := s.free
    s.setCap q (cap + 1 + w.toNat % (3 - cap))
  else s

def thLim (d : DieSt) : Nat := field d.thlim 0 10
def flMargin (w : Word) : Nat := field w 1 5

def Device.dieSt (d : Device) (k : Nat) : DieSt := d.dies.getD k DieSt.reset

/-- The core state of an idle physical core. -/
def Device.idlePhys (d : Device) (site : Site) : Phys := ((d.idle.find? fun p => p.1 = site).map Prod.snd).getD Phys.reset

def Device.setIdle (d : Device) (site : Site) (p : Phys) : Device :=
  { d with idle := (site, p) :: d.idle.filter fun x => x.1 ≠ site }

/-- An idle physical core, to make its records: it has no logical coordinate, and shows (0, 0) (log 85). -/
def Device.idleCore (d : Device) (site : Site) : Core := { Core.fresh .control site with phys := d.idlePhys site }

/-- GROUP of HGRP (Table 24.3). -/
def Phys.group (p : Phys) : Nat := field p.hgrp 0 16

/-- An idle physical core halts: it has no firing to finish. Its kind-6 record waits in its queue (R358, R361). -/
def Device.haltIdle (d : Device) (code : Nat) (site : Site) : Device :=
  let c := d.idleCore site
  if c.phys.halted then d
  else
    let c : Core := { c with phys := { c.phys with halted := true, haltPending := none, haltAt := d.time } }
    d.setIdle site (c.trace d 6 code 0#64).phys

/-- An idle physical core is released (R359). -/
def Device.releaseIdle (d : Device) (site : Site) : Device :=
  let c := d.idleCore site
  let since := BitVec.ofNat 64 (d.time - c.phys.haltAt)
  if c.phys.halted && !bit c.phys.dump 0 then
    d.setIdle site (({ c with phys := { c.phys with halted := false } } : Core).trace d 7 0 since).phys
  else d

/-- Idle physical cores of a halt group. -/
def Device.idleGroup (d : Device) (grp : Nat) : List Site := (d.idle.filter fun p => p.2.group = grp).map Prod.fst

/-- Records in the queues of idle physical cores leave for their rings (R361). -/
def State.flushIdle (s : State) : State :=
  let s := (s.dev.idle.flatMap fun p => p.2.traceQ.map fun r => (r, p.2.trcring)).foldl
    (fun s r => s.sendAs .control .control .sys (.trace r.1 r.2)) s
  s.mapD fun d => { d with idle := d.idle.map fun p => (p.1, { p.2 with traceQ := [] }) }

/-- A halt is asked of the focused core, unless it is halted already. -/
def Core.askHalt (code : Nat) (c : Core) : Core :=
  if c.phys.halted then c else { c with phys := { c.phys with haltPending := c.phys.haltPending.or (some code) } }

/-- A core of this group has halted: the other members are told over SYS, and idle ones halt (R358). -/
def State.tellGroup (s : State) (grp : Nat) : State :=
  if grp = 0 then s
  else
    let s := (s.mapD fun d => (d.idleGroup grp).foldl (Device.haltIdle · 3 ·) d).flushIdle
    ((s.cores.filter fun c => c.phys.group = grp && !c.phys.halted).map Core.id).foldl
      (fun s c => s.send c .sys (.haltGroup grp)) s

/-- A site's temperature is measured (Table 20.4): at LIM + 40 or above, CAP of its quad becomes 0 at once (R352). -/
def State.measured (s : State) (site : Site) (t : BitVec 10) : State :=
  let put (p : Phys) : Phys := { p with temp := t.zeroExtend 64 }
  let s := if thLim (s.dev.dieSt (dieOf site)) + 40 ≤ t.toNat then s.setCap (quadOf site) 0 else s
  if (s.cores.any fun c => c.onSite site) then
    s.onAll fun c => if c.onSite site then { c with phys := put c.phys } else c
  else s.mapD fun d => { d with idle :=
    if (d.idle.any fun p => p.1 = site) then (d.idle.map fun p => if p.1 = site then (site, put p.2) else p)
    else d.idle ++ [(site, put Phys.reset)] }

/-- The core state of a site: its core's, or that of an idle physical core. -/
def State.physAt (s : State) (site : Site) : Phys :=
  match s.cores.find? (fun c => c.onSite site) with
  | some c => c.phys
  | none => s.dev.idlePhys site

def State.tempAt (s : State) (site : Site) : Nat := field (s.physAt site).temp 0 10

/-- The four sites of a quad. -/
def quadSites (q : Quad) : List Site :=
  let x := 34 * (q.die.toNat % 4) + 2 * q.qx.toNat
  let y := 64 * (q.die.toNat / 4) + 2 * q.qy.toNat
  [⟨BitVec.ofNat 8 x, BitVec.ofNat 8 y⟩, ⟨BitVec.ofNat 8 (x + 1), BitVec.ofNat 8 y⟩,
   ⟨BitVec.ofNat 8 x, BitVec.ofNat 8 (y + 1)⟩, ⟨BitVec.ofNat 8 (x + 1), BitVec.ofNat 8 (y + 1)⟩]

/-- OVERHEAT_CAP (R352): a site of the quad reaches LIM + 40, and CAP becomes 0 at once. -/
def execOverheatCap (site : Site) (t : BitVec 10) (s : State) : Out := .next (s.measured site t)

/-- CAP_RAISE (R352): the hottest site of the quad reads at least 4·MARGIN below LIM, and the move service raises CAP. -/
def execCapRaise (q : Quad) (s : State) : Out :=
  let d := s.dev.dieSt q.die.toNat
  let hottest := ((quadSites q).map s.tempAt).foldl Nat.max 0
  if hottest + 4 * flMargin d.floatctl ≤ thLim d then .next (s.raiseCap q) else .next s

/-- The core clock of a quad in MHz (Table 23.1, R353): none while it is gated. -/
def QuadSt.mhz (x : QuadSt) : Nat :=
  match x.gate with
  | .on | .gating => (200 + 200 * x.point) / (if x.halved then 2 else 1)
  | .off | .waking => 0

/-- 10 ns of a core's clock, in hundredths of a cycle (R4, R310). -/
def State.tickClock (s : State) (c : Core) : Core := { c with clock := c.clock + (s.dev.quadAt (quadOf c.site)).mhz }

/-! ### Droop (R353) -/

/-- DROOP_DETECT: the clock is halved, and the hold starts, or starts again. -/
def execDroopDetect (q : Quad) (s : State) : Out :=
  .next (s.setQuad { s.dev.quadAt q with halved := true, droopAt := s.dev.time })

/-- DROOP_HOLD_EXPIRY: the detector has read clear for 2 µs of TIME without a break. -/
def execDroopHoldExpiry (q : Quad) (s : State) : Out :=
  let x := s.dev.quadAt q
  if x.droopAt + 2000 ≤ s.dev.time then .next (s.setQuad { x with halved := false }) else .next s

/-! ### Gating (R354, R355) -/

/-- A site of the quad holds a residency, is the target of a move, or holds a forwarding entry. -/
def State.quadInUse (s : State) (q : Quad) : Bool :=
  !(s.residents q).isEmpty
    || s.cores.any (fun c => match c.moving with
        | .requested t _ | .draining t _ | .streaming t _ => quadOf t = q
        | .no => false)
    || s.dev.forwards.any fun f => quadOf f.old = q && !f.left.isEmpty

/-- CMD = 1 takes effect on a quad that is on, at this TIME. -/
def QuadSt.startGating (x : QuadSt) (time : Nat) : QuadSt :=
  if x.gate = .on then { x with gate := .gating, since := time } else x

/-- The commit point, edge 64 after the gate command, has come (R355). -/
def QuadSt.commitDue (x : QuadSt) (time : Nat) : Bool := x.gate = .gating && decide (x.since + 640 ≤ time)

/-- The commit point: the quad's cores lose power with their core state (R355; log 18). -/
def State.gateOff (s : State) (q : Quad) : State :=
  (s.setQuad { s.dev.quadAt q with gate := .off }).mapD fun d => { d with idle := d.idle.filter fun p => quadOf p.1 ≠ q }

/-- GATING_COMMIT (R355). -/
def execGatingCommit (q : Quad) (s : State) : Out :=
  if (s.dev.quadAt q).commitDue s.dev.time then .next (s.gateOff q) else .next s

/-- A wake event (R355): gating is cancelled before the commit point, and a gated quad starts waking. -/
def State.wake (s : State) (q : Quad) : State :=
  let s := if (s.dev.quadAt q).commitDue s.dev.time then s.gateOff q else s
  let x := s.dev.quadAt q
  match x.gate with
  | .on | .waking => s
  | .gating => s.setQuad { x with gate := .on }
  | .off => s.setQuad { x with gate := .waking, since := s.dev.time }

/-- A halt request reaches the physical core of a site, idle or not (R158, R358). -/
def State.haltSite (s : State) (site : Site) : State :=
  match s.cores.find? fun c => c.onSite site with
  | some c => s.onCore c.id (Core.askHalt 0)
  | none =>
    let grp := (s.dev.idlePhys site).group
    ((s.mapD (Device.haltIdle · 0 site)).flushIdle).tellGroup grp

/-- WAKE_COMPLETE: waking takes 800 edges, and what the routers held is delivered (R355). -/
def execWakeComplete (q : Quad) (s : State) : Out :=
  let x := s.dev.quadAt q
  if x.gate = .waking && decide (x.since + 8000 ≤ s.dev.time) then
    let held := s.dev.portHeld.filter fun p => quadOf p = q
    let s := (s.setQuad { x with gate := .on }).mapD fun d =>
      { d with portHeld := d.portHeld.filter fun p => quadOf p ≠ q }
    .next (held.foldl State.haltSite s)
  else .next s

/-- The focused core's quad has power: a core without it runs nothing, and takes in nothing at its local port (R355). -/
def State.powered (s : State) : Bool :=
  match s.core.id with
  | .mesh _ _ => match (s.dev.quadAt (quadOf s.core.site)).gate with
    | .on | .gating => true
    | .off | .waking => false
  | .memory _ _ | .pager _ _ | .control | .far _ _ _ | .port _ => true

/-- A packet for the local port of a site is a wake event, and is delivered once the quad is on (R355). -/
def State.reachPort (s : State) (site : Site) (k held : State → State) : State :=
  let t := s.wake (quadOf site)
  if (t.dev.quadAt (quadOf site)).gate = .on then k t else held t

/-- HALT of an idle site, whose router holds it while the quad is without power. -/
def State.askHaltSite (s : State) (site : Site) : State :=
  s.reachPort site (State.haltSite · site) fun t => t.mapD fun d => { d with portHeld := d.portHeld ++ [site] }

/-! ### News for the host (R371) -/

/-- The host's news reaches it through the completion ring, whose form is the kernel's own: here entry k, with bit 63 set, stands at BAR0
offset 0x880 + 8·(k mod 240) (DESIGN CHOICE, log 92). -/
def Device.tellHost (d : Device) (news : Word) : Device :=
  { d with
    hostNews := d.hostNews ++ [news]
    boot := { d.boot with
      ring := d.boot.ring.write (0x880 + 8 * (d.hostNews.length % 240)) (natToBytes 8 (news ||| 0x8000000000000000#64).toNat) } }

/-! ### TIME (R356) -/

/-- A reference edge: TIME advances by 10, and so does every copy that has not had this edge early. -/
def Device.edge (d : Device) : Device :=
  { d with
    time := d.time + 10
    quads := d.quads.map fun x => { x with skew := x.skew - 10 } }

/-- A copy of TIME comes to run ahead, by at most 20 ns and never back. -/
def State.drift (s : State) (q : Quad) (ahead : Nat) : State :=
  let x := s.dev.quadAt q
  if ahead ≤ 20 ∧ ahead % 10 = 0 ∧ x.skew ≤ ahead then s.setQuad { x with skew := ahead } else s

/-- A read of TIME by the residency: never below its last one. -/
def State.readTime (s : State) : Word × State :=
  let t := Nat.max s.timeHere s.core.lastTime.toNat
  (BitVec.ofNat 64 t, s.mapC fun c => { c with lastTime := BitVec.ofNat 64 t })

end Sys2Proof.Machine
end

