-- ==== Sys2Proof/Machine/Csr.lean ====
section
/-!
DEFINITION. Sys2Proof/Machine/Csr.lean: the control registers (R18, R150 to R153, Table 7.8) and the rules of single
registers (R68, R72, R293, R342, R346, R351, R354 to R360).
-/
namespace Sys2Proof.Machine

/-! ### The map (Table 7.8) -/

def Core.isPager (c : Core) : Bool :=
  match c.id with
  | .pager _ _ => true
  | .mesh _ _ | .memory _ _ | .control | .far _ _ _ | .port _ => false

/-- The address names a register on this core (R152). -/
def Core.csrAssigned (c : Core) (a : Nat) : Bool :=
  [0x000, 0x001, 0x008, 0x009, 0x00A, 0x010, 0x011, 0x018, 0x019, 0x01A, 0x01B, 0x01C, 0x01D, 0x01E, 0x020, 0x022,
    0x028, 0x029, 0x02A, 0x02B, 0x02C, 0x030, 0x038].contains a
  || (decide (0x040 ≤ a) && decide (a ≤ 0x05F)) || (decide (0x060 ≤ a) && decide (a ≤ 0x067))
  || [0x800, 0x801, 0x802, 0x810, 0x811, 0x812, 0x813, 0x814, 0x830, 0x831, 0x832, 0x840, 0x841].contains a
  || (a = 0x820 && c.isMemory) || (a = 0x821 && (c.isMemory || c.isPager))

/-- Bits that a write form may change; none of a read-only register. -/
def csrMask (a : Nat) : Word :=
  if a = 0x000 then 0x3F#64
  else if a = 0x001 then 0x7#64
  else if a = 0x009 then BitVec.allOnes 64
  else if a = 0x019 ∨ a = 0x01A then 0x7FFF#64
  else if a = 0x022 then 0x21F1F#64
  else if 0x040 ≤ a ∧ a ≤ 0x067 then BitVec.allOnes 64
  else if a = 0x800 ∨ a = 0x801 then BitVec.allOnes 64
  else if a = 0x810 then 0x1#64
  else if a = 0x811 then 0xFFFF00000000FF01#64
  else if a = 0x812 then 0xFFFFFFFFFF0FF#64
  else if a = 0x813 then 0x9FFFF#64
  else if a = 0x814 then 0xFFFF0003#64
  else if a = 0x820 then 0xFFFFFFFFFFFF1#64
  else if a = 0x821 then 0x1FFFFFFFFFFFFFC#64
  else if a = 0x830 then 0xF1FFF#64
  else if a = 0x832 then 0x3FF#64
  else if a = 0x840 then 0x1F1F03#64
  else if a = 0x841 then 0x3#64
  else 0#64

/-- Reserved fields that a write may not leave nonzero (R357). -/
def csrReserved (a : Nat) : Word :=
  if a = 0x810 then ~~~0x1#64
  else if a = 0x811 then ~~~0xFFFF00000000FF01#64
  else if a = 0x812 then ~~~0xFFFFFFFFFF0FF#64
  else if a = 0x813 then ~~~0xFFFFF#64
  else if a = 0x814 then ~~~0xFFFF0003#64
  else 0#64

/-! ### Reads -/

def siteWord (s : Site) : Word := BitVec.ofNat 64 (s.py.toNat * 2 ^ 40 + s.px.toNat * 2 ^ 32)

/-- WHERE shows logical coordinates in J and the site in S (Table 1.7). -/
def State.whereWord (s : State) (smode : Bool) : Word :=
  if smode then siteWord s.core.site
  else let (x, y) := s.xy
    BitVec.ofNat 64 (y * 2 ^ 40 + x * 2 ^ 32)

def Core.cohortWord (c : Core) : Word :=
  match c.cohort with
  | some k => BitVec.ofNat 64 (k.oy * 2 ^ 56 + k.ox * 2 ^ 48 + k.gz * 2 ^ 32 + k.gy * 2 ^ 16 + k.gx)
  | none => 0#64

/-- WDEPTHCUR: 16 shows as 0, as does an unchained window. -/
def Core.depthWord (c : Core) : Word :=
  BitVec.ofNat 64 (((List.range 16).map fun k => match c.chainOf (BitVec.ofNat 4 k) with
    | some ch => ch.depth % 16 * 2 ^ (4 * k)
    | none => 0).foldl (· + ·) 0)

def Ctl.tcause (c : Ctl) : Word := BitVec.ofNat 64 ((if c.act then 2 ^ 63 else 0) + c.cause.toNat)

/-- HGRP with the core's state in it (Table 24.3). -/
def Phys.hgrpWord (p : Phys) : Word :=
  p.hgrp ||| (if p.halted then 0x40000#64 else 0#64) ||| (if bit p.dump 0 then 0x20000#64 else 0#64)

/-- The quad that PWRQ has selected. -/
def pwQuad (die : Nat) (w : Word) : Quad := ⟨BitVec.ofNat 3 die, BitVec.ofNat 5 (field w 8 5), BitVec.ofNat 5 (field w 16 5)⟩

def gateCode : Gate → Nat
  | .on => 0
  | .gating => 1
  | .off => 2
  | .waking => 3

/-- PWRQ: the selection and the state of the selected quad (Table 23.3). -/
def State.pwrqWord (s : State) : Word :=
  let die := dieOf s.core.site
  let w := (s.dev.dieSt die).pwrq
  let x := s.dev.quadAt (pwQuad die w)
  (w &&& 0x1F1F00#64) ||| BitVec.ofNat 64 (x.point % 4 * 64 + gateCode x.gate * 16 + (if x.halved then 8 else 0)
    + (if x.cap < 3 then 4 else 0))

/-- The value of a register of the focused core, TIME apart. -/
def State.csrValue (s : State) (a : Nat) : Word :=
  let c := s.core
  let f := c.f
  let die := s.dev.dieSt (dieOf c.site)
  if a = 0x000 then f.ctl.fstat.zeroExtend 64
  else if a = 0x001 then f.ctl.rm.zeroExtend 64
  else if a = 0x008 then f.ctl.mnom
  else if a = 0x009 then f.ctl.mlim
  else if a = 0x00A then f.mact
  else if a = 0x010 then c.tab.tags
  else if a = 0x011 then c.tab.tagerr
  else if a = 0x018 then f.ctl.tcause
  else if a = 0x019 then f.ctl.tpc.zeroExtend 64
  else if a = 0x01A then f.ctl.tnpc.zeroExtend 64
  else if a = 0x01B then f.ctl.taddr
  else if a = 0x01C then f.rspc
  else if a = 0x01D then f.rsaddr
  else if a = 0x01E then f.rsagent &&& 0xFFFFFFFFC000FFFF#64
  else if a = 0x020 then f.ctl.fhdr &&& 0x7F3FFFFF000100FF#64
  else if a = 0x022 then c.tab.sqctl
  else if a = 0x028 then s.whereWord f.smode
  else if a = 0x029 then siteWord c.site
  else if a = 0x02A then s.dev.part.pext &&& if f.smode then 0xFFFF0000FFFF#64 else 0xFFFF00000000#64
  else if a = 0x02B then c.cohortWord
  else if a = 0x02C then match c.cohort with | some k => k.lhnd | none => 0#64
  else if a = 0x030 then s.readTime.1
  else if a = 0x038 then c.depthWord
  else if 0x040 ≤ a ∧ a ≤ 0x05F then c.phys.dacc.getD (a - 0x040) 0#64
  else if 0x060 ≤ a ∧ a ≤ 0x067 then f.regs.getE (BitVec.ofNat 3 (a - 0x060))
  else if a = 0x802 then c.tab.capser.zeroExtend 64
  else if a = 0x810 then if c.phys.brken then 1#64 else 0#64
  else if a = 0x811 then c.phys.trcctl
  else if a = 0x812 then c.phys.trcring
  else if a = 0x813 then c.phys.hgrpWord
  else if a = 0x814 then c.phys.dump
  else if a = 0x820 then c.phys.ptroot &&& csrMask 0x820
  else if a = 0x830 then die.floatctl
  else if a = 0x831 then c.phys.temp
  else if a = 0x832 then die.thlim
  else if a = 0x840 then s.pwrqWord
  else if a = 0x841 then c.phys.opreq
  else 0#64

/-! ### Field checks of a register's own rule -/

def flPeriod (w : Word) : Nat := field w 6 7

/-- A write that would leave this value stops with ILLEGAL (R68, R293, R342, R346, R354, R357). -/
def State.csrRefused (s : State) (a : Nat) (v : Word) : Bool :=
  if v &&& csrReserved a ≠ 0#64 then true
  else if a = 0x001 then decide (5 ≤ field v 0 3)
  else if a = 0x022 then
    sqReqLim v = 0 || decide (16 < sqReqLim v) || sqRepLim v = 0 || decide (16 < sqRepLim v)
  else if a = 0x812 then lockedMeets s.dev.boot.locked (4096 * field v 12 40) 4096
  else if a = 0x814 then field v 16 16 = 0
  else if a = 0x821 then field v 2 2 = 3
  else if a = 0x830 then flPeriod v = 0 || decide (64 < flPeriod v)
  else if a = 0x840 then
    decide (16 < field v 8 5) || field v 0 2 = 3
      || (field v 0 2 = 1 && s.quadInUse (pwQuad (dieOf s.core.site) v))
  else false

/-! ### Writes -/

/-- TLB entries that a TLBINV word invalidates (Table 15.9). -/
def tlbInvalid (v : Word) (e : TlbEntry) : Bool :=
  let asid : BitVec 8 := v.extractLsb' 4 8
  match field v 2 2 with
  | 0 => e.covers asid (field v 12 45 * 4096)
  | 1 => e.asid = asid
  | _ => true

/-- TLBINV: every TLB on all dies (R293). -/
def State.tlbInvalidate (s : State) (v : Word) : State :=
  let keep (t : List TlbEntry) : List TlbEntry := t.filter fun e => !tlbInvalid v e
  (s.onAll fun c => { c with phys := { c.phys with tlb := keep c.phys.tlb } }).mapD fun d =>
    { d with dies := d.dies.map fun x => { x with tlb := keep x.tlb } }

/-- A held store to external memory may stand under an entry that TLBINV invalidates: an entry of any size covers no more than its
1 GiB. -/
def Core.heldUnder (c : Core) (v : Word) (f : Firing) : Bool :=
  f.region.held.any fun h => !h.inBuffer && tlbInvalid v ⟨ptAsid c.phys.ptroot, 2, h.ea.toNat % 2 ^ 57 / 2 ^ 30, 0#64⟩

def Body.isCommitExt : Body → Bool
  | .commitExt _ _ => true
  | _ => false

/-- A commit of a memory core's stores is on its way to the channels. -/
def State.commitsOut (s : State) : Bool :=
  s.net.any (fun k => k.body.isCommitExt) || s.cores.any fun c => c.ack.waiting.any fun w => w.2.2.isCommitExt

/-- Firings whose stores an invalidation waits for are asked to end their regions, once each. -/
def State.askHolders (s : State) (v : Word) : State :=
  ((s.cores.filter fun c => c.busy && c.heldUnder v c.f).map Core.agent).foldl
    (fun s a => if s.net.any (fun k => k.body = .split a) then s else s.askSplit (some a)) s

/-- TLBINV returns only after every access translated under an entry that it invalidates has completed (R293): stores that are held, or
on their way to the channels, come first. -/
def tlbQuiet (s : State) (v : Word) (k : State → Out) : Out :=
  if s.core.heldUnder v s.core.f then .next s.split
  else if s.commitsOut || s.cores.any (fun c => c.busy && c.heldUnder v c.f) then .next (s.askHolders v).poll
  else k s

/-- SQCTL: clearing HOLD releases the held messages at once (R346). -/
def Core.setSqctl (c : Core) (v : Word) : Core :=
  let c := { c with tab := { c.tab with sqctl := v } }
  if sqHold v then c
  else { c with q := { c.q with
    sendReq := releaseHeld (fun _ => true) c.q.sendReq
    sendRep := releaseHeld (fun _ => true) c.q.sendRep } }

/-- PWRQ: a selection and a command (R354, R355). -/
def State.setPwrq (s : State) (v : Word) : State :=
  let die := dieOf s.core.site
  let s := s.mapD fun d => d.onDie die fun x => { x with pwrq := v &&& 0x1F1F00#64 }
  let x := s.dev.quadAt (pwQuad die v)
  match field v 0 2 with
  | 1 => s.setQuad (x.startGating s.dev.time)
  | 2 => s.wake (pwQuad die v)
  | _ => s

/-- DUMP: setting HOLD halts the core at its next boundary and starts the limit (R360). -/
def State.setDump (s : State) (v : Word) : State :=
  let rising := bit v 0 && !bit s.core.phys.dump 0
  s.mapC fun c => { c with phys := { c.phys with
    dump := v
    holdAt := if rising then s.dev.time else c.phys.holdAt
    haltPending := if rising then c.phys.haltPending.or (some 4) else c.phys.haltPending } }

/-- Publishes that a halt deferred take place, in window order (R359). -/
def publishDeferred : List (BitVec 4) → State → State
  | [], s => s
  | k :: r, s => publishDeferred r (s.settleWin k (match (s.core.win k).bound with | some b => b.pc | none => s.core.f.pc))

/-- The firing record that the halt kept, behind the other parked firings, and a trigger whatever it waits for (R359). -/
def Core.recordDue (c : Core) : List Parked :=
  let mine (p : Parked) : Bool := c.phys.haltRec = some p.f.serial
  (c.q.parked.filter fun p => !mine p) ++ (c.q.parked.filter mine).map fun p => { p with ready := none, due := true }

/-- The focused core is released (R359): deferred publishes in window order, then the firing record that the halt kept becomes a
trigger, behind what the publishes made ready, and a resume record is written. -/
def State.releaseHalt (s : State) : State :=
  if !s.core.phys.halted then s
  else
    let since := s.dev.time - s.core.phys.haltAt
    let s := publishDeferred windows (s.mapC fun c => { c with phys := { c.phys with halted := false, haltPending := none } })
    let s := s.mapC fun c => { c with
      phys := { c.phys with haltRec := none }
      q := { c.q with parked := c.recordDue } }
    s.trace 7 0 (BitVec.ofNat 64 since)

/-- Do something at another core, and bring the focus back. -/
def State.at (s : State) (c : CoreId) (g : State → State) : State :=
  let me := s.core.id
  match s.focus c with
  | some t => ((g t).focus me).getD (g t)
  | none => s

/-- The cores that RESUME on this core releases: its group's halted members that no dump holds, or itself. -/
def State.haltGroup (s : State) : List CoreId :=
  let grp := s.core.phys.group
  if grp = 0 then [s.core.id]
  else (s.cores.filter fun c => c.phys.group = grp && (c.id = s.core.id || !bit c.phys.dump 0)).map Core.id

/-- The idle physical cores of a group are released with it. -/
def State.releaseIdles (s : State) (grp : Nat) : State :=
  if grp = 0 then s else (s.mapD fun d => (d.idleGroup grp).foldl Device.releaseIdle d).flushIdle

/-- RESUME = 1 (R357, R358). -/
def State.resume (s : State) : State :=
  let p := s.core.phys
  if !p.halted || bit p.dump 0 then s
  else (s.haltGroup.foldl (fun s c => s.at c State.releaseHalt) s).releaseIdles p.group

/-- RESUME = 1 of an idle physical core, and of its group. -/
def State.resumeSite (s : State) (site : Site) : State :=
  let p := s.dev.idlePhys site
  if !p.halted || bit p.dump 0 then s
  else if p.group = 0 then (s.mapD (Device.releaseIdle · site)).flushIdle
  else
    let members := (s.cores.filter fun c => c.phys.group = p.group && !bit c.phys.dump 0).map Core.id
    (members.foldl (fun s c => s.at c State.releaseHalt) s).releaseIdles p.group

/-- HGRP (Table 24.3). -/
def State.setHgrp (s : State) (v : Word) : State :=
  let s := s.mapC fun c => { c with phys := { c.phys with hgrp := v &&& 0x1FFFF#64 } }
  if bit v 19 then s.resume else s

/-- A write of a register, its writable bits already merged. -/
def State.csrStore (s : State) (a : Nat) (v : Word) : State :=
  let setF (g : Firing → Firing) : State := s.mapF g
  let setP (g : Phys → Phys) : State := s.mapC fun c => { c with phys := g c.phys }
  let die := dieOf s.core.site
  if a = 0x000 then setF fun f => { f with ctl := { f.ctl with fstat := v.setWidth 6 } }
  else if a = 0x001 then setF fun f => { f with ctl := { f.ctl with rm := v.setWidth 3 } }
  else if a = 0x009 then setF fun f => { f with ctl := { f.ctl with mlim := v } }
  else if a = 0x019 then setF fun f => { f with ctl := { f.ctl with tpc := v.setWidth 15 } }
  else if a = 0x01A then setF fun f => { f with ctl := { f.ctl with tnpc := v.setWidth 15 } }
  else if a = 0x022 then s.mapC fun c => c.setSqctl v
  else if 0x040 ≤ a ∧ a ≤ 0x05F then setP fun p => { p with dacc := p.dacc.setIfInBounds (a - 0x040) v }
  else if 0x060 ≤ a ∧ a ≤ 0x067 then setF fun f => { f with regs := f.regs.setE (BitVec.ofNat 3 (a - 0x060)) v }
  else if a = 0x800 then s.mapD fun d => { d with part := { d.part with capkey := d.part.capkey.extractLsb' 64 64 ++ v } }
  else if a = 0x801 then s.mapD fun d => { d with part := { d.part with capkey := v ++ d.part.capkey.extractLsb' 0 64 } }
  else if a = 0x810 then setP fun p => { p with brken := bit v 0 }
  else if a = 0x811 then setP fun p => { p with trcctl := v }
  else if a = 0x812 then setP fun p => { p with trcring := v }
  else if a = 0x813 then s.setHgrp v
  else if a = 0x814 then s.setDump v
  else if a = 0x820 then setP fun p => { p with ptroot := v }
  else if a = 0x821 then s.tlbInvalidate v
  else if a = 0x830 then s.mapD fun d => d.onDie die fun x => { x with floatctl := v }
  else if a = 0x832 then s.mapD fun d => d.onDie die fun x => { x with thlim := v }
  else if a = 0x840 then s.setPwrq v
  else if a = 0x841 then (setP fun p => { p with opreq := v }).retarget (quadOf s.core.site)
  else s

/-! ### The forms (R150) -/

/-- The form as an instruction: fn 0 to 3 are CSRD, CSWR, CSSET and CSCLR. -/
def csrInstr (fn : Nat) (c : BitVec 12) (a d : BitVec 5) (sp : Sp) : Instr :=
  match fn with
  | 0 => .csrd c d sp
  | 1 => .cswr c a d sp
  | 2 => .csset c a d sp
  | _ => .csclr c a d sp

/-- The new value before the read-only bits are kept. -/
def csrCombine (fn : Nat) (old v : Word) : Word :=
  match fn with
  | 0 => old
  | 1 => v
  | 2 => old ||| v
  | _ => old &&& ~~~v

/-- The firing's engine commands have completed, before CSRD reads FSTAT (R72). -/
def readsFlags (s : State) (fn a : Nat) (k : State → Out) : Out :=
  if fn = 0 ∧ a = 0x000 then
    let ser := s.core.f.serial
    match settleWhile (fun c => c.eng.vq.any (fun x => x.serial = ser) || c.eng.mq.any fun x => x.serial = ser) 16 s with
    | some s => k s
    | none => .next s.poll
  else k s

/-- One control-register form: PRIV, then ILLEGAL, then its effect; every form returns the old value. -/
def csForm (fn : Nat) (c : BitVec 12) (a d : BitVec 5) (sp : Sp) (s : State) : Out :=
  let len := spLen sp
  let enc := encWord (csrInstr fn c a d sp)
  let n := c.toNat
  if bit c 11 && !s.core.f.smode then .next (s.stop causePriv len enc)
  else if !s.core.csrAssigned n || (fn ≠ 0 && csrMask n = 0#64) then .next (s.stop causeIllegal len enc)
  else readsFlags s fn n fun s =>
    let old := s.csrValue n
    let raw := csrCombine fn old (s.regs.getS a)
    if fn ≠ 0 && s.csrRefused n raw then .next (s.stop causeIllegal len enc)
    else
      let s := if n = 0x030 then s.readTime.2 else s
      let v := (old &&& ~~~csrMask n) ||| (raw &&& csrMask n)
      let fin (s : State) : Out := .next (((if fn = 0 then s else s.csrStore n v).setS d old).retire len sp)
      if fn ≠ 0 && n = 0x821 then tlbQuiet s v fin else fin s

def execCsrd (c : BitVec 12) (d : BitVec 5) (sp : Sp) (s : State) : Out := csForm 0 c 0#5 d sp s
def execCswr (c : BitVec 12) (a d : BitVec 5) (sp : Sp) (s : State) : Out := csForm 1 c a d sp s
def execCsset (c : BitVec 12) (a d : BitVec 5) (sp : Sp) (s : State) : Out := csForm 2 c a d sp s
def execCsclr (c : BitVec 12) (a d : BitVec 5) (sp : Sp) (s : State) : Out := csForm 3 c a d sp s

/-! ### Rows for single registers -/

/-- FCTL_WRITE (R68). -/
def execFctlWrite (fn : BitVec 2) (a d : BitVec 5) (sp : Sp) (s : State) : Out := csForm fn.toNat 0x001#12 a d sp s

/-- FSTAT_READ (R72). -/
def execFstatRead (d : BitVec 5) (sp : Sp) (s : State) : Out := csForm 0 0x000#12 0#5 d sp s

/-- TIME_READ (R356). -/
def execTimeRead (d : BitVec 5) (sp : Sp) (s : State) : Out := csForm 0 0x030#12 0#5 d sp s

/-- SQCTL_WRITE (R346). -/
def execSqctlWrite (fn : BitVec 2) (a d : BitVec 5) (sp : Sp) (s : State) : Out := csForm fn.toNat 0x022#12 a d sp s

/-- TLBINV_PAGE (R293). -/
def execTlbinvPage (fn : BitVec 2) (a d : BitVec 5) (sp : Sp) (s : State) : Out := csForm fn.toNat 0x821#12 a d sp s

/-- TLBINV_ASID (R293). -/
def execTlbinvAsid (fn : BitVec 2) (a d : BitVec 5) (sp : Sp) (s : State) : Out := csForm fn.toNat 0x821#12 a d sp s

/-- TLBINV_ALL (R293). -/
def execTlbinvAll (fn : BitVec 2) (a d : BitVec 5) (sp : Sp) (s : State) : Out := csForm fn.toNat 0x821#12 a d sp s

/-- PWRQ_GATE (R354, R355). -/
def execPwrqGate (fn : BitVec 2) (a d : BitVec 5) (sp : Sp) (s : State) : Out := csForm fn.toNat 0x840#12 a d sp s

/-- PWRQ_WAKE (R354, R355). -/
def execPwrqWake (fn : BitVec 2) (a d : BitVec 5) (sp : Sp) (s : State) : Out := csForm fn.toNat 0x840#12 a d sp s

/-- OPREQ_WRITE (R351). -/
def execOpreqWrite (fn : BitVec 2) (a d : BitVec 5) (sp : Sp) (s : State) : Out := csForm fn.toNat 0x841#12 a d sp s

/-- HGRP_RESUME (R357 to R359). -/
def execHgrpResume (fn : BitVec 2) (a d : BitVec 5) (sp : Sp) (s : State) : Out := csForm fn.toNat 0x813#12 a d sp s

/-- DUMP_HOLD (R360). -/
def execDumpHold (fn : BitVec 2) (a d : BitVec 5) (sp : Sp) (s : State) : Out := csForm fn.toNat 0x814#12 a d sp s

/-- CONTROL_REGISTER_WRITE (R150). -/
def execControlRegisterWrite (fn : BitVec 2) (c : BitVec 12) (a d : BitVec 5) (sp : Sp) (s : State) : Out :=
  csForm fn.toNat c a d sp s

end Sys2Proof.Machine
end

