-- ==== Sys2Proof/Machine/Firings.lean ====
section
/-!
DEFINITION. Sys2Proof/Machine/Firings.lean: the supervisor forms (R158), the triggers of a core and the selection of its next
firing (R270 to R273), parking and waits (R129, R271), back-off and safe points made on request (R279, R284).
-/
namespace Sys2Proof.Machine

/-! ### Actors, nests and what makes a firing ready (R140, R142) -/

/-- F and S of a CB that an actor names: at the home directly, through a link as last told (R272). -/
def Core.cbSeen (c : Core) (seen : List (Nat × Nat × Nat)) (h : Nat) : Option (Nat × Nat) :=
  match c.cbAt h with
  | .home rcd _ _ f _ _ _ => some (f, cbS rcd)
  | .link _ _ _ => (seen.find? fun p => p.1 = h).map Prod.snd
  | .empty => none

/-- A bound actor is ready: inputs hold their rates in filled slots, outputs in free slots, and no firing of it lives. -/
def Core.actorReady (c : Core) (b : Binding) : Bool :=
  match b with
  | .actor r _ _ live seen =>
    !live
      && (acIns r).all (fun p => match c.cbSeen seen p.1 with | some (f, _) => decide (p.2 ≤ f) | none => false)
      && (acOuts r).all fun p => match c.cbSeen seen p.1 with | some (f, n) => decide (p.2 ≤ n - f) | none => false
  | .nest _ _ _ _ _ _ | .empty => false

/-- The next iteration that a nest has queued, past the ones that are skipped (R142). -/
def nestNext (b : Binding) : Option Nat :=
  match b with
  | .nest r _ _ n k _ => if k = 0 || decide (nsCount r ≤ n) then none else some n
  | .actor _ _ _ _ _ | .empty => none

/-- Iterations at or beyond the product of the extents are skipped (R142). -/
def nestSkip (b : Binding) : Binding :=
  match b with
  | .nest r m p n _ cl => if nsCount r ≤ n then .nest r m p n 0 cl else b
  | .actor _ _ _ _ _ | .empty => b

/-- The fetchers skip what lies beyond their nests and claim what they lack (R142, R273). -/
def State.fetchNests (s : State) : State :=
  windows.foldl (fun s k => (s.setBind k (nestSkip (s.core.bindAt k))).nestClaim k) s

/-! ### Triggers (Table 14.2) -/

inductive Trigger where
  /-- Index of a parked firing. -/
  | resumed (k : Nat)
  | rep
  /-- Index of a REQ message, or of a start message in the system queue. -/
  | req (k : Nat)
  | sys (k : Nat)
  | actor (k : BitVec 4)
  | nest (k : BitVec 4)
deriving DecidableEq, Repr

/-- The element of a list with the smallest key, the first of equals, with its index. -/
def firstMin {α : Type} (key : α → Option Nat) (l : List α) : Option (Nat × Nat) :=
  ((List.range l.length).zip l).foldl (fun best p =>
    match key p.2, best with
    | some v, none => some (p.1, v)
    | some v, some (j, w) => if v < w then some (p.1, v) else some (j, w)
    | none, b => b) none

/-- When a message counts in rank 3: its arrival with CLS = 1, its promotion otherwise. -/
def Mail.urgent (m : Mail) : Option Nat := if hdrCls m.hdr then some m.at_ else m.promoted

/-- When a message counts in rank 4. -/
def Mail.plain (m : Mail) : Option Nat := if hdrCls m.hdr || m.promoted.isSome then none else some m.at_

/-- The message of a rank among the REQ mailbox and the start messages: of two with one TIME, the one that came first. -/
def Queues.pick (q : Queues) (key : Mail → Option Nat) : Option Trigger :=
  let num (l : List Mail) (k : Nat) : Nat := ((l[k]?).map Mail.num).getD 0
  match firstMin key q.req, firstMin key q.sys with
  | some (j, v), some (k, w) =>
    if w < v || (w = v && decide (num q.sys k < num q.req j)) then some (.sys k) else some (.req j)
  | some (j, _), none => some (.req j)
  | none, some (k, _) => some (.sys k)
  | none, none => none

/-- The next ready actor, from the binding after the last one that fired. -/
def Core.pickActor (c : Core) : Option (BitVec 4) :=
  ((List.range 16).map fun j => BitVec.ofNat 4 (c.tab.lastActor + 1 + j)).find? fun k => c.actorReady (c.bindAt k)

/-- The lowest queued iteration. -/
def Core.pickNest (c : Core) : Option (BitVec 4) :=
  (firstMin nestNext c.tab.bind.toList).map fun p => BitVec.ofNat 4 p.1

/-- The trigger that each kind offers, highest rank first. A logical core takes new triggers only under a cohort (R264). -/
def Core.triggers (c : Core) : List (Nat × Trigger) :=
  let offer (k : Nat) (t : Option Trigger) : List (Nat × Trigger) := (t.map fun t => (k, t)).toList
  offer 0 ((firstMin (fun p => p.ready) c.q.parked).map fun p => .resumed p.1)
    ++ (if c.awaitsCohort then [] else
      offer 1 (if c.q.rep.isEmpty then none else some .rep)
        ++ offer 2 (c.q.pick Mail.urgent) ++ offer 3 (c.q.pick Mail.plain)
        ++ offer 4 (c.pickActor.map .actor) ++ offer 5 (c.pickNest.map .nest))

/-! ### Supervisor forms (R158) -/

/-- Supervisor forms stop with PRIV in J (R61). -/
def supervisor (s : State) (i : Instr) (sp : Sp) (k : State → Out) : Out :=
  if s.core.f.smode then k s else .next (s.stop causePriv (spLen sp) (encWord i))

/-- The site in bits 47..32 (Table 7.9). -/
def siteOfWord (v : Word) : Site := ⟨BitVec.ofNat 8 (field v 32 8), BitVec.ofNat 8 (field v 40 8)⟩

def siteOnDevice (s : Site) : Bool := decide (s.px.toNat < 136) && decide (s.py.toNat < 128)

/-- HALT: a core that halts itself goes on to FIN; any other core is asked over SYS. -/
def execHalt (a : BitVec 5) (sp : Sp) (s : State) : Out :=
  supervisor s (.halt a sp) sp fun s =>
    let v := s.regs.getS a
    let site := siteOfWord v
    let stop := if !siteOnDevice site || field v 0 32 ≠ 0 || field v 48 16 ≠ 0 then some (causeBound, v) else none
    checkedOnce s stop (spLen sp) fun s => irrevocably s fun s => draining s fun s =>
      let s := match s.cores.find? (fun c => c.onSite site) with
        | some c =>
          if c.id = s.core.id then
            s.mapC fun c => { c with phys := { c.phys with haltBy := some c.f.serial } }
          else s.send c.id .sys .halt
        | none => s.askHaltSite site
      .next (s.retireIrrev (spLen sp) sp)

/-- SLEEP may end: the deadline has come, a mailbox holds a message, or a firing is ready. -/
def State.sleepOver (s : State) (deadline : Word) : Bool :=
  decide (deadline.toNat ≤ s.readTime.1.toNat) || !s.core.q.req.isEmpty || !s.core.q.rep.isEmpty || !s.core.triggers.isEmpty

def execSleep (a d : BitVec 5) (sp : Sp) (s : State) : Out :=
  supervisor s (.sleep a d sp) sp fun s => irrevocably s fun s => draining s fun s =>
    if s.sleepOver (s.regs.getS a) then
      let (t, s) := s.readTime
      .next ((s.setS d t).retireIrrev (spLen sp) sp)
    else .next s.poll

/-- WFR: the matching message has been handed over to the drained instruction, or it is waited for. -/
def execWfr (a d : BitVec 5) (sp : Sp) (s : State) : Out :=
  supervisor s (.wfr a d sp) sp fun s =>
    match s.core.f.wait with
    | .replied (.words ws) _ => .next ((s.setS d (ws.headD 0#64)).retireIrrev (spLen sp) sp)
    | _ => irrevocably s fun s => .next s.poll

/-- A CMAP value or an exception entry of the partition's map names the site (R334). -/
def Partition.names (p : Partition) (site : Site) : Bool :=
  let dc := site.px.toNat / 34
  let band := site.py.toNat / 8
  (List.range 32).any (fun c => (tget none p.cmap (512 * dc + 32 * band + c)).getD c = site.px.toNat % 34)
    || p.exc.any fun e => e.site = site

def Moving.target : Moving → Option Site
  | .draining t _ | .streaming t _ => some t
  | .requested _ _ | .no => none

/-- The site is in its die's cool pool (R334). -/
def State.inPool (s : State) (site : Site) : Bool :=
  siteOnDevice site && !s.dev.part.names site && !s.dev.bad.contains site && !(s.dev.forwards.any fun f => f.old = site && !f.left.isEmpty)
    && !(s.cores.any fun c => c.moving.target = some site)

/-- A forwarding entry of the logical core has not retired. -/
def State.forwarding (s : State) (c : CoreId) : Bool := s.dev.forwards.any fun f => f.core = c

def Core.inMove (c : Core) : Bool := c.moving ≠ .no

/-- Moves in progress on a die. -/
def State.movesOn (s : State) (die : Nat) : Nat :=
  (s.cores.filter fun c => c.inMove && dieOf c.site = die).length + (s.dev.forwards.filter fun f => dieOf f.old = die).length

/-- Logical coordinates of a mesh core. -/
def coreXY : CoreId → BitVec 8 × BitVec 8
  | .mesh x y => (x, y)
  | .memory _ _ | .pager _ _ | .control | .far _ _ _ | .port _ => (0#8, 0#8)

def Exc.names (e : Exc) (c : CoreId) : Bool := e.x = (coreXY c).1 && e.y = (coreXY c).2


/-- The site that CMAP gives a mesh core. -/
def Partition.homeSite (p : Partition) (c : CoreId) : Site :=
  p.cmapSite (pextOrgX p.pext + (coreXY c).1.toNat) (pextOrgY p.pext + (coreXY c).2.toNat)

/-- Moves in progress that will set a new exception entry, this core's apart (R337). -/
def State.excWanted (s : State) (c : CoreId) : Nat :=
  (s.cores.filter fun k => k.id ≠ c && !(s.dev.part.exc.any fun e => e.names k.id && decide (e.k < 64)) && match k.moving with
    | .no => false
    | .requested t _ | .draining t _ | .streaming t _ => s.dev.part.homeSite k.id ≠ t).length

/-- The core has an exception entry, or one is free beside those that moves in progress will take (R337). -/
def State.excRoom (s : State) (c : CoreId) : Bool :=
  s.dev.part.exc.any (fun e => e.names c && decide (e.k < 64))
    || decide ((s.dev.part.exc.filter fun e => e.k < 64).length + s.excWanted c < 64)

/-- The map can name the site for the core: no entry is needed, or one is free (R337). -/
def State.canName (s : State) (c : CoreId) (site : Site) : Bool := s.dev.part.homeSite c = site || s.excRoom c

/-- A move of the focused core must wait (R341). -/
def State.moveWaits (s : State) : Bool := s.forwarding s.core.id || decide (8 ≤ s.movesOn (dieOf s.core.site))

/-- MOVE: the issuing firing ends and the residency starts to move (R335, R336), or waits as R341 has it. A halt that is due at the
boundary comes first, and the move is then a request (R358, R359). A core that is never moved, and a map with no entry left, refuse the
site (DESIGN CHOICE, log 82). -/
def execMove (i : BitVec 11) (a : BitVec 5) (sp : Sp) (s : State) : Out :=
  supervisor s (.move i a sp) sp fun s =>
    let v := s.regs.getS a
    let site := siteOfWord v
    let stop := if !s.inPool site || dieOf site ≠ dieOf s.core.site || !s.core.isMesh || !s.canName s.core.id site then some (causeBound, v) else none
    checkedOnce s stop (spLen sp) fun s => irrevocably s fun s => draining s fun s =>
      if s.moveWaits then .next s.poll
      else .next (((s.mapC Core.closeOwn).endFiring).mapC fun c => { c with
        moving := if c.phys.haltPending.isSome then .requested site (i.setWidth 2) else .draining site (i.setWidth 2) })

/-! ### Waits (R129) -/

/-- The instructions whose waits may be parked, with their meanings (R119, R125, R129, R132, R197). A REPLY that stalls on a full
queue is among them, which R119 says of SEND alone (DESIGN CHOICE, log 77). -/
def waitMeaning : Instr → Option (State → Out)
  | .waitc a d sp => some (execWaitc a d sp)
  | .waitt i a sp => some (execWaitt i a sp)
  | .waita i a d sp => some (execWaita i a d sp)
  | .lwait a d sp => some (execLwait a d sp)
  | .sleep a d sp => some (execSleep a d sp)
  | .wfr a d sp => some (execWfr a d sp)
  | .cbwait k a d sp => some (execCbwait k a d sp)
  | .cbfree k a d sp => some (execCbfree k a d sp)
  | .cbpush n a d sp => some (execCbpush n a d sp)
  | .cbpop n a d sp => some (execCbpop n a d sp)
  | .cbadvGet k a sp => some (execCbadvGet k a sp)
  | .cbadvPut k a sp => some (execCbadvPut k a sp)
  | .lnch i a d sp => some (execLnch i a d sp)
  | .graph a d sp => some (execGraph a d sp)
  | .send h n a d sp => some (execSend h n a d sp)
  | .msync sp => some (execMsync sp)
  | .reply h n a d sp => some (execReply h n a d sp)
  | _ => none

/-- The meaning of the wait at a firing's pc. -/
def Core.waitAt (c : Core) (f : Firing) : Option (State → Out) :=
  match ({ c with f := f } : Core).fetch with
  | .instr i => waitMeaning i
  | .illegal _ _ | .misfetch _ _ => none

/-- The condition of a firing parked beside these others holds: it is due, its window is settled, its answer has come, or its instruction
would go on. -/
def State.parkedHolds (s : State) (others : List Parked) (p : Parked) : Bool :=
  p.due || match p.window, p.walk with
  | some k, _ => match (s.core.win k).st with
    | .present | .poisoned => true
    | .absent | .filling => false
  | none, some _ => false
  | none, none =>
    match p.f.wait with
    | .poll =>
      match s.core.waitAt p.f with
      | some m =>
        match m { s with core := { s.core with f := p.f, busy := true, q := { s.core.q with parked := others } } } with
        | .next t => !t.core.busy || t.core.f.wait ≠ .poll
        | .fault _ | .refused _ => true
      | none => true
    | .none | .replied _ _ | .part _ | .backoff => true
    | .reply _ _ | .probes _ _ => false

/-- Parked firing `k` of a list is ready from the moment its condition holds, and no longer when it ceases to hold (R270). -/
def State.noteParked (s : State) (l : List Parked) (k : Nat) : List Parked :=
  match l[k]? with
  | some p =>
    let l' := l.eraseIdx k
    if !s.parkedHolds l' p then l.set k { p with ready := none }
    else if p.ready.isNone then l.set k { p with ready := some (nextReady l') }
    else l
  | none => l

/-- Parked firing `k` of the focused core is looked at. -/
def State.readyParked (s : State) (k : Nat) : State :=
  s.mapC fun c => { c with q := { c.q with parked := s.noteParked c.q.parked k } }

/-- Every parked firing of the focused core is looked at. -/
def State.parkedNow (s : State) : List Parked :=
  (List.range s.core.q.parked.length).foldl s.noteParked s.core.q.parked

def State.refresh (s : State) : State := s.mapC fun c => { c with q := { c.q with parked := s.parkedNow } }

/-- The parked firings of every core are looked at, so that each becomes ready when its condition comes to hold (R270, Table 14.2). -/
def State.noted (s : State) : State :=
  ((s.cores.filter fun c => !c.q.parked.isEmpty).map Core.id).foldl (fun s c => match s.focus c with
    | some t => s.onCore c fun k => { k with q := { k.q with parked := t.parkedNow } }
    | none => s) s

/-- WAIT_SATISFIED (R129): 0 is the running firing, whose wait instruction completes; k + 1 is the parked firing k, which
becomes ready. -/
def execWaitSatisfied (n : Nat) (s : State) : Out :=
  match n with
  | 0 =>
    match s.core.busy, s.core.f.wait, s.core.waitAt s.core.f with
    | true, .poll, some m => m s
    | _, _, _ => .next s
  | k + 1 => .next (s.readyParked k)

/-- SLEEP_WAKE (R158): the deadline of a SLEEP has come. -/
def execSleepWake (s : State) : Out :=
  match s.core.busy, s.core.f.wait, s.core.fetch with
  | true, .poll, .instr (.sleep a d sp) => execSleep a d sp s
  | _, _, _ => .next s

/-- Firings in the park store (R9). -/
def Core.parkCount (c : Core) : Nat := (c.q.parked.filter fun p => p.window.isNone && p.walk.isNone).length

/-- A WFR is parked once it has drained (R158). -/
def Core.drainedWait (c : Core) : Bool :=
  match c.fetch with
  | .instr (.wfr _ _ _) => c.ack.drained
  | _ => true

/-- PARK (R129, R271): another trigger is present and the park store has room; the region ends, and the firing is parked at
its wait instruction. -/
def execPark (s : State) : Out :=
  let s := s.refresh
  if s.core.busy && (s.core.waitAt s.core.f).isSome && s.core.drainedWait && !s.core.triggers.isEmpty && decide (s.core.parkCount < 8) then
    match s.core.f.wait with
    | .poll => .next (s.closeRegion (.park none none))
    | .reply tok _ => .next (s.closeRegion (.park (some tok) none))
    | .none | .replied _ _ | .part _ | .probes _ _ | .backoff => .next s
  else .next s

/-! ### Starting a firing (R11 to R14, R270) -/

/-- h12 to h15 from a static shape source (R12). The records are the job image's, for a handler of system software too (DESIGN CHOICE, log
95). -/
def withShapes (d : Device) (g : Regs) (idx : Nat → Nat) : Regs :=
  [0, 1, 2, 3].foldl (fun g k =>
    g.setH (BitVec.ofNat 4 (12 + k)) (if idx k = 0xFFFF then 0#256 else d.image.shapes.getD (idx k) 0#256)) g

/-- A handle that no launch has. -/
def noLaunch : Word := jobHandle

/-- MLIM and launch of a new firing (R14, R25). -/
def Core.launchMlim (c : Core) : Word := match c.cohort with | some k => lrMlim k.rcd | none => 0#64
def Core.launchHandle (c : Core) (sender : Word) : Word :=
  match c.cohort with
  | some k => k.lhnd
  | none => if c.isMemory then sender else noLaunch

/-- A firing starts on the pipeline: serial, start values, the first region with a full checkpoint (R14, R241, R277). -/
def State.startFiring (s : State) (f : Firing) (entry : Nat) (fhdr : Word) (route : Nat) : State :=
  let c := s.core
  let ctl := { Ctl.reset with
    mlim := c.launchMlim
    fhdr := fhdr }
  let f := { f with
    serial := c.serials
    pc := entry
    ctl := ctl
    ckpt := { regs := f.regs, live := .all, ctl := ctl, pc := entry }
    route := BitVec.ofNat 16 route
    entry := entry }
  (s.mapC fun c => { c with
    f := f
    busy := true
    serials := c.serials + 1#64 }).trace 1 0 fhdr

/-- A message starts its handler, or is discarded when the set has no entry for it (R120, R264). One on SYS starts a handler of system
software, in the mode that its entry names (R17, Table 7.6). In S it enters OFFSET in the code of system software that every core holds;
one in J, and every one on a pager core, enters OFFSET in the core's I-store: where such code lies and how it is loaded is the model's
choice, since R17 and R146 give the table alone (DESIGN CHOICE, log 89). -/
def State.startMessage (s : State) (m : Mail) (rep : Bool) (trig : Nat) : State :=
  let hnd := hdrHnd m.hdr
  match (if m.sup then entryOf s.dev.sysTable hnd else s.handlerEntry hnd) with
  | none => if m.sup then s else s.discardMsg m.hdr m.args m.lhnd m.note
  | some e =>
    let g := withShapes s.dev (Regs.reset.setSMany 1#5 m.args) (hShape e)
    let f : Firing := { Firing.reset with
      smode := s.core.isPager || (m.sup && hSupervisor e)
      inSys := !s.core.isPager && m.sup && hSupervisor e
      fromRep := rep
      regs := g
      lhnd := s.core.launchHandle m.lhnd
      lin := m.lin }
    s.startFiring f (hOffset e) m.hdr (hnd + 256 * trig)

/-- The launch and cohort of the firing that bound an actor or a nest, in whose scope its firings act on a memory core (R133). -/
def Core.binder (c : Core) (k : BitVec 4) : Word × Nat := tget (jobHandle, 0) c.tab.binders k.toNat

/-- An actor fires, in the mode of its binding, at ENTRY in the core's I-store (R13, R17, R140). -/
def State.startActor (s : State) (k : BitVec 4) : State :=
  match s.core.bindAt k with
  | .actor r m n _ seen =>
    let g := (Regs.reset.setS 1#5 (k.zeroExtend 64)).setS 2#5 n
    let g := withShapes s.dev g fun j => halfAt r (20 + 2 * j)
    let f : Firing := { Firing.reset with
      smode := m
      actor := some k
      regs := g
      lhnd := s.core.launchHandle (s.core.binder k).1
      lin := (s.core.binder k).2 }
    let s := s.setBind k (.actor r m (n + 1#64) true seen)
    (s.mapC fun c => { c with tab := { c.tab with lastActor := k.toNat } }).startFiring f (acEntry r) 0#64 (k.toNat + 512)
  | .nest _ _ _ _ _ _ | .empty => s

/-- The indices of iteration `l` (R142): index k is l divided by the extents below it, modulo its own. -/
def nestIndex (r : BitVec 192) (l : Nat) (k : Nat) : Nat :=
  if k < nsRank r then l / ((List.range k).map (nsExt r)).foldl (· * ·) 1 % Nat.max (nsExt r k) 1 else 0

/-- A nest iteration fires, in the mode of its binding, at ENTRY in the core's I-store (R13, R17, R142, R273). -/
def State.startNest (s : State) (k : BitVec 4) : State :=
  match s.core.bindAt k with
  | .nest r m p l n cl =>
    let g := (Regs.reset.setS 1#5 (k.zeroExtend 64)).setS 2#5 (BitVec.ofNat 64 l)
    let g := { g with i := Vector.ofFn fun j => BitVec.ofNat 32 (nestIndex r l j.val) }
    let g := withShapes s.dev g fun j => halfAt r (16 + 2 * j)
    let f : Firing := { Firing.reset with
      smode := m
      regs := g
      lhnd := s.core.launchHandle (s.core.binder k).1
      lin := (s.core.binder k).2 }
    let s := (s.setBind k (nestSkip (.nest r m p (l + 1) (n - 1) cl))).nestClaim k
    s.startFiring f (nsEntry r) 0#64 (k.toNat + 768)
  | .actor _ _ _ _ _ | .empty => s

/-- A parked or requeued firing goes on (Table 14.2, rank 1). -/
def State.resumeParked (s : State) (k : Nat) : State :=
  match s.core.q.parked[k]? with
  | none => s
  | some p =>
    let f := { p.f with route := BitVec.ofNat 16 (p.f.route.toNat % 256 + 5 * 256) }
    let s := s.mapC fun c => { c with
      f := f
      busy := true
      q := { c.q with parked := c.q.parked.eraseIdx k } }
    match f.wait with
    | .replied (.refuse cause addr) _ => s.takeReply (.refuse cause addr) []
    | .replied (.cancelled addr) _ => s.takeReply (.cancelled addr) []
    | .backoff => s.setWait .none
    | _ => s

def State.startTrigger (s : State) (t : Trigger) : State :=
  match t with
  | .resumed k => s.resumeParked k
  | .rep => match s.core.q.rep with
    | m :: r => (s.mapC fun c => { c with q := { c.q with rep := r } }).startMessage m true 1
    | [] => s
  | .req k => match s.core.q.req[k]? with
    | some m => (s.mapC fun c => { c with q := { c.q with req := c.q.req.eraseIdx k } }).startMessage m false 0
    | none => s
  | .sys k => match s.core.q.sys[k]? with
    | some m => (s.mapC fun c => { c with q := { c.q with sys := c.q.sys.eraseIdx k } }).startMessage m false 4
    | none => s
  | .actor k => s.startActor k
  | .nest k => s.startNest k

/-- The kind that is taken: one passed over sixteen times, else the highest in rank (R270). -/
def pickKind (pass : Vector Nat 6) (ts : List (Nat × Trigger)) : Option (Nat × Trigger) :=
  (ts.find? fun p => decide (16 ≤ pass.getD p.1 0)).or ts.head?

/-- Pass counts after kind `k` is taken. -/
def passed (pass : Vector Nat 6) (ts : List (Nat × Trigger)) (k : Nat) : Vector Nat 6 :=
  Vector.ofFn fun j => if j.val = k then 0 else if ts.any (fun p => p.1 = j.val) then pass[j] + 1 else pass[j]

/-- FIRING_SELECTION (R270, R273). -/
def execFiringSelection (s : State) : Out :=
  if s.core.busy then .next s
  else
    let s := s.fetchNests.refresh
    let ts := s.core.triggers
    match pickKind s.core.q.pass ts with
    | none => .next s
    | some (k, t) =>
      .next ((s.mapC fun c => { c with q := { c.q with pass := passed c.q.pass ts k } }).startTrigger t)

/-! ### Watches and promotions (R270, R272) -/

def Body.isWatch : Body → Bool
  | .watchUpd _ _ _ _ _ | .watch _ _ _ _ _ => true
  | _ => false

/-- F and S of a link in an actor's binding. -/
def seenUpdate (link f n : Nat) (b : Binding) : Binding :=
  match b with
  | .actor r m k live seen =>
    if (acHandles r).contains link then .actor r m k live ((link, f, n) :: seen.filter fun p => p.1 ≠ link) else b
  | .nest _ _ _ _ _ _ | .empty => b

/-- A home's update reaches the bindings of the focused core, unless the watch it was sent for has ended. -/
def State.watchTold (s : State) (link f n num : Nat) : State :=
  if s.core.tab.watch.contains (link, num) then
    s.mapC fun c => { c with tab := { c.tab with bind := c.tab.bind.map (seenUpdate link f n) } }
  else s

/-- A watch is registered at its home, which sends its F and S, or ends there (R272). -/
def State.watchAsked (s : State) (src : CoreId) (h link num : Nat) (ctx : BitVec 32) (on : Bool) : State :=
  let w : Watch := ⟨src, link, num, ctx⟩
  match s.core.cbAt h with
  | .home rcd hd tl f ws lh lin =>
    let s := s.mapC fun c => c.setCb h (.home rcd hd tl f (if on then ws ++ [w] else ws.erase w) lh lin)
    if on then s.send src .sys (.watchUpd link f (cbS rcd) num ctx) else s
  | .link _ _ _ | .empty => s

/-- The saved residency of the focused core that holds the home of this handle. -/
def State.savedHomeCtx (s : State) (h : Nat) : Option (BitVec 32) :=
  (s.dev.ctxs.find? fun x => match x.core with
    | some c => c.id = s.core.id && (match c.cbAt h with | .home _ _ _ _ _ _ _ => true | .link _ _ _ | .empty => false)
    | none => false).map Context.ctx

/-- WATCH_UPDATE (R272): what a home tells a residency, or the registration or the end of a watch at its home; the log of a saved
residency takes what is meant for it (R287), so that nothing waits on SYS (R330). -/
def execWatchUpdate (src : CoreId) (s : State) : Out :=
  match s.recv src .sys Body.isWatch with
  | some (.watchUpd link f n num ctx, t) =>
    match t.redirect (some ctx) with
    | some k => .next (t.mapD fun d => { d with ctxs := logTo k (src, .sys, .watchUpd link f n num ctx) d.ctxs })
    | none => .next (if t.core.ctx = ctx then t.watchTold link f n num else t)
  | some (.watch h link num ctx on, t) =>
    match (if t.savedHome h then t.savedHomeCtx h else none) with
    | some k => .next (t.mapD fun d => { d with ctxs := logTo k (src, .sys, .watch h link num ctx on) d.ctxs })
    | none => .next (t.watchAsked src h link num ctx on)
  | _ => .next s

/-- A waiting message is promoted once, after 64 µs (Table 14.2). -/
def Mail.promote (time : Nat) (m : Mail) : Mail :=
  if !hdrCls m.hdr && m.promoted.isNone && decide (m.at_ + 64000 ≤ time) then { m with promoted := some time } else m

/-- MESSAGE_PROMOTION (R270): message `n` of the REQ mailbox, the start messages counted behind it. -/
def execMessagePromotion (n : Nat) (s : State) : Out :=
  let t := s.dev.time
  .next (s.mapC fun c => { c with q :=
    if n < c.q.req.length then { c.q with req := c.q.req.modify n (Mail.promote t) }
    else { c.q with sys := c.q.sys.modify (n - c.q.req.length) (Mail.promote t) } })

/-! ### Region stops and safe points on request (R279, R284) -/

/-- REGION_STOP_RESUME (R279): after its back-off the firing goes on at its checkpoint. -/
def execRegionStopResume (s : State) : Out :=
  match s.core.busy, s.core.f.wait with
  | true, .backoff => .next (s.setWait .none)
  | _, _ => .next s

/-- Registers outside a live set are saved as zero (R284, R335, R358); the static records h12 to h15 stay. Table 13.6 gives the registers
of GM61 outside its list their values all the same (R258): the model follows the rules of the save (DESIGN CHOICE, log 96). -/
def Regs.onlyLive (g : Regs) (l : Live) : Regs :=
  let z := { Regs.reset with h := Vector.ofFn fun k => if k.val < 12 then 0#256 else g.h[k] }
  z.restore g l

/-- The running firing stands at a safe point: its region has done nothing yet, and its registers are those that the checkpoint
took. An instruction whose answer has come is no boundary: the home has acted. -/
def Core.atSafePoint (c : Core) : Bool :=
  c.f.pc = c.f.ckpt.pc && c.f.regs = c.f.ckpt.regs && c.f.ctl = c.f.ckpt.ctl
    && c.f.region.touched = [] && c.f.region.held = [] && c.f.region.rmap = 0#96
    && match c.f.wait with
      | .none | .poll | .backoff => true
      | .replied _ _ | .reply _ _ | .part _ | .probes _ _ => false

/-- The firing is kept as a firing record at its safe point; it is a rank-1 trigger when firings run again. -/
def State.freeze (s : State) : State :=
  if !s.core.busy then s
  else s.mapC fun c =>
    let l := c.f.ckpt.live
    let g := c.f.regs.onlyLive l
    let f := { c.f with
      regs := g
      ckpt := { c.f.ckpt with regs := g }
      irrev := false
      wait := match c.f.wait with
        | .backoff => .none
        | w => w }
    { c.closeOwn with
      busy := false
      q := { c.q with parked := c.q.parked ++ [⟨f, none, none, some c.q.nextReady, true⟩] } }

/-- A halt, a move or a save is asked of the core. -/
def Core.requested (c : Core) : Bool :=
  c.saveAsked || c.phys.haltPending.isSome || (match c.moving with
    | .requested _ _ => true
    | .no | .draining _ _ | .streaming _ _ => false)

/-- The class of count that a request in the network or at its home will lower, if this is its token. -/
def Body.withdraws (tok : Nat) : Body → Option (Option Nat)
  | .access k _ _ _ _ low _ => if k = tok then some low else none
  | .cb k _ _ _ low _ => if k = tok then some low else none
  | _ => none

/-- A request that waits at its home, or is still on its way there, is withdrawn (R286); none once the home has acted. -/
def State.withdraw (s : State) (tok : Nat) : Option State :=
  let lower (low : Option Nat) (s : State) : State := match low with
    | some k => s.mapC fun c => { c with ack := c.ack.sub k }
    | none => s
  match s.net.findSome? fun p => if p.src = s.core.id then p.body.withdraws tok else none with
  | some low => some (lower low { s with net := s.net.filter fun p => p.src ≠ s.core.id || (p.body.withdraws tok).isNone })
  | none =>
    match s.cores.findSome? fun k => (k.q.waits.find? fun w => w.tok = tok && w.src = s.core.id).map fun w => (k.id, w.low) with
    | some (home, low) => some (lower low (s.onCore home fun k =>
        { k with q := { k.q with waits := k.q.waits.filter fun w => w.tok ≠ tok } }))
    | none => none

/-- FORCED_SAFE_POINT (R284, R335, R358): with a request pending, the core makes a safe point at this boundary. -/
def execForcedSafePoint (s : State) : Out :=
  if !s.core.requested || !s.core.busy then .next s
  else match s.core.f.wait with
    | .none | .poll | .backoff => .next s.split
    | .reply tok _ =>
      if (s.core.waitAt s.core.f).isNone then .next s
      else match s.withdraw tok with
        | some t => .next (t.setWait .none).split
        | none => .next s
    | .replied _ _ | .part _ | .probes _ _ => .next s

end Sys2Proof.Machine
end

