-- ==== Sys2Proof/Machine/Sequencer.lean ====
section
/-!
DEFINITION. Sys2Proof/Machine/Sequencer.lean: the placement sequencer (R259 to R269): launches, phases and cancels as they are
received, the retirement scoreboard, placement in slots, gangs and borrowers, retirement and the ends of units.
-/
namespace Sys2Proof.Machine

/-! ### Grids (R132, R262) -/

/-- Order index of a grid point. -/
def orderOf (r : BitVec 512) (g : Nat → Nat) : Nat :=
  (orderAxes (lrOrder r)).foldl (fun n x => n * lrG r x + g x) 0

/-- Coordinate on an axis of the grid point with an order index. -/
def coordOf (r : BitVec 512) (k : Nat) (axis : Nat) : Nat :=
  let rec go : List Nat → Nat → Nat
    | [], _ => 0
    | x :: xs, k => if x = axis then k % lrG r x else go xs (k / lrG r x)
  go (orderAxes (lrOrder r)).reverse k

def linearOf (r : BitVec 512) (g : Nat → Nat) : Nat := g 0 + lrG r 0 * (g 1 + lrG r 1 * g 2)

/-- Linear index of an order index, and back. -/
def linOf (r : BitVec 512) (k : Nat) : Nat := linearOf r (coordOf r k)

def orderOfLin (r : BitVec 512) (l : Nat) : Nat :=
  orderOf r fun x => if x = 0 then l % lrG r 0 else if x = 1 then l / lrG r 0 % lrG r 1 else l / (lrG r 0 * lrG r 1)

/-- Order indices of the predecessors of a cohort, once per vector that names one inside the grid (R131). -/
def preds (r : BitVec 512) (k : Nat) : List Nat :=
  (List.range (lrNdep r)).filterMap fun j =>
    let g (x : Nat) : Int := (coordOf r k x : Int) + lrDep r j x
    if [0, 1, 2].all fun x => decide (0 ≤ g x) && decide (g x < lrG r x) then some (orderOf r fun x => (g x).toNat) else none

/-! ### Slots (R261) -/

def slotsAcross (p : Partition) (r : BitVec 512) : Nat := pextWidth p.pext / lrCW r
def slotsDown (p : Partition) (r : BitVec 512) : Nat := pextHeight p.pext / lrCH r
def slotCount (p : Partition) (r : BitVec 512) : Nat := slotsAcross p r * slotsDown p r

/-- OX and OY of a slot. -/
def slotOrigin (p : Partition) (r : BitVec 512) (k : Nat) : Nat × Nat :=
  (k % slotsAcross p r * lrCW r, k / slotsAcross p r * lrCH r)

/-- The cores of a slot. -/
def slotCores (p : Partition) (r : BitVec 512) (k : Nat) : List CoreId :=
  let (ox, oy) := slotOrigin p r k
  (List.range (lrCW r * lrCH r)).map fun j =>
    .mesh (BitVec.ofNat 8 (ox + j % lrCW r)) (BitVec.ofNat 8 (oy + j / lrCW r))

def slotOfLin (p : Partition) (r : BitVec 512) (lin : Nat) : Nat := lin % slotCount p r

/-- A saved context of this core is to be restored before anything else is placed there. -/
def State.dueCtx (s : State) (c : CoreId) : Option Context :=
  s.dev.ctxs.find? fun x => x.due && (match x.core with | some k => k.id = c | none => false)

/-- A core of a free slot (R261, R274). Its send queues are empty at the placement (Table 1.5), so messages of the last cohort leave
first (log 50). -/
def State.coreFree (s : State) (c : CoreId) : Bool :=
  match s.coreAt c with
  | some k => k.cohort.isNone && !k.phys.halted && !bit k.phys.dump 0 && !s.dev.bad.contains k.site && k.moving = .no
      && k.q.sendReq.isEmpty && k.q.sendRep.isEmpty && (s.dueCtx c).isNone
  | none => false

/-! ### The scoreboard (R262) -/

def LaunchSt.gang (l : LaunchSt) : Bool := lrGang l.rcd && lrNdep l.rcd = 0

def LaunchSt.isRetired (l : LaunchSt) (k : Nat) : Bool := decide (k < l.base) || l.retired.contains k

/-- An entry as admitted at this time. -/
def admitted (k count time : Nat) : Admitted :=
  { idx := k, count := count, readyAt := time, promoted := none, placed := false, idleTotals := none }

/-- Admit what the window covers (R262). -/
def LaunchSt.admitWindow (time : Nat) (l : LaunchSt) : LaunchSt :=
  let k := Nat.min (l.base + 4096) (lrCohorts l.rcd) - l.admitNext
  { l with
    live := l.live ++ (((List.range k).map (l.admitNext + ·)).filter fun i => !l.isRetired i && !l.live.any fun e => e.idx = i).map fun i =>
      admitted i ((preds l.rcd i).filter fun x => !l.isRetired x).length time
    admitNext := l.admitNext + k }

/-- Order indices of the cohorts of a gang's current wave, in increasing linear index (R268). -/
def LaunchSt.waveOrder (p : Partition) (l : LaunchSt) : List Nat :=
  let ns := slotCount p l.rcd
  (List.range (Nat.min ns (lrCohorts l.rcd - l.waveNo * ns))).map fun j => orderOfLin l.rcd (l.waveNo * ns + j)

/-- A gang goes on to its next wave once every cohort of the last one has retired (R268). Cohorts of the wave that the window does not
cover are admitted with it (DESIGN CHOICE, log 79). -/
def LaunchSt.nextWave (p : Partition) (time : Nat) (l : LaunchSt) : LaunchSt :=
  let l := if (l.waveOrder p).all l.isRetired then { l with waveNo := l.waveNo + 1, wave := false } else l
  { l with live := l.live ++ ((l.waveOrder p).filter fun i => !l.isRetired i && !l.live.any fun e => e.idx = i).map fun i =>
      admitted i 0 time }

def LaunchSt.takeIn (p : Partition) (time : Nat) (l : LaunchSt) : LaunchSt :=
  let l := l.admitWindow time
  if l.gang then l.nextWave p time else l

/-- B passes every leading cohort that has retired. -/
def advanceBase : Nat → LaunchSt → LaunchSt
  | 0, l => l
  | n + 1, l => if l.retired.contains l.base then advanceBase n { l with base := l.base + 1, retired := l.retired.erase l.base } else l

/-- A successor's count falls once per vector that names the retired cohort. -/
def Admitted.settle (r : BitVec 512) (k time : Nat) (e : Admitted) : Admitted :=
  let c := e.count - (preds r e.idx).count k
  { e with
    count := c
    readyAt := if e.count ≠ 0 ∧ c = 0 then time else e.readyAt }

/-- The launch ends when its last cohort has retired, or its cancellation is complete (R136). -/
def LaunchSt.settleEnd (l : LaunchSt) : LaunchSt :=
  if l.ended then l
  else if l.live.isEmpty && (l.cancelled || decide (lrCohorts l.rcd ≤ l.admitNext)) then
    { l with ended := true, status := if l.cancelled then 1 else l.status }
  else l

/-- A cohort's retirement, or the end of a cancelled one, is applied. -/
def LaunchSt.retire (p : Partition) (time k : Nat) (l : LaunchSt) : LaunchSt :=
  if l.cancelled then ({ l with live := l.live.filter fun e => e.idx ≠ k }).settleEnd
  else
    let l := { l with
      live := (l.live.filter fun e => e.idx ≠ k).map (Admitted.settle l.rcd k time)
      retired := k :: l.retired }
    ((advanceBase l.retired.length l).takeIn p time).settleEnd

def Seq.onLaunch (q : Seq) (serial : Nat) (g : LaunchSt → LaunchSt) : Seq :=
  { q with launches := q.launches.map fun l => if l.serial = serial then g l else l }

def State.onSeq (s : State) (g : Seq → Seq) : State := s.mapD fun d => { d with seq := g d.seq }

def LaunchSt.entry (l : LaunchSt) (k : Nat) : Option Admitted := l.live.find? fun e => e.idx = k

def LaunchSt.onEntry (l : LaunchSt) (k : Nat) (g : Admitted → Admitted) : LaunchSt :=
  { l with live := l.live.map fun e => if e.idx = k then g e else e }

def Seq.launch (q : Seq) (serial : Nat) : Option LaunchSt := q.launches.find? fun l => l.serial = serial

/-! ### Receipts (R135, R137, R260) -/

/-- A launch that joins a cancelled unit places nothing (R137). -/
def Seq.bornCancelled (q : Seq) (graph : Option Nat) : Bool :=
  q.jobCancelled || q.phaseCancelled.contains q.phase
    || match graph with
      | some g => q.graphs.any fun x => x.serial = g && x.cancelled
      | none => false

/-- A launch as received: its record has been checked before its serial was given (R131, R260). -/
def Seq.newLaunch (q : Seq) (p : Partition) (time serial : Nat) (rcd : BitVec 512) (arg : Word) (x y : BitVec 8)
    (graph : Option Nat) : LaunchSt :=
  let l : LaunchSt :=
    { serial := serial
      rcd := rcd
      arg := arg
      phase := q.phase
      graph := graph
      srcX := x
      srcY := y
      base := 0
      admitNext := 0
      live := []
      retired := []
      waveNo := 0
      wave := false
      cancelled := q.bornCancelled graph
      ended := false
      status := 0 }
  if l.cancelled then l.settleEnd else l.takeIn p time

/-- The job ends when every launch has ended and nothing more can join (R135, Table 1.1): waiting messages are discarded, and
the host learns its status (R264, R371). -/
def State.settleJob (s : State) : State :=
  let q := s.dev.seq
  if q.started && !s.dev.measDue && !q.jobEnded && q.inbox.isEmpty && q.launches.all LaunchSt.ended && !(s.cores.any fun c => c.cohort.isSome) then
    ((s.onSeq fun q => { q with jobEnded := true }).onAll fun c => { c with q := { c.q with req := [], rep := [], sys := [] } }).mapD
      fun d => d.tellHost (if q.jobCancelled then 1#64 else 0#64)
  else s

/-- LAUNCH_RECEIPT (R260): the launch at the head of the hand-over queue enters its phase. -/
def execLaunchReceipt (s : State) : Out :=
  match s.dev.seq.inbox with
  | .launch serial rcd arg x y graph :: rest =>
    .next (s.onSeq fun q =>
      { q with
        inbox := rest
        launches := q.launches ++ [q.newLaunch s.dev.part s.dev.time serial rcd arg x y graph] }).settleJob
  | _ => .next s

/-- PHASE_RECEIPT (R135). -/
def execPhaseReceipt (s : State) : Out :=
  match s.dev.seq.inbox with
  | .phase k :: rest => .next (s.onSeq fun q => { q with inbox := rest, phase := k }).settleJob
  | _ => .next s

/-- Requests of a parked firing that wait elsewhere are withdrawn. -/
def withdrawParked : List Parked → State → State
  | [], s => s
  | p :: ps, s => withdrawParked ps (match p.f.wait with
    | .reply tok _ => (s.withdraw tok).getD s
    | _ => s)

/-- Bindings are discarded with their watches (R137, R272). -/
def State.dropBindings (s : State) : State :=
  let hs := s.core.tab.bind.toList.flatMap fun b => match b with
    | .actor r _ _ _ _ => acHandles r
    | .nest _ _ _ _ _ _ | .empty => []
  (unwatchAll hs s).mapC fun c => { c with tab := { c.tab with bind := Vector.replicate 16 .empty } }

/-- An open trace session is closed by a kind-8 record, its last (R362). -/
def State.closeTrace (s : State) (lhnd : Word) : State :=
  if bit s.core.phys.trcctl 0 then
    (s.trace 8 0 lhnd).mapC fun c => { c with phys := { c.phys with trcctl := c.phys.trcctl &&& ~~~1#64 } }
  else s

/-- A cancel takes effect on the focused core (R129, R137): triggers, bindings and firings end, held stores are discarded,
copies are cancelled. -/
def State.cancelCore (s : State) : State :=
  let lhnd := match s.core.cohort with | some k => k.lhnd | none => 0#64
  let s := if s.core.busy then
      let s := match s.core.f.wait with
        | .reply tok _ => if (s.core.waitAt s.core.f).isSome then (s.withdraw tok).getD s else s
        | _ => s
      s.discardRegion.endFiring
    else s
  let s := withdrawParked s.core.q.parked s
  let s := s.mapC fun c => { c with
    saveAsked := false
    q := { c.q with
      parked := []
      sys := c.q.sys.filter Mail.sup
      sendReq := releaseHeld (fun _ => true) c.q.sendReq
      sendRep := releaseHeld (fun _ => true) c.q.sendRep } }
  ((s.dropBindings).cancelCopies fun _ => true).closeTrace lhnd

/-- A cancel that is due has still something to end at this core: one that was halted takes its cancel once it is released (R274). -/
def Core.cancelLeft (c : Core) : Bool :=
  c.busy || !c.q.parked.isEmpty || bit c.phys.trcctl 0 || c.eng.walks.any (fun w => !w.noNotice && !w.bumping)
    || c.tab.bind.toList.any (· ≠ .empty) || (c.q.sendReq ++ c.q.sendRep).any (fun e => e.by_.isSome) || c.saveAsked

/-- Launches that a unit contains and that have not ended (R137). -/
def Seq.unitLaunches (q : Seq) (h : Word) : List Nat :=
  (q.launches.filter fun l => !l.ended && q.contains h (handleWord 0 l.phase l.serial)).map LaunchSt.serial

/-- The scoreboard's side of a cancel: nothing more of the launch is placed (R137, R138). -/
def LaunchSt.cancel (l : LaunchSt) : LaunchSt :=
  ({ l with cancelled := true, live := l.live.filter Admitted.placed }).settleEnd

/-- The unit itself is marked, for launches that still join it. -/
def Seq.markCancelled (q : Seq) (h : Word) : Seq :=
  match hdLevel h with
  | 0 => q
  | 1 => { q with graphs := q.graphs.map fun g => if g.serial = hdSerial h then { g with cancelled := true } else g }
  | 2 => { q with phaseCancelled := hdSerial h :: q.phaseCancelled }
  | _ => { q with jobCancelled := true }

/-- The cores that hold a cohort of one of these launches; a halted core's cohort is cancelled when it is released (R274). -/
def State.coresOf (s : State) (serials : List Nat) : List CoreId :=
  (s.cores.filter fun c => !c.phys.halted && (match c.cohort with | some k => serials.contains k.serial | none => false)).map Core.id

/-- The CB that an instruction waits for. -/
def cbWaitHandle : Instr → Option (BitVec 5)
  | .cbwait _ a _ _ | .cbfree _ a _ _ | .cbadvGet _ a _ | .cbadvPut _ a _ | .cbpush _ a _ _ | .cbpop _ a _ _ => some a
  | _ => none

/-- A firing polls one of these CBs of the focused core. -/
def Core.pollsCb (c : Core) (ours : Nat → Bool) (f : Firing) : Bool :=
  f.wait = .poll && match ({ c with f := f } : Core).fetch with
    | .instr i => (cbWaitHandle i).any fun a => ours a.toNat
    | .illegal _ _ | .misfetch _ _ => false

/-- The home of this handle that a wait at the focused core waits for: the core's own, or else that of a residency saved here (R284). -/
def State.homeOf (s : State) (h : Nat) : CbEntry :=
  match s.core.cbAt h with
  | .home rcd i t f ws lh lin => .home rcd i t f ws lh lin
  | e => ((s.dev.ctxs.filterMap fun x => match x.core with
      | some c => if c.id = s.core.id then (match c.cbAt h with
          | .home rcd i t f ws lh lin => some (CbEntry.home rcd i t f ws lh lin)
          | .link _ _ _ | .empty => none) else none
      | none => none).head?).getD e

/-- Firings of the focused core that wait for a CB here which one of these launches placed end with the cancel, and requests that wait
for one are answered with it (R126). -/
def State.cancelWaits (ls : List Nat) (s : State) : State :=
  let ours (h : Nat) : Bool := match s.homeOf h with
    | .home _ _ _ _ _ lh _ => hdLevel lh = 0 && ls.contains (hdSerial lh)
    | .link _ _ _ | .empty => false
  let s := if s.core.busy && s.core.pollsCb ours s.core.f then s.discardRegion.endFiring else s
  let s := s.endParked fun p => s.core.pollsCb ours p.f
  (s.core.q.waits.filter fun w => match w.op with
    | .cb h _ => ours h
    | .counter _ _ _ => false).foldl (fun s w => match w.op with
      | .cb h op =>
        let bank := (s.core.setCb h (s.homeOf h)).cbBank h op
        (s.dropWait w.tok).answer w.src w.tok (.cancelled (cbHandlePtr s.dev.part s.core.id h)) w.low
          (s.trailer w.path w.src bank w.n w.agent.ser)
      | .counter _ _ _ => s) s

/-- The CB requests on their way to the focused core that would wait for a home which a cancelled launch placed here: as the home ends,
each is answered with the cancel (R126). -/
def State.cancelRequests (s : State) : State :=
  (s.net.filter fun k => k.dst = s.core.id).foldl (fun s k => match k.body with
    | .cb tok a h op low n =>
      let t := s.mapC fun c => c.setCb h (s.homeOf h)
      match t.homeCancelled h, t.cbAct k.src a h op with
      | true, .wait => ({ s with net := s.net.erase k }).answer k.src tok (.cancelled (cbHandlePtr s.dev.part s.core.id h)) low
          (s.trailer k.path k.src (t.core.cbBank h op) n a.ser)
      | _, _ => s
    | _ => s) s

/-- The entry leaves behind `n` more entries of the other queue, if it waits for that queue at all (R251). -/
def SendEntry.behind (n : Nat) (e : SendEntry) : SendEntry := { e with ahead := if e.ahead = 0 then 0 else e.ahead + n }

/-- What a saved residency of a cancelled launch leaves to its core: released messages still to be sent, and messages that wait in its
mailboxes or its log, which come to rest from number `num` on (R137, R264, R270, R346). -/
def Core.takeLeavings (x : Context) (time num : Nat) (c : Core) : Core :=
  match x.core with
  | none => c
  | some k =>
    let logged (net : Net) : List Mail := ((List.range x.log.length).zip x.log).filterMap fun e => match e.2 with
      | (_, n, .msg hdr args lhnd lin _ note) =>
        if n = net then some ⟨hdr, args, lhnd, time, none, note, lin, false, num + e.1⟩ else none
      | _ => none
    { c with q := { c.q with
      req := k.q.req ++ logged .req ++ c.q.req
      rep := k.q.rep ++ logged .rep ++ c.q.rep
      sys := k.q.sys.filter Mail.sup ++ c.q.sys
      sendReq := releaseHeld (fun _ => true) k.q.sendReq ++ c.q.sendReq.map (SendEntry.behind k.q.sendRep.length)
      sendRep := releaseHeld (fun _ => true) k.q.sendRep ++ c.q.sendRep.map (SendEntry.behind k.q.sendReq.length) } }

/-- The watches of a saved residency's bindings end with them (R272). -/
def State.dropSavedBindings (s : State) (saved : Core) : State :=
  let own := s.core.tab
  let cohort := s.core.cohort
  let t := ({ s with core := { s.core with tab := saved.tab, cohort := saved.cohort } } : State).dropBindings
  { t with core := { t.core with tab := own, cohort := cohort } }

/-- The saved residencies of cancelled launches end. -/
def State.endSaved (s : State) (ls : List Nat) : State :=
  let mine (x : Context) : Bool := match x.core with
    | some c => match c.cohort with
      | some k => ls.contains k.serial
      | none => false
    | none => false
  let s := (s.dev.ctxs.filter mine).foldl (fun s x => match x.core with
    | some c => s.at c.id fun s =>
      ((s.cancelRequests.dropSavedBindings c).mapC (Core.takeLeavings x s.dev.time s.dev.arrivals)).mapD fun d =>
        { d with arrivals := d.arrivals + x.log.length }
    | none => s) s
  s.mapD fun d => { d with ctxs := d.ctxs.filter fun x => !mine x }

/-- Cohorts of a cancelled launch that no core holds any more, having been saved whole, end with their contexts. -/
def State.dropSaved (s : State) (serial : Nat) : State :=
  s.onSeq fun q => q.onLaunch serial fun l =>
    ({ l with live := l.live.filter fun e => s.dev.seq.reports.contains (serial, e.idx)
        || s.cores.any fun c => match c.cohort with
          | some k => k.serial = serial && k.lin = linOf l.rcd e.idx
          | none => false }).settleEnd

/-- The invariant caches of the cores on which a launch has ended since `q0` are empty (R112, R230). A core that holds another cohort by now
had its cache emptied as that was placed (Table 1.5). -/
def State.emptyCaches (q0 : Seq) (s : State) : State :=
  let ends := s.dev.seq.launches.filter fun l => l.ended && !(q0.launches.any fun m => m.serial = l.serial && m.ended)
  let ids := ends.flatMap fun l => (List.range (slotCount s.dev.part l.rcd)).flatMap (slotCores s.dev.part l.rcd)
  if ends = [] then s
  else s.onAll fun c => if c.cohort.isNone && ids.contains c.id then { c with phys := c.phys.dropInv } else c

/-- CANCEL_RECEIPT (R137, R138, R362). A cancel of a unit that has ended has no effect. -/
def execCancelReceipt (s : State) : Out :=
  match s.dev.seq.inbox with
  | .cancel h _ :: rest =>
    let q0 := s.dev.seq
    let s := s.onSeq fun q => { q with inbox := rest }
    if (s.dev.seq.status h).isSome then .next s.settleJob
    else
      let ls := s.dev.seq.unitLaunches h
      let s := s.onAll fun c => if c.cohort.any (fun k => ls.contains k.serial) then { c with saveAsked := false } else c
      let s := (s.coresOf ls).foldl (fun s c => s.at c State.cancelCore) s
      let s := (s.cores.map Core.id).foldl (fun s c => s.at c (State.cancelWaits ls)) s
      let s := s.onSeq fun q =>
        let q := q.markCancelled h
        { q with
          launches := q.launches.map fun l => if ls.contains l.serial then l.cancel else l
          reserved := match q.reserved with
            | some (k, slots) => if ls.contains k then none else some (k, slots)
            | none => none }
      let s := s.endSaved ls
      .next (((ls.foldl (fun s k => s.dropSaved k) s).emptyCaches q0).settleJob)
  | _ => .next s

/-! ### Candidates (R265, R266, R268) -/

/-- A candidate: its keys of Table 14.1, its order index, and whether it stands for a gang's wave. -/
structure Cand where
  rank : Nat
  time : Nat
  serial : Nat
  lin : Nat
  idx : Nat
  wave : Bool
deriving DecidableEq, Repr

/-- A precedes B in Table 14.1. -/
def Cand.before (a b : Cand) : Bool :=
  a.rank < b.rank || (a.rank = b.rank && (a.time < b.time || (a.time = b.time && (a.serial < b.serial
    || (a.serial = b.serial && a.lin < b.lin)))))

def insertCand (c : Cand) : List Cand → List Cand
  | [] => [c]
  | d :: ds => if c.before d then c :: d :: ds else d :: insertCand c ds

/-- The phases below have ended, and so have the launches that a graph puts before it (R134, R135). -/
def Seq.mayPlace (q : Seq) (l : LaunchSt) : Bool :=
  !l.ended && !l.cancelled && (q.launches.all fun m => m.ended || decide (l.phase ≤ m.phase))
    && q.graphs.all fun g => g.edges.all fun e => e.2 ≠ l.serial || (q.launchStatus e.1).isSome

def LaunchSt.cand (l : LaunchSt) (wave : Bool) (e : Admitted) : Cand :=
  let latency := recClass l.rcd
  { rank := if latency then 0 else if e.promoted.isSome then 1 else 2
    time := if latency then e.readyAt else e.promoted.getD e.readyAt
    serial := l.serial
    lin := linOf l.rcd e.idx
    idx := e.idx
    wave := wave }

/-- Unplaced ready cohorts; a gang's wave is one candidate, with the keys of its lowest linear index (log 79), until it has been placed
whole. -/
def LaunchSt.cands (p : Partition) (l : LaunchSt) : List Cand :=
  let ready (e : Admitted) : Bool := !e.placed && e.count = 0
  if l.gang then
    let wave := ((l.waveOrder p).filterMap l.entry).filter ready
    if l.wave then wave.map (l.cand false) else (wave.take 1).map (l.cand true)
  else (l.live.filter ready).map (l.cand false)

/-- The candidate list, in the order of Table 14.1. -/
def Seq.candidates (q : Seq) (p : Partition) : List Cand :=
  ((q.launches.filter q.mayPlace).flatMap (LaunchSt.cands p)).foldl (fun l c => insertCand c l) []

/-- BULK_PROMOTION (R266): once, after 64 µs ready and unplaced. -/
def execBulkPromotion (serial cohort : Nat) (s : State) : Out :=
  let t := s.dev.time
  .next (s.onSeq fun q => q.onLaunch serial fun l =>
    if recClass l.rcd || q.out then l
    else l.onEntry cohort fun e =>
      if e.count = 0 && !e.placed && e.promoted.isNone && decide (e.readyAt + 64000 ≤ t) then { e with promoted := some t } else e)

/-! ### Placement (R132, R261, R265 to R269) -/

/-- A core under a new cohort (Table 1.5): its send queues are empty, and so is its remote queue (Table 9.1). A command that still waited
there has no completion: of that case the spec says nothing (DESIGN CHOICE, log 95). -/
def Core.place (h : HSet) (k : Cohort) (c : Core) : Core :=
  { c with
    cohort := some k
    saveAsked := false
    mem := c.mem.loadSet h
    tab := { Tables.reset with handlers := h.handlers }
    eng := { Engines.reset with nextWalk := c.eng.nextWalk }
    q := { c.q with parked := [], sendReq := [], sendRep := [] }
    phys := c.phys.dropInv }

/-- The start message of a cohort (R132): the entry launch's first cohort takes the kernel's SYS message instead (R370). -/
def State.sendStart (s : State) (l : LaunchSt) (lhnd : Word) (lin : Nat) (g : Nat → Nat) (first : CoreId) : State :=
  if l.serial = 0 && lin = 0 then
    let start : CoreId := .mesh s.dev.image.startX s.dev.image.startY
    s.sendAs .control start .sys (.jobStart [0#64, 0#64, 0#64, 0#64])
  else
    let hdr := BitVec.ofNat 64 (4 * 2 ^ 48 + l.srcY.toNat * 2 ^ 40 + l.srcX.toNat * 2 ^ 32
      + if recClass l.rcd then 2 ^ 16 else 0)
    let args := [l.arg, BitVec.ofNat 64 lin, BitVec.ofNat 64 (g 0 + g 1 * 2 ^ 16 + g 2 * 2 ^ 32), lhnd]
    s.sendAs .control first .req (.msg hdr args lhnd lin none false)

/-- The next CTXID of the job (R285): its tag and a slot of its context area. -/
def Device.newCtx (d : Device) : BitVec 32 := d.part.jobTag ++ BitVec.ofNat 24 d.nextCtx

def Device.useCtx (d : Device) : Device := { d with nextCtx := d.nextCtx + 1 }

/-- A cohort takes each core of its slot, under a context of its own (R285). -/
def placeCores (h : HSet) (k : Cohort) : List CoreId → State → State
  | [], s => s
  | c :: cs, s =>
    let ctx := s.dev.newCtx
    placeCores h k cs ((s.mapD Device.useCtx).onCore c fun core => core.place h { k with ctx := ctx })

/-- Contexts of a cohort that has been vacated (R267). -/
def Context.holds (serial lin : Nat) (x : Context) : Bool :=
  match x.core with
  | some c => match c.cohort with
    | some k => k.serial = serial && k.lin = lin
    | none => false
  | none => false

/-- Place one cohort on its slot: a vacated one is restored, any other starts. -/
def State.placeCohort (s : State) (l : LaunchSt) (k : Nat) : State :=
  let p := s.dev.part
  let lin := linOf l.rcd k
  let g := coordOf l.rcd k
  let slot := slotOfLin p l.rcd lin
  let (ox, oy) := slotOrigin p l.rcd slot
  let lhnd := handleWord 0 l.phase l.serial
  let s := s.onSeq fun q => q.onLaunch l.serial fun l => l.onEntry k fun e => { e with placed := true, idleTotals := none }
  if s.dev.ctxs.any (Context.holds l.serial lin) then
    s.mapD fun d => { d with ctxs := d.ctxs.map fun x => if x.holds l.serial lin then { x with due := true } else x }
  else
    let cohort : Cohort :=
      { serial := l.serial
        lhnd := lhnd
        lin := lin
        gx := g 0
        gy := g 1
        gz := g 2
        ox := ox
        oy := oy
        rcd := l.rcd
        ctx := 0#32 }
    let s := placeCores (s.dev.image.sets.getD (lrSet l.rcd) ⟨false, [], []⟩) cohort (slotCores p l.rcd slot) s
    s.sendStart l lhnd lin g (.mesh (BitVec.ofNat 8 ox) (BitVec.ofNat 8 oy))

/-- Cores of the slots that a wave holds reserved (R268). -/
def State.reservedCores (s : State) : List CoreId :=
  match s.dev.seq.reserved with
  | some (k, slots) => match s.dev.seq.launch k with
    | some l => slots.flatMap (slotCores s.dev.part l.rcd)
    | none => []
  | none => []

/-- A placed bulk cohort whose slot includes a reserve row (R267). -/
def borrower (p : Partition) (k : Cohort) : Bool := !recClass k.rcd && decide (p.rsvy < k.oy + lrCH k.rcd)

/-- A slot is occupied only by borrowers and free cores: the cohorts to be vacated. -/
def State.vacatable (s : State) (cores : List CoreId) : Option (List Cohort) :=
  let ks := cores.filterMap fun c => (s.coreAt c).bind Core.cohort
  if ks ≠ [] && ks.all (borrower s.dev.part) && cores.all (fun c => s.coreFree c || (match s.coreAt c with
      | some k => k.cohort.isSome && !k.phys.halted && k.moving = .no
      | none => false)) then some ks else none

/-- Every core of these cohorts is asked to save its residency (R267). -/
def State.vacate (s : State) (ks : List Cohort) : State :=
  s.onAll fun c => match c.cohort with
    | some k => if ks.any (fun x => x.serial = k.serial && x.lin = k.lin) then { c with saveAsked := true } else c
    | none => c

def placeAll (l : LaunchSt) : List Nat → State → State
  | [], s => s
  | k :: ks, s => placeAll l ks (s.placeCohort l k)

/-- A wave reserves its slots as they free, and is placed at once when it has them all and each is free (R268, R269, R274). It holds no
reservation while it has no slot. -/
def State.reserveWave (s : State) (l : LaunchSt) (held : List Nat) : State :=
  let p := s.dev.part
  let wave := l.waveOrder p
  let want := wave.map fun k => slotOfLin p l.rcd (linOf l.rcd k)
  let free (k : Nat) : Bool := (slotCores p l.rcd k).all s.coreFree
  if want.all free then
    let s := s.onSeq fun q => { (q.onLaunch l.serial fun l => { l with wave := true }) with reserved := none }
    placeAll l wave s
  else
    let slots := want.filter fun k => held.contains k || free k
    let s := s.onSeq fun q => { q with reserved := if slots = [] then none else some (l.serial, slots) }
    if recClass l.rcd then
      s.vacate ((want.filter fun k => !slots.contains k).flatMap fun k => (s.vacatable (slotCores p l.rcd k)).getD [])
    else s

/-- A bulk wave holds reservations, so latency candidates wait (R269). -/
def Seq.bulkReserved (q : Seq) : Bool := (q.reserved.bind fun r => q.launch r.1).any fun l => !recClass l.rcd

/-- The first candidate that can be placed (R265). `first` holds at the head of the list: a wave reserves there (R268), and a latency
candidate vacates borrowers there, since latency candidates come first (R267). -/
def placeFrom : Bool → List Cand → State → State
  | _, [], s => s
  | first, c :: cs, s =>
    match s.dev.seq.launch c.serial with
    | none => s
    | some l =>
      if c.wave then
        let t := if first && s.dev.seq.reserved.isNone then s.reserveWave l [] else s
        if t.dev.seq = s.dev.seq then placeFrom false cs t else t
      else if c.rank = 0 && s.dev.seq.bulkReserved then placeFrom false cs s
      else
        let cores := slotCores s.dev.part l.rcd (slotOfLin s.dev.part l.rcd c.lin)
        let blocked := cores.any s.reservedCores.contains
        if cores.all s.coreFree && !blocked then s.placeCohort l c.idx
        else
          let s := match (if c.rank = 0 && first && !blocked then s.vacatable cores else none) with
            | some ks => s.vacate ks
            | none => s
          placeFrom false cs s

/-- PLACEMENT (R265). Nothing is placed while the job is being pre-empted, is out, or has contexts of its running set to restore (R275). A wave that holds
reservations takes the slots that have freed first. -/
def execPlacement (s : State) : Out :=
  let q := s.dev.seq
  if q.preempting || q.out || q.jobEnded || s.dev.ctxs.any Context.first then .next s
  else
    let t := match q.reserved.bind fun r => (q.launch r.1).map fun l => (l, r.2) with
      | some (l, held) => s.reserveWave l held
      | none => s
    .next (if t.dev.seq = q then placeFrom true (q.candidates s.dev.part) t else t)

/-! ### Retirement (R263) -/

/-- A window that keeps its cohort from retiring (R226). -/
def Window.unsettled (w : Window) : Bool := w.pend ≠ 0 || w.fill || w.st = .filling

/-- A firing of the core's cohort is still to come: its start message is on its way (R132, R370). -/
def State.startComing (s : State) (c : Core) : Bool :=
  s.net.any fun p => p.dst = c.id && match p.body with
    | .jobStart _ => true
    | .msg _ _ lhnd _ _ note => p.src = .control && p.net = .req && !note && (c.cohort.any fun k => k.lhnd = lhnd)
    | _ => false

/-- The core's part of R263, on a core that no halt holds or is about to hold (R274, R358). A start message on its way is a firing that is
queued, and a notice, which in every other respect is a message, is sent before its cohort retires (R257, R280; log 50). So are its
messages in the send queues, each of which is a message sent and not yet accepted (R263). -/
def State.coreIdle (s : State) (c : Core) : Bool :=
  !c.busy && c.q.parked.isEmpty && c.q.req.isEmpty && c.q.rep.isEmpty && c.q.sys.isEmpty && c.q.notices.isEmpty
    && !(c.tab.bind.toList.any fun b => c.actorReady b || (match b with
      | .nest _ _ _ _ _ _ => true
      | .actor _ _ _ _ _ | .empty => false))
    && c.ack.drained && c.q.outbound = 0 && c.q.sendReq.isEmpty && c.q.sendRep.isEmpty
    && c.eng.walks.isEmpty && !(c.tab.win.toList.any Window.unsettled)
    && c.eng.vq.isEmpty && c.eng.mq.isEmpty && c.eng.rq.isEmpty
    && !c.phys.halted && c.phys.haltPending.isNone && !s.startComing c

/-- A cancelled cohort's core has nothing left to complete (R137). -/
def Core.cancelDone (c : Core) : Bool :=
  !c.busy && c.q.parked.isEmpty && c.ack.drained && c.eng.walks.isEmpty && c.eng.vq.isEmpty && c.eng.mq.isEmpty
    && c.eng.rq.isEmpty && !c.phys.halted && c.phys.haltPending.isNone && !c.cancelLeft

def Core.holdsCohort (serial lin : Nat) (c : Core) : Bool :=
  match c.cohort with
  | some k => k.serial = serial && k.lin = lin
  | none => false

/-- The home CBs of the focused core end (R124). -/
def Core.dropHomes (c : Core) : Core :=
  { c with tab := { c.tab with cb := c.tab.cb.map fun e => match e with
    | .home _ _ _ _ _ _ _ => .empty
    | .link _ _ _ | .empty => e } }

/-- The cohort's cores are free; its bindings and home CBs end, and with a home of a cancelled launch the requests that would wait for it
(R124, R126, R140). -/
def State.freeCohort (s : State) (serial lin : Nat) : State :=
  let ids := (s.cores.filter (Core.holdsCohort serial lin)).map Core.id
  ids.foldl (fun s c => s.at c fun s =>
    s.cancelRequests.dropBindings.mapC fun c => { c.dropHomes with cohort := none, saveAsked := false }) s

/-- COLLECTION_ROUND (R263): a second round that finds every core idle with unchanged totals declares the cohort retired. -/
def execCollectionRound (serial cohort : Nat) (s : State) : Out :=
  match s.dev.seq.launch serial with
  | none => .next s
  | some l =>
    match l.entry cohort with
    | none => .next s
    | some e =>
      let lin := linOf l.rcd cohort
      let cs := s.cores.filter (Core.holdsCohort serial lin)
      let report (s : State) : Out :=
        .next ((s.freeCohort serial lin).onSeq fun q => { q with reports := q.reports ++ [(serial, cohort)] })
      let note (t : Option (Nat × Nat)) : Out :=
        .next (s.onSeq fun q => q.onLaunch serial fun l => l.onEntry cohort fun e => { e with idleTotals := t })
      if !e.placed || cs.isEmpty || s.dev.ctxs.any (Context.holds serial lin) then .next s
      else if l.cancelled then
        if cs.all Core.cancelDone then report s else .next s
      else if cs.all s.coreIdle then
        let totals := ((cs.map fun c => c.q.sent).foldl (· + ·) 0, (cs.map fun c => c.q.accepted).foldl (· + ·) 0)
        if e.idleTotals = some totals then report s else note (some totals)
      else note none

/-- What the lead sequencer writes to the job's context area (R275, step 4; R296). -/
def Seq.save (q : Seq) (p : Partition) : SeqSave :=
  { launches := q.launches.map fun l =>
      { serial := l.serial
        base := l.base
        admitNext := l.admitNext
        counts := l.live.map fun e => (e.idx, e.count)
        ended := l.ended }
    running := q.launches.flatMap fun l => (l.live.filter Admitted.placed).map fun e =>
      (l.serial, linOf l.rcd e.idx, slotOfLin p l.rcd (linOf l.rcd e.idx))
    cands := (q.candidates p).map fun c => (c.rank, c.time, c.serial, c.lin)
    reserved := q.reserved
    phase := q.phase }

/-- Every residency of the job has been saved and every retirement applied: the sequencer's state is written as it is, and promotion
clocks stop (R275). -/
def State.settleOut (s : State) : State :=
  if s.dev.seq.preempting && !s.dev.seq.out && s.dev.seq.reports.isEmpty
      && !(s.cores.any fun c => c.saveAsked || c.cohort.isSome) then
    (s.onSeq fun q => { q with out := true, outAt := s.dev.time }).mapD fun d => { d with
      seqSaved := some (d.seq.save d.part) }
  else s

/-- RETIREMENT_REPORT (R262, R136, R138): the report reaches the lead sequencer. -/
def execRetirementReport (serial cohort : Nat) (s : State) : Out :=
  if !s.dev.seq.reports.contains (serial, cohort) then .next s
  else
    let q0 := s.dev.seq
    let s := s.onSeq fun q =>
      { (q.onLaunch serial (LaunchSt.retire s.dev.part s.dev.time cohort)) with reports := q.reports.erase (serial, cohort) }
    .next (s.emptyCaches q0).settleJob.settleOut

end Sys2Proof.Machine
end

