-- ==== Sys2Proof/Machine/Preempt.lean ====
section
/-!
DEFINITION. Sys2Proof/Machine/Preempt.lean: saving and restoring residencies (R284 to R288), pre-empting and resuming a job
(R275, R296), and the job's start message (R370, R372).
-/
namespace Sys2Proof.Machine

/-! ### PREEMPT_REQUEST (R275) -/

/-- PREEMPT_REQUEST: placing stops, and every residency of the job is asked to be saved. -/
def execPreemptRequest (s : State) : Out :=
  let q := s.dev.seq
  if q.preempting || !q.started || q.jobEnded then .next s
  else
    let s := s.onSeq fun q => { q with preempting := true }
    .next (s.onAll fun c => if c.cohort.isSome || c.isMemory then { c with saveAsked := true } else c).settleOut

/-! ### RESIDENCY_SAVE (R284, R286) -/

/-- The agents of foreign open entries are asked to end their regions (R248). -/
def State.splitAll (s : State) : State :=
  (s.core.scrim.filter fun e => !e.commitOnly && !e.closing).foldl (fun s e => s.askSplit (some e.agent)) s

/-- A wait that is in progress is withdrawn from its home and is issued again on restore. -/
def withdrawWaits : List (Nat × Parked) → State → State
  | [], s => s
  | (k, p) :: ps, s => withdrawWaits ps (match p.f.wait with
    | .reply tok _ => match s.withdraw tok with
      | some t => t.mapC fun c => { c with q := { c.q with
          parked := c.q.parked.set k { p with f := { p.f with wait := Wait.poll }, ready := none } } }
      | none => s
    | _ => s)

def SendEntry.kept (e : SendEntry) : Bool := e.by_.isSome

def Parked.waitsReply (p : Parked) : Bool := match p.f.wait with | .reply _ _ => true | _ => false

def Window.landing (w : Window) : Bool := w.pend ≠ 0

/-- The engines are idle, the remote queue is empty, and every PEND is zero (R203, R226). -/
def Core.quiet (c : Core) : Bool :=
  c.eng.vq.isEmpty && c.eng.mq.isEmpty && c.eng.rq.isEmpty && !(c.tab.win.toList.any Window.landing)

/-- A nest's claim is in flight (R273). -/
def Binding.claiming (b : Binding) : Bool :=
  match b with
  | .nest _ _ _ _ _ cl => cl.isSome
  | .actor _ _ _ _ _ | .empty => false

/-- The core has stopped: no firing runs, and nothing that one issued is unanswered but what a save withdraws or captures. -/
def Core.stopped (c : Core) : Bool := !c.busy && c.ack.drained && !(c.tab.bind.toList.any Binding.claiming)

/-- The core is ready to be written to its context: every copy that lands here, in a window or in slots, has completed (R284). The mark
of one that was refused here or has failed is no landing. -/
def Core.drainedForSave (c : Core) : Bool :=
  c.stopped && !c.phys.halted && c.scrim.isEmpty && c.staged.isEmpty && c.slots.isEmpty && c.q.sendReq.all SendEntry.kept
    && c.q.sendRep.all SendEntry.kept && c.quiet && c.eng.landings.all Landing.dead && !(c.q.parked.any Parked.waitsReply)

/-- Every core that is asked to save has stopped. None is saved before, since a firing that still runs may reach the others (DESIGN
CHOICE, log 80). -/
def State.saversStopped (s : State) : Bool := s.cores.all fun c => !c.saveAsked || c.stopped

/-! ### The context area (Table 15.6) -/

/-- Where a context lies (R285). -/
def Device.ctxAt (d : Device) (ctx : BitVec 32) : Nat := d.part.ctxBase + ctx.toNat % 2 ^ 24 * 0x58000

/-- The start bits of eight parcels, parcel 8k at bit 0 (log 81). -/
def startByte (m : Mems) (k : Nat) : Byte :=
  BitVec.ofNat 8 (((List.range 8).map fun j => if tget false m.noStart (8 * k + j) then 0 else 2 ^ j).foldl (· + ·) 0)

/-- The buffers, I-store, start bits and directory as a context at `base` holds them. -/
def Mems.context (m : Mems) (base : Nat) : Memory :=
  tshift (keyOf 0 0) 0x18000 (base + 0x1000) m.data ++ tshift (keyOf 1 0) 0x20000 (base + 0x19000) m.data
    ++ tshift (keyOf 2 0) 0x8000 (base + 0x39000) m.data ++ tshift 0 0x8000 (base + 0x41000) m.istore
    ++ tcells 0#8 (base + 0x49000) ((List.range 0x800).map (startByte m))
    ++ tcells 0#8 (base + 0x49800) ((List.range 448).flatMap fun k =>
      let e := tget 0#32 m.dir k
      [e.extractLsb' 0 8, e.extractLsb' 8 8, e.extractLsb' 16 8, e.extractLsb' 24 8])

/-- The cursors of the active walks as they stand in the context's table area: that of slot k at 0x4_A800 + 128·k (R309, Table 17.3; log
81). -/
def State.cursorArea (s : State) (base : Nat) : Memory :=
  tcells 0#8 (base + 0x4A800) ((List.range 16).flatMap fun k =>
    natToBytes 128 (match s.core.walkAt k with
      | some w => (s.cursor w w.sent).toNat
      | none => 0))

/-- Bytes of locked frames stay as they are: the channels refuse the write (R291). -/
def keepLocked (locked : List (Nat × Nat)) (old new : Memory) : Memory :=
  locked.foldl (fun m r => tsplice r.1 r.2 (tshift r.1 r.2 r.1 old) m) new

/-- The memories and the cursors are written to external memory. -/
def Device.writeContext (d : Device) (ctx : BitVec 32) (m : Mems) (cursors : Memory) : Device :=
  let base := d.ctxAt ctx
  let ext := tsplice (base + 0x4A800) 0x800 cursors (tsplice (base + 0x1000) 0x48F00 (m.context base) d.ext)
  { d with ext := keepLocked d.boot.locked d.ext ext }

/-- What a restore reads where its context lies in locked frames: the channels refuse the access, and the bytes are free (R291). -/
def Device.contextView (d : Device) (base : Nat) : Memory :=
  d.boot.locked.foldl (fun m r =>
    let lo := Nat.max base r.1
    let n := Nat.min (base + 0x58000) (r.1 + r.2) - lo
    if n = 0 then m
    else tsplice lo n (tcells 0#8 lo ((List.range n).map fun j => (Config.freeWord (d.freeIdx + j)).setWidth 8)) m) d.ext

/-- What a context at `base` gives back. -/
def Mems.ofContext (e : Memory) (base : Nat) : Mems :=
  { data := tshift (base + 0x1000) 0x18000 (keyOf 0 0) e ++ tshift (base + 0x19000) 0x20000 (keyOf 1 0) e
      ++ tshift (base + 0x39000) 0x8000 (keyOf 2 0) e
    istore := tshift (base + 0x41000) 0x8000 0 e
    noStart := tcells false 0 ((List.range 0x4000).map fun k => !(e.get (base + 0x49000 + k / 8)).getLsbD (k % 8))
    dir := tcells 0#32 0 ((List.range 448).map fun k =>
      let at_ (j : Nat) : Byte := e.get (base + 0x49800 + 4 * k + j)
      at_ 3 ++ at_ 2 ++ at_ 1 ++ at_ 0)
    stamp := [] }

/-- What stays with the physical core, or is not part of a residency (Table 1.5). -/
def Core.vacated (c : Core) : Core :=
  { Core.fresh c.id c.site with
    serials := c.serials
    mem := c.mem
    places := c.places
    clock := c.clock
    eng := { Engines.reset with nextWalk := c.eng.nextWalk }
    q := { Queues.reset with notices := c.q.notices, lost := c.q.lost, waits := c.q.waits }
    phys := c.phys.dropInv
    exc := c.exc
    lastTime := c.lastTime
    pageWaits := c.pageWaits
    sysMem := c.sysMem
    taken := c.taken
    moveHeld := c.moveHeld
    badSecs := c.badSecs
    checkDue := c.checkDue }

/-- A vacated cohort returns to the candidates once its last core is saved (R267). -/
def State.returnCohort (s : State) (k : Cohort) : State :=
  if s.dev.seq.preempting || s.cores.any (Core.holdsCohort k.serial k.lin) then s
  else s.onSeq fun q => q.onLaunch k.serial fun l => l.onEntry (orderOfLin k.rcd k.lin) fun e => { e with placed := false }

/-- RESIDENCY_SAVE: the memories go to the context area, what Table 15.6 names without a layout to the context's record (log 81). -/
def execResidencySave (s : State) : Out :=
  let c := s.core
  if !c.saveAsked || c.busy || !s.saversStopped then .next s
  else
    let s := withdrawWaits ((List.range c.q.parked.length).zip c.q.parked) s.splitAll
    let c := s.core
    if !c.drainedForSave then .next s
    -- the save reads every sector (R282)
    else if c.badSecs ≠ [] then .next (s.mapC fun c => { c with checkDue := true })
    else
      let saved : Context :=
        { ctx := c.ctx
          core := some { c with mem := Mems.reset }
          log := []
          due := false
          first := false }
      let cursors := s.cursorArea (s.dev.ctxAt c.ctx)
      let s := s.mapD fun d => { d.writeContext c.ctx c.mem cursors with ctxs := d.ctxs ++ [saved] }
      let s := s.mapC Core.vacated
      let s := match c.cohort with
        | some k => s.returnCohort k
        | none => s
      .next s.settleOut

/-! ### JOB_RESUME and RESIDENCY_RESTORE (R275, R288, R309) -/

/-- Readiness and promotion times move on by the time that the job was out; what became ready meanwhile is ready now. -/
def Admitted.later (outAt n : Nat) (e : Admitted) : Admitted :=
  { e with
    readyAt := Nat.min e.readyAt outAt + n
    promoted := e.promoted.map fun t => Nat.min t outAt + n }

def LaunchSt.later (outAt n : Nat) (l : LaunchSt) : LaunchSt := { l with live := l.live.map (Admitted.later outAt n) }

/-- A launch goes on with its saved base, admission cursor and counts (R275). -/
def SeqSave.restore (v : SeqSave) (l : LaunchSt) : LaunchSt :=
  match v.launches.find? fun x => x.serial = l.serial with
  | none => l
  | some x => { l with
      base := x.base
      admitNext := x.admitNext
      live := l.live.map fun e => { e with count := ((x.counts.find? fun p => p.1 = e.idx).map Prod.snd).getD e.count } }

/-- The context belongs to the saved running set, or is a memory core's. -/
def SeqSave.runs (v : SeqSave) (x : Context) : Bool :=
  match x.core with
  | none => false
  | some c => match c.cohort with
    | none => true
    | some k => v.running.any fun r => r.1 = k.serial && r.2.1 = k.lin

/-- JOB_RESUME: the running set is to be restored before anything else is placed. -/
def execJobResume (s : State) : Out :=
  let q := s.dev.seq
  if !q.out then .next s
  else
    let n := s.dev.time - q.outAt
    let v := s.dev.seqSaved.getD (q.save s.dev.part)
    let s := s.onSeq fun q => { q with
      preempting := false
      out := false
      launches := q.launches.map fun l => (v.restore l).later q.outAt n }
    .next (s.mapD fun d => { d with
      seqSaved := none
      ctxs := d.ctxs.map fun x => if v.runs x then { x with due := true, first := true } else x })

/-- The start message as it waits for the entry handler (R370): it counts with the class of the entry launch (Table 14.2). -/
def State.startMail (s : State) (args : List Word) : Mail :=
  let cls := match s.dev.seq.launch 0 with
    | some l => recClass l.rcd
    | none => false
  ⟨BitVec.ofNat 64 (4 * 2 ^ 48 + (if cls then 2 ^ 16 else 0) + s.dev.image.startH.toNat), args, handleWord 0 0 0, s.dev.time,
    none, false, 0, false, s.dev.arrivals⟩

/-- A logged message enters its mailbox behind the saved contents, or answers the WFR or the walk that waits for it (R158, R288,
R290). -/
def State.applyMsg (s : State) (net : Net) (m : Mail) : State :=
  let tok := m.args.getD 0 0#64
  if s.core.isPagerAnswer (net = .rep) m.hdr m.args then s.pagerAnswer tok.toNat (m.args.getD 1 0#64).toNat
  else match (if net = .rep && hdrHnd m.hdr = 255 then s.wfrMatch tok (m.args.getD 1 0#64) else none) with
    | some t => t
    | none => (s.mapC fun c => { c with q :=
        if net = .rep then { c.q with rep := c.q.rep ++ [m], accepted := c.q.accepted + 1 }
        else { c.q with req := c.q.req ++ [m], accepted := c.q.accepted + 1 } }).rested

/-- One entry of a completion log is applied. -/
def State.applyLog (s : State) (e : CoreId × Net × Body) : State :=
  match e with
  | (src, _, .copied walk _ err _) => s.copied src walk err
  | (_, _, .mcmdDone r fl err _) => s.mcmdDone r fl err
  | (_, .sys, .msg hdr args lhnd lin _ note) => (s.mapC fun c => { c with q := { c.q with
      sys := c.q.sys ++ ((sysMail s.dev.time s.dev.arrivals (.msg hdr args lhnd lin none note)).filter fun m =>
        (entryOf s.dev.sysTable (hdrHnd m.hdr)).isSome).toList } }).rested
  | (_, net, .msg hdr args lhnd lin _ note) => s.applyMsg net ⟨hdr, args, lhnd, s.dev.time, none, note, lin, false, s.dev.arrivals⟩
  | (_, _, .jobStart args) => (s.mapC fun c => { c with q := { c.q with sys := c.q.sys ++ [s.startMail args] } }).rested
  | (src, _, .watch h link num ctx on) => s.watchAsked src h link num ctx on
  | (_, _, .watchUpd link f n num _) => s.watchTold link f n num
  | _ => s

/-- Parked firings become rank-1 triggers in the order of parking, whatever they wait for: it is looked for when they run (R288). -/
def readyInOrder : Nat → List Parked → List Parked
  | _, [] => []
  | n, p :: ps => { p with ready := some n, due := p.due || (p.window.isNone && p.walk.isNone) } :: readyInOrder (n + 1) ps

/-- A walk whose request for slots has not been answered asks again: an answer that came meanwhile found no walk (R288, R309). -/
def Walk.askAgain (w : Walk) : Walk := if w.cbSlot.isNone then { w with cbTok := none } else w

/-- A walk that its pager answered meanwhile no longer holds its firing back (R290). -/
def Parked.recheck (waits : List PageWait) (p : Parked) : Parked :=
  match p.walk with
  | some t => if waits.any (fun w => w.tok = t && w.res.isNone) then p else { p with walk := none }
  | none => p

/-- The saved residency as it is loaded on a core, with the memories that its context holds. The firing serial count is its own
(R241). -/
def Core.loadSaved (here saved : Core) (m : Mems) : Core :=
  { saved with
    site := here.site
    mem := m
    q := { saved.q with
      req := saved.q.req ++ here.q.req
      rep := saved.q.rep ++ here.q.rep
      sys := saved.q.sys ++ here.q.sys
      accepted := saved.q.accepted + here.q.accepted
      notices := here.q.notices
      lost := here.q.lost
      waits := here.q.waits
      parked := readyInOrder saved.q.nextReady (saved.q.parked.map (Parked.recheck here.pageWaits)) }
    eng := { saved.eng with
      walks := saved.eng.walks.map Walk.askAgain
      nextWalk := Nat.max saved.eng.nextWalk here.eng.nextWalk }
    phys := here.phys.dropInv
    exc := here.exc
    moving := .no
    saveAsked := false
    places := here.places
    clock := here.clock
    lastTime := if saved.lastTime.toNat < here.lastTime.toNat then here.lastTime else saved.lastTime
    pageWaits := here.pageWaits
    sysMem := here.sysMem
    taken := here.taken
    moveHeld := here.moveHeld
    badSecs := here.badSecs
    checkDue := here.checkDue }

/-- RESIDENCY_RESTORE: the context is loaded, then its log is applied. No residency is restored while the job is being pre-empted or
is out (R275), or before earlier messages have left the core's send queues (Table 1.5). -/
def execResidencyRestore (s : State) : Out :=
  match s.dueCtx s.core.id with
  | none => .next s
  | some x =>
    match x.core with
    | none => .next s
    | some saved =>
      if s.dev.seq.preempting || s.dev.seq.out || s.core.busy || s.core.cohort.isSome || s.core.phys.halted
          || s.dev.bad.contains s.core.site || !s.core.q.sendReq.isEmpty || !s.core.q.sendRep.isEmpty then .next s
      else
        let s := s.mapD fun d => { d with ctxs := d.ctxs.filter fun y => y.ctx ≠ x.ctx }
        let m := Mems.ofContext (s.dev.contextView (s.dev.ctxAt x.ctx)) (s.dev.ctxAt x.ctx)
        let s := s.mapD fun d => { d with freeIdx := d.freeIdx + if lockedMeets d.boot.locked (d.ctxAt x.ctx) 0x58000 then 0x58000 else 0 }
        .next (x.log.foldl State.applyLog (s.mapC fun c => c.loadSaved saved m))

/-! ### JOB_START_MESSAGE (R132, R370, R372) -/

def Body.isJobStart : Body → Bool
  | .jobStart _ => true
  | _ => false

/-- JOB_START_MESSAGE: the kernel's message triggers the entry handler in job mode; it is logged while its job is out, and
discarded once its job has been cancelled. -/
def execJobStartMessage (s : State) : Out :=
  match s.recv .control .sys Body.isJobStart with
  | some (.jobStart args, t) =>
    if t.dev.seq.jobCancelled then .next t
    else match t.redirect none with
      | some k => .next (t.mapD fun d => { d with ctxs := logTo k (.control, .sys, .jobStart args) d.ctxs })
      | none => .next (t.mapC fun c => { c with q := { c.q with sys := c.q.sys ++ [t.startMail args] } }).rested
  | _ => .next s

end Sys2Proof.Machine
end

