-- ==== Sys2Proof/Machine/Moves.lean ====
section
/-!
DEFINITION. Sys2Proof/Machine/Moves.lean: residency moves, map updates and forwarding (R335 to R341), the Float and thermal
moves (R342), machine checks, quarantine and rebuilds (R282, R283, R343, R344).
-/
namespace Sys2Proof.Machine

/-! ### Sites and limits (R334, R341) -/

/-- No residency, quarantine, forwarding entry or other move is at the site. -/
def State.siteFree (s : State) (site : Site) : Bool :=
  siteOnDevice site && !(s.cores.any fun c => c.onSite site) && !s.dev.bad.contains site
    && !(s.dev.forwards.any fun f => f.old = site && !f.left.isEmpty)
    && !(s.cores.any fun c => c.moving.target = some site)

/-- The sites of a die, row by row. -/
def dieSites (die : Nat) : List Site :=
  (List.range (64 * 34)).map fun k =>
    ⟨BitVec.ofNat 8 (34 * (die % 4) + k % 34), BitVec.ofNat 8 (64 * (die / 4) + k / 34)⟩

/-- The die's pool sites without these, coolest first among equals in row and column order. -/
def State.coolest (s : State) (die : Nat) (taken : List Site) : Option Site :=
  let pool := (dieSites die).filter fun x => s.inPool x && !taken.contains x
  (firstMin (fun x => some (s.tempAt x)) pool).bind fun p => pool[p.1]?

/-! ### MOVE_REQUEST (R335) -/

def Core.takesNoMove (c : Core) : Bool :=
  !c.isMesh || c.phys.halted || bit c.phys.dump 0 || c.saveAsked || c.inMove

/-- The site may be the target of this move: a pool site, or for a quarantine the site that CMAP gives now. -/
def State.moveTargetOk (s : State) (site : Site) (why : BitVec 2) : Bool :=
  dieOf site = dieOf s.core.site && s.canName s.core.id site && (s.inPool site || (why = 3#2 && s.dev.part.homeSite s.core.id = site && s.siteFree site))

/-- A request to move the focused core takes effect at the next safe point or boundary; it is held while an earlier move of the core,
eight moves of the die, or the site of a quarantine's shift keep it back (R341). One that is discarded is told to the move service. -/
def State.judgeMove (s : State) (site : Site) (why : BitVec 2) : State :=
  let hold : State := s.mapC fun c => { c with moveHeld := c.moveHeld ++ [(site, why)] }
  let refuse : State := s.send .control .sys (.moveRefused site)
  if s.core.takesNoMove || s.core.site = site then refuse
  else if s.moveWaits then hold
  else if s.moveTargetOk site why then s.mapC fun c => { c with moving := .requested site why }
  else if why = 3#2 && s.dev.part.homeSite s.core.id = site then hold
  else refuse

def Body.isRefusal (site : Site) : Body → Bool
  | .moveRefused x => x = site
  | _ => false

/-- The move service asks a core to move. -/
def State.askMove (s : State) (c : CoreId) (site : Site) (why : BitVec 2) : State :=
  s.sendAs .control c .sys (.moveReq site why)

/-- The move service learns that a request was discarded: one of a quarantine's shift that still stands is made again (R343). -/
def State.refusalArrives (s : State) (site : Site) : State :=
  match (s.net.filter fun k => k.dst = s.core.id && k.body.isRefusal site).findSome? fun k => s.recvPacket k.src .sys (Body.isRefusal site) with
  | none => s
  | some (k, t) =>
    if t.dev.part.homeSite k.src = site && (match t.coreAt k.src with
        | some c => c.isMesh && c.site ≠ site && !t.dev.bad.contains c.site
        | none => false) then t.askMove k.src site 3#2 else t

/-- MOVE_REQUEST (R335): a core takes the request, or one that it holds is looked at again; the control cluster's move service takes the
news of one that was discarded. Nothing waits in the fabric (R330). -/
def execMoveRequest (site : Site) (why : BitVec 2) (s : State) : Out :=
  if s.core.id = .control then .next (s.refusalArrives site)
  else if s.core.moveHeld.contains (site, why) then
    .next ((s.mapC fun c => { c with moveHeld := c.moveHeld.erase (site, why) }).judgeMove site why)
  else match s.recv .control .sys (fun b => b = .moveReq site why) with
    | none => .next s
    | some (_, t) => .next (t.judgeMove site why)

/-! ### Drain and stream (R336, Table 20.2) -/

def Core.drainedForMove (c : Core) : Bool :=
  !c.busy && c.ack.drained && c.q.sendReq.all SendEntry.kept && c.q.sendRep.all SendEntry.kept && c.quiet

/-- MOVE_DRAIN_COMPLETE: step 2 ends. -/
def execMoveDrainComplete (s : State) : Out :=
  match s.core.moving with
  | .draining site why => if s.core.drainedForMove then .next (s.mapC fun c => { c with moving := .streaming site why }) else .next s
  | .no | .requested _ _ | .streaming _ _ => .next s

/-- The cores of a partition in snake order. -/
def Partition.snake (p : Partition) : List CoreId :=
  (List.range (pextHeight p.pext)).flatMap fun y =>
    let row := (List.range (pextWidth p.pext)).map fun x => CoreId.mesh (BitVec.ofNat 8 x) (BitVec.ofNat 8 y)
    if y % 2 = 0 then row else row.reverse

/-- The routers that translate for the partition, as a map update visits them (R323, R332): its cores in snake order, then its memory
cores, the ingress ports of the device links and the control cluster's port (log 83). -/
def State.recipients (s : State) : List CoreId :=
  let ids := s.cores.map Core.id
  (s.dev.part.snake.filter ids.contains)
    ++ (ids.filter fun c => match c with | .memory _ _ => true | _ => false)
    ++ (ids.filter fun c => match c with | .port _ => true | _ => false)
    ++ ids.filter fun c => c = .control

def packetNets : List Net := [.req, .rep, .data, .sys]

/-- The exception entries of a copy after a core's update: none when CMAP gives the site (R337). -/
def setException (p : Partition) (c : CoreId) (site : Site) (l : List Exc) : List Exc :=
  let k := match l.find? (fun e => e.names c && decide (e.k < 64)) with
    | some e => e.k
    | none => ((List.range 64).find? fun k => !(l.any fun e => e.k = k)).getD 0
  let rest := l.filter fun e => !e.names c
  if p.homeSite c = site then rest else rest ++ [⟨k, (coreXY c).1, (coreXY c).2, site⟩]

/-- Records of a trace queue leave for their ring. -/
def State.flushTrace (s : State) : State :=
  let s := s.core.phys.traceQ.foldl (fun s r => s.send .control .sys (.trace r s.core.phys.trcring)) s
  s.mapC fun c => { c with phys := { c.phys with traceQ := [] } }

/-- A map update goes on to the next of these routers, as a Skim packet on SYS (R323, R337). -/
def State.passUpdate (s : State) (src : CoreId) (num : Nat) (c : CoreId) (site : Site) (k : Option Nat) (path : List CoreId) : State :=
  match path with
  | [] => s
  | r :: rs => s.sendAs src r .sys (.mapUpd num c site k rs)

/-- Packets that came over RELOC to a core's site and were not delivered before it left again, having failed there, are at that site as
those sent to it are, and go on before them (R338, R343). -/
def State.returnForwarded (s : State) (old : Site) : State :=
  let mine (k : Packet) : Bool := k.fwd && k.dst = s.core.id && k.site = old
  { s with net := ((s.net.filter mine).map fun k => { k with fwd := false }) ++ s.net.filter fun k => !mine k }

/-- The residency of the focused core stands at a new site: what belongs to a physical core stays behind (R15, R230, R328), the
map changes, and the old site forwards (R337, R338). -/
def State.relocate (s : State) (site : Site) : State :=
  let s := s.flushTrace
  let c := s.core
  let old := c.site
  let there := s.dev.idlePhys site
  let left := { c.phys with
    inv := []
    fetches := []
    haltPending := none
    haltBy := none
    haltRec := none }
  let rs := s.recipients
  let num := s.dev.moves
  let entry : Forward :=
    { core := c.id
      old := old
      num := num
      updates := rs
      left := rs.flatMap fun r => packetNets.map fun n => (r, n)
      held := rs.flatMap fun r => packetNets.map fun n => (r, n) }
  let exc := setException s.dev.part c.id site s.dev.part.exc
  let s := s.mapD fun d => { d with
    idle := (old, left) :: d.idle.filter fun p => p.1 ≠ site && p.1 ≠ old
    part := { d.part with exc := exc }
    moves := num + 1
    forwards := d.forwards ++ [entry] }
  let s := s.returnForwarded old
  let s := s.passUpdate .control num c.id site ((exc.find? fun e => e.names c.id).map Exc.k) rs
  let s := s.mapC fun c => { c with
    site := site
    phys := there.dropInv
    moving := .no }
  (s.retarget (quadOf old)).retarget (quadOf site)

/-- MOVE_STREAM_COMPLETE: steps 3 to 6, once the target's quad is on (R355). -/
def execMoveStreamComplete (s : State) : Out :=
  match s.core.moving with
  | .streaming site _ =>
    -- the stream reads every sector: one with an uncorrectable error is a machine check (R282)
    if s.core.badSecs ≠ [] then .next (s.mapC fun c => { c with checkDue := true })
    else .next (s.reachPort site (State.relocate · site) id)
  | .no | .requested _ _ | .draining _ _ => .next s

/-! ### Map updates, markers and forwarding (R337 to R339) -/

/-- The forwarding entry of a logical core. -/
def Device.forward (d : Device) (c : CoreId) : Option Forward := d.forwards.find? fun f => f.core = c

/-- A changed forwarding entry; it retires once nothing is expected of it. -/
def Device.setForward (d : Device) (f : Forward) : Device :=
  { d with forwards := (d.forwards.map fun g => if g.core = f.core then f else g).filter fun g =>
      !(g.updates.isEmpty && g.left.isEmpty && g.held.isEmpty) }

/-- The entry that a map update sets, if it sets one (R337). -/
def updateEntry (c : CoreId) (site : Site) (k : Option Nat) : List Exc :=
  (k.map fun k => (⟨k, (coreXY c).1, (coreXY c).2, site⟩ : Exc)).toList

def Body.isUpdateOf (at_ : CoreId) : Body → Bool
  | .mapUpd _ c _ _ _ => c = at_
  | _ => false

/-- The map update of core `at_` that has reached the focused router, and the network without it: in the order of its flow (R322, R323),
or, past a failed core whose other packets wait, as the router takes it (R340). -/
def State.arrivedUpdate (s : State) (at_ : CoreId) : Option (Packet × List Packet) :=
  let here (k : Packet) : Bool := k.dst = s.core.id && k.net = .sys && k.site = s.core.site && k.body.isUpdateOf at_
  if s.dev.bad.contains s.core.site then takeFirst here s.net
  else (s.net.find? here).bind fun k => (s.recvPacket k.src .sys (Body.isUpdateOf at_)).map fun r => (r.1, r.2.net)

/-- A marker leaves the focused router for the old site of a move (R337). -/
def State.sendMarker (s : State) (at_ : CoreId) (old : Site) (n : Net) : State :=
  { s with net := s.net ++ [⟨s.core.id, at_, n, old, false, .marker at_, [s.core.site]⟩] }

/-- MAP_UPDATE at the focused router (R337): its copy takes the update of core `at_`, a marker leaves for the old site on each
network, ahead of any packet that the new map translates, and the update goes on to the next router. -/
def execMapUpdate (at_ : CoreId) (s : State) : Out :=
  match s.arrivedUpdate at_ with
  | some (⟨_, _, _, _, _, .mapUpd num c site k path, _⟩, rest) =>
    let s := { s with net := rest }
    let s := s.mapC fun x => { x with exc := (x.exc.filter fun e => !e.names c) ++ updateEntry c site k }
    let s := match s.dev.forward c with
      | some f =>
        let me := s.core.id
        (packetNets.foldl (fun (s : State) n => s.sendMarker c f.old n) s).mapD fun d => d.setForward { f with updates := f.updates.erase me }
      | none => s
    .next (s.passUpdate s.core.id num c site k path)
  | _ => .next s

/-- The oldest packet of each flow from router `src` at an old site that `p` admits, and the network without it. -/
def oldestAt (src dst : CoreId) (site : Site) (p : Packet → Bool) (seen : List Net) : List Packet → Option (Packet × List Packet)
  | [] => none
  | k :: ks =>
    let here : Bool := ingress k.src site = src && k.dst = dst && k.site = site && !k.fwd && !seen.contains k.net
    if here && p k then some (k, ks)
    else (oldestAt src dst site p (if here then k.net :: seen else seen) ks).map fun r => (r.1, k :: r.2)

def Packet.isMarker (k : Packet) : Bool := match k.body with | .marker _ => true | _ => false

/-- A packet goes on from the old site over RELOC, behind those that went before it. -/
def State.overReloc (s : State) (k : Packet) (rest : List Packet) : State :=
  { s with net := rest ++ [{ k with site := s.core.site, fwd := true, path := k.path ++ [k.site] }] }

/-- MARKER_ARRIVAL (R338): a marker of `src` has reached the old site of the focused core, behind all that it sent there on its
network, and is forwarded; with the last one the old site is free. -/
def execMarkerArrival (src : CoreId) (s : State) : Out :=
  match s.dev.forward s.core.id with
  | none => .next s
  | some f =>
    match oldestAt src f.core f.old Packet.isMarker [] s.net with
    | none => .next s
    | some (k, rest) =>
      .next ((s.overReloc k rest).mapD fun d => d.setForward { f with left := f.left.erase (src, k.net) })

/-- The first packet from `src` that has come over RELOC, if it is a marker and the first of all (R339), and the network without it. A
failed core's packets wait for its rebuild, and its markers pass them (R340). -/
def State.relocMarker (s : State) (src : CoreId) : Option (Packet × List Packet) :=
  let mine (x : Packet) : Bool := ingress x.src s.core.site = src && x.dst = s.core.id && x.fwd
  match takeFirst (fun k => mine k && k.isMarker) s.net with
  | some (k, rest) =>
    if s.relocFirst k || s.dev.bad.contains s.core.site then some (k, rest) else none
  | none => none

/-- RELOC_ARRIVAL (R338, R339): a marker that comes over RELOC releases the direct packets of its source on its network; else a
packet that waits at the old site comes over RELOC. -/
def execRelocArrival (src : CoreId) (s : State) : Out :=
  match s.dev.forward s.core.id with
  | none => .next s
  | some f =>
    match s.relocMarker src with
    | some (k, rest) =>
      .next (({ s with net := rest } : State).mapD fun d => d.setForward { f with held := f.held.erase (src, k.net) })
    | none =>
      match oldestAt src f.core f.old (fun k => !k.isMarker) [] s.net with
      | some (k, rest) => .next (s.overReloc k rest)
      | none => .next s

/-! ### The Float and thermal moves (R342, R352) -/

/-- Hotter first; the lower physical row, then column, first among equals. -/
def State.hotter (s : State) (a b : Core) : Bool :=
  let ta := s.tempAt a.site
  let tb := s.tempAt b.site
  decide (tb < ta) || (ta = tb && (decide (a.site.py.toNat < b.site.py.toNat)
    || (a.site.py = b.site.py && decide (a.site.px.toNat < b.site.px.toNat))))

def insertHot (s : State) (c : Core) : List Core → List Core
  | [] => [c]
  | d :: ds => if s.hotter c d then c :: d :: ds else d :: insertHot s c ds

/-- R341 lets this core move now. -/
def State.mayMove (s : State) (c : Core) : Bool :=
  !c.inMove && !s.forwarding c.id && decide (s.movesOn (dieOf c.site) < 8) && s.excRoom c.id

/-- The periodic moves of one die, with the sites already chosen in this period. -/
def floatMoves (die margin : Nat) : List Core → List Site → State → State
  | [], _, s => s
  | c :: cs, taken, s =>
    match s.coolest die taken with
    | none => s
    | some cool =>
      if s.mayMove c && decide (s.tempAt cool + 4 * margin ≤ s.tempAt c.site)
          && decide (s.movesOn die + taken.length < 8) then
        floatMoves die margin cs (cool :: taken) (s.askMove c.id cool 0#2)
      else floatMoves die margin cs taken s

/-- FLOAT_PERIOD. -/
def execFloatPeriod (die : BitVec 3) (s : State) : Out :=
  let n := die.toNat
  let d := s.dev.dieSt n
  let w := d.floatctl
  if !bit w 0 || decide (s.dev.time < d.floatLast + 250000 * flPeriod w) then .next s
  else
    let s := s.mapD fun x => x.onDie n fun d => { d with floatLast := s.dev.time }
    let hot := (s.cores.filter fun c => c.isMesh && dieOf c.site = n).foldl (fun l c => insertHot s c l) []
    .next (floatMoves n (flMargin w) (hot.take (field w 16 4)) [] s)

/-- THERMAL_EMERGENCY: the residency moves at once, or with no pool site or exception entry its quad is throttled. -/
def execThermalEmergency (site : Site) (t : BitVec 10) (s : State) : Out :=
  let s := s.measured site t
  if t.toNat < thLim (s.dev.dieSt (dieOf site)) then .next s
  else
    let throttle : State := s.lowerCap (quadOf site)
    match s.cores.find? (fun c => c.onSite site), s.coolest (dieOf site) [] with
    | some c, some cool => if s.excRoom c.id then .next (s.askMove c.id cool 1#2) else .next throttle
    | some _, none => .next throttle
    | none, _ => .next s

/-! ### Machine checks and quarantine (R282, R283, R343) -/

/-- The running firing of the failed core ends, and a notice of kind 6 goes to its launch's sink (R283, Table 15.5). With no firing
running there is no launch whose sink would take one, and none is sent (DESIGN CHOICE, log 52). -/
def State.failFiring (s : State) (syndrome : BitVec 64) (pcValid : Bool) : State :=
  let c := s.core
  if !c.busy then s
  else ((s.discardRegion).notice c.f.lhnd 6 0 0 (if pcValid then some c.f.pc else none) (siteWord c.site) syndrome).endFiring

/-- The CMAP column of a local column number, in a (dc, band). -/
def Partition.cmapAt (p : Partition) (dc band c : Nat) : Nat := (tget none p.cmap (512 * dc + 32 * band + c)).getD c

/-- A physical column of a band that holds no quarantined site. -/
def columnSound (bad : List Site) (dc band col : Nat) : Bool :=
  !(bad.any fun x => x.px.toNat = 34 * dc + col && x.py.toNat / 8 = band)

/-- The 32 values of a (dc, band) with every one from `c` up raised past the quarantined columns; none if a value would leave
the die. `low` is the least column the next value may take. -/
def raiseColumns (bad : List Site) (dc band c : Nat) : Nat → List Nat → Option (List Nat)
  | _, [] => some []
  | low, v :: vs =>
    if v < c then (raiseColumns bad dc band c (v + 1) vs).map fun r => v :: r
    else
      let from_ := Nat.max low (v + 1)
      match ((List.range 34).filter fun k => decide (from_ ≤ k) && columnSound bad dc band k).head? with
      | some w => (raiseColumns bad dc band c (w + 1) vs).map fun r => w :: r
      | none => none

/-- CMAP with the values of one (dc, band) replaced. -/
def Partition.setColumns (p : Partition) (dc band : Nat) (vs : List Nat) : Partition :=
  { p with cmap := ((List.range 32).zip vs).foldl (fun t q =>
      tset none t (512 * dc + 32 * band + q.1) (if q.2 = q.1 then none else some q.2)) p.cmap }

/-- Every copy of the map is rewritten: the affected cores stay translated to the sites they hold until they move. -/
def State.pinCores (s : State) (cs : List Core) : State :=
  let pins := ((List.range cs.length).zip cs).map fun q : Nat × Core =>
    (⟨64 + q.1, (coreXY q.2.id).1, (coreXY q.2.id).2, q.2.site⟩ : Exc)
  let put (l : List Exc) : List Exc := (l.filter fun e => !(cs.any fun c => e.names c.id)) ++ pins
  (s.onAll fun c => { c with exc := put c.exc }).mapD fun d => { d with part := { d.part with exc := put d.part.exc } }

/-- Residencies that exception entries placed at columns that a shift claims go to pool sites (R343, step 1). -/
def clearColumns (die : Nat) (claimed : Site → Bool) : List Core → List Site → State → State
  | [], _, s => s
  | c :: cs, taken, s =>
    if claimed c.site then
      match s.coolest die (taken ++ (dieSites die).filter claimed) with
      | some x => clearColumns die claimed cs (x :: taken) (s.askMove c.id x 3#2)
      | none => clearColumns die claimed cs taken s
    else clearColumns die claimed cs taken s

def insertRight (c : Core) : List Core → List Core
  | [] => [c]
  | d :: ds => if decide (d.site.px.toNat < c.site.px.toNat) then c :: d :: ds else d :: insertRight c ds

/-- The map's copies keep the core at the site it holds until a shift has moved it. -/
def Core.pinned (p : Partition) (c : Core) : Bool := p.exc.any fun e => e.names c.id && decide (64 ≤ e.k)

/-- The shift past a failed site, with the band's new values: other residencies make room, CMAP is rewritten, and each affected
core is asked to move to its next column, the highest first; so is one that an earlier shift of the band has still to move. -/
def State.shiftBand (s : State) (site : Site) (vs : List Nat) : State :=
  let dc := site.px.toNat / 34
  let band := site.py.toNat / 8
  let p := s.dev.part
  let q := p.setColumns dc band vs
  let inBand (x : Site) : Bool := x.px.toNat / 34 = dc && x.py.toNat / 8 = band
  let byMap := s.cores.filter fun c => c.isMesh && inBand c.site && (p.homeSite c.id = c.site || c.pinned p) && q.homeSite c.id ≠ c.site
  let others := s.cores.filter fun c => c.isMesh && inBand c.site && p.homeSite c.id ≠ c.site && !c.pinned p
  let claimed (x : Site) : Bool := inBand x && decide (site.px.toNat ≤ x.px.toNat) && vs.contains (x.px.toNat - 34 * dc)
  let s := clearColumns (dieOf site) claimed others [] s
  let s := (s.mapD fun d => { d with part := q }).pinCores byMap
  (byMap.foldl (fun l c => insertRight c l) []).foldl (fun s c =>
    if s.dev.bad.contains c.site then s else s.askMove c.id (s.dev.part.homeSite c.id) 3#2) s

/-- The failed core has a column of its own to be rebuilt at: the shift has given it one that has not failed since (R343). -/
def State.hasColumn (s : State) (c : Core) : Bool := c.pinned s.dev.part && !s.dev.bad.contains (s.dev.part.homeSite c.id)

/-- The die's pool has a site for each of its failed cores that the shifts leave without a column. -/
def State.poolServes (s : State) (die : Nat) : Bool :=
  let need := s.cores.filter fun c => c.isMesh && dieOf c.site = die && s.dev.bad.contains c.site && !s.hasColumn c
  decide (need.length ≤ ((dieSites die).filter s.inPool).length) && need.all fun c => s.excRoom c.id

/-- The job is cancelled because a core cannot be rebuilt, or a core that serves it failed; the host is told the site. -/
def State.loseCore (s : State) (site : Site) : State :=
  (s.hand (.cancel jobHandle s.core.id)).mapD fun d => d.tellHost (siteWord site)

/-- A machine check of the focused core (R282, R283, R343). The low half-word of a mesh core's syndrome is for the count that its rebuild
finds (R344). -/
def State.machineCheck (syndrome : BitVec 64) (pcValid : Bool) (s : State) : State :=
  let site := s.core.site
  match s.core.id with
  | .mesh _ _ =>
    if s.dev.bad.contains site then s
    else
      let s := (s.failFiring (syndrome &&& ~~~0xFFFF#64) pcValid).mapD fun d => { d with bad := d.bad ++ [site] }
      let p := s.dev.part
      let dc := site.px.toNat / 34
      let band := site.py.toNat / 8
      let c := site.px.toNat % 34
      let old := (List.range 32).map (p.cmapAt dc band)
      match (if old.contains c then raiseColumns s.dev.bad dc band c 0 old else none) with
      | some vs => s.shiftBand site vs
      | none =>
        if s.poolServes (dieOf site) then s else s.loseCore site
  | .memory _ _ | .pager _ _ => (s.failFiring syndrome pcValid).loseCore site
  | .control | .far _ _ _ | .port _ => s

/-- MACHINE_CHECK. -/
def execMachineCheck (syndrome : BitVec 64) (pcValid : Bool) (s : State) : Out := .next (s.machineCheck syndrome pcValid)

/-- Machine checks that a read has caused strike as the step ends, under a syndrome that the spec leaves open (R282, R283). -/
def State.strike (s : State) : State :=
  ((s.cores.filter Core.checkDue).map Core.id).foldl (fun s c => s.at c fun s =>
    let (v, s) := (s.mapC fun c => { c with checkDue := false }).free
    s.machineCheck v false) s

/-- STENCIL_FLIT_SEND. -/
def execStencilFlitSend (slot : Nat) (s : State) : Out := .next (s.flitSend slot)

/-! ### REBUILD (R344) -/

/-- A lost sector reads as zero, and its panel is GENERAL with its format and its special bit as they were (R236). -/
def Mems.loseSector (m : Mems) (key : Nat) : Mems :=
  let start := key / 32 * 32
  { m with
    data := Memory.write m.data start (List.replicate 32 0#8)
    dir := match panelOf start with
      | some k => tset 0#32 m.dir k (dirEntry classGeneral (dirFmt (tget 0#32 m.dir k)) (dirSpc (tget 0#32 m.dir k)) 0 0)
      | none => m.dir }

/-- A lost value from here on stands for CB, window, binding, grant or run-queue state. -/
def tablesKey : Nat := 3 * 131072

/-- The tables that a lost value of theirs empties: CB, window, binding and grant tables and the run queue (R344). -/
def Core.loseTables (c : Core) : Core :=
  { c with
    tab := { c.tab with
      cb := Tables.reset.cb, win := Tables.reset.win, bind := Tables.reset.bind, chains := [], grants := [], lastActor := 0
      watch := [], binders := [] }
    q := { c.q with parked := [] } }

/-- The residency's tables are empty, and its cohort is cancelled. -/
def State.emptyTables (s : State) : State :=
  match s.core.cohort with
  | none => s.mapC Core.loseTables
  | some k =>
    let ids := (s.cores.filter (Core.holdsCohort k.serial k.lin)).map Core.id
    let s := ids.foldl (fun s c => s.at c State.cancelCore) s
    let s := s.onSeq fun q => q.onLaunch k.serial fun l => { l with status := 1 }
    s.mapC Core.loseTables

/-- The handler set of the core's cohort. -/
def State.cohortSet (s : State) : HSet :=
  match s.core.cohort with
  | some k => s.dev.image.sets.getD (lrSet k.rcd) ⟨false, [], []⟩
  | none => ⟨false, [], []⟩

/-- Where the failed core may be rebuilt: the site that the rewritten CMAP gives it, unless that has failed too, else a pool site of its
die (R343). -/
def State.rebuildOk (s : State) (site : Site) : Bool :=
  if s.hasColumn s.core then s.dev.part.homeSite s.core.id = site && s.siteFree site
  else dieOf site = dieOf s.core.site && s.inPool site && s.excRoom s.core.id

/-- The kind-6 notice of the failed core, which has not left it, takes the count of lost sectors (R344). -/
def countLost (site : Site) (n : Nat) (x : CoreId × Word × List Word) : CoreId × Word × List Word :=
  match x.2.2 with
  | [a1, a2, a3, a4] =>
    if field a1 0 8 = 6 && a3 = siteWord site then (x.1, x.2.1, [a1, a2, a3, (a4 &&& ~~~0xFFFF#64) ||| BitVec.ofNat 64 (Nat.min n 0xFFFF)]) else x
  | _ => x

/-- REBUILD: the residency of the focused core, whose site is quarantined, stands at its new site. `lost` names the sectors
that could not be corrected, beside those that an error has struck already. -/
def execRebuild (site : Site) (lost : List Nat) (s : State) : Out :=
  if !s.core.isMesh || !s.dev.bad.contains s.core.site || s.moveWaits || !s.rebuildOk site then .next s
  else
    let set := s.cohortSet
    let sectors := ((lost.filter fun k => decide (k < tablesKey)).map (fun k => k / 32 * 32) ++ s.core.badSecs.map (32 * ·)).dedup
    let s := s.mapC fun c => { c with
      mem := sectors.foldl Mems.loseSector (c.mem.loadSet set)
      badSecs := []
      q := { c.q with notices := c.q.notices.map (countLost c.site sectors.length) } }
    let s := if lost.any fun k => decide (tablesKey ≤ k) then s.emptyTables else s
    .next (s.reachPort site (State.relocate · site) id)

end Sys2Proof.Machine
end

