-- ==== Sys2Proof/Machine/Debug.lean ====
section
/-!
DEFINITION. Sys2Proof/Machine/Debug.lean: halting (R158, R357 to R359), the dump limit (R360) and the way of trace records to
their ring (R361).
-/
namespace Sys2Proof.Machine

/-! ### Halting (R358) -/

/-- Requests to move the focused core that have not taken effect are discarded, and the move service is told (R335, R359). -/
def State.dropMoves (s : State) : State :=
  let asked := (match s.core.moving with
    | .requested site _ => [site]
    | .no | .draining _ _ | .streaming _ _ => []) ++ s.core.moveHeld.map Prod.fst
  let s := asked.foldl (fun s site => s.send .control .sys (.moveRefused site)) s
  s.mapC fun c => { c with
    moveHeld := []
    moving := match c.moving with
      | .requested _ _ => .no
      | m => m }

/-- A halt takes effect at the boundary where the focused core stands: its firing is kept as a record, a kind-6 record is made, the
members of its halt group are told, and requests to move it are discarded. -/
def State.takeHalt (s : State) (code : Nat) : State :=
  let pc := if s.core.busy then s.core.f.pc else 0
  let kept := if s.core.busy then some s.core.f.serial else none
  let s := s.freeze
  let s := s.mapC fun c => { c with phys := { c.phys with
    halted := true
    haltPending := none
    haltRec := kept
    haltAt := s.dev.time } }
  let s := s.trace 6 (code % 2 ^ 16) (BitVec.ofNat 64 (pc % 2 ^ 15))
  (s.tellGroup s.core.phys.group).dropMoves

def Body.isHaltGroup : Body → Bool
  | .haltGroup _ => true
  | _ => false

/-- HALT_REQUEST (R158): the core that HALT names. -/
def execHaltRequest (src : CoreId) (s : State) : Out :=
  match s.recv src .sys (fun b => b = .halt) with
  | some (_, t) => .next (t.mapC (Core.askHalt 0))
  | none => .next s

/-- HALT_GROUP_MESSAGE (R358). -/
def execHaltGroupMessage (src : CoreId) (s : State) : Out :=
  match s.recv src .sys Body.isHaltGroup with
  | some (_, t) => .next (t.mapC (Core.askHalt 3))
  | none => .next s

/-! ### Dumps (R360) -/

def dumpLimit (w : Word) : Nat := field w 16 16

/-- DUMP_LIMIT_EXPIRY: with no debugger attached, HOLD clears and the core is released. -/
def execDumpLimitExpiry (s : State) : Out :=
  let p := s.core.phys
  if !bit p.dump 0 || bit p.dump 1 || decide (s.dev.time < p.holdAt + 1000000 * dumpLimit p.dump) then .next s
  else
    let s := s.mapC fun c => { c with phys := { c.phys with
      dump := c.phys.dump &&& ~~~1#64
      haltPending := if c.phys.haltPending = some 4 then none else c.phys.haltPending } }
    .next s.releaseHalt

/-- The firing records of a core in the order of Table 15.6: the parked firings, and the running firing. -/
def Core.records (c : Core) : List Firing := c.q.parked.map Parked.f ++ (if c.busy then [c.f] else [])

/-- The debug service reads eight bytes of a held core: its buffers, its directory, or a firing record, whose own layout the spec does not
give, so that its bytes are free and the record is answered as it is (DESIGN CHOICE, log 94). It writes nothing on the core. -/
def State.debugRead (s : State) (c : CoreId) (at_ : Nat) : State :=
  match s.coreAt c with
  | none => s
  | some k =>
    let inside (lo n : Nat) : Bool := decide (lo ≤ at_) && decide (at_ + 8 ≤ lo + n)
    if !(bit k.phys.dump 0 && k.phys.halted) then s
    else if inside 0x1000 0x40000 || inside 0x49800 0x700 then
      s.mapD fun d => { d with
        debugData := recordOf 64 ((k.mem.context 0).read at_ 8)
        debugRec := none }
    else if inside 0x4C000 0x2400 then
      let (v, s) := s.free
      s.mapD fun d => { d with
        debugData := v
        debugRec := k.records[(at_ - 0x4C000) / 1024]? }
    else s

/-! ### Trace records (R361) -/

/-- TRACE_QUEUE_SEND: the oldest record leaves for the control cluster's collector. -/
def execTraceQueueSend (s : State) : Out :=
  match s.core.phys.traceQ with
  | r :: rest =>
    let s := s.send .control .sys (.trace r s.core.phys.trcring)
    .next (s.mapC fun c => { c with phys := { c.phys with traceQ := rest } })
  | [] => .next s

/-- The frame of a ring, and its size in bytes (Table 24.2). -/
def ringFrame (w : Word) : Nat := field w 12 40
def ringBytes (w : Word) : Nat := 4096 * (field w 0 8 + 1)

/-- A record goes to its ring, over the oldest one once the ring is full; the channels refuse it in a locked range (R291). -/
def Device.writeTrace (d : Device) (r : BitVec 256) (ring : Word) : Device :=
  let n := tget 0 d.ringAt (ringFrame ring)
  let at_ := 4096 * ringFrame ring + n % ringBytes ring
  let d := if lockedMeets d.boot.locked at_ 32 then d else d.physWrite false at_ (natToBytes 32 r.toNat)
  { d with ringAt := tset 0 d.ringAt (ringFrame ring) (n + 32) }

def Body.isTrace : Body → Bool
  | .trace _ _ => true
  | _ => false

/-- TRACE_RECORD: the collector takes the oldest record that has arrived. -/
def execTraceRecord (s : State) : Out :=
  match (s.net.filter fun k => k.dst = s.core.id && k.body.isTrace).findSome? fun k => s.recv k.src .sys Body.isTrace with
  | some (.trace r ring, t) => .next (t.mapD fun d => d.writeTrace r ring)
  | _ => .next s

end Sys2Proof.Machine
end

