-- ==== Sys2Proof/Machine/Sha3.lean ====
section
/-!
DEFINITION. Sys2Proof/Machine/Sha3.lean: SHA3-512 (FIPS 202), which the boot measurements and quotes use (R364, R366, R368).
-/
namespace Sys2Proof.Machine

/-- The 25 keccakLanes of Keccak-f[1600], lane (x, y) at index x + 5y. -/
abbrev Keccak := List Word

def Keccak.lane (a : Keccak) (x y : Nat) : Word := a.getD (x % 5 + 5 * (y % 5)) 0#64

def keccakLanes (g : Nat → Nat → Word) : Keccak := (List.range 25).map fun k => g (k % 5) (k / 5)

/-- θ: each lane takes the parities of two neighbouring columns. -/
def keccakTheta (a : Keccak) : Keccak :=
  let col (x : Nat) : Word := a.lane x 0 ^^^ a.lane x 1 ^^^ a.lane x 2 ^^^ a.lane x 3 ^^^ a.lane x 4
  keccakLanes fun x y => a.lane x y ^^^ col (x + 4) ^^^ (col (x + 1)).rotateLeft 1

/-- Rotation offsets of ρ, lane (x, y) at index x + 5y. -/
def rhoOffsets : List Nat :=
  [0, 1, 62, 28, 27, 36, 44, 6, 55, 20, 3, 10, 43, 25, 39, 41, 45, 15, 21, 8, 18, 2, 61, 56, 14]

/-- ρ and π: lane (x, y) of the result is lane (x + 3y, x) rotated. -/
def keccakRhoPi (a : Keccak) : Keccak :=
  keccakLanes fun x y =>
    let u := (x + 3 * y) % 5
    (a.lane u x).rotateLeft (rhoOffsets.getD (u + 5 * x) 0)

/-- χ. -/
def keccakChi (a : Keccak) : Keccak := keccakLanes fun x y => a.lane x y ^^^ (~~~(a.lane (x + 1) y) &&& a.lane (x + 2) y)

/-- Round constants of ι. -/
def iotaConstants : List Word :=
  [0x0000000000000001#64, 0x0000000000008082#64, 0x800000000000808A#64, 0x8000000080008000#64, 0x000000000000808B#64,
   0x0000000080000001#64, 0x8000000080008081#64, 0x8000000000008009#64, 0x000000000000008A#64, 0x0000000000000088#64,
   0x0000000080008009#64, 0x000000008000000A#64, 0x000000008000808B#64, 0x800000000000008B#64, 0x8000000000008089#64,
   0x8000000000008003#64, 0x8000000000008002#64, 0x8000000000000080#64, 0x000000000000800A#64, 0x800000008000000A#64,
   0x8000000080008081#64, 0x8000000000008080#64, 0x0000000080000001#64, 0x8000000080008008#64]

def keccakRound (a : Keccak) (rc : Word) : Keccak := (keccakChi (keccakRhoPi (keccakTheta a))).modify 0 fun w => w ^^^ rc

def keccakF (a : Keccak) : Keccak := iotaConstants.foldl keccakRound a

/-- Eight bytes as a lane, low byte first. -/
def sha3Lane (bs : List Byte) : Word := BitVec.ofNat 64 (bytesToNat bs)

/-- Absorb one block of 72 bytes. -/
def absorb (a : Keccak) (block : List Byte) : Keccak :=
  keccakF ((List.range 25).map fun k => a.getD k 0#64 ^^^ (if k < 9 then sha3Lane ((block.drop (8 * k)).take 8) else 0#64))

/-- Absorb a padded message; `n` bounds its blocks. -/
def absorbAll : Nat → Keccak → List Byte → Keccak
  | 0, a, _ => a
  | n + 1, a, bs => if bs.isEmpty then a else absorbAll n (absorb a (bs.take 72)) (bs.drop 72)

/-- The padding of SHA3: 0x06, zeros, and 0x80 in the last byte of the block. -/
def sha3Pad (n : Nat) : List Byte :=
  let k := 72 - n % 72
  if k = 1 then [0x86#8] else 0x06#8 :: (List.replicate (k - 2) 0#8 ++ [0x80#8])

/-- SHA3-512. -/
def sha3 (bs : List Byte) : List Byte :=
  let padded := bs ++ sha3Pad bs.length
  let a := absorbAll (padded.length / 72) (List.replicate 25 0#64) padded
  (a.take 8).flatMap fun w => natToBytes 8 w.toNat

end Sys2Proof.Machine
end

