-- ==== Sys2Proof/Machine/Boot.lean ====
section
/-!
DEFINITION. Sys2Proof/Machine/Boot.lean: reset and boot (R364, R365), measurements and quotes (R366, R368, R369), the host's
window (R367), and the creation of a partition with the job it runs (R16, R25, R43, R332, R333, R370).
-/
namespace Sys2Proof.Machine

/-! ### BOOTSTAT (Table 25.3) -/

def bsStage (w : Word) : Nat := field w 0 8
def bsQst (w : Word) : Nat := field w 32 8

def State.onBoot (s : State) (g : Boot → Boot) : State := s.mapD fun d => { d with boot := g d.boot }

def Boot.setStage (b : Boot) (n : Nat) : Boot := { b with bootstat := setField b.bootstat 0 8 n }
def Boot.setQst (b : Boot) (n : Nat) : Boot := { b with bootstat := setField b.bootstat 32 8 n }

/-- The halt row of Table 25.1. -/
def Boot.halt (b : Boot) (err : Nat) : Boot := { (b.setStage 0xFF) with
  bootstat := setField (b.setStage 0xFF).bootstat 24 8 err
  halted := true }

/-- Step 5 has been reached: every core is out of reset. -/
def State.booted (s : State) : Bool := bsStage s.dev.boot.bootstat = 4

/-! ### DEVICE_RESET -/

/-- DEVICE_RESET (R364, R366): what lies outside the device and in its memory stays (log 4). -/
def execDeviceReset (s : State) : Out :=
  .next { State.reset with
    agenda := s.agenda
    dev := { Device.reset with
      ext := s.dev.ext
      host := s.dev.host
      badExt := s.dev.badExt
      freeIdx := s.dev.freeIdx } }

/-! ### Images (R364) -/

def headerWord (i : BootImage) (k : Nat) : Nat := bytesToNat ((i.header.drop k).take 4)

/-- SVN of an image. -/
def svnOf (i : BootImage) : Nat := headerWord i 4

def digestOf (i : BootImage) : List Byte := (i.header.drop 64).take 64

/-- The header has the layout of R364 and the signature has its length. -/
def imageFormed (i : BootImage) : Bool :=
  i.header.length = 128 && headerWord i 0 = 0x4C4F5349 && bytesToNat ((i.header.drop 8).take 8) = i.body.length
    && ((i.header.drop 16).take 48).all (fun b => b = 0#8) && i.sig.length = 4627

/-- The error of an image under a public key: 1 signature, 2 digest. -/
def imageError (key : List Byte) (i : BootImage) : Option Nat :=
  if !imageFormed i || !Config.verify key (sha3 i.header) i.sig then some 1
  else if sha3 i.body ≠ digestOf i then some 2
  else none

def imageSize (i : BootImage) : Nat := i.header.length + i.body.length + i.sig.length

/-! ### Measurements (R366) -/

def bytes512 (v : BitVec 512) : List Byte := natToBytes 64 v.toNat

/-- M := SHA3-512(M ‖ d). -/
def Boot.extend (b : Boot) (k : Nat) (digest : List Byte) : Boot :=
  { b with meas := b.meas.setIfInBounds k (recordOf 512 (sha3 (bytes512 (b.meas.getD k 0#512) ++ digest))) }

/-- The digest of the submitted job image, which the root monitor reads from device memory itself (R370, step 2). -/
def Device.imageDigest (d : Device) : BitVec 512 := recordOf 512 (sha3 (d.ext.read d.imageAt.1 d.imageAt.2))

/-- MEAS_EXTEND (R366, R370, steps 2 and 4): MEAS3 takes the digest of the job image that a start is waiting for, once, and the entry
launch is handed over as launch serial 0 of phase 0. -/
def execMeasExtend (digest : BitVec 512) (s : State) : Out :=
  if s.booted && s.dev.measDue && digest = s.dev.imageDigest then
    .next (s.mapD fun d => { d with
      boot := d.boot.extend 3 (bytes512 digest)
      measDue := false
      seq := { d.seq with inbox := d.seq.inbox ++ match d.image.launches[d.image.entry]? with
        | some r => [.launch 0 r 0#64 0#8 0#8 none]
        | none => [] } })
  else .next s

/-! ### The steps of Table 25.1 -/

/-- Step 1. -/
def Boot.rom (b : Boot) (i : BootImage) : Boot :=
  if !i.readable || decide (65536 < imageSize i) then b.halt 1
  else match imageError Config.rootKey i with
    | some e => b.halt e
    | none => { (b.extend 0 (digestOf i)).setStage 1 with key := Config.keyIn i.body }

/-- Page-table entries are written to device memory. -/
def writePtes (m : Memory) (es : List (Nat × Word)) : Memory :=
  es.foldl (fun m e => m.write e.1 (natToBytes 8 e.2.toNat)) m

/-- Step 2: the locked ranges, and the entries that the root monitor has built, their A and D clear. -/
def State.lockRanges (s : State) : State :=
  if 16 < Config.lockedRanges.length then s.onBoot fun b => b.halt 5
  else s.mapD fun d => { d with
    boot := { d.boot.setStage 2 with locked := Config.lockedRanges }
    ext := writePtes d.ext (Config.rootTables.map fun e => (e.1, e.2 &&& ~~~0x60#64)) }

/-- The control kernel's page tables, KRES set in every entry (step 4). -/
def Device.kernelTables (d : Device) : Device :=
  { d with ext := writePtes d.ext (Config.kernelTables.map fun e => (e.1, e.2 ||| 0x10#64)) }

/-- Code of system software in a core: in the store of its own, and in the I-store of a pager core, which holds no job's set (log 89). -/
def Core.loadCode (m : Mems) (c : Core) : Core :=
  { c with
    sysMem := m
    mem := if c.isPager then { c.mem with istore := m.istore, noStart := m.noStart } else c.mem }

/-- System software that every core runs in S: its handler table and its code (R17, R146; log 89). -/
def State.loadSystem (s : State) (table : Table (BitVec 128)) (code : List Parcel) : State :=
  let m := Mems.reset.loadSet ⟨false, code, table⟩
  (s.mapD fun d => { d with
    sysTable := table
    sysCode := m }).onAll (Core.loadCode m)

/-- Steps 3 and 4 read an image from the drive on root port 0, or on port 1. -/
def Boot.fromDrive (b : Boot) (i : BootImage) (k : Nat) (next : Boot → Boot) : Boot :=
  if !i.readable then
    if b.port1 then b.halt 4 else { b with port1 := true }
  else match imageError b.key i with
    | some e => b.halt e
    | none => if svnOf i < Config.rollback then b.halt 3 else next (b.extend k (digestOf i))

/-- Step 3 once its image is accepted. -/
def Boot.kernelIn (b : Boot) (i : BootImage) : Boot :=
  { (b.setStage 3) with
    bootstat := setField (b.setStage 3).bootstat 8 16 (svnOf i)
    key := Config.keyIn i.body }

/-- Step 4: the handler image is verified and measured, its handlers go to every core, and the kernel's page tables are written. -/
def State.handlerImage (s : State) (i : BootImage) : State :=
  let s := s.onBoot fun b => b.fromDrive i 2 fun b => { b with handlersIn := true }
  if s.dev.boot.handlersIn then
    (s.mapD Device.kernelTables).loadSystem ((Config.handlersIn i.body).foldl (fun t e => tset 0#128 t e.1 e.2) []) (Config.codeIn i.body)
  else s

/-- BOOT_IMAGE_LOADED: the step of Table 25.1 that reads an image runs, or boot halts. -/
def execBootImageLoaded (img : BootImage) (s : State) : Out :=
  let b := s.dev.boot
  .next (match bsStage b.bootstat with
    | 0 => s.onBoot fun b => b.rom img
    | 2 => s.onBoot fun b => b.fromDrive img 1 fun b => b.kernelIn img
    | 3 => if b.handlersIn then s else s.handlerImage img
    | _ => s)

/-- The steps that read no image: step 2, and step 5, which lets every core out of reset. -/
def State.monitor (s : State) : State :=
  let b := s.dev.boot
  match bsStage b.bootstat with
  | 1 => s.lockRanges
  | 3 => if b.handlersIn then s.onBoot fun b => b.setStage 4 else s
  | _ => s

/-! ### Quotes (R368, R369) -/

/-- NONCE_WRITE. -/
def execNonceWrite (nonce : BitVec 512) (s : State) : Out :=
  .next (s.onBoot fun b => if b.halted then b else { b with nonce := nonce })

/-- A write of QREQ. -/
def Boot.quoteAsked (b : Boot) : Boot :=
  if b.halted || bsQst b.bootstat = 1 then b
  else if bsStage b.bootstat < 3 then b.setQst 3
  else { (b.setQst 1) with quoteNonce := b.nonce }

/-- QUOTE_REQUEST. -/
def execQuoteRequest (s : State) : Out := .next (s.onBoot Boot.quoteAsked)

/-- The quote's bytes before its signature. -/
def Boot.quoted (b : Boot) : List Byte :=
  natToBytes 16 (Config.quoteHeader (bsStage b.bootstat) (field b.bootstat 8 16)).toNat ++ b.meas.toList.flatMap bytes512
    ++ bytes512 b.quoteNonce ++ sha3 Config.identityKey

/-- QUOTE_COMPLETE. -/
def execQuoteComplete (s : State) : Out :=
  .next (s.onBoot fun b =>
    if !b.halted && bsQst b.bootstat = 1 then
      { (b.setQst 2) with quote := b.quoted ++ natToBytes 4627 (Config.sign (sha3 b.quoted)).toNat }
    else b)

/-! ### BAR0 (R367, Table 25.2) -/

/-- Eight bytes of BAR0 as the host reads them: BOOTSTAT, the rings and the quote. Nothing else can be read there (log 92). -/
def Boot.bar0Read (b : Boot) (off : Nat) : Option Word :=
  if off = 0 then some b.bootstat
  else if b.halted then none
  else if decide (0x100 ≤ off) && decide (off + 8 ≤ 0x1000) then some (recordOf 64 (b.ring.read off 8))
  else if decide (0x2000 ≤ off) && decide (off + 8 ≤ 0x4000) then
    some (recordOf 64 ((List.range 8).map fun k => b.quote.getD (off - 0x2000 + k) 0#8))
  else none

/-- A nonce with eight of its bytes replaced. -/
def nonceWith (n : BitVec 512) (k : Nat) (data : Word) : BitVec 512 :=
  let bs := bytes512 n
  recordOf 512 (bs.take k ++ natToBytes 8 data.toNat ++ bs.drop (k + 8))

/-- The host writes eight bytes of BAR0. -/
def State.bar0Write (s : State) (off : Nat) (data : Word) : State :=
  s.onBoot fun b =>
    if b.halted then b
    else if off = 8 then b.quoteAsked
    else if decide (0x40 ≤ off) && decide (off + 8 ≤ 0x80) then { b with nonce := nonceWith b.nonce (off - 0x40) data }
    else if decide (0x100 ≤ off) && decide (off + 8 ≤ 0x1000) then { b with ring := b.ring.write off (natToBytes 8 data.toNat) }
    else b

/-- The host reads eight bytes of BAR0. -/
def State.bar0Read (s : State) (off : Nat) : State :=
  match s.dev.boot.bar0Read off with
  | some v => s.onBoot fun b => { b with hostData := v }
  | none =>
    let (v, s) := s.free
    s.onBoot fun b => { b with hostData := v }

/-! ### BAR2 (R367) -/

/-- HOST_BAR2_ACCESS: eight bytes at an offset of the 4 GiB window; a locked range reads all ones and takes no write. -/
def execHostBar2Access (write : Bool) (addr : Nat) (data : BitVec 64) (s : State) : Out :=
  if !s.booted || decide (2 ^ 32 < addr + 8) then .next s
  else
    let pa := s.dev.boot.bar2 + addr
    let locked := lockedMeets s.dev.boot.locked pa 8
    if write then
      if locked then .next s else .next (s.mapD fun d => d.physWrite false pa (natToBytes 8 data.toNat))
    else
      let v : Word := if locked then BitVec.allOnes 64 else recordOf 64 (s.dev.physRead false pa 8)
      .next (s.onBoot fun b => { b with hostData := v })

/-! ### PARTITION_CREATION (R16, R25, R43, R332, R333, R370) -/

def strictlyRising : List Nat → Bool
  | a :: b :: l => decide (a < b) && strictlyRising (b :: l)
  | _ => true

/-- The map image keeps the rules of R333. -/
def Partition.mapOk (p : Partition) : Bool :=
  ((List.range 64).all fun k =>
      let vs := (List.range 32).map (p.cmapAt (k / 16) (k % 16))
      strictlyRising vs && vs.all fun v => decide (v ≤ 33))
    && strictlyRising ((p.exc.map fun e => 256 * e.y.toNat + e.x.toNat).mergeSort)
    && decide (1 ≤ pextWidth p.pext) && decide (pextWidth p.pext ≤ 128)
    && decide (1 ≤ pextHeight p.pext) && decide (pextHeight p.pext ≤ 128)
    && !((List.range 128).any fun k => p.withheld.contains (p.memCore k))

/-- The image was made for a partition of this size (R42). -/
def Image.fits (i : Image) (p : Partition) : Bool := i.width = pextWidth p.pext && i.height = pextHeight p.pext

/-- The start core lies in the slot of the entry launch's first cohort, and its handler has an index entry (R370). -/
def Image.startOk (i : Image) : Bool :=
  match i.launches[i.entry]? with
  | none => false
  | some r =>
    let set := i.sets.getD (lrSet r) ⟨false, [], []⟩
    decide (i.startX.toNat < lrCW r) && decide (i.startY.toNat < lrCH r)
      && hValid (tget 0#128 set.handlers i.startH.toNat)

/-- Physical state of a site as the new partition finds it. -/
def physFrom (idle : List (Site × Phys)) (site : Site) : Phys := ((idle.find? fun p => p.1 = site).map Prod.snd).getD Phys.reset

/-- The same of a memory or pager core. -/
def borderPhys (border : List (CoreId × Phys)) (id : CoreId) : Phys := ((border.find? fun p => p.1 = id).map Prod.snd).getD Phys.reset

/-- The data blocks that name a core, or every core (R43). -/
def loadBlocks (x y : BitVec 8) : List DataBlock → Core → Core
  | [], c => c
  | b :: bs, c =>
    let here : Bool := match b.at_ with
      | none => true
      | some q => q.1 = x && q.2 = y
    loadBlocks x y bs (if here then c.store (keyOf b.buf b.off) b.bytes else c)

/-- A logical core of the new partition. -/
def Device.newMesh (d : Device) (idle : List (Site × Phys)) (x y : BitVec 8) : Core :=
  let site := d.part.phys d.part.exc x y
  let c := Core.fresh (.mesh x y) site
  loadBlocks x y d.image.blocks { c with
    phys := physFrom idle site
    exc := d.part.exc
    sysMem := d.sysCode }

/-- The `k`th memory core given to the job, under the image's memory-core set (R25), with a context of its own (R285); its core state stays
with it (R15). -/
def Device.newMemory (d : Device) (border : List (CoreId × Phys)) (k : Nat) (id : CoreId) : Core :=
  let c := Core.fresh id (d.part.siteOf d.part.exc id)
  let set := ((d.image.sets.find? HSet.memory).getD ⟨true, [], []⟩)
  { c with
    mem := c.mem.loadSet set
    tab := { c.tab with handlers := set.handlers }
    memCtx := d.part.jobTag ++ BitVec.ofNat 24 k
    phys := { borderPhys border id with ptroot := d.part.ptroot }
    exc := d.part.exc
    sysMem := d.sysCode }

def Device.newPager (d : Device) (border : List (CoreId × Phys)) (k : Nat) : Core :=
  let id : CoreId := .pager (BitVec.ofNat 3 (k / 4)) (BitVec.ofNat 2 k)
  ({ Core.fresh id (d.part.siteOf d.part.exc id) with phys := borderPhys border id } : Core).loadCode d.sysCode

/-- The ingress port of a C-die's device links, with its copy of the map (R332). -/
def Device.newPort (d : Device) (k : Nat) : Core :=
  let id : CoreId := .port (BitVec.ofNat 3 k)
  { Core.fresh id (d.part.siteOf d.part.exc id) with exc := d.part.exc }

/-- The memory cores given to the job. -/
def Device.jobMemory (d : Device) : List CoreId := ((List.range 128).map d.part.memCore).dedup

/-- The cores of the partition beside the control cluster. -/
def Device.newCores (d : Device) (idle : List (Site × Phys)) (border : List (CoreId × Phys)) : List Core :=
  let w := pextWidth d.part.pext
  ((List.range (w * pextHeight d.part.pext)).map fun k => d.newMesh idle (BitVec.ofNat 8 (k % w)) (BitVec.ofNat 8 (k / w)))
    ++ (d.jobMemory.zipIdx.map fun q => d.newMemory border q.2 q.1)
    ++ (List.range 32).map (d.newPager border) ++ (List.range 8).map d.newPort

/-- Physical state of the sites that the last partition held goes to its sites. -/
def State.idleAll (s : State) : List (Site × Phys) :=
  let held := (s.cores.filter Core.isMesh).map fun c => (c.site, c.phys.dropInv)
  held ++ s.dev.idle.filter fun p => !(held.any fun q => q.1 = p.1)

def Core.onBorder (c : Core) : Bool :=
  match c.id with
  | .memory _ _ | .pager _ _ => true
  | .mesh _ _ | .control | .far _ _ _ | .port _ => false

/-- Physical state of the memory and pager cores, which stays with them (R15). -/
def State.borderAll (s : State) : List (CoreId × Phys) :=
  let held := (s.cores.filter Core.onBorder).map fun c => (c.id, c.phys.dropInv)
  held ++ s.dev.border.filter fun p => !(held.any fun q => q.1 = p.1)

/-- The sequencer as a job begins: launch serial 0 is the entry launch's, which is handed over once the image is measured (R370). -/
def startSeq : Seq :=
  { Seq.reset with
    nextLaunch := 1
    started := true }

/-- The quad of a core of the new partition is woken where an earlier one left it gated (R355), and its operating point follows its new
cores. -/
def State.wakeQuad (s : State) (q : Quad) : State := ((s.setQuad (s.dev.quadAt q)).wake q).retarget q

/-- PARTITION_CREATION: what the control kernel has taken is refused, or the partition is made and its job's image is to be measured.
An image whose `.job` size is not the partition's is refused as R370 refuses a wrong start core: nothing is placed, and the host's news
takes the word 2 (DESIGN CHOICE, log 93). Quads that an earlier partition left empty request point 0 (R351). -/
def execPartitionCreation (s : State) : Out :=
  let d := s.dev
  if !s.booted || d.part.made || d.image.launches.isEmpty then .next s
  else if !d.part.mapOk || !d.image.startOk || !d.image.fits d.part then
    .next (s.mapD fun d => ({ d with
      image := Image.empty
      part := Partition.reset } : Device).tellHost 2#64)
  else
    let idle := s.idleAll
    let border := s.borderAll
    let new := d.newCores idle border
    let control := ((s.coreAt .control).getD (Core.fresh .control ⟨0#8, 0#8⟩))
    let d := { d with
      part := { d.part with made := true }
      seq := startSeq
      measDue := true
      seqSaved := none
      ctxs := []
      forwards := []
      moves := 0
      nextCtx := d.jobMemory.length
      idle := idle.filter fun p => !(new.any fun c => c.onSite p.1)
      border := border.filter fun p => !(new.any fun c => c.id = p.1) }
    let s : State :=
      { core := { control with exc := d.part.exc }
        others := new
        dev := d
        net := []
        agenda := s.agenda }
    let s := (d.quads.map QuadSt.q).foldl State.retarget s
    .next (((new.filter Core.isMesh).map fun c => quadOf c.site).dedup.foldl State.wakeQuad s)

end Sys2Proof.Machine
end

