-- ==== Sys2Proof/Machine/Dispatch.lean ====
section
/-!
DEFINITION. Sys2Proof/Machine/Dispatch.lean: one arm per constructor, each a direct call of its meaning.
-/
namespace Sys2Proof.Machine

def exec (i : Instr) (s : State) : Host.Outcome State Fault Refusal :=
  match i with
  | .add g b a d sp => Sys2Proof.Machine.execAdd g b a d sp s
  | .sub g b a d sp => Sys2Proof.Machine.execSub g b a d sp s
  | .mul g b a d sp => Sys2Proof.Machine.execMul g b a d sp s
  | .mulh g b a d sp => Sys2Proof.Machine.execMulh g b a d sp s
  | .mulhn g b a d sp => Sys2Proof.Machine.execMulhn g b a d sp s
  | .div g b a d sp => Sys2Proof.Machine.execDiv g b a d sp s
  | .divn g b a d sp => Sys2Proof.Machine.execDivn g b a d sp s
  | .rem g b a d sp => Sys2Proof.Machine.execRem g b a d sp s
  | .remn g b a d sp => Sys2Proof.Machine.execRemn g b a d sp s
  | .and g b a d sp => Sys2Proof.Machine.execAnd g b a d sp s
  | .or g b a d sp => Sys2Proof.Machine.execOr g b a d sp s
  | .xor g b a d sp => Sys2Proof.Machine.execXor g b a d sp s
  | .shl g b a d sp => Sys2Proof.Machine.execShl g b a d sp s
  | .shr g b a d sp => Sys2Proof.Machine.execShr g b a d sp s
  | .sha g b a d sp => Sys2Proof.Machine.execSha g b a d sp s
  | .rotl g b a d sp => Sys2Proof.Machine.execRotl g b a d sp s
  | .min g b a d sp => Sys2Proof.Machine.execMin g b a d sp s
  | .max g b a d sp => Sys2Proof.Machine.execMax g b a d sp s
  | .minn g b a d sp => Sys2Proof.Machine.execMinn g b a d sp s
  | .maxn g b a d sp => Sys2Proof.Machine.execMaxn g b a d sp s
  | .clz g a d sp => Sys2Proof.Machine.execClz g a d sp s
  | .ctz g a d sp => Sys2Proof.Machine.execCtz g a d sp s
  | .popc g a d sp => Sys2Proof.Machine.execPopc g a d sp s
  | .bswap g a d sp => Sys2Proof.Machine.execBswap g a d sp s
  | .sel p b a d sp => Sys2Proof.Machine.execSel p b a d sp s
  | .addi imm a d sp => Sys2Proof.Machine.execAddi imm a d sp s
  | .andi imm a d sp => Sys2Proof.Machine.execAndi imm a d sp s
  | .ori imm a d sp => Sys2Proof.Machine.execOri imm a d sp s
  | .xori imm a d sp => Sys2Proof.Machine.execXori imm a d sp s
  | .shli imm a d sp => Sys2Proof.Machine.execShli imm a d sp s
  | .shri imm a d sp => Sys2Proof.Machine.execShri imm a d sp s
  | .shai imm a d sp => Sys2Proof.Machine.execShai imm a d sp s
  | .cmp g c b a d sp => Sys2Proof.Machine.execCmp g c b a d sp s
  | .cmpi imm c a d sp => Sys2Proof.Machine.execCmpi imm c a d sp s
  | .plog g t b a d sp => Sys2Proof.Machine.execPlog g t b a d sp s
  | .movi imm d sp => Sys2Proof.Machine.execMovi imm d sp s
  | .movhi imm d sp => Sys2Proof.Machine.execMovhi imm d sp s
  | .ext w p a d sp => Sys2Proof.Machine.execExt w p a d sp s
  | .ins w p a d sp => Sys2Proof.Machine.execIns w p a d sp s
  | .mkptr g b a d sp => Sys2Proof.Machine.execMkptr g b a d sp s
  | .ptrget g b a d sp => Sys2Proof.Machine.execPtrget g b a d sp s
  | .ptradd g b a d sp => Sys2Proof.Machine.execPtradd g b a d sp s
  | .dist g b a d sp => Sys2Proof.Machine.execDist g b a d sp s
  | .dista g b a d sp => Sys2Proof.Machine.execDista g b a d sp s
  | .ld imm m a d sp => Sys2Proof.Machine.execLd imm m a d sp s
  | .st imm m a d sp => Sys2Proof.Machine.execSt imm m a d sp s
  | .ldx g c m b a d sp => Sys2Proof.Machine.execLdx g c m b a d sp s
  | .stx g c m b a d sp => Sys2Proof.Machine.execStx g c m b a d sp s
  | .ldi imm m a d sp => Sys2Proof.Machine.execLdi imm m a d sp s
  | .ldp imm m a d sp => Sys2Proof.Machine.execLdp imm m a d sp s
  | .stp imm m a d sp => Sys2Proof.Machine.execStp imm m a d sp s
  | .lda imm m a d sp => Sys2Proof.Machine.execLda imm m a d sp s
  | .stl imm m a d sp => Sys2Proof.Machine.execStl imm m a d sp s
  | .aadd g w b a d sp => Sys2Proof.Machine.execAadd g w b a d sp s
  | .aand g w b a d sp => Sys2Proof.Machine.execAand g w b a d sp s
  | .aor g w b a d sp => Sys2Proof.Machine.execAor g w b a d sp s
  | .axor g w b a d sp => Sys2Proof.Machine.execAxor g w b a d sp s
  | .amin g w b a d sp => Sys2Proof.Machine.execAmin g w b a d sp s
  | .amax g w b a d sp => Sys2Proof.Machine.execAmax g w b a d sp s
  | .aminn g w b a d sp => Sys2Proof.Machine.execAminn g w b a d sp s
  | .amaxn g w b a d sp => Sys2Proof.Machine.execAmaxn g w b a d sp s
  | .aswp g w b a d sp => Sys2Proof.Machine.execAswp g w b a d sp s
  | .acas g w b a d sp => Sys2Proof.Machine.execAcas g w b a d sp s
  | .afadd g t b a d sp => Sys2Proof.Machine.execAfadd g t b a d sp s
  | .aclaim g b a d sp => Sys2Proof.Machine.execAclaim g b a d sp s
  | .fence g s_ sp => Sys2Proof.Machine.execFence g s_ sp s
  | .send h n a d sp => Sys2Proof.Machine.execSend h n a d sp s
  | .sendt h n a d sp => Sys2Proof.Machine.execSendt h n a d sp s
  | .reply h n a d sp => Sys2Proof.Machine.execReply h n a d sp s
  | .msgq d sp => Sys2Proof.Machine.execMsgq d sp s
  | .cbdef imm a d sp => Sys2Proof.Machine.execCbdef imm a d sp s
  | .cbwait k a d sp => Sys2Proof.Machine.execCbwait k a d sp s
  | .cbfree k a d sp => Sys2Proof.Machine.execCbfree k a d sp s
  | .cbadvGet k a sp => Sys2Proof.Machine.execCbadvGet k a sp s
  | .cbadvPut k a sp => Sys2Proof.Machine.execCbadvPut k a sp s
  | .cbpush n a d sp => Sys2Proof.Machine.execCbpush n a d sp s
  | .cbpop n a d sp => Sys2Proof.Machine.execCbpop n a d sp s
  | .cbq a d sp => Sys2Proof.Machine.execCbq a d sp s
  | .br o g sp => Sys2Proof.Machine.execBr o g sp s
  | .brz o g d sp => Sys2Proof.Machine.execBrz o g d sp s
  | .brnz o g d sp => Sys2Proof.Machine.execBrnz o g d sp s
  | .j imm sp => Sys2Proof.Machine.execJ imm sp s
  | .jl imm d sp => Sys2Proof.Machine.execJl imm d sp s
  | .jr g a sp => Sys2Proof.Machine.execJr g a sp s
  | .jlr g a d sp => Sys2Proof.Machine.execJlr g a d sp s
  | .loop o g d sp => Sys2Proof.Machine.execLoop o g d sp s
  | .fin g sp => Sys2Proof.Machine.execFin g sp s
  | .actdef imm d sp => Sys2Proof.Machine.execActdef imm d sp s
  | .nestdef imm a d sp => Sys2Proof.Machine.execNestdef imm a d sp s
  | .lnch imm a d sp => Sys2Proof.Machine.execLnch imm a d sp s
  | .graph a d sp => Sys2Proof.Machine.execGraph a d sp s
  | .phase d sp => Sys2Proof.Machine.execPhase d sp s
  | .cncl a sp => Sys2Proof.Machine.execCncl a sp s
  | .lwait a d sp => Sys2Proof.Machine.execLwait a d sp s
  | .waitc a d sp => Sys2Proof.Machine.execWaitc a d sp s
  | .waitt imm a sp => Sys2Proof.Machine.execWaitt imm a sp s
  | .waita imm a d sp => Sys2Proof.Machine.execWaita imm a d sp s
  | .tfirst imm a d sp => Sys2Proof.Machine.execTfirst imm a d sp s
  | .tagclr imm a sp => Sys2Proof.Machine.execTagclr imm a sp s
  | .safe sp => Sys2Proof.Machine.execSafe sp s
  | .trap g imm sp => Sys2Proof.Machine.execTrap g imm sp s
  | .tret imm sp => Sys2Proof.Machine.execTret imm sp s
  | .brk imm sp => Sys2Proof.Machine.execBrk imm sp s
  | .trace imm a sp => Sys2Proof.Machine.execTrace imm a sp s
  | .csrd c d sp => Sys2Proof.Machine.execCsrd c d sp s
  | .cswr c a d sp => Sys2Proof.Machine.execCswr c a d sp s
  | .csset c a d sp => Sys2Proof.Machine.execCsset c a d sp s
  | .csclr c a d sp => Sys2Proof.Machine.execCsclr c a d sp s
  | .capmint imm a d sp => Sys2Proof.Machine.execCapmint imm a d sp s
  | .caprev a sp => Sys2Proof.Machine.execCaprev a sp s
  | .halt a sp => Sys2Proof.Machine.execHalt a sp s
  | .sleep a d sp => Sys2Proof.Machine.execSleep a d sp s
  | .wfr a d sp => Sys2Proof.Machine.execWfr a d sp s
  | .move imm a sp => Sys2Proof.Machine.execMove imm a sp s
  | .shld imm a d sp => Sys2Proof.Machine.execShld imm a d sp s
  | .shst a d sp => Sys2Proof.Machine.execShst a d sp s
  | .shmod imm a d sp => Sys2Proof.Machine.execShmod imm a d sp s
  | .vadd t b a d sp => Sys2Proof.Machine.execVadd t b a d sp s
  | .vsub t b a d sp => Sys2Proof.Machine.execVsub t b a d sp s
  | .vmul t b a d sp => Sys2Proof.Machine.execVmul t b a d sp s
  | .vfma t b a d sp => Sys2Proof.Machine.execVfma t b a d sp s
  | .vdiv t b a d sp => Sys2Proof.Machine.execVdiv t b a d sp s
  | .vmin t b a d sp => Sys2Proof.Machine.execVmin t b a d sp s
  | .vmax t b a d sp => Sys2Proof.Machine.execVmax t b a d sp s
  | .vabs t a d sp => Sys2Proof.Machine.execVabs t a d sp s
  | .vneg t a d sp => Sys2Proof.Machine.execVneg t a d sp s
  | .vrsq t a d sp => Sys2Proof.Machine.execVrsq t a d sp s
  | .vexp2 t a d sp => Sys2Proof.Machine.execVexp2 t a d sp s
  | .vlog2 t a d sp => Sys2Proof.Machine.execVlog2 t a d sp s
  | .vand t b a d sp => Sys2Proof.Machine.execVand t b a d sp s
  | .vor t b a d sp => Sys2Proof.Machine.execVor t b a d sp s
  | .vxor t b a d sp => Sys2Proof.Machine.execVxor t b a d sp s
  | .vshl t b a d sp => Sys2Proof.Machine.execVshl t b a d sp s
  | .vshr t b a d sp => Sys2Proof.Machine.execVshr t b a d sp s
  | .vsel t b a d sp => Sys2Proof.Machine.execVsel t b a d sp s
  | .vcmp c t b a d sp => Sys2Proof.Machine.execVcmp c t b a d sp s
  | .vred o t a d sp => Sys2Proof.Machine.execVred o t a d sp s
  | .vscan o t a d sp => Sys2Proof.Machine.execVscan o t a d sp s
  | .vcvt t a d sp => Sys2Proof.Machine.execVcvt t a d sp s
  | .vqnt t a d sp => Sys2Proof.Machine.execVqnt t a d sp s
  | .vfill t a d sp => Sys2Proof.Machine.execVfill t a d sp s
  | .vident t a d sp => Sys2Proof.Machine.execVident t a d sp s
  | .vcpy t a d sp => Sys2Proof.Machine.execVcpy t a d sp s
  | .vgath t b a d sp => Sys2Proof.Machine.execVgath t b a d sp s
  | .vscat t b a d sp => Sys2Proof.Machine.execVscat t b a d sp s
  | .vtrn t a d sp => Sys2Proof.Machine.execVtrn t a d sp s
  | .mcfg a sp => Sys2Proof.Machine.execMcfg a sp s
  | .mbld t a sp => Sys2Proof.Machine.execMbld t a sp s
  | .mgat t b a sp => Sys2Proof.Machine.execMgat t b a sp s
  | .mma a sp => Sys2Proof.Machine.execMma a sp s
  | .mmaz a sp => Sys2Proof.Machine.execMmaz a sp s
  | .mrec a sp => Sys2Proof.Machine.execMrec a sp s
  | .mupl a sp => Sys2Proof.Machine.execMupl a sp s
  | .msync sp => Sys2Proof.Machine.execMsync sp s
  | .mstat d sp => Sys2Proof.Machine.execMstat d sp s
  | .mcmd o b a sp => Sys2Proof.Machine.execMcmd o b a sp s
  | .mcap b a d sp => Sys2Proof.Machine.execMcap b a d sp s
  | .cbox imm a d sp => Sys2Proof.Machine.execCbox imm a d sp s
  | .cred imm a d sp => Sys2Proof.Machine.execCred imm a d sp s
  | .ccan imm a sp => Sys2Proof.Machine.execCcan imm a sp s
  | .cstat imm a d sp => Sys2Proof.Machine.execCstat imm a d sp s
  | .wdef imm d sp => Sys2Proof.Machine.execWdef imm d sp s
  | .wbind imm a d sp => Sys2Proof.Machine.execWbind imm a d sp s
  | .wpub a d sp => Sys2Proof.Machine.execWpub a d sp s
  | .wabs a sp => Sys2Proof.Machine.execWabs a sp s
  | .wdepth a d sp => Sys2Proof.Machine.execWdepth a d sp s
  | .wqry a d sp => Sys2Proof.Machine.execWqry a d sp s
  | .wstep imm a d sp => Sys2Proof.Machine.execWstep imm a d sp s
  | .addCompact a d => Sys2Proof.Machine.execAddCompact a d s
  | .subCompact a d => Sys2Proof.Machine.execSubCompact a d s
  | .andCompact a d => Sys2Proof.Machine.execAndCompact a d s
  | .orCompact a d => Sys2Proof.Machine.execOrCompact a d s
  | .xorCompact a d => Sys2Proof.Machine.execXorCompact a d s
  | .mulCompact a d => Sys2Proof.Machine.execMulCompact a d s
  | .shlCompact a d => Sys2Proof.Machine.execShlCompact a d s
  | .shrCompact a d => Sys2Proof.Machine.execShrCompact a d s
  | .shaCompact a d => Sys2Proof.Machine.execShaCompact a d s
  | .minCompact a d => Sys2Proof.Machine.execMinCompact a d s
  | .maxCompact a d => Sys2Proof.Machine.execMaxCompact a d s
  | .minnCompact a d => Sys2Proof.Machine.execMinnCompact a d s
  | .addiCompact imm d => Sys2Proof.Machine.execAddiCompact imm d s
  | .moviCompact imm d => Sys2Proof.Machine.execMoviCompact imm d s
  | .shliCompact imm d => Sys2Proof.Machine.execShliCompact imm d s
  | .shriCompact imm d => Sys2Proof.Machine.execShriCompact imm d s
  | .shaiCompact imm d => Sys2Proof.Machine.execShaiCompact imm d s
  | .andiCompact imm d => Sys2Proof.Machine.execAndiCompact imm d s
  | .ldN64Compact k a d => Sys2Proof.Machine.execLdN64Compact k a d s
  | .stN64Compact k a d => Sys2Proof.Machine.execStN64Compact k a d s
  | .ldN32Compact k a d => Sys2Proof.Machine.execLdN32Compact k a d s
  | .stN32Compact k a d => Sys2Proof.Machine.execStN32Compact k a d s
  | .brzCompact o d => Sys2Proof.Machine.execBrzCompact o d s
  | .brnzCompact o d => Sys2Proof.Machine.execBrnzCompact o d s
  | .jCompact o => Sys2Proof.Machine.execJCompact o s
  | .jrCompact d => Sys2Proof.Machine.execJrCompact d s
  | .finCompact => Sys2Proof.Machine.execFinCompact s
  | .firingSelection => Sys2Proof.Machine.execFiringSelection s
  | .messageArrival src rep => Sys2Proof.Machine.execMessageArrival src rep s
  | .messageInjection rep => Sys2Proof.Machine.execMessageInjection rep s
  | .noticeInjection => Sys2Proof.Machine.execNoticeInjection s
  | .watchUpdate src => Sys2Proof.Machine.execWatchUpdate src s
  | .jobStartMessage => Sys2Proof.Machine.execJobStartMessage s
  | .launchReceipt => Sys2Proof.Machine.execLaunchReceipt s
  | .phaseReceipt => Sys2Proof.Machine.execPhaseReceipt s
  | .cancelReceipt => Sys2Proof.Machine.execCancelReceipt s
  | .placement => Sys2Proof.Machine.execPlacement s
  | .collectionRound serial cohort => Sys2Proof.Machine.execCollectionRound serial cohort s
  | .retirementReport serial cohort => Sys2Proof.Machine.execRetirementReport serial cohort s
  | .bulkPromotion serial cohort => Sys2Proof.Machine.execBulkPromotion serial cohort s
  | .messagePromotion n => Sys2Proof.Machine.execMessagePromotion n s
  | .park => Sys2Proof.Machine.execPark s
  | .waitSatisfied n => Sys2Proof.Machine.execWaitSatisfied n s
  | .sleepWake => Sys2Proof.Machine.execSleepWake s
  | .regionStopResume => Sys2Proof.Machine.execRegionStopResume s
  | .splitRequest src => Sys2Proof.Machine.execSplitRequest src s
  | .forcedSafePoint => Sys2Proof.Machine.execForcedSafePoint s
  | .remoteAccessRequest src => Sys2Proof.Machine.execRemoteAccessRequest src s
  | .probeArrival src => Sys2Proof.Machine.execProbeArrival src s
  | .commitArrival src => Sys2Proof.Machine.execCommitArrival src s
  | .closeMessage src => Sys2Proof.Machine.execCloseMessage src s
  | .syncAccessArrival src => Sys2Proof.Machine.execSyncAccessArrival src s
  | .cbRequest src => Sys2Proof.Machine.execCbRequest src s
  | .replyArrival src qw => Sys2Proof.Machine.execReplyArrival src qw s
  | .acknowledgmentArrival src qw => Sys2Proof.Machine.execAcknowledgmentArrival src qw s
  | .vectorCommandStart => Sys2Proof.Machine.execVectorCommandStart s
  | .vectorCommandCompletion => Sys2Proof.Machine.execVectorCommandCompletion s
  | .matrixCommandStart => Sys2Proof.Machine.execMatrixCommandStart s
  | .matrixCommandCompletion => Sys2Proof.Machine.execMatrixCommandCompletion s
  | .remoteMatrixPacket src => Sys2Proof.Machine.execRemoteMatrixPacket src s
  | .mcmdCompletion src qw => Sys2Proof.Machine.execMcmdCompletion src qw s
  | .walkActivation => Sys2Proof.Machine.execWalkActivation s
  | .stencilFlitSend slot => Sys2Proof.Machine.execStencilFlitSend slot s
  | .copyFlitArrival src => Sys2Proof.Machine.execCopyFlitArrival src s
  | .copyCompletion src qw => Sys2Proof.Machine.execCopyCompletion src qw s
  | .chainLinkIssue win => Sys2Proof.Machine.execChainLinkIssue win s
  | .pullRequest src => Sys2Proof.Machine.execPullRequest src s
  | .storerRequest src => Sys2Proof.Machine.execStorerRequest src s
  | .pagerResult src => Sys2Proof.Machine.execPagerResult src s
  | .preemptRequest => Sys2Proof.Machine.execPreemptRequest s
  | .residencySave => Sys2Proof.Machine.execResidencySave s
  | .jobResume => Sys2Proof.Machine.execJobResume s
  | .residencyRestore => Sys2Proof.Machine.execResidencyRestore s
  | .machineCheck syndrome pcValid => Sys2Proof.Machine.execMachineCheck syndrome pcValid s
  | .rebuild site lost => Sys2Proof.Machine.execRebuild site lost s
  | .moveRequest site why => Sys2Proof.Machine.execMoveRequest site why s
  | .moveDrainComplete => Sys2Proof.Machine.execMoveDrainComplete s
  | .moveStreamComplete => Sys2Proof.Machine.execMoveStreamComplete s
  | .mapUpdate at_ => Sys2Proof.Machine.execMapUpdate at_ s
  | .markerArrival src => Sys2Proof.Machine.execMarkerArrival src s
  | .relocArrival src => Sys2Proof.Machine.execRelocArrival src s
  | .floatPeriod die => Sys2Proof.Machine.execFloatPeriod die s
  | .thermalEmergency site t => Sys2Proof.Machine.execThermalEmergency site t s
  | .overheatCap site t => Sys2Proof.Machine.execOverheatCap site t s
  | .rampComplete q => Sys2Proof.Machine.execRampComplete q s
  | .droopDetect q => Sys2Proof.Machine.execDroopDetect q s
  | .droopHoldExpiry q => Sys2Proof.Machine.execDroopHoldExpiry q s
  | .gatingCommit q => Sys2Proof.Machine.execGatingCommit q s
  | .wakeComplete q => Sys2Proof.Machine.execWakeComplete q s
  | .haltRequest src => Sys2Proof.Machine.execHaltRequest src s
  | .haltGroupMessage src => Sys2Proof.Machine.execHaltGroupMessage src s
  | .dumpLimitExpiry => Sys2Proof.Machine.execDumpLimitExpiry s
  | .traceRecord => Sys2Proof.Machine.execTraceRecord s
  | .deviceReset => Sys2Proof.Machine.execDeviceReset s
  | .bootImageLoaded img => Sys2Proof.Machine.execBootImageLoaded img s
  | .measExtend digest => Sys2Proof.Machine.execMeasExtend digest s
  | .quoteRequest => Sys2Proof.Machine.execQuoteRequest s
  | .nonceWrite nonce => Sys2Proof.Machine.execNonceWrite nonce s
  | .quoteComplete => Sys2Proof.Machine.execQuoteComplete s
  | .hostBar2Access write addr data => Sys2Proof.Machine.execHostBar2Access write addr data s
  | .fctlWrite fn a d sp => Sys2Proof.Machine.execFctlWrite fn a d sp s
  | .fstatRead d sp => Sys2Proof.Machine.execFstatRead d sp s
  | .timeRead d sp => Sys2Proof.Machine.execTimeRead d sp s
  | .sqctlWrite fn a d sp => Sys2Proof.Machine.execSqctlWrite fn a d sp s
  | .tlbinvPage fn a d sp => Sys2Proof.Machine.execTlbinvPage fn a d sp s
  | .tlbinvAsid fn a d sp => Sys2Proof.Machine.execTlbinvAsid fn a d sp s
  | .tlbinvAll fn a d sp => Sys2Proof.Machine.execTlbinvAll fn a d sp s
  | .pwrqGate fn a d sp => Sys2Proof.Machine.execPwrqGate fn a d sp s
  | .pwrqWake fn a d sp => Sys2Proof.Machine.execPwrqWake fn a d sp s
  | .opreqWrite fn a d sp => Sys2Proof.Machine.execOpreqWrite fn a d sp s
  | .hgrpResume fn a d sp => Sys2Proof.Machine.execHgrpResume fn a d sp s
  | .dumpHold fn a d sp => Sys2Proof.Machine.execDumpHold fn a d sp s
  | .controlRegisterWrite fn c a d sp => Sys2Proof.Machine.execControlRegisterWrite fn c a d sp s
  | .reservedEncoding enc len => Sys2Proof.Machine.execReservedEncoding enc len s
  | .partitionCreation => Sys2Proof.Machine.execPartitionCreation s
  | .capRaise q => Sys2Proof.Machine.execCapRaise q s
  | .traceQueueSend => Sys2Proof.Machine.execTraceQueueSend s

end Sys2Proof.Machine
end

