-- ==== Sys2Proof/Machine/Run.lean ====
section
/-!
DEFINITION. Sys2Proof/Machine/Run.lean: what an agent does when the agenda names it (log 1), and the placing of an
instruction where the next fetch reads it (log 2).
-/
namespace Sys2Proof.Machine

/-! ### Events that the agenda may name -/

/-- Rows of the table that are events and may stand in the agenda. The rows that describe one register's read or
write, and the reserved encodings, belong to the firing that executes them. -/
def eventRow : Instr → Bool
  | .fctlWrite _ _ _ _ | .fstatRead _ _ | .timeRead _ _ | .sqctlWrite _ _ _ _ | .tlbinvPage _ _ _ _
  | .tlbinvAsid _ _ _ _ | .tlbinvAll _ _ _ _ | .pwrqGate _ _ _ _ | .pwrqWake _ _ _ _ | .opreqWrite _ _ _ _
  | .hgrpResume _ _ _ _ | .dumpHold _ _ _ _ | .controlRegisterWrite _ _ _ _ _ | .reservedEncoding _ _ => false
  | i => (encode i).isNone

/-- Events of the secure root core and the endpoint, which go on while every other core is in reset (R364). -/
def bootEvent : Instr → Bool
  | .deviceReset | .bootImageLoaded _ | .measExtend _ | .nonceWrite _ | .quoteRequest | .quoteComplete
  | .hostBar2Access _ _ _ => true
  | _ => false

/-- What a core in the drain or the stream of a move still does (R336): its replies and acknowledgments, the acceptance of its messages,
copies that a PEND counts (`Core.diverts`), its engines, its send queues, and its router. -/
def drainEvent : Instr → Bool
  | .replyArrival _ _ | .acknowledgmentArrival _ _ | .copyCompletion _ _ | .mcmdCompletion _ _
  | .vectorCommandStart | .vectorCommandCompletion | .matrixCommandStart | .matrixCommandCompletion
  | .messageInjection _ | .noticeInjection | .messageArrival _ _ | .traceQueueSend | .copyFlitArrival _ | .stencilFlitSend _
  | .moveDrainComplete | .moveStreamComplete | .mapUpdate _ | .markerArrival _ | .relocArrival _ | .machineCheck _ _ => true
  | _ => false

/-- Requests to a core that act on its residency: they wait in the network while the job is out or the residency is still to be restored
(R287, R350; log 84). -/
def requestEvent : Instr → Bool
  | .remoteAccessRequest _ | .syncAccessArrival _ | .cbRequest _ | .probeArrival _ | .commitArrival _ | .remoteMatrixPacket _
  | .copyFlitArrival _ | .pullRequest _ | .storerRequest _ => true
  | _ => false

/-- What a quarantined site still does (R343): its router, the end of a move that brought it there, and the rebuild. -/
def failedEvent : Instr → Bool
  | .mapUpdate _ | .markerArrival _ | .relocArrival _ | .rebuild _ _ => true
  | _ => false

/-- The device's clocks, sequencer and move service act at no logical core; they may stand in the agenda of any. -/
def serviceEvent : Instr → Bool
  | .launchReceipt | .phaseReceipt | .cancelReceipt | .placement | .bulkPromotion _ _ | .collectionRound _ _ | .retirementReport _ _
  | .preemptRequest | .jobResume | .floatPeriod _ | .thermalEmergency _ _ | .overheatCap _ _ | .capRaise _ | .droopDetect _
  | .droopHoldExpiry _ | .rampComplete _ | .gatingCommit _ | .wakeComplete _ | .partitionCreation => true
  | _ => false

/-- The focused core has failed (R343). -/
def State.failed (s : State) : Bool := s.core.isMesh && s.dev.bad.contains s.core.site

/-- The event may take place at the focused core now. -/
def State.admits (s : State) (e : Instr) : Bool :=
  if bootEvent e then true
  else if !s.booted then false
  else if serviceEvent e then true
  else if s.failed || !s.powered then failedEvent e
  else if s.core.moving.freezes then drainEvent e
  else if requestEvent e && s.absent.isSome then false
  else match e with
    | .copyFlitArrival _ => !(s.core.cohort.isNone && s.dev.ctxs.any (Context.isOf s.core.id))
    | _ => true

/-! ### Firings -/

/-- The focused core's firing runs its next instruction (R9, R47, R60). -/
def runFiring (s : State) : Out :=
  match s.core.fetch with
  | .instr i => exec i s
  | .illegal enc len => exec (.reservedEncoding enc len) s
  | .misfetch tnpc addr => .next (s.stopWith causeMisfetch s.core.f.pc tnpc (BitVec.ofNat 64 addr))

/-- What is asked of the core takes effect at the boundary where it stands: a halt, then a move, then a save. -/
def State.takeRequest (s : State) : State :=
  match s.core.phys.haltPending with
  | some code => s.takeHalt code
  | none => match s.core.moving with
    | .requested site why =>
      if s.moveTargetOk site why then s.freeze.mapC fun c => { c with moving := .draining site why }
      else s.mapC fun c => { c with moving := .no }
    | .no | .draining _ _ | .streaming _ _ => s.freeze

/-- The focused core stands at a boundary at which what is asked of it takes effect (R284, R335, R358). -/
def Core.atRequest (c : Core) : Bool :=
  c.requested && (!c.busy || c.atSafePoint)

/-- The focused core moves: what is asked of it takes effect, its firing runs an instruction, resumes after its back-off, or
waits; with no firing the core selects one (R270). A core in reset, failed, without power, halted or frozen stays as it is. -/
def runCore (s : State) : Out :=
  if !s.booted || s.failed || !s.powered || s.core.phys.halted || s.core.moving.freezes then .next s
  else if s.core.atRequest then .next s.takeRequest
  else if !s.core.busy then
    if s.core.saveAsked then .next s
    else if s.cancelDue then .next (if s.core.cancelLeft then s.cancelCore else s)
    else exec .firingSelection s
  else match s.core.f.wait with
    | .none | .poll | .replied _ _ | .part _ => runFiring s
    | .backoff => exec .regionStopResume s
    | .reply _ _ | .probes _ _ => .next s

/-- An event at the focused core. A core selects its next firing only as `runCore` lets it. -/
def runEvent (e : Instr) (s : State) : Out :=
  if !eventRow e || !s.admits e then .next s
  else if e = .firingSelection then (if s.core.busy then .next s else runCore s)
  else exec e s

/-! ### The agenda (log 1) -/

/-- Agents outside the model: other devices, and the handlers of system software on pager cores and the control cluster. -/
def outside : CoreId → Bool
  | .far _ _ _ | .pager _ _ | .control => true
  | .mesh _ _ | .memory _ _ | .port _ => false

/-- A packet from outside enters: at its sender's router, or, from another device, at the ingress port of the C-die that holds the
target's row, and is translated there (R320, R324). -/
def State.enter (s : State) (p : Packet) : State :=
  let via := ingress p.src (s.dev.part.siteOf s.dev.part.exc p.dst)
  let c := (s.coreAt via).getD s.core
  { s with net := s.net ++ [{ p with site := c.siteOf s.dev.part p.dst, fwd := false, path := [c.site] }] }

/-- The control kernel takes a job with the partition it will run in, unless one is running. The image lies in device memory, where the
root monitor will read it. -/
def State.submit (s : State) (img : Image) (part : Partition) (at_ len : Nat) : State :=
  if !s.booted || (s.dev.part.made && !s.dev.seq.jobEnded) then s
  else s.mapD fun d => { d with
    image := img
    part := { part with made := false }
    imageAt := (at_, len) }

/-- An uncorrectable error comes about in the sector of a core's buffers that holds a visible key (R282). -/
def Core.corrupted (c : Core) (key : Nat) : Core :=
  { c with badSecs := (c.phys' key / 32 :: c.badSecs).dedup }

/-- One comes about in a sector of external memory (R214). -/
def Device.corruptExt (d : Device) (host : Bool) (addr : Nat) : Device :=
  { d with badExt := ((host, addr / 32) :: d.badExt).dedup }

/-- One item of the agenda. -/
def runAct (a : Act) (s : State) : Out :=
  match a with
  | .run c => match s.focus c with
    | some t => runCore t
    | none => .next s
  | .event c e => match s.focus c with
    | some t => runEvent e t
    | none => .next s
  | .inject p => .next (if outside p.src then s.enter p else s)
  | .tear c => .next (s.onCore c fun k => { k with tear := true })
  | .tick =>
    let first := s.dev.time = 0
    let s := s.mapD Device.edge
    let s := s.onAll s.tickClock
    .next (if first then (s.dev.quads.map QuadSt.q).foldl State.retarget s else s)
  | .drift q ahead => .next (s.drift q ahead)
  | .measure site t => .next (s.measured site t)
  | .bar2 base => .next (if s.booted then s.onBoot fun b => { b with bar2 := base } else s)
  | .submit img part at_ len => .next (s.submit img part at_ len)
  | .resume c => match s.focus c with
    | some t => .next (if t.booted then t.resume else t)
    | none => .next s
  | .resumeSite site => .next (if s.booted then s.resumeSite site else s)
  | .dump c at_ => .next (s.debugRead c at_)
  | .system table code => .next (if s.booted then s.loadSystem table code else s)
  | .monitor => .next s.monitor
  | .bar0 write off data => .next (if write then s.bar0Write off data else s.bar0Read off)
  | .corrupt c key => .next (s.onCore c fun k => k.corrupted key)
  | .corruptExt host addr => .next (s.mapD fun d => d.corruptExt host addr)

/-- Machine checks that the step's reads have caused strike as it ends (R282, R283). -/
def struck : Out → Out
  | .next t => .next t.strike
  | .fault f => .fault f
  | .refused r => .refused r

/-! ### Placing an instruction (log 2) -/

/-- Parcels stored in an I-store, the first of them the start of an instruction. -/
def Mems.place (m : Mems) (pc : Nat) (ps : List Parcel) : Mems :=
  { m with
    istore := m.istore.write pc (parcelBytes ps)
    noStart := tset false m.noStart (pc / 2) false }

/-- Parcels stored at the pc of the focused core, which is out of reset and has a firing that is about to fetch them. -/
def placeAtPc (s : State) (ps : List Parcel) : State :=
  { s with
    agenda := []
    dev := { s.dev with
      bad := s.dev.bad.filter fun x => x ≠ s.core.site
      quads := s.dev.quads.map fun x => if x.q = quadOf s.core.site then { x with gate := .on } else x
      boot := s.dev.boot.setStage 4 }
    core := { s.core with
      busy := true
      f := { s.core.f with wait := .none }
      moving := .no
      saveAsked := false
      phys := { s.core.phys with
        halted := false
        haltPending := none }
      mem := if s.core.f.inSys then s.core.mem else s.core.mem.place s.core.f.pc ps
      sysMem := if s.core.f.inSys then s.core.sysMem.place s.core.f.pc ps else s.core.sysMem } }

end Sys2Proof.Machine
end

