-- ==== Sys2Proof/Machine/Step.lean ====
section
/-!
DEFINITION. Sys2Proof/Machine/Step.lean: one step of the device.
-/
namespace Sys2Proof.Machine

/-- One step: the head of the agenda moves; with an empty agenda the focused core does (log 1). Parked firings whose conditions have
come to hold, or have ceased to, since the last step are noted first (R270), and machine checks strike last (R282). -/
def step (s : State) : Host.Outcome State Fault Refusal :=
  match s.agenda with
  | a :: rest => struck (runAct a { s.noted with agenda := rest })
  | [] => struck (runCore s.noted)

/-- `s` with an instruction stored where the next step fetches (log 2). -/
def State.withFetchWord (s : State) (nbits w : Nat) : State := placeAtPc s (tableParcels nbits w)

end Sys2Proof.Machine
end

