-- ==== Sys2Proof/Safety.lean ====
section
/-!
DEFINITION. Sys2Proof/Safety.lean: the terms in which statements about the device are made: where bytes are held, what an
instruction leaves as it was, when an instruction can complete at once, and the invariants of a run.
-/
namespace Sys2Proof.Machine

/-! ### Bytes -/

/-- A place that holds one byte: a physical key of a core's buffers, an offset of its I-store, an address of external
memory or of host memory. -/
inductive Place where
  | buffer (c : CoreId) (key : Nat)
  | code (c : CoreId) (off : Nat)
  | external (a : Nat)
  | host (a : Nat)
deriving DecidableEq, Repr

/-- Read one byte of the device. -/
def State.byteAt (s : State) : Place → Byte
  | .buffer c k => match s.coreAt c with
    | some x => x.mem.data.get k
    | none => 0#8
  | .code c k => match s.coreAt c with
    | some x => x.mem.istore.get k
    | none => 0#8
  | .external a => s.dev.ext.get a
  | .host a => s.dev.host.get a

/-- Every byte reads as before. -/
def SameBytes (s t : State) : Prop := ∀ p, t.byteAt p = s.byteAt p

/-! ### Frames -/

/-- Nothing changes but the firing's registers, flags and pc, and what the end of a region at a safe point moves (R246, R277): the
region with its checkpoint, Scrim entries, its own access at a bank's slot, counts, places for answers, packets and the model's counter of
tokens. -/
structure Kept (s t : State) : Prop where
  core : t.core = { s.core with f := t.core.f, scrim := t.core.scrim, ack := t.core.ack, places := t.core.places, slots := t.core.slots }
  slots : t.core.slots.filter (fun x => x.src ≠ s.core.id) = s.core.slots.filter fun x => x.src ≠ s.core.id
  firing : t.core.f = { s.core.f with
    regs := t.core.f.regs, ctl := t.core.f.ctl, pc := t.core.f.pc, region := t.core.f.region, ckpt := t.core.f.ckpt,
    wait := t.core.f.wait, irrev := t.core.f.irrev }
  others : t.others = s.others
  dev : t.dev = { s.dev with nextTok := t.dev.nextTok }
  agenda : t.agenda = s.agenda

/-- As `Kept`, but the bytes and the panel directory of the core's buffers may change. -/
structure KeptButBuffers (s t : State) : Prop where
  core : t.core = { s.core with
    f := t.core.f, scrim := t.core.scrim, ack := t.core.ack, places := t.core.places, mem := t.core.mem, slots := t.core.slots }
  slots : t.core.slots.filter (fun x => x.src ≠ s.core.id) = s.core.slots.filter fun x => x.src ≠ s.core.id
  code : t.core.mem.istore = s.core.mem.istore ∧ t.core.mem.noStart = s.core.mem.noStart
  firing : t.core.f = { s.core.f with
    regs := t.core.f.regs, ctl := t.core.f.ctl, pc := t.core.f.pc, region := t.core.f.region, ckpt := t.core.f.ckpt,
    wait := t.core.f.wait, irrev := t.core.f.irrev }
  others : t.others = s.others
  dev : t.dev = { s.dev with nextTok := t.dev.nextTok }
  agenda : t.agenda = s.agenda

/-- Register `d` holds `v`, unless it is s0; every other register of the firing is as it was. -/
structure WroteS (s t : State) (d : BitVec 5) (v : Word) : Prop where
  reads : ∀ r, t.regs.getS r = if r = d ∧ r ≠ 0#5 then v else s.regs.getS r
  p : t.regs.p = s.regs.p
  i : t.regs.i = s.regs.i
  h : t.regs.h = s.regs.h
  e : t.regs.e = s.regs.e

/-- The instruction of `len` bytes at the pc has been performed, with no effect but that on the registers. -/
structure Performed (s t : State) (len : Nat) : Prop where
  pc : t.core.f.pc = s.core.f.pc + len
  flags : t.core.f.ctl = s.core.f.ctl
  kept : Kept s t
  bytes : SameBytes s t

/-- The instruction has written `v` to `d` and done nothing else. -/
def Computed (s t : State) (len : Nat) (d : BitVec 5) (v : Word) : Prop := WroteS s t d v ∧ Performed s t len

/-! ### When an instruction can complete at once -/

/-- An irrevocable instruction need not wait for the end of its region: it goes on in one of its own, or its region holds no remote
store and no stop is on its way to it (R57, R242). -/
def State.lone (s : State) : Prop := s.core.f.irrev = true ∨ (s.core.f.region.held = [] ∧ s.stopDue = false)

/-- An instruction that drains need not wait: its region touched no remote bank either, and the drain of R109 is complete. -/
structure AtOnce (s : State) : Prop where
  alone : s.core.f.irrev = true ∨ (s.core.f.region.held = [] ∧ s.core.remoteTouched = [])
  unstopped : s.core.f.irrev = true ∨ s.stopDue = false
  drained : s.core.ack.drained = true

/-- Nor need one that other agents can see: the messages that the core sent have left (Table 12.4). -/
structure InOrder (s : State) : Prop extends AtOnce s where
  sent : s.core.unsent = false

/-- The state in which an irrevocable instruction acts: it goes on in a region of its own (R57, R277). -/
def State.alone (s : State) : State := if s.core.f.irrev then s else s.endRegion.after .irrev

/-- A touch of these bytes of the core's own buffers meets no window that refuses it or is absent (R219), and no engine command that
is incomplete (R299). -/
structure Undisturbed (s : State) (store : Bool) (spans : List Span) : Prop where
  window : s.core.touchAbsent spans = none
  engines : s.core.engineMeets store spans = false

/-- A plain access to the core's own banks is granted with this table: no foreign open entry stands against it and there is
room for its banks (R245, R248), it meets the halves that show now even where a bank has held it (R239), and what it reads has no
uncorrectable error (R282). -/
structure Granted (s : State) (key n : Nat) (write : Bool) (table : List Scrim) : Prop where
  bank : s.core.bankAccess s.agent (s.core.sectors key n) write false ((bankOf key).getD 0) s.core.slottedAhead = .ok table
  room : ((((s.core.sectors key n).map fun p => (s.core.id, p.1)).foldl Region.touch
    { s.core.f.region with touched := s.core.f.region.banks, held := [] }).touched.length ≤ 64)
  halves : ∀ x ∈ s.core.slots, x.src = s.core.id → x.halves = s.core.halves
  sound : write = false → s.core.meetsBad key n = false

/-- A plain local access of `n` bytes at `v` is performed at once. -/
structure LocalReady (s : State) (v : Word) (n align : Nat) (write : Bool) : Prop where
  mesh : bit v 63 = true
  isLocal : s.isLocal v = true
  checks : s.accessStop v n write align 0 = none
  calm : Undisturbed s write [(ptrKey v, n)]
  bank : ∃ table, Granted s (ptrKey v) n write table
  /-- It is not taken sector by sector, and none of it is done yet (R250). -/
  whole : s.core.tear = false ∧ s.core.f.partDone = []
  unread : write = true → s.core.f.region.reads (ptrKey v) n = false
  /-- A store follows the messages sent before it (Table 12.4). -/
  sent : write = true → s.core.unsent = false

/-- A sync access of this core to its own bank is performed at once (R110). -/
structure SyncReady (s : State) (v : Word) (n align : Nat) (op : BankOp) : Prop where
  isLocal : s.isLocal v = true
  checks : s.accessStop v n op.writes align 0 = none
  calm : Undisturbed s op.stores [(ptrKey v, n)]
  unmet : s.core.conflict s.agent (s.core.sectors (ptrKey v) n) op.writes = none
  /-- What it reads has no uncorrectable error (R282). -/
  sound : op.reads = true → s.core.meetsBad (ptrKey v) n = false

/-! ### Windows -/

/-- Every defined window fits its buffer, and the double ranges of two of them do not meet (R217). -/
structure WindowsApart (c : Core) : Prop where
  fits : ∀ k : Fin 16, c.tab.win[k].defined = true →
    c.tab.win[k].off + 2 * c.tab.win[k].size ≤ bufSize c.tab.win[k].buf
  apart : ∀ j k : Fin 16, j ≠ k → c.tab.win[j].defined = true → c.tab.win[k].defined = true →
    rangesMeet c.tab.win[j].key (2 * c.tab.win[j].size) c.tab.win[k].key (2 * c.tab.win[k].size) = false

/-- The bytes outside a range of the core's buffers, named through its windows, read as before. -/
def SameOutside (s t : State) (key n : Nat) : Prop :=
  ∀ p, (∀ j, j < n → p ≠ .buffer s.core.id (s.core.phys' (key + j))) → t.byteAt p = s.byteAt p

/-- Every table of bytes of a core's residency is in its canonical form. -/
def Core.memoryWf (c : Core) : Bool := c.mem.data.wf && c.mem.istore.wf

/-- These bytes have been stored from `key` up, and nowhere else. That each key has one byte of its own rests on the canonical
form of the memory and on the windows lying apart, which every step keeps. -/
structure Stored (s t : State) (key : Nat) (bs : List Byte) : Prop where
  outside : s.core.memoryWf = true → SameOutside s t key bs.length
  there : s.core.memoryWf = true → WindowsApart s.core → t.core.readBytes key bs.length = bs

/-! ### Precise stops -/

/-- A stop entry takes over with these values (R147): everything else of the firing is as it was. -/
structure StopTaken (s t : State) (cause tpc tnpc : Nat) (addr : Word) (entry : Nat) : Prop where
  pc : t.core.f.pc = entry
  act : t.core.f.ctl.act = true
  cause : t.core.f.ctl.cause = BitVec.ofNat 8 cause
  tpc : t.core.f.ctl.tpc = BitVec.ofNat 15 tpc
  tnpc : t.core.f.ctl.tnpc = BitVec.ofNat 15 tnpc
  taddr : t.core.f.ctl.taddr = addr
  regs : t.regs = s.regs
  flags : t.core.f.ctl.fstat = s.core.f.ctl.fstat
  region : t.core.f.region = s.core.f.region
  bytes : SameBytes s t

/-- The firing's handler table takes a stop of this cause at this offset (R146, R147). -/
structure StopEntry (s : State) (cause entry : Nat) : Prop where
  free : s.core.f.ctl.act = false
  valid : s.stopEntry cause = some entry
  fetchable : s.core.startBit entry = true

/-! ### Invariants -/

/-- The form that every run keeps: each memory is canonical, and the windows of each core lie apart, saved cores included. -/
structure Formed (s : State) : Prop where
  cores : ∀ c ∈ s.cores, c.memoryWf = true ∧ WindowsApart c
  saved : ∀ x ∈ s.dev.ctxs, ∀ c, x.core = some c → c.memoryWf = true ∧ WindowsApart c
  system : s.dev.sysCode.istore.wf = true ∧ ∀ c ∈ s.cores, c.sysMem.istore.wf = true
  ext : s.dev.ext.wf = true
  host : s.dev.host.wf = true
  ring : s.dev.boot.ring.wf = true

/-- The boot has not reached step 5, or has halted, and the root monitor, which alone takes step 5, has no step to take (R364). -/
structure HeldInReset (s : State) : Prop where
  stage : s.booted = false
  calm : Act.monitor ∉ s.agenda
  /-- No machine check is due. -/
  sound : ∀ c ∈ s.cores, c.checkDue = false

/-- The core executes nothing: its residency, its firing, and the bytes and the directory of its buffers are as they were. The boot may
load code (Table 25.1). -/
def CoresStill (s t : State) : Prop :=
  ∀ c, (t.coreAt c).map (fun k => (k.f, k.busy, k.mem.data, k.mem.dir, k.cohort)) =
    (s.coreAt c).map fun k => (k.f, k.busy, k.mem.data, k.mem.dir, k.cohort)

end Sys2Proof.Machine
end

