-- ==== Sys2Proof/Certificates/Slice0/Obligations.lean ====
section
/-!
DEFINITION. Sys2Proof/Certificates/Slice0/Obligations.lean: the statements for the provers, with the tables of instruction
forms that they range over. A table gives each form the value that the spec states for it.
-/
namespace Sys2Proof.Machine

/-! ### Tables of forms: registers -/

/-- Two-source forms of major 0x00 with the functions of Table 5.3. -/
def twoSourceForms (g : BitVec 3) (b a d : BitVec 5) (sp : Sp) : List (Instr × (Word → Word → Word)) :=
  [(.add g b a d sp, fun x y => BitVec.ofNat 64 (x.toNat + y.toNat)),
   (.sub g b a d sp, fun x y => BitVec.ofInt 64 ((x.toNat : Int) - y.toNat)),
   (.mul g b a d sp, fun x y => BitVec.ofNat 64 (x.toNat * y.toNat)),
   (.mulh g b a d sp, fun x y => BitVec.ofInt 64 (x.toInt * y.toInt / 2 ^ 64)),
   (.mulhn g b a d sp, fun x y => BitVec.ofNat 64 (x.toNat * y.toNat / 2 ^ 64)),
   (.div g b a d sp, fun x y => if y = 0#64 then BitVec.allOnes 64 else BitVec.ofInt 64 (x.toInt.tdiv y.toInt)),
   (.divn g b a d sp, fun x y => if y = 0#64 then BitVec.allOnes 64 else BitVec.ofNat 64 (x.toNat / y.toNat)),
   (.rem g b a d sp, fun x y => if y = 0#64 then x else BitVec.ofInt 64 (x.toInt.tmod y.toInt)),
   (.remn g b a d sp, fun x y => if y = 0#64 then x else BitVec.ofNat 64 (x.toNat % y.toNat)),
   (.and g b a d sp, fun x y => x &&& y),
   (.or g b a d sp, fun x y => x ||| y),
   (.xor g b a d sp, fun x y => x ^^^ y),
   (.shl g b a d sp, fun x y => BitVec.ofNat 64 (x.toNat * 2 ^ (y.toNat % 64))),
   (.shr g b a d sp, fun x y => BitVec.ofNat 64 (x.toNat / 2 ^ (y.toNat % 64))),
   (.sha g b a d sp, fun x y => BitVec.ofInt 64 (x.toInt / 2 ^ (y.toNat % 64))),
   (.rotl g b a d sp, fun x y => BitVec.ofNat 64 (x.toNat * 2 ^ (y.toNat % 64) + x.toNat / 2 ^ (64 - y.toNat % 64))),
   (.min g b a d sp, fun x y => if x.toInt ≤ y.toInt then x else y),
   (.max g b a d sp, fun x y => if y.toInt ≤ x.toInt then x else y),
   (.minn g b a d sp, fun x y => if x.toNat ≤ y.toNat then x else y),
   (.maxn g b a d sp, fun x y => if y.toNat ≤ x.toNat then x else y)]

/-- One-source forms of major 0x00 (Table 5.3). -/
def oneSourceForms (g : BitVec 3) (a d : BitVec 5) (sp : Sp) : List (Instr × (Word → Word)) :=
  [(.clz g a d sp, fun x => BitVec.ofNat 64 ((List.range 64).takeWhile fun k => !x.getLsbD (63 - k)).length),
   (.ctz g a d sp, fun x => BitVec.ofNat 64 ((List.range 64).takeWhile fun k => !x.getLsbD k).length),
   (.popc g a d sp, fun x => BitVec.ofNat 64 ((List.range 64).filter fun k => x.getLsbD k).length),
   (.bswap g a d sp, fun x => x.extractLsb' 0 8 ++ x.extractLsb' 8 8 ++ x.extractLsb' 16 8 ++ x.extractLsb' 24 8
      ++ x.extractLsb' 32 8 ++ x.extractLsb' 40 8 ++ x.extractLsb' 48 8 ++ x.extractLsb' 56 8)]

/-- Forms with an immediate, SEL, and the constant and bit-field forms (R86, R87, R90, R91), as functions of the predicate that SEL
names, of sa, of sb, and of the old sd. -/
def immediateForms (g : BitVec 3) (i : BitVec 14) (j : BitVec 19) (w p : BitVec 6) (b a d : BitVec 5) (sp : Sp) :
    List (Instr × (Bool → Word → Word → Word → Word)) :=
  [(.sel g b a d sp, fun c x y _ => if c then x else y),
   (.addi i a d sp, fun _ x _ _ => BitVec.ofInt 64 (x.toNat + i.toInt)),
   (.andi i a d sp, fun _ x _ _ => x &&& i.signExtend 64),
   (.ori i a d sp, fun _ x _ _ => x ||| i.zeroExtend 64),
   (.xori i a d sp, fun _ x _ _ => x ^^^ i.zeroExtend 64),
   (.shli w a d sp, fun _ x _ _ => BitVec.ofNat 64 (x.toNat * 2 ^ w.toNat)),
   (.shri w a d sp, fun _ x _ _ => BitVec.ofNat 64 (x.toNat / 2 ^ w.toNat)),
   (.shai w a d sp, fun _ x _ _ => BitVec.ofInt 64 (x.toInt / 2 ^ w.toNat)),
   (.movi j d sp, fun _ _ _ _ => BitVec.ofInt 64 j.toInt),
   (.movhi j d sp, fun _ _ _ z => BitVec.ofNat 64 (z.toNat * 2 ^ 19 + j.toNat)),
   (.ext w p a d sp, fun _ x _ _ => BitVec.ofNat 64 (x.toNat / 2 ^ p.toNat % 2 ^ (w.toNat + 1))),
   (.ins w p a d sp, fun _ x _ z => BitVec.ofFnLE fun k : Fin 64 =>
      if p.toNat ≤ k.val ∧ k.val ≤ p.toNat + w.toNat then x.getLsbD (k.val - p.toNat) else z.getLsbD k.val)]

/-- Compact register forms (Table 3.8) as functions of the old sd and of sa. -/
def compactForms (i : BitVec 6) (a d : BitVec 4) : List (Instr × (Word → Word → Word)) :=
  [(.addCompact a d, fun z x => z + x),
   (.subCompact a d, fun z x => z - x),
   (.andCompact a d, fun z x => z &&& x),
   (.orCompact a d, fun z x => z ||| x),
   (.xorCompact a d, fun z x => z ^^^ x),
   (.mulCompact a d, fun z x => z * x),
   (.shlCompact a d, fun z x => BitVec.ofNat 64 (z.toNat * 2 ^ (x.toNat % 64))),
   (.shrCompact a d, fun z x => BitVec.ofNat 64 (z.toNat / 2 ^ (x.toNat % 64))),
   (.shaCompact a d, fun z x => BitVec.ofInt 64 (z.toInt / 2 ^ (x.toNat % 64))),
   (.minCompact a d, fun z x => if z.toInt ≤ x.toInt then z else x),
   (.maxCompact a d, fun z x => if x.toInt ≤ z.toInt then z else x),
   (.minnCompact a d, fun z x => if z.toNat ≤ x.toNat then z else x),
   (.addiCompact i d, fun z _ => BitVec.ofInt 64 (z.toNat + i.toInt)),
   (.moviCompact i d, fun _ _ => BitVec.ofInt 64 i.toInt),
   (.shliCompact i d, fun z _ => BitVec.ofNat 64 (z.toNat * 2 ^ i.toNat)),
   (.shriCompact i d, fun z _ => BitVec.ofNat 64 (z.toNat / 2 ^ i.toNat)),
   (.shaiCompact i d, fun z _ => BitVec.ofInt 64 (z.toInt / 2 ^ i.toNat)),
   (.andiCompact i d, fun z _ => z &&& i.signExtend 64)]

/-- The conditions of Table 3.4. -/
def conditions : List (BitVec 4 × (Word → Word → Bool)) :=
  [(0#4, fun x y => x = y), (1#4, fun x y => x ≠ y), (2#4, fun x y => x.toInt < y.toInt), (3#4, fun x y => x.toInt ≤ y.toInt),
   (4#4, fun x y => y.toInt < x.toInt), (5#4, fun x y => y.toInt ≤ x.toInt), (6#4, fun x y => x.toNat < y.toNat),
   (7#4, fun x y => x.toNat ≤ y.toNat), (8#4, fun x y => y.toNat < x.toNat), (9#4, fun x y => y.toNat ≤ x.toNat)]

/-- PTRGET's selectors with the first bit and the width of the field each reads (Table 5.10). -/
def pointerFields : List (BitVec 5 × Nat × Nat) :=
  [(0#5, 0, 17), (1#5, 30, 2), (2#5, 32, 8), (3#5, 40, 8), (4#5, 56, 7), (5#5, 32, 16)]

/-- PTRADD of a byte count (R94). -/
def pointerSum (x : Word) (n : Int) : Word :=
  if x.getLsbD 63 then
    let o := ((x.toNat % 2 ^ 17 : Nat) : Int) + n
    BitVec.ofNat 64 (x.toNat / 2 ^ 18 * 2 ^ 18 + (if x.getLsbD 17 ∨ o < 0 ∨ 2 ^ 17 ≤ o then 2 ^ 17 else 0)
      + (o % 2 ^ 17).toNat)
  else BitVec.ofNat 64 (x.toNat / 2 ^ 57 * 2 ^ 57 + (((x.toNat : Int) + n) % 2 ^ 57).toNat)

/-- The charge that DIST and DISTA write for a distance in eighths of a millimetre (R95, R96). -/
def chargeWord (p : Partition) (v n : Word) (eighths : Nat) : Word :=
  if distInvalid p v then BitVec.allOnes 64 else BitVec.ofNat 64 (Nat.min ((8 * n.toNat + 64) * eighths) (2 ^ 64 - 1))

/-- The forms that carry a guard (R37, R52). -/
def guardedForms (g : BitVec 3) (o : BitVec 16) (i : BitVec 11) (c2 : BitVec 2) (m t4 : BitVec 3) (c4 : BitVec 4)
    (w t : BitVec 1) (b a d : BitVec 5) (sp : Sp) : List Instr :=
  (twoSourceForms g b a d sp).map Prod.fst ++ (oneSourceForms g a d sp).map Prod.fst
    ++ [.cmp g c4 b a d sp, .plog g c4 b a d sp, .mkptr g c2 a d sp, .ptrget g b a d sp, .ptradd g b a d sp,
      .dist g b a d sp, .dista g b a d sp, .ldx g c2 m b a d sp, .stx g c2 t4 b a d sp, .aadd g w b a d sp,
      .aand g w b a d sp, .aor g w b a d sp, .axor g w b a d sp, .amin g w b a d sp, .amax g w b a d sp,
      .aminn g w b a d sp, .amaxn g w b a d sp, .aswp g w b a d sp, .acas g w b a d sp, .afadd g t b a d sp,
      .aclaim g b a d sp, .fence g c2 sp, .br o g sp, .brz o g d sp, .brnz o g d sp, .loop o g d sp, .jr g a sp,
      .jlr g a d sp, .fin g sp, .trap g i sp]

/-! ### Tables of forms: control transfers -/

/-- A control transfer at a state: whether it is taken, its target, its length, and the register it writes when it is performed. -/
structure Transfer where
  instr : Instr
  taken : Bool
  target : Int
  len : Nat
  write : Option (BitVec 5 × Word)

/-- The transfers of R98 and R100 with their compact forms; `passed` tells that the guard is true. -/
def transfers (s : State) (o : BitVec 16) (j : BitVec 19) (o6 : BitVec 6) (o10 : BitVec 10) (g : BitVec 3) (a d : BitVec 5)
    (d4 : BitVec 4) (sp : Sp) : List Transfer :=
  let pc : Int := s.core.f.pc
  let n := BitVec.ofNat 64 (s.core.f.pc + spLen sp)
  let x := s.regs.getS d
  let y := s.regs.getS (d4.zeroExtend 5)
  let jump : Int := (s.regs.getS a).toNat
  [⟨.br o g sp, true, pc + 2 * o.toInt, spLen sp, none⟩,
   ⟨.brz o g d sp, x = 0#64, pc + 2 * o.toInt, spLen sp, none⟩,
   ⟨.brnz o g d sp, x ≠ 0#64, pc + 2 * o.toInt, spLen sp, none⟩,
   ⟨.loop o g d sp, x ≠ 1#64, pc + 2 * o.toInt, spLen sp, some (d, x - 1#64)⟩,
   ⟨.j j sp, true, pc + 2 * j.toInt, spLen sp, none⟩,
   ⟨.jl j d sp, true, pc + 2 * j.toInt, spLen sp, some (d, n)⟩,
   ⟨.jr g a sp, true, jump, spLen sp, none⟩,
   ⟨.jlr g a d sp, true, jump, spLen sp, some (d, n)⟩,
   ⟨.brzCompact o6 d4, y = 0#64, pc + 2 * o6.toInt, 2, none⟩,
   ⟨.brnzCompact o6 d4, y ≠ 0#64, pc + 2 * o6.toInt, 2, none⟩,
   ⟨.jCompact o10, true, pc + 2 * o10.toInt, 2, none⟩,
   ⟨.jrCompact d4, true, (y.toNat : Int), 2, none⟩]

/-- The registers after a transfer. -/
def Transfer.writes (f : Transfer) (s t : State) : Prop :=
  match f.write with
  | some (d, v) => WroteS s t d v
  | none => t.regs = s.regs

end Sys2Proof.Machine

open Sys2Proof Sys2Proof.Machine

/-! ### Registers and control -/

/-- R86: each register form of major 0x00 writes its function of sa and sb, or of sa alone, to sd, and nothing else changes. -/
def Obligations.RegisterFormsCompute : Prop :=
  ∀ (s : State) (g : BitVec 3) (b a d : BitVec 5) (sp : Sp), s.regs.getP g = true →
    (∀ f ∈ twoSourceForms g b a d sp,
      ∃ t, exec f.1 s = .next t ∧ Computed s t (spLen sp) d (f.2 (s.regs.getS a) (s.regs.getS b))) ∧
    ∀ f ∈ oneSourceForms g a d sp, ∃ t, exec f.1 s = .next t ∧ Computed s t (spLen sp) d (f.2 (s.regs.getS a))

/-- R86, R87, R90, R91: SEL, the immediate forms, MOVI, MOVHI, EXT and INS. -/
def Obligations.ImmediateFormsCompute : Prop :=
  ∀ (s : State) (g : BitVec 3) (i : BitVec 14) (j : BitVec 19) (w p : BitVec 6) (b a d : BitVec 5) (sp : Sp)
    (f : Instr × (Bool → Word → Word → Word → Word)), f ∈ immediateForms g i j w p b a d sp →
      ∃ t, exec f.1 s = .next t ∧
        Computed s t (spLen sp) d (f.2 (s.regs.getP g) (s.regs.getS a) (s.regs.getS b) (s.regs.getS d))

/-- R58, R59: the compact register forms compute on s0 to s15 and are two bytes long. -/
def Obligations.CompactFormsCompute : Prop :=
  ∀ (s : State) (i : BitVec 6) (a d : BitVec 4) (f : Instr × (Word → Word → Word)), f ∈ compactForms i a d →
    ∃ t, exec f.1 s = .next t ∧
      Computed s t 2 (d.zeroExtend 5) (f.2 (s.regs.getS (d.zeroExtend 5)) (s.regs.getS (a.zeroExtend 5)))

/-- R88, R89: CMP, CMPI and PLOG write one predicate, p0 excepted, and nothing else. -/
def Obligations.PredicateFormsCompute : Prop :=
  ∀ (s : State) (g : BitVec 3) (i : BitVec 10) (tt : BitVec 4) (b a d : BitVec 5) (sp : Sp)
    (c : BitVec 4 × (Word → Word → Bool)), c ∈ conditions →
    let imm : Word := if c.1.toNat ≤ 5 then i.signExtend 64 else i.zeroExtend 64
    let pa := s.regs.getP (a.setWidth 3)
    let pb := s.regs.getP (b.setWidth 3)
    ∀ f : Instr × Bool × Bool,
      f ∈ [(.cmp g c.1 b a d sp, s.regs.getP g, c.2 (s.regs.getS a) (s.regs.getS b)),
        (.cmpi i c.1 a d sp, true, c.2 (s.regs.getS a) imm),
        (.plog g tt b a d sp, s.regs.getP g, tt.getLsbD ((if pa then 2 else 0) + if pb then 1 else 0))] →
      f.2.1 = true →
      ∃ t, exec f.1 s = .next t ∧ Performed s t (spLen sp) ∧
        (∀ r, t.regs.getP r = if r = d.setWidth 3 ∧ r ≠ 0#3 then f.2.2 else s.regs.getP r) ∧
        t.regs.s = s.regs.s ∧ t.regs.i = s.regs.i ∧ t.regs.h = s.regs.h ∧ t.regs.e = s.regs.e

/-- R92, R93, R95 to R97: MKPTR, PTRGET, DIST and DISTA. DISTA's distance is the model's own function of the placement (log 64). -/
def Obligations.PointerFormsCompute : Prop :=
  ∀ (s : State) (g : BitVec 3) (c : BitVec 2) (b a d : BitVec 5) (sp : Sp) (q : BitVec 5 × Nat × Nat), q ∈ pointerFields →
    let x := s.regs.getS a
    let y := s.regs.getS b
    ∀ f : Instr × Word,
      f ∈ [(.mkptr g c a d sp, BitVec.ofNat 64 (2 ^ 63 + x.toNat / 2 ^ 56 % 2 ^ 7 * 2 ^ 56
          + x.toNat / 2 ^ 32 % 2 ^ 16 * 2 ^ 32 + c.toNat * 2 ^ 30)),
        (.ptrget g q.1 a d sp, BitVec.ofNat 64 (x.toNat / 2 ^ q.2.1 % 2 ^ q.2.2)),
        (.dist g b a d sp, chargeWord s.dev.part x y (nomEighths s.dev.part s.xy.1 s.xy.2 x)),
        (.dista g b a d sp, chargeWord s.dev.part x y (s.distaEighths x))] →
      s.regs.getP g = true → ∃ t, exec f.1 s = .next t ∧ Computed s t (spLen sp) d f.2

/-- R94: PTRADD adds a signed byte count to the address part of a pointer, marking an offset carried out of its field, and changes no
other field; it stops on no value. -/
def Obligations.PointerSums : Prop :=
  ∀ (s : State) (g : BitVec 3) (b a d : BitVec 5) (sp : Sp), s.regs.getP g = true →
    ∃ t, exec (.ptradd g b a d sp) s = .next t ∧
      Computed s t (spLen sp) d (pointerSum (s.regs.getS a) (s.regs.getS b).toInt)

/-- R37: an instruction whose guard is false has no effect: it is passed, with its mask words, and the region goes on. -/
def Obligations.FalseGuardPasses : Prop :=
  ∀ (s : State) (g : BitVec 3) (o : BitVec 16) (i : BitVec 11) (c2 : BitVec 2) (m t4 : BitVec 3) (c4 : BitVec 4)
    (w t1 : BitVec 1) (b a d : BitVec 5) (sp : Sp) (f : Instr), f ∈ guardedForms g o i c2 m t4 c4 w t1 b a d sp →
    s.regs.getP g = false →
      ∃ t, exec f s = .next t ∧ t.regs = s.regs ∧ Performed s t (spLen sp) ∧ t.net = s.net ∧
        t.core.f.region = s.core.f.region ∧ t.core.f.ckpt = s.core.f.ckpt ∧ t.core.scrim = s.core.scrim

/-- R11, R12: s0 reads zero and p0 reads true whatever is written to them, and a write changes the one register it names. -/
def Obligations.HardWiredRegisters : Prop :=
  ∀ (g : Regs) (r q : BitVec 5) (v : Word) (k j : BitVec 3) (c : Bool),
    (g.setS r v).getS q = (if q = r ∧ q ≠ 0#5 then v else g.getS q) ∧ g.getS 0#5 = 0#64 ∧
    (g.setP k c).getP j = (if j = k ∧ j ≠ 0#3 then c else g.getP j) ∧ g.getP 0#3 = true

/-- R98, R100, R59: a taken transfer to a parcel whose start bit is set goes there, LOOP writing the decremented count and JL and JLR
the link; one that is not taken goes on at the next instruction, LOOP having written zero. Nothing else changes. -/
def Obligations.TransfersGoOn : Prop :=
  ∀ (s : State) (o : BitVec 16) (j : BitVec 19) (o6 : BitVec 6) (o10 : BitVec 10) (g : BitVec 3) (a d : BitVec 5)
    (d4 : BitVec 4) (sp : Sp) (f : Transfer), f ∈ transfers s o j o6 o10 g a d d4 sp → s.regs.getP g = true →
    (f.taken = true → 0 ≤ f.target → s.core.startBit f.target.toNat = true →
      ∃ t, exec f.instr s = .next t ∧ t.core.f.pc = f.target.toNat ∧ f.writes s t ∧ t.core.f.ctl = s.core.f.ctl ∧
        Kept s t ∧ SameBytes s t) ∧
    (f.taken = false → ∃ t, exec f.instr s = .next t ∧ f.writes s t ∧ t.core.f.pc = s.core.f.pc + f.len ∧
      t.core.f.ctl = s.core.f.ctl ∧ Kept s t ∧ SameBytes s t)

/-- R47, R98, R100: a taken transfer to a place that is no instruction stops with MISFETCH before any register is written. -/
def Obligations.BadTargetsMisfetch : Prop :=
  ∀ (s : State) (o : BitVec 16) (j : BitVec 19) (o6 : BitVec 6) (o10 : BitVec 10) (g : BitVec 3) (a d : BitVec 5)
    (d4 : BitVec 4) (sp : Sp) (f : Transfer) (entry : Nat), f ∈ transfers s o j o6 o10 g a d d4 sp →
    s.regs.getP g = true → f.taken = true → (f.target < 0 ∨ s.core.startBit f.target.toNat = false) →
    StopEntry s causeMisfetch entry →
      ∃ t, exec f.instr s = .next t ∧
        StopTaken s t causeMisfetch s.core.f.pc (s.core.f.pc + f.len) (BitVec.ofInt 64 f.target) entry

/-- R101: FIN ends the firing: the pipeline is free, the per-firing state is gone, its region's entries have left the core's banks, and
the messages it held leave. -/
def Obligations.FinEndsTheFiring : Prop :=
  ∀ (s : State) (g : BitVec 3) (sp : Sp) (f : Instr), f ∈ [.fin g sp, .finCompact] → s.regs.getP g = true →
    s.lone →
      ∃ t, exec f s = .next t ∧ t.core.busy = false ∧ t.core.f = { Firing.reset with serial := s.core.f.serial } ∧
        (∀ e ∈ t.core.scrim, e.foreign s.agent = true) ∧
        (∀ e ∈ t.core.q.sendReq ++ t.core.q.sendRep, e.by_ ≠ some s.core.f.serial) ∧
        t.others = s.others ∧ SameBytes s t

/-- R148, R147, R37: TRAP stops with cause TRAP and TADDR := code; with a false guard it does nothing.
R147: a stop in a firing whose ACT is 1, or whose table has no entry for the cause, ends the firing: its region is discarded, and a
notice of kind 1 goes to a fault sink that the launch names. -/
def Obligations.TrapStops : Prop :=
  (∀ (s : State) (g : BitVec 3) (code : BitVec 11) (sp : Sp) (entry : Nat), StopEntry s causeTrap entry →
    ∃ t, exec (.trap g code sp) s = .next t ∧
      (s.regs.getP g = true →
        StopTaken s t 11 s.core.f.pc (s.core.f.pc + spLen sp) (BitVec.ofNat 64 code.toNat) entry) ∧
      (s.regs.getP g = false → t.regs = s.regs ∧ Performed s t (spLen sp) ∧ t.core.f.region = s.core.f.region)) ∧
  ∀ (s : State) (g : BitVec 3) (code : BitVec 11) (sp : Sp), s.regs.getP g = true →
    (s.core.f.ctl.act = true ∨ s.stopEntry causeTrap = none) →
      ∃ t, exec (.trap g code sp) s = .next t ∧ t.core.busy = false ∧
        t.core.f = { Firing.reset with serial := s.core.f.serial } ∧
        (∀ e ∈ t.core.scrim, e.foreign s.agent = true) ∧ SameBytes s t ∧
        ∀ l, s.dev.seq.launchOf s.core.f.lhnd = some l → recSinkV l.rcd = true → l.ended = false →
          s.core.q.notices.length < 8 →
          ∃ n, t.core.q.notices = s.core.q.notices ++ [n] ∧
            n.1 = .mesh (BitVec.ofNat 8 (recSinkX l.rcd)) (BitVec.ofNat 8 (recSinkY l.rcd)) ∧
            field (n.2.2.getD 0 0#64) 0 8 = 1 ∧ field (n.2.2.getD 0 0#64) 8 8 = 11 ∧
            n.2.2.getD 1 0#64 = BitVec.ofNat 64 (2 ^ 63 + s.core.f.pc % 2 ^ 15) ∧
            n.2.2.getD 2 0#64 = BitVec.ofNat 64 code.toNat ∧ n.2.2.getD 3 0#64 = s.core.f.serial

/-- R149, R147: TRET clears ACT and goes on at TPC or TNPC; it stops with ILLEGAL when ACT = 0 or k > 1, and a target that is no
instruction stops with MISFETCH; a stop with ACT = 1 ends the firing. -/
def Obligations.TretReturns : Prop :=
  ∀ (s : State) (k : BitVec 11) (sp : Sp),
    let target := if k = 0#11 then s.core.f.ctl.tpc.toNat else s.core.f.ctl.tnpc.toNat
    (s.core.f.ctl.act = true → k.toNat < 2 → s.core.startBit target = true →
      ∃ t, exec (.tret k sp) s = .next t ∧ t.core.f.pc = target ∧ t.core.f.ctl = { s.core.f.ctl with act := false } ∧
        t.regs = s.regs ∧ Kept s t ∧ SameBytes s t) ∧
    (s.core.f.ctl.act = true → (2 ≤ k.toNat ∨ s.core.startBit target = false) →
      ∃ t, exec (.tret k sp) s = .next t ∧ t.core.busy = false ∧ SameBytes s t) ∧
    ∀ entry, StopEntry s causeIllegal entry →
      ∃ t, exec (.tret k sp) s = .next t ∧ StopTaken s t 1 s.core.f.pc (s.core.f.pc + spLen sp)
        (encWord (.tret k sp)) entry

/-- R60: an encoding that is no instruction stops with ILLEGAL, and TADDR receives the encoding. -/
def Obligations.ReservedEncodingsAreIllegal : Prop :=
  ∀ (s : State) (enc : BitVec 32) (len entry : Nat), StopEntry s causeIllegal entry →
    ∃ t, exec (.reservedEncoding enc len) s = .next t ∧
      StopTaken s t 1 s.core.f.pc (s.core.f.pc + len) (BitVec.ofNat 64 enc.toNat) entry

/-- R145, R277: SAFE does nothing but carry a safe point: with S and no remote store held, a new region opens behind it, whose checkpoint
holds the registers, flags and pc as they stand. -/
def Obligations.SafePointOpensARegion : Prop :=
  ∀ (s : State) (sp : Sp),
    ∃ t, exec (.safe sp) s = .next t ∧ t.regs = s.regs ∧ Performed s t (spLen sp) ∧
      (sp = none → t.core.f.region = s.core.f.region ∧ t.core.f.ckpt = s.core.f.ckpt ∧ t.net = s.net) ∧
      ∀ m, sp = some m → s.core.f.region.held = [] → s.stopDue = false →
        t.core.f.region = { gen := s.core.f.region.gen + 1#8, rmap := 0#96, touched := [], held := [] } ∧
        t.core.f.ckpt = { regs := s.regs, live := liveOf m, ctl := s.core.f.ctl, pc := s.core.f.pc + spLen sp } ∧
        ∀ e ∈ t.core.scrim, e.foreign s.agent = true

namespace Sys2Proof.Machine

/-! ### Tables of forms: memory -/

/-- The value that a load of a memory type writes (R54, R111): types 0 to 3 sign-extend, 4 to 7 zero-extend. -/
def extended (m : BitVec 3) (bs : List Byte) : Word :=
  let x : BitVec (8 * 2 ^ (m.toNat % 4)) := BitVec.ofNat _ (bytesToNat bs)
  if m.toNat < 4 then x.signExtend 64 else x.zeroExtend 64

/-- A plain access at a state: its address, size and alignment, its length, and its safe point. -/
structure PlainForm where
  instr : Instr
  addr : Word
  size : Nat
  align : Nat
  len : Nat

/-- Plain loads into one s register: the form, and the value it makes of the bytes (R111, R58). -/
def loadForms (s : State) (i : BitVec 11) (g : BitVec 3) (c : BitVec 2) (m : BitVec 3) (k : BitVec 2) (b a : BitVec 5)
    (a4 : BitVec 4) (d : BitVec 5) (d4 : BitVec 4) (sp : Sp) : List (PlainForm × BitVec 5 × (List Byte → Word)) :=
  [(⟨.ld i m a d sp, ptrAdd (s.regs.getS a) i.toInt, 2 ^ (m.toNat % 4), 1, spLen sp⟩, d, extended m),
   (⟨.ldx g c m b a d sp, ptrAdd (s.regs.getS a)
      ((s.regs.getS b).toInt * (if c = 1#2 then ((2 ^ (m.toNat % 4) : Nat) : Int) else 1)),
      2 ^ (m.toNat % 4), 1, spLen sp⟩, d, extended m),
   (⟨.ldN64Compact k a4 d4, ptrAdd (s.regs.getS (a4.zeroExtend 5)) (8 * k.toNat), 8, 1, 2⟩, d4.zeroExtend 5, extended 7#3),
   (⟨.ldN32Compact k a4 d4, ptrAdd (s.regs.getS (a4.zeroExtend 5)) (4 * k.toNat), 4, 1, 2⟩, d4.zeroExtend 5, extended 6#3),
   (⟨.ldi i m a d sp, ptrAdd (s.regs.getS a) i.toInt, 2 ^ (m.toNat % 4), 1, spLen sp⟩, d, extended m)]

/-- Plain stores with the bytes they store (R111, R170, R58). -/
def storeForms (s : State) (i : BitVec 11) (g : BitVec 3) (c : BitVec 2) (m : BitVec 3) (k : BitVec 2) (b a : BitVec 5)
    (a4 : BitVec 4) (d : BitVec 5) (d4 : BitVec 4) (sp : Sp) : List (PlainForm × List Byte) :=
  let n := 2 ^ (m.toNat % 4)
  let word (r : BitVec 5) (n : Nat) : List Byte := natToBytes n (s.regs.getS r).toNat
  [(⟨.st i m a d sp, ptrAdd (s.regs.getS a) i.toInt, n, 1, spLen sp⟩, word d n),
   (⟨.stx g c m b a d sp, ptrAdd (s.regs.getS a) ((s.regs.getS b).toInt * (if c = 1#2 then ((n : Nat) : Int) else 1)),
      n, 1, spLen sp⟩, word d n),
   (⟨.stp i m a d sp, ptrAdd (s.regs.getS a) i.toInt, 16, 8, spLen sp⟩, word d 8 ++ word (d + 1#5) 8),
   (⟨.stN64Compact k a4 d4, ptrAdd (s.regs.getS (a4.zeroExtend 5)) (8 * k.toNat), 8, 1, 2⟩, word (d4.zeroExtend 5) 8),
   (⟨.stN32Compact k a4 d4, ptrAdd (s.regs.getS (a4.zeroExtend 5)) (4 * k.toNat), 4, 1, 2⟩, word (d4.zeroExtend 5) 4),
   (⟨.shst a d sp, s.regs.getS a, 32, 8, spLen sp⟩, natToBytes 32 (s.regs.getH (d.setWidth 4)).toNat)]

/-- One packet more is in the network, from the core in focus. -/
def Sent (s t : State) (dst : CoreId) (net : Net) (b : Body) : Prop :=
  t.net = s.net ++ [s.core.packet s.dev.part dst net b]

/-- A region has opened at the pc with every register live (R277). -/
structure Opened (s t : State) : Prop where
  region : t.core.f.region = Region.fresh (s.core.f.region.gen + 1#8)
  ckpt : t.core.f.ckpt = { regs := s.regs, live := .all, ctl := s.core.f.ctl, pc := s.core.f.pc }
  regs : t.regs = s.regs
  pc : t.core.f.pc = s.core.f.pc
  flags : t.core.f.ctl = s.core.f.ctl
  bytes : SameBytes s t

/-- Plain loads with the registers that each leaves of its bytes (R111, R170, R58). -/
def plainLoads (s : State) (i : BitVec 11) (g : BitVec 3) (c : BitVec 2) (m : BitVec 3) (k : BitVec 2) (b a : BitVec 5)
    (a4 : BitVec 4) (d : BitVec 5) (d4 : BitVec 4) (sp : Sp) : List (PlainForm × (List Byte → Regs)) :=
  let n := 2 ^ (m.toNat % 4)
  let word (bs : List Byte) : Word := BitVec.ofNat 64 (bytesToNat bs)
  let put (d : BitVec 5) (m : BitVec 3) (bs : List Byte) : Regs := s.regs.setS d (extended m bs)
  [(⟨.ld i m a d sp, ptrAdd (s.regs.getS a) i.toInt, n, 1, spLen sp⟩, put d m),
   (⟨.ldx g c m b a d sp, ptrAdd (s.regs.getS a) ((s.regs.getS b).toInt * (if c = 1#2 then ((n : Nat) : Int) else 1)),
      n, 1, spLen sp⟩, put d m),
   (⟨.ldN64Compact k a4 d4, ptrAdd (s.regs.getS (a4.zeroExtend 5)) (8 * k.toNat), 8, 1, 2⟩, put (d4.zeroExtend 5) 7#3),
   (⟨.ldN32Compact k a4 d4, ptrAdd (s.regs.getS (a4.zeroExtend 5)) (4 * k.toNat), 4, 1, 2⟩, put (d4.zeroExtend 5) 6#3),
   (⟨.ldp i m a d sp, ptrAdd (s.regs.getS a) i.toInt, 16, 8, spLen sp⟩,
      fun bs => (s.regs.setS d (word (bs.take 8))).setS (d + 1#5) (word (bs.drop 8)))]
    ++ if a = 0#5 then [] else
      [(⟨.shld i a d sp, s.regs.getS a, 32, 8, spLen sp⟩,
        fun bs => s.regs.setH (d.setWidth 4) (BitVec.ofNat 256 (bytesToNat bs)))]

/-- Bytes of the next part of a plain access of `n` bytes at a key, `done` of them done: what lies in one sector and in one half of 16
bytes (R111, R170). -/
def nextPart (key done n : Nat) : Nat := Nat.min (n - done) (Nat.min (32 - (key + done) % 32) (16 - done % 16))

/-- A plain local access of `n` bytes at `v` goes on, its first bytes, `got`, done already; `m` bytes come next. -/
structure PartReady (s : State) (v : Word) (n align : Nat) (write : Bool) (got : List Byte) (m : Nat) : Prop where
  mesh : bit v 63 = true
  isLocal : s.isLocal v = true
  checks : s.accessStop v n write align 0 = none
  calm : Undisturbed s write [(ptrKey v, n)]
  part : s.core.f.partDone = got
  left : got.length < n
  bank : ∃ table, Granted s (ptrKey v + got.length) m write table
  unread : write = true → s.core.f.region.reads (ptrKey v + got.length) (n - got.length) = false
  sent : write = true → s.core.unsent = false

/-- The next step of the machine is an ordinary one again. -/
def State.untorn (s : State) : State := { s with core := { s.core with tear := false } }

/-- The integer atomics with their operations and the new value each gives for a width in bits (R115). -/
def integerAtomics (g : BitVec 3) (w : BitVec 1) (b a d : BitVec 5) (sp : Sp) :
    List (Instr × AOp × (Nat → Nat → Nat → Nat → Nat)) :=
  [(.aadd g w b a d sp, .add, fun k x y _ => (x + y) % 2 ^ k),
   (.aand g w b a d sp, .and, fun _ x y _ => x &&& y),
   (.aor g w b a d sp, .or, fun _ x y _ => x ||| y),
   (.axor g w b a d sp, .xor, fun _ x y _ => x ^^^ y),
   (.amin g w b a d sp, .min, fun k x y _ => if signedOf k x ≤ signedOf k y then x else y),
   (.amax g w b a d sp, .max, fun k x y _ => if signedOf k x ≤ signedOf k y then y else x),
   (.aminn g w b a d sp, .minn, fun _ x y _ => if x ≤ y then x else y),
   (.amaxn g w b a d sp, .maxn, fun _ x y _ => if x ≤ y then y else x),
   (.aswp g w b a d sp, .swp, fun _ _ y _ => y),
   (.acas g w b a d sp, .cas, fun _ x y e => if x = e then y else x)]

/-- The value of a counter of the core's own memory. -/
def State.nat64 (s : State) (key : Nat) : Nat := bytesToNat (s.core.readBytes key 8)

end Sys2Proof.Machine

/-! ### Plain loads and stores -/

/-- R103, R111, R112, R58: a plain local load that nothing holds back reads its bytes through the windows and extends them into its
register, LDP taking 16 bytes at a multiple of 8 into sd and s(d+1); memory and everything else stay. Of a sector with an uncorrectable
error, a read of which is a machine check too (R282), it says nothing.
R170, R250: a load, SHLD among them, may be performed part by part, each within one sector and one half of 16 bytes, at an instant of
its own: a part reads its bytes and writes no register, and the last one completes the load with all of them. That a step's mark chooses
between the two is the model's form (log 15). -/
def Obligations.LocalLoadsRead : Prop :=
  ∀ (s : State) (i : BitVec 11) (g : BitVec 3) (c : BitVec 2) (m : BitVec 3) (k : BitVec 2) (b a : BitVec 5) (a4 : BitVec 4)
    (d : BitVec 5) (d4 : BitVec 4) (sp : Sp),
    let v := ptrAdd (s.regs.getS a) i.toInt
    let word (k : Nat) : Word := BitVec.ofNat 64 (bytesToNat (s.core.readBytes (ptrKey v + k) 8))
    (∀ f ∈ loadForms s i g c m k b a a4 d d4 sp, s.regs.getP g = true → LocalReady s f.1.addr f.1.size f.1.align false →
      ∃ t, exec f.1.instr s = .next t ∧
        Computed s t f.1.len f.2.1 (f.2.2 (s.core.readBytes (ptrKey f.1.addr) f.1.size))) ∧
    (LocalReady s v 16 8 false →
      ∃ t, exec (.ldp i m a d sp) s = .next t ∧ Performed s t (spLen sp) ∧ t.regs.p = s.regs.p ∧ t.regs.i = s.regs.i ∧
        t.regs.h = s.regs.h ∧ t.regs.e = s.regs.e ∧
        ∀ r, t.regs.getS r = if r = 0#5 then 0#64 else if r = d + 1#5 then word 8 else if r = d then word 0
          else s.regs.getS r) ∧
    ∀ f ∈ plainLoads s i g c m k b a a4 d d4 sp, s.regs.getP g = true → ∀ got,
      let key := ptrKey f.1.addr
      let n := f.1.size
      let p := nextPart key got.length n
      (s.core.tear = true → p < n - got.length → PartReady s f.1.addr n f.1.align false got p →
        ∃ t, exec f.1.instr s = .next t ∧ t.core.f.wait = .part (got ++ s.core.readBytes (key + got.length) p) ∧
          t.core.tear = false ∧ t.core.f.pc = s.core.f.pc ∧ t.regs = s.regs ∧ t.core.f.ctl = s.core.f.ctl ∧
          Kept s.untorn t ∧ SameBytes s t) ∧
      ((s.core.tear = false ∨ p = n - got.length) → PartReady s f.1.addr n f.1.align false got (n - got.length) →
        ∃ t, exec f.1.instr s = .next t ∧
          t.regs = f.2 (got ++ s.core.readBytes (key + got.length) (n - got.length)) ∧ Performed s t f.1.len)

/-- R103, R111, R170, R58: a plain local store puts its bytes at its address through the windows; no byte outside them changes, and no
register or flag does.
R250: it may be performed part by part, each within one sector and one half of 16 bytes, at an instant of its own; the last part
completes it. That a step's mark chooses between the two is the model's form (log 15).
R278, R108: a store into a block that its region has read takes an implicit checkpoint first: a region with every register live opens at
the store, whose own entries at the core's banks are gone, and before that the probes of the region's held stores go out; the store
itself has not acted yet. -/
def Obligations.LocalStoresWrite : Prop :=
  ∀ (s : State) (i : BitVec 11) (g : BitVec 3) (c : BitVec 2) (m : BitVec 3) (k : BitVec 2) (b a : BitVec 5) (a4 : BitVec 4)
    (d : BitVec 5) (d4 : BitVec 4) (sp : Sp),
    (∀ f ∈ storeForms s i g c m k b a a4 d d4 sp, s.regs.getP g = true → LocalReady s f.1.addr f.1.size f.1.align true →
      ∃ t, exec f.1.instr s = .next t ∧ t.core.f.pc = s.core.f.pc + f.1.len ∧ t.regs = s.regs ∧
        t.core.f.ctl = s.core.f.ctl ∧ f.2.length = f.1.size ∧ Stored s t (ptrKey f.1.addr) f.2 ∧ KeptButBuffers s t) ∧
    ∀ f ∈ storeForms s i g c m k b a a4 d d4 sp, s.regs.getP g = true → ∀ got,
      let key := ptrKey f.1.addr
      let n := f.1.size
      let p := nextPart key got.length n
      (s.core.tear = true → p < n - got.length → PartReady s f.1.addr n f.1.align true got p →
        ∃ t, exec f.1.instr s = .next t ∧ t.core.f.wait = .part (f.2.take (got.length + p)) ∧ t.core.tear = false ∧
          t.core.f.pc = s.core.f.pc ∧ t.regs = s.regs ∧ t.core.f.ctl = s.core.f.ctl ∧
          Stored s t (key + got.length) ((f.2.drop got.length).take p) ∧ KeptButBuffers s.untorn t) ∧
      ((s.core.tear = false ∨ p = n - got.length) → PartReady s f.1.addr n f.1.align true got (n - got.length) →
        ∃ t, exec f.1.instr s = .next t ∧ t.core.f.pc = s.core.f.pc + f.1.len ∧ t.regs = s.regs ∧
          t.core.f.ctl = s.core.f.ctl ∧ Stored s t (key + got.length) (f.2.drop got.length) ∧ KeptButBuffers s t) ∧
      (bit f.1.addr 63 = true → s.isLocal f.1.addr = true → s.accessStop f.1.addr n true f.1.align 0 = none →
        Undisturbed s true [(key, n)] → s.core.unsent = false → s.core.f.partDone = got →
        s.core.f.region.reads (key + got.length) (n - got.length) = true →
        (s.core.f.region.held = [] → s.stopDue = false →
          ∃ t, exec f.1.instr s = .next t ∧ Opened s t ∧ ∀ e ∈ t.core.scrim, e.foreign s.agent = true) ∧
        ((∃ h ∈ s.core.f.region.held, h.inBuffer = true) →
          ∃ t toks, exec f.1.instr s = .next t ∧ t.core.f.wait = .probes toks (.boundary .all) ∧ toks ≠ [] ∧
            t.core.f.pc = s.core.f.pc ∧ t.regs = s.regs ∧ SameBytes s t))

/-- R111, R170, R107, R21, R105, R58: a plain remote load, SHLD among them, asks part by part: the first time and after each part but the
last it sends a request for the next one to the core that its address names, and waits for the reply; when the last part has come, it
takes the bytes, with the firing's own held stores laid over them, and pays its charge. That the waiting load is a field of its own is
the model's form (log 6).
R107, R108: a plain remote store that the outbound queue has room for is held there with its bytes, part by part, and stored nowhere;
one that carries S then ends its region, and the probes of all its held stores leave or wait to leave.
R112, R230: a remote LDI takes its bytes from the invariant cache when they are all there; else it asks for the first sector that is
missing, or waits for it when it is on its way already. -/
def Obligations.RemoteAccesses : Prop :=
  ∀ (s : State) (i : BitVec 11) (g : BitVec 3) (c : BitVec 2) (m : BitVec 3) (k : BitVec 2) (b a : BitVec 5) (a4 : BitVec 4)
    (d : BitVec 5) (d4 : BitVec 4) (sp : Sp),
    let charge (f : PlainForm) : Nat := grains f.size (nomEighths s.dev.part s.xy.1 s.xy.2 f.addr)
    let paid (f : PlainForm) : Ctl := { s.core.f.ctl with mnom := satAdd s.core.f.ctl.mnom (charge f) }
    let remote (f : PlainForm) (write : Bool) : Prop :=
      bit f.addr 63 = true ∧ s.isLocal f.addr = false ∧ s.accessStop f.addr f.size write f.align (charge f) = none
    s.regs.getP g = true →
    (∀ f ∈ plainLoads s i g c m k b a a4 d d4 sp, remote f.1 false →
      (∀ got, (s.core.f.wait = .none ∧ got = [] ∨ ∃ old bs, s.core.f.wait = .replied (.data bs) old ∧ got = old ++ bs) →
        got.length < f.1.size → s.core.ack.waiting = [] → s.core.f.region.banks.length < 64 →
        let at_ := ptrKey f.1.addr + got.length
        let p := nextPart (ptrKey f.1.addr) got.length f.1.size
        ∃ t, exec f.1.instr s = .next t ∧
          Sent s t (ptrCore f.1.addr) .req (.access s.dev.nextTok s.agent s.core.f.pc at_ (.read p) none (some p)) ∧
          t.core.f.wait = .reply s.dev.nextTok got ∧ t.core.f.pc = s.core.f.pc ∧ t.regs = s.regs ∧
          t.core.f.ctl = s.core.f.ctl ∧ SameBytes s t) ∧
      (∀ bs old, s.core.f.wait = .replied (.data bs) old → old.length + bs.length = f.1.size →
        ∃ t, exec f.1.instr s = .next t ∧ t.core.f.pc = s.core.f.pc + f.1.len ∧
          t.regs = f.2 (overlay s.core.f.region.held (ptrCore f.1.addr) (ptrKey f.1.addr) (old ++ bs)) ∧
          t.core.f.ctl = paid f.1 ∧ Kept s t ∧ SameBytes s t)) ∧
    (∀ f ∈ storeForms s i g c m k b a a4 d d4 sp, remote f.1 true → s.core.f.region.held.length ≤ 28 →
      s.core.f.region.banks.length ≤ 60 →
      ∃ t new, exec f.1.instr s = .next t ∧ t.core.f.pc = s.core.f.pc + f.1.len ∧ t.regs = s.regs ∧ SameBytes s t ∧
        t.core.f.ctl = paid f.1 ∧ Kept s t ∧ new.flatMap Held.data = f.2 ∧
        (∀ h ∈ new, h.tgt = ptrCore f.1.addr ∧ h.ea = f.1.addr ∧ h.pc = s.core.f.pc ∧ h.space = .buffer) ∧
        (∀ j, j < new.length → (new.map Held.key).getD j 0 = ptrKey f.1.addr + ((new.take j).flatMap Held.data).length) ∧
        t.core.f.region.held = s.core.f.region.held ++ new ∧
        (f.1.len = 2 ∨ sp = none → t.net = s.net ∧ t.core.f.wait = .none) ∧
        ∀ l, f.1.len ≠ 2 → sp = some l →
          (∃ toks, t.core.f.wait = .probes toks (.boundary (liveOf l)) ∧
            toks.length = (t.core.f.region.held.filter Held.inBuffer).length) ∧
          ∀ h ∈ t.core.f.region.held, h.inBuffer = true → ∃ tok,
            let probe : Body := .probe tok s.agent h.pc h.key h.data
            (∃ p ∈ t.net, p.src = s.core.id ∧ p.dst = h.tgt ∧ p.body = probe) ∨
              (h.tgt, AckClass.probe, probe) ∈ t.core.ack.waiting) ∧
    let f : PlainForm := ⟨.ldi i m a d sp, ptrAdd (s.regs.getS a) i.toInt, 2 ^ (m.toNat % 4), 1, spLen sp⟩
    let key := ptrKey f.addr
    let tgt := ptrCore f.addr
    let inv := s.core.phys.inv
    remote f false →
    (∀ bs table, invRead tgt key f.size ([key / 32 * 32, (key + f.size - 1) / 32 * 32].dedup) inv = .ok (bs, table) →
      ∃ t, exec f.instr s = .next t ∧ t.core.f.pc = s.core.f.pc + f.len ∧
        WroteS s t d (extended m (overlay s.core.f.region.held tgt key bs)) ∧ t.core.f.ctl = paid f ∧ SameBytes s t ∧
        Kept { s with core := { s.core with phys := { s.core.phys with inv := table } } } t) ∧
    ∀ sk, invRead tgt key f.size ([key / 32 * 32, (key + f.size - 1) / 32 * 32].dedup) inv = .error sk →
      s.core.f.wait = .none → s.core.ack.waiting = [] →
      let fetch := s.core.phys.fetches.find? fun f => f.id = tgt && f.key = sk
      ∃ t, exec f.instr s = .next t ∧ t.core.f.pc = s.core.f.pc ∧ t.regs = s.regs ∧ SameBytes s t ∧ t.core.phys.inv = inv ∧
        (∀ x, fetch = some x → t.net = s.net ∧ t.core.f.wait = .reply x.tok []) ∧
        (fetch = none → t.core.f.wait = .reply s.dev.nextTok [] ∧
          t.core.phys.fetches = s.core.phys.fetches ++ [⟨s.dev.nextTok, tgt, sk⟩] ∧
          Sent s t tgt .req (.access s.dev.nextTok s.agent s.core.f.pc (Nat.max key sk) (.readInv 32) none (some f.size)))

/-- R170, R171, Table 8.4: SHLD loads a shape register from the record table or from 32 bytes of the core's buffers; SHMOD replaces the
field that its selector names, selector 1 moving BASE by elements of a byte-sized type. The other bits of the record, the other shape
registers and everything else stay. -/
def Obligations.ShapeForms : Prop :=
  ∀ (s : State) (i : BitVec 11) (a d : BitVec 5) (sp : Sp),
    let old := s.regs.getH (d.setWidth 4)
    let v := s.regs.getS a
    let done (f : Instr) (x : BitVec 256) : Prop :=
      ∃ t, exec f s = .next t ∧ Performed s t (spLen sp) ∧
        t.regs = { s.regs with h := s.regs.h.set (d.setWidth 4 : BitVec 4).toNat x }
    (∀ r, (a = 0#5 ∧ s.dev.image.shapes[i.toNat]? = some r ∨ a ≠ 0#5 ∧ LocalReady s v 32 8 false ∧
        r = BitVec.ofNat 256 (bytesToNat (s.core.readBytes (ptrKey v) 32))) → done (.shld i a d sp) r) ∧
    (∀ f : Nat × Nat × Nat,
      f ∈ [(0, 0, 64), (2, 128, 16), (3, 144, 16), (4, 160, 16), (5, 176, 16), (6, 192, 16), (7, 208, 16), (8, 224, 16),
        (9, 240, 16), (10, 64, 5), (11, 72, 4), (12, 96, 32)] →
      ∃ x : BitVec 256, done (.shmod (BitVec.ofNat 11 f.1) a d sp) x ∧ ∀ k, x.getLsbD k =
        if f.2.1 ≤ k ∧ k < f.2.1 + f.2.2 then v.getLsbD (k - f.2.1) else old.getLsbD k) ∧
    (∀ ty, ETy.ofCode (shTypeCode old) = some ty → (∀ m, ty ≠ .q m) →
      done (.shmod 1#11 a d sp) (setField old 0 64 (ptrAdd (shBase old) (v.toInt * ty.size)).toNat))

/-! ### Sync accesses -/

/-- R110, R113, R115, R67: an atomic on the core's own bank that nothing holds back stores the new value, writes the old one,
zero-extended, and leaves every other byte and register; AFADD adds in f32 or bf16 with RNE and ORs its flags into FSTAT. The payload
is local, so nothing is charged.
R116: ACLAIM on the core's own bank returns the next index and a chunk, and moves the index on by it. -/
def Obligations.LocalAtomicsAndClaims : Prop :=
  (∀ (s : State) (g : BitVec 3) (w : BitVec 1) (b a d : BitVec 5) (sp : Sp), s.regs.getP g = true → InOrder s →
    let v := s.regs.getS a
    let y := s.regs.getS b
    let z := s.regs.getS d
    let done (t : State) (n old new : Nat) (fl : Flags) : Prop :=
      t.core.f.pc = s.core.f.pc + spLen sp ∧ WroteS s t d (BitVec.ofNat 64 old) ∧
        t.core.f.ctl = { s.core.f.ctl with fstat := s.core.f.ctl.fstat ||| fl } ∧ KeptButBuffers s t ∧
        Stored s t (ptrKey v) (natToBytes n new)
    (∀ f ∈ integerAtomics g w b a d sp,
      let n := if w = 1#1 then 4 else 8
      let old := bytesToNat (s.core.readBytes (ptrKey v) n)
      SyncReady s v n n (.atomic f.2.1 n y z) →
      ∃ t, exec f.1 s = .next t ∧
        done t n old (f.2.2 (8 * n) old (y.toNat % 2 ^ (8 * n)) (z.toNat % 2 ^ (8 * n))) 0#6) ∧
    (let n := if w = 1#1 then 2 else 4
      let old := bytesToNat (s.core.readBytes (ptrKey v) n)
      let sum := lane .add (if w = 1#1 then .bf16 else .f32) .rne old (y.toNat % 2 ^ (8 * n)) 0
      SyncReady s v n n (.atomic (if w = 1#1 then .faddBF16 else .faddF32) n y z) →
      ∃ t, exec (.afadd g w b a d sp) s = .next t ∧ done t n old sum.1 sum.2)) ∧
  ∀ (s : State) (g : BitVec 3) (b a d : BitVec 5) (sp : Sp), s.regs.getP g = true → InOrder s →
    let v := s.regs.getS a
    let w := s.regs.getS b
    let next := s.nat64 (ptrKey v)
    let left := s.nat64 (ptrKey v + 8) - next
    let minc := Nat.max (w.toNat % 2 ^ 32) 1
    let p := Nat.max (w.toNat / 2 ^ 32 % 2 ^ 16) 1
    let chunk := Nat.min left (Nat.max minc ((left + p - 1) / p))
    w.toNat < 2 ^ 48 → SyncReady s v 16 16 (.claim (w.toNat % 2 ^ 32) (w.toNat / 2 ^ 32 % 2 ^ 16)) →
      ∃ t, exec (.aclaim g b a d sp) s = .next t ∧ t.core.f.pc = s.core.f.pc + spLen sp ∧
        (∀ r, t.regs.getS r = if r = 0#5 then 0#64 else if r = d + 1#5 then BitVec.ofNat 64 chunk
          else if r = d then BitVec.ofNat 64 next else s.regs.getS r) ∧
        t.regs.p = s.regs.p ∧ t.core.f.ctl = s.core.f.ctl ∧ KeptButBuffers s t ∧
        Stored s t (ptrKey v) (natToBytes 8 (next + chunk))

/-- R113, R114: a local LDA reads and a local STL writes at once behind the drain, and a FENCE whose counts stand at zero goes on; LDA and
FENCE change no byte. -/
def Obligations.AcquireReleaseFence : Prop :=
  ∀ (s : State) (i : BitVec 11) (m : BitVec 3) (g : BitVec 3) (sc : BitVec 2) (a d : BitVec 5) (sp : Sp), AtOnce s →
    let v := ptrAdd (s.regs.getS a) i.toInt
    let n := 2 ^ (m.toNat % 4)
    let bs := natToBytes n (s.regs.getS d).toNat
    (s.core.unsent = false → SyncReady s v n n (.syncRead n) →
      ∃ t, exec (.lda i m a d sp) s = .next t ∧
        Computed s t (spLen sp) d (extended m (s.core.readBytes (ptrKey v) n))) ∧
    (s.core.unsent = false → SyncReady s v n n (.syncWrite bs) →
      ∃ t, exec (.stl i m a d sp) s = .next t ∧ t.core.f.pc = s.core.f.pc + spLen sp ∧ t.regs = s.regs ∧
        t.core.f.ctl = s.core.f.ctl ∧ KeptButBuffers s t ∧ Stored s t (ptrKey v) bs) ∧
    (s.regs.getP g = true →
      ∃ t, exec (.fence g sc sp) s = .next t ∧ t.regs = s.regs ∧ Performed s t (spLen sp))

/-! ### Messages and circular buffers -/

/-- R117, R119, R331, R346, R251: a message with a valid destination and room in its send queue enters that queue behind the others, with
its header, its arguments from consecutive registers, the firing that HOLD keeps it for, and the number of entries of the other queue that
leave before it, up to the last that its firing has sent over that one (how the order of Table 12.4 is kept across the two is the model's
choice, log 66).
R119, R121, R346: MSGQ writes the free entries of the send queues and the messages waiting in the mailboxes; SENDT on a full send
queue stops with SQFULL, and TADDR names the destination, with nothing queued. -/
def Obligations.MessagesAreQueued : Prop :=
  (∀ (s : State) (h : BitVec 8) (n : BitVec 4) (a d : BitVec 5) (sp : Sp) (f : Instr × Bool),
    f ∈ [(.send h n a d sp, false), (.sendt h n a d sp, false), (.reply h n a d sp, true)] → AtOnce s →
    let v := s.regs.getS a
    let charge := s.chargeOf v (8 + 8 * n.toNat)
    let queue (c : Core) : List SendEntry := if f.2 then c.q.sendRep else c.q.sendReq
    let other (c : Core) : List SendEntry := if f.2 then c.q.sendReq else c.q.sendRep
    let hdr := msgHeader s.dev.part s.core.id f.2 n.toNat s.msgClass h.toNat
    let limit := if f.2 then s.core.tab.sqctl.toNat / 2 ^ 8 % 2 ^ 5 else s.core.tab.sqctl.toNat % 2 ^ 5
    msgDestOk s.dev.part v = true → overLimit s.core.f.ctl.mlim s.core.f.ctl.mnom charge = false →
    (queue s.core).length < limit →
      ∃ t, exec f.1 s = .next t ∧ t.core.f.pc = s.core.f.pc + spLen sp ∧ t.regs = s.regs ∧
        t.core.f.ctl = { s.core.f.ctl with mnom := satAdd s.core.f.ctl.mnom charge } ∧ SameBytes s t ∧
        (∃ ahead, queue t.core = queue s.core ++ [{
          dst := s.msgDest v, hdr := hdr,
          args := (List.range n.toNat).map fun k => s.regs.getS (d + BitVec.ofNat 5 k), lhnd := s.core.f.lhnd,
          by_ := if s.core.tab.sqctl.getLsbD 17 then some s.core.f.serial else none, lin := s.core.scopeLin,
          ser := s.core.f.serial.setWidth 16, ahead := ahead }] ∧ ahead ≤ (other s.core).length ∧
          (∀ k, ((other s.core)[k]?.any fun x => x.ser = s.core.f.serial.setWidth 16) = true → k < ahead) ∧
          (0 < ahead → ((other s.core)[ahead - 1]?.any fun x => x.ser = s.core.f.serial.setWidth 16) = true)) ∧
        t.core.tab = s.core.tab ∧ t.core.eng = s.core.eng ∧ t.others = s.others) ∧
  ∀ (s : State) (h : BitVec 8) (n : BitVec 4) (a d : BitVec 5) (sp : Sp),
    let v := s.regs.getS a
    (∃ t, exec (.msgq d sp) s = .next t ∧ Computed s t (spLen sp) d (BitVec.ofNat 64
      ((s.core.tab.sqctl.toNat % 2 ^ 5 - s.core.q.sendReq.length)
        + (s.core.tab.sqctl.toNat / 2 ^ 8 % 2 ^ 5 - s.core.q.sendRep.length) * 2 ^ 8
        + s.core.q.req.length * 2 ^ 16 + s.core.q.rep.length * 2 ^ 24))) ∧
    ∀ entry, AtOnce s → msgDestOk s.dev.part v = true → s.overMeter (s.chargeOf v (8 + 8 * n.toNat)) = false →
      s.core.sendRoom false = 0 → StopEntry s causeSqfull entry →
      ∃ t, exec (.sendt h n a d sp) s = .next t ∧ t.core.f.pc = entry ∧ t.core.f.ctl.act = true ∧
        t.core.f.ctl.cause = 7#8 ∧ t.core.f.ctl.tpc = BitVec.ofNat 15 s.core.f.pc ∧ t.core.f.ctl.taddr = v ∧
        t.core.q = s.core.q ∧ t.regs = s.regs ∧ SameBytes s t

/-- R122 to R125: CBDEF of a home takes a valid record into an empty entry, with no slot filled and no watcher; at the home core,
CBWAIT and CBFREE write the address of the head or tail slot once enough slots are filled or free, and CBQ writes the indices; these
three change nothing else. -/
def Obligations.CbFormsAtHome : Prop :=
  ∀ (s : State) (i : BitVec 11) (k : BitVec 9) (a d : BitVec 5) (sp : Sp) (rcd : BitVec 128),
    (AtOnce s → s.dev.image.cbs[i.toNat]? = some rcd → cbRecordOk rcd = true → s.core.cbAt (d.toNat % 16) = .empty →
      ∃ t lh lin, exec (.cbdef i 0#5 d sp) s = .next t ∧ t.core.f.pc = s.core.f.pc + spLen sp ∧ t.regs = s.regs ∧
        t.core.f.ctl = s.core.f.ctl ∧ SameBytes s t ∧ t.core.cbAt (d.toNat % 16) = .home rcd 0 0 0 [] lh lin ∧
        ∀ k, k ≠ d.toNat % 16 → t.core.cbAt k = s.core.cbAt k) ∧
    ∀ h t f ws lh lin, s.core.cbAt (a.toNat % 16) = .home rcd h t f ws lh lin → s.overMeter 0 = false →
      s.core.cbPending (a.toNat % 16) = false → (∀ r got, s.core.f.wait ≠ .replied r got) →
      let slot (j : Nat) : Word := BitVec.ofNat 64 (2 ^ 63 + cbBuf rcd * 2 ^ 30 + (cbOff rcd + j * cbSlot rcd)) |||
        coordBits s.dev.part.memEntry s.core.id
      let word := BitVec.ofNat 64 (f + (cbS rcd - f) * 2 ^ 16 + h * 2 ^ 32 + t * 2 ^ 48)
      (k.toNat ≤ cbS rcd → k.toNat ≤ f →
        ∃ u, exec (.cbwait k a d sp) s = .next u ∧ Computed s u (spLen sp) d (slot h)) ∧
      (k.toNat ≤ cbS rcd → k.toNat ≤ cbS rcd - f →
        ∃ u, exec (.cbfree k a d sp) s = .next u ∧ Computed s u (spLen sp) d (slot t)) ∧
      ∃ u, exec (.cbq a d sp) s = .next u ∧ Computed s u (spLen sp) d word

/-- R125: at the home core, CBADV.get frees filled slots at the head and CBADV.put fills free ones at the tail, wrapping at S; CBPUSH
stores its words in the tail slot and fills it, CBPOP reads its words from the head slot and frees it. -/
def Obligations.CbMovesAtHome : Prop :=
  ∀ (s : State) (k : BitVec 9) (n : BitVec 4) (a d : BitVec 5) (sp : Sp) (rcd : BitVec 128) (h t f : Nat)
    (ws : List Watch) (lh : Word) (lin : Nat),
    s.core.cbAt (a.toNat % 16) = .home rcd h t f ws lh lin → s.overMeter 0 = false → InOrder s →
    s.core.cbPending (a.toNat % 16) = false → (∀ r got, s.core.f.wait ≠ .replied r got) →
    let entry (u : State) (h t f : Nat) : Prop := u.core.cbAt (a.toNat % 16) = .home rcd h t f ws lh lin
    let at_ (j : Nat) : Nat := keyOf (cbBuf rcd) (cbSlotOff rcd j)
    let free (j : Nat) (w : Bool) : Prop := s.core.inShadow (at_ j) (8 * n.toNat) = false ∧
      s.core.engineMeets w [(at_ j, 8 * n.toNat)] = false ∧ s.core.conflict s.agent (s.core.sectors (at_ j) (8 * n.toNat)) w = none ∧
      (w = false → s.core.meetsBad (at_ j) (8 * n.toNat) = false)
    let gone (u : State) : Prop := u.core.f.pc = s.core.f.pc + spLen sp ∧ u.core.f.ctl = s.core.f.ctl
    (k.toNat ≤ cbS rcd → k.toNat ≤ f →
      ∃ u, exec (.cbadvGet k a sp) s = .next u ∧ gone u ∧ u.regs = s.regs ∧ SameBytes s u ∧
        entry u ((h + k.toNat) % cbS rcd) t (f - k.toNat)) ∧
    (k.toNat ≤ cbS rcd → k.toNat ≤ cbS rcd - f →
      ∃ u, exec (.cbadvPut k a sp) s = .next u ∧ gone u ∧ u.regs = s.regs ∧ SameBytes s u ∧
        entry u h ((t + k.toNat) % cbS rcd) (f + k.toNat)) ∧
    (1 ≤ n.toNat → 8 * n.toNat ≤ cbSlot rcd → 1 ≤ cbS rcd - f → free t true →
      ∃ u, exec (.cbpush n a d sp) s = .next u ∧ gone u ∧ u.regs = s.regs ∧ entry u h ((t + 1) % cbS rcd) (f + 1) ∧
        Stored s u (at_ t) ((List.range n.toNat).flatMap fun j => natToBytes 8 (s.regs.getS (d + BitVec.ofNat 5 j)).toNat)) ∧
    (1 ≤ n.toNat → n.toNat ≤ 8 → 8 * n.toNat ≤ cbSlot rcd → 1 ≤ f → free h false →
      ∃ u, exec (.cbpop n a d sp) s = .next u ∧ gone u ∧ SameBytes s u ∧ entry u ((h + 1) % cbS rcd) t (f - 1) ∧
        ∀ r, u.regs.getS r =
          if r = 0#5 then 0#64
          else if (r - d).toNat < n.toNat then BitVec.ofNat 64 (s.nat64 (at_ h + 8 * (r - d).toNat))
          else s.regs.getS r)


namespace Sys2Proof.Machine

/-- A state that has performed an irrevocable instruction of `len` bytes with no effect on registers and flags. -/
structure Passed (s t : State) (len : Nat) : Prop where
  pc : t.core.f.pc = s.core.f.pc + len
  regs : t.regs = s.regs
  flags : t.core.f.ctl = s.core.f.ctl
  bytes : SameBytes s t

/-- As `Passed`, with one s register written. -/
structure PassedWith (s t : State) (len : Nat) (d : BitVec 5) (v : Word) : Prop where
  pc : t.core.f.pc = s.core.f.pc + len
  regs : WroteS s t d v
  flags : t.core.f.ctl = s.core.f.ctl
  bytes : SameBytes s t

/-- The mask of a tag form (R143): one tag when a = 0, else s[a]. -/
def tagsOf (s : State) (i : BitVec 11) (a : BitVec 5) : Word :=
  if a = 0#5 then BitVec.ofNat 64 (2 ^ (i.toNat % 64)) else s.regs.getS a

/-- Control registers that read back what a write leaves, with the bits a write may change (Table 7.8). -/
def plainRegisters : List (Nat × Word) :=
  [(0x000, 0x3F#64), (0x001, 0x7#64), (0x009, BitVec.allOnes 64), (0x019, 0x7FFF#64), (0x01A, 0x7FFF#64),
    (0x022, 0x21F1F#64), (0x810, 0x1#64), (0x811, 0xFFFF00000000FF01#64), (0x812, 0xFFFFFFFFFF0FF#64),
    (0x814, 0xFFFF0003#64), (0x820, 0xFFFFFFFFFFFF1#64), (0x841, 0x3#64)]
    ++ (List.range 32).map (fun k => (0x040 + k, BitVec.allOnes 64))
    ++ (List.range 8).map (fun k => (0x060 + k, BitVec.allOnes 64))

/-- What the control registers read as, TIME apart (Table 7.8, and the tables that its rows name). -/
def registerTable (s : State) : List (Nat × Word) :=
  let c := s.core
  let f := c.f
  let p := c.phys
  let die := s.dev.dieSt (dieOf c.site)
  let n (k : Nat) : Word := BitVec.ofNat 64 k
  let at_ (b : Bool) (k : Nat) : Nat := if b then 2 ^ k else 0
  let coordinates (x y : Nat) : Word := n (x * 2 ^ 32 + y * 2 ^ 40)
  let site : Word := coordinates c.site.px.toNat c.site.py.toNat
  let quad := s.dev.quadAt (pwQuad (dieOf c.site) die.pwrq)
  -- the meters, the stop and region-stop registers of the firing
  [(0x000, n f.ctl.fstat.toNat), (0x001, n f.ctl.rm.toNat), (0x008, f.ctl.mnom), (0x009, f.ctl.mlim), (0x00A, f.mact),
    (0x018, n (at_ f.ctl.act 63 + f.ctl.cause.toNat)), (0x019, n f.ctl.tpc.toNat), (0x01A, n f.ctl.tnpc.toNat),
    (0x01B, f.ctl.taddr), (0x01C, f.rspc), (0x01D, f.rsaddr), (0x01E, f.rsagent &&& 0xFFFFFFFFC000FFFF#64),
    (0x020, f.ctl.fhdr &&& 0x7F3FFFFF000100FF#64),
    -- tags, queues, the place of the core and its cohort
    (0x010, c.tab.tags), (0x011, c.tab.tagerr), (0x022, c.tab.sqctl),
    (0x028, if f.smode then site else coordinates s.xy.1 s.xy.2), (0x029, site),
    (0x02A, n (field s.dev.part.pext 32 16 * 2 ^ 32 + if f.smode then field s.dev.part.pext 0 16 else 0)),
    (0x02B, match c.cohort with
      | some k => n (k.gx + k.gy * 2 ^ 16 + k.gz * 2 ^ 32 + k.ox * 2 ^ 48 + k.oy * 2 ^ 56)
      | none => 0#64),
    (0x02C, match c.cohort with | some k => k.lhnd | none => 0#64),
    (0x038, n ((List.range 16).map fun w => match c.chainOf (BitVec.ofNat 4 w) with
      | some ch => ch.depth % 16 * 2 ^ (4 * w)
      | none => 0).sum),
    -- the supervisor's registers
    (0x800, 0#64), (0x801, 0#64), (0x802, n c.tab.capser.toNat), (0x810, n (at_ p.brken 0)), (0x811, p.trcctl), (0x812, p.trcring),
    (0x813, p.hgrp ||| n (at_ (bit p.dump 0) 17) ||| n (at_ p.halted 18)), (0x814, p.dump), (0x820, p.ptroot &&& 0xFFFFFFFFFFFF1#64),
    (0x821, 0#64), (0x830, die.floatctl), (0x831, p.temp), (0x832, die.thlim),
    (0x840, (die.pwrq &&& 0x1F1F00#64) ||| n (at_ (decide (quad.cap < 3)) 2 + at_ quad.halved 3
      + (match quad.gate with | .on => 0 | .gating => 1 | .off => 2 | .waking => 3) * 2 ^ 4 + quad.point % 4 * 2 ^ 6)),
    (0x841, p.opreq)]
    ++ (List.ofFn fun k : Fin 32 => (0x040 + k.val, p.dacc[k])) ++ List.ofFn fun k : Fin 8 => (0x060 + k.val, f.regs.e[k])

/-- The control-register forms, by function (1 CSWR, 2 CSSET, 3 CSCLR) and register. -/
def registerWrites (fn : BitVec 2) (c : BitVec 12) (a d : BitVec 5) (sp : Sp) : List (Instr × BitVec 2 × BitVec 12) :=
  [(.cswr c a d sp, 1#2, c), (.csset c a d sp, 2#2, c), (.csclr c a d sp, 3#2, c),
    (.fctlWrite fn a d sp, fn, 0x001#12), (.sqctlWrite fn a d sp, fn, 0x022#12), (.opreqWrite fn a d sp, fn, 0x841#12),
    (.dumpHold fn a d sp, fn, 0x814#12), (.controlRegisterWrite fn c a d sp, fn, c)]

/-- What a write form makes of the old value (R150). -/
def combined (fn : BitVec 2) (old v : Word) : Word :=
  if fn = 1#2 then v else if fn = 2#2 then old ||| v else old &&& ~~~v

/-- The forms that only the supervisor mode may run (R61), and accesses of supervisor registers (R18). -/
def supervisorForms (i : BitVec 11) (c : BitVec 12) (a d : BitVec 5) (sp : Sp) : List Instr :=
  [.halt a sp, .sleep a d sp, .wfr a d sp, .move i a sp]
    ++ (if c.getLsbD 11 then [.csrd c d sp, .cswr c a d sp, .csset c a d sp, .csclr c a d sp] else [])

end Sys2Proof.Machine

/-! ### Firings, launches and waits -/

/-- R139 to R142: ACTDEF takes a valid record into an empty binding in the mode of the issuing firing, and no firing of it lives;
NESTDEF does so with its counter, and its first claim leaves for a remote counter or is served by the core's own bank. -/
def Obligations.BindingsAreMade : Prop :=
  ∀ (s : State) (i : BitVec 11) (a d : BitVec 5) (sp : Sp), s.lone →
    s.core.bindAt (d.setWidth 4) = .empty →
    (∀ r, s.dev.image.actors[i.toNat]? = some r → s.actorRecordOk r = true →
      ∃ t, exec (.actdef i d sp) s = .next t ∧ Passed s t (spLen sp) ∧
        t.core.bindAt (d.setWidth 4) = .actor r s.core.f.smode 0#64 false []) ∧
    (∀ r, s.dev.image.nests[i.toNat]? = some r → s.nestRecordOk r = true →
      let v := s.regs.getS a
      s.accessStop v 16 true 16 0 = none →
      (s.isLocal v = false →
        ∃ t, exec (.nestdef i a d sp) s = .next t ∧ t.core.f.pc = s.core.f.pc + spLen sp ∧ t.regs = s.regs ∧
          t.core.bindAt (d.setWidth 4) = .nest r s.core.f.smode v 0 0 (some s.dev.nextTok) ∧
          ∃ p ∈ t.net, p.dst = ptrCore v ∧ ∃ ag pc n, p.body = .access s.dev.nextTok ag pc (ptrKey v)
            (.claim (nsMinc r) s.core.cohortSize) none n) ∧
      (s.isLocal v = true → s.core.inShadow (ptrKey v) 16 = false →
        s.core.conflict s.agent (s.core.sectors (ptrKey v) 16) true = none →
        let next := s.nat64 (ptrKey v)
        let chunk := claimSize next (s.nat64 (ptrKey v + 8)) (nsMinc r) s.core.cohortSize
        ∃ t, exec (.nestdef i a d sp) s = .next t ∧ t.core.f.pc = s.core.f.pc + spLen sp ∧ t.regs = s.regs ∧
          t.core.bindAt (d.setWidth 4) = (if chunk = 0 then .empty else .nest r s.core.f.smode v next chunk none) ∧
          Stored s t (ptrKey v) (natToBytes 8 (next + chunk))))

/-- R130 to R137: LNCH hands the launch over and returns its handle; PHASE opens the next phase and returns its handle; CNCL hands the
cancel over, or ends its own firing when the unit is its own; LWAIT returns the status of a unit that has ended. No byte changes.
GRAPH with a valid descriptor, whose records are valid, completes where there is room for its launches: it hands them all over in order
with consecutive serials, makes the graph with its edges, and returns its handle (R134). -/
def Obligations.LaunchesAreHandedOver : Prop :=
  (∀ (s : State) (i : BitVec 11) (a d : BitVec 5) (sp : Sp), AtOnce s →
    let q := s.dev.seq
    let v := s.regs.getS a
    (∀ r, s.dev.image.launches[i.toNat]? = some r → s.recordStop [i.toNat] = none → q.unplaced < 64 → s.core.unsent = false →
      ∃ t, exec (.lnch i a d sp) s = .next t ∧
        PassedWith s t (spLen sp) d (BitVec.ofNat 64 (q.openPhase * 2 ^ 32 + q.nextLaunch)) ∧
        t.dev.seq = { q with
          nextLaunch := q.nextLaunch + 1,
          inbox := q.inbox ++ [.launch q.nextLaunch r v (BitVec.ofNat 8 s.xy.1) (BitVec.ofNat 8 s.xy.2) none] }) ∧
    (q.openPhase < 0xFFFF → s.core.unsent = false →
      ∃ t, exec (.phase d sp) s = .next t ∧
        PassedWith s t (spLen sp) d (BitVec.ofNat 64 (2 * 2 ^ 62 + (q.openPhase + 1) * 2 ^ 32 + (q.openPhase + 1))) ∧
        t.dev.seq = { q with inbox := q.inbox ++ [.phase (q.openPhase + 1)] }) ∧
    (q.handleOk v = true → q.status v = none →
      ∃ t, exec (.cncl a sp) s = .next t ∧ SameBytes s t ∧
        t.dev.seq = { q with inbox := q.inbox ++ [.cancel v s.core.id] } ∧
        if s.ownUnit v then t.core.busy = false else Passed s t (spLen sp)) ∧
    (∀ k, q.handleOk v = true → s.ownUnit v = false →
      ¬ (s.core.cohort.isSome = true ∧ hdLevel v = 2 ∧ hdPhase s.core.f.lhnd ≤ hdPhase v) → q.status v = some k →
      ∃ t, exec (.lwait a d sp) s = .next t ∧ Computed s t (spLen sp) d (BitVec.ofNat 64 k))) ∧
  ∀ (s : State) (a d : BitVec 5) (sp : Sp) (g : GraphDesc), InOrder s → (s.core.f.irrev = true → s.core.f.graph = none) →
    let v := s.regs.getS a
    let q := s.dev.seq
    s.graphDesc v = some g → s.recordStop (g.launches.map Prod.fst) = none → ptrOff v % 8 = 0 →
    Undisturbed s false [(ptrKey v, g.n)] → s.core.engineMeets false [graphSpan v] = false →
    s.core.conflict s.agent (s.core.sectors (ptrKey v) g.n) false = none → q.unplaced + g.launches.length ≤ 64 →
      ∃ t, exec (.graph a d sp) s = .next t ∧
        PassedWith s t (spLen sp) d (BitVec.ofNat 64 (2 ^ 62 + q.openPhase * 2 ^ 32 + q.nextGraph)) ∧
        t.dev.seq.nextGraph = q.nextGraph + 1 ∧ t.dev.seq.nextLaunch = q.nextLaunch + g.launches.length ∧
        t.dev.seq.inbox = q.inbox ++ g.launches.zipIdx.map (fun p => .launch (q.nextLaunch + p.2)
          (s.dev.image.launches.getD p.1.1 0#512) p.1.2 (BitVec.ofNat 8 s.xy.1) (BitVec.ofNat 8 s.xy.2) (some q.nextGraph)) ∧
        t.dev.seq.graphs = q.graphs ++ [{
          serial := q.nextGraph, phase := q.openPhase,
          launches := (List.range g.launches.length).map (q.nextLaunch + ·),
          edges := g.edges.map fun e => (q.nextLaunch + e.1, q.nextLaunch + e.2), cancelled := false }]

/-- R143, R144: the waits and reads of tags and counters: WAITC goes on once its local counter has reached the target, WAITT once every
tag of its mask is set, WAITA once one is, with the set ones; TFIRST names the lowest; TAGCLR clears its mask in TAGS and TAGERR. -/
def Obligations.TagsAndCounters : Prop :=
  ∀ (s : State) (i : BitVec 11) (a d : BitVec 5) (sp : Sp),
    let m := tagsOf s i a
    let tags := s.core.tab.tags
    let v := s.regs.getS a
    (s.isLocal v = true → s.accessStop v 8 false 8 0 = none → ptrBuf v ≠ 1 → Undisturbed s false [(ptrKey v, 8)] →
      s.core.conflict s.agent (s.core.sectors (ptrKey v) 8) false = none → s.core.meetsBad (ptrKey v) 8 = false →
      (s.regs.getS d).toNat ≤ s.nat64 (ptrKey v) →
      ∃ t, exec (.waitc a d sp) s = .next t ∧ t.regs = s.regs ∧ Performed s t (spLen sp)) ∧
    ((∀ k, m.getLsbD k = true → tags.getLsbD k = true) →
      ∃ t, exec (.waitt i a sp) s = .next t ∧ t.regs = s.regs ∧ Performed s t (spLen sp)) ∧
    ((m = 0#64 ∨ ∃ k, m.getLsbD k = true ∧ tags.getLsbD k = true) →
      ∃ t, exec (.waita i a d sp) s = .next t ∧ Computed s t (spLen sp) d (tags &&& m)) ∧
    (∃ t n, exec (.tfirst i a d sp) s = .next t ∧ Computed s t (spLen sp) d (BitVec.ofNat 64 n) ∧ n ≤ 64 ∧
      (∀ k, k < n → (tags &&& m).getLsbD k = false) ∧ (n < 64 → (tags &&& m).getLsbD n = true)) ∧
    (∃ t, exec (.tagclr i a sp) s = .next t ∧ Passed s t (spLen sp) ∧
      t.core.tab.tags = tags &&& ~~~m ∧ t.core.tab.tagerr = s.core.tab.tagerr &&& ~~~m ∧
      Kept { s with core := { s.core with tab := { s.core.tab with tags := t.core.tab.tags, tagerr := t.core.tab.tagerr } } } t)

/-! ### Control registers -/

/-- R150, R152, R18, R72, R356: CSRD of a register of the core, which its mode may read, completes: it writes to sd the value that Table
7.8 and the tables it names give the register, and changes nothing else; FSTAT (FSTAT_READ, or CSRD of 0x000) is read once the firing's
engine commands have completed. A read of TIME (TIME_READ, or CSRD of 0x030) completes and writes the larger of the copy of TIME of the
core's quad and the residency's last read, notes what it gave, and changes nothing else. -/
def Obligations.ControlRegisterReads : Prop :=
  ∀ (s : State) (d : BitVec 5) (sp : Sp),
    let flagsDue : Prop := ∀ ser, ser ∈ s.core.eng.vq.map VCmd.serial ++ s.core.eng.mq.map MCmd.serial → ser ≠ s.core.f.serial
    (∀ r ∈ registerTable s, ∀ c : BitVec 12, c.toNat = r.1 → (c.getLsbD 11 = true → s.core.f.smode = true) →
      (c = 0x820#12 → s.core.isMemory = true) → (c = 0x821#12 → s.core.isMemory = true ∨ s.core.isPager = true) →
      (c = 0x000#12 → flagsDue) →
      ∃ t, exec (.csrd c d sp) s = .next t ∧ Computed s t (spLen sp) d r.2) ∧
    (flagsDue → ∃ t, exec (.fstatRead d sp) s = .next t ∧ Computed s t (spLen sp) d (s.core.f.ctl.fstat.zeroExtend 64)) ∧
    ∀ f ∈ [Instr.timeRead d sp, .csrd 0x030#12 d sp], s.timeHere < 2 ^ 64 →
      ∃ t v, exec f s = .next t ∧ v.toNat = Nat.max s.timeHere s.core.lastTime.toNat ∧ PassedWith s t (spLen sp) d v ∧
        Kept { s with core := { s.core with lastTime := v } } t

/-- R150, R154, R342, R354, R357: a write form of a register that a program may write, with a value its own rule admits, returns the old
value, and the register reads as the new value in the bits that a write may change and as before in the others; no other register of the
firing but an e register changes, and no byte does. FLOATCTL and THLIM are the die's: no other die's change. CAPKEY0 and CAPKEY1 read
zero, and set their halves of the partition's key. HGRP takes its group; RESUME has no effect on a core that is not halted. A write of
FSTAT does not wait for the firing's engine commands, which is the model's reading (log 47). -/
def Obligations.ControlRegisterWrites : Prop :=
  ∀ (s : State) (fn : BitVec 2) (c : BitVec 12) (a d : BitVec 5) (sp : Sp) (f : Instr × BitVec 2 × BitVec 12),
    f ∈ registerWrites fn c a d sp → f.2.1 ≠ 0#2 → (f.2.2.getLsbD 11 = true → s.core.f.smode = true) →
    s.core.csrAssigned f.2.2.toNat = true →
    let reg := f.2.2.toNat
    let old := s.csrValue reg
    let new := combined f.2.1 old (s.regs.getS a)
    let key := s.dev.part.capkey
    let done (t : State) : Prop := exec f.1 s = .next t ∧ t.core.f.pc = s.core.f.pc + spLen sp ∧
      (∀ r, t.regs.getS r = if r = d ∧ r ≠ 0#5 then old else s.regs.getS r) ∧ t.regs.p = s.regs.p ∧ t.regs.i = s.regs.i ∧
      t.regs.h = s.regs.h ∧ SameBytes s t
    s.csrRefused reg new = false →
    (∀ mask, (reg, mask) ∈ plainRegisters → ∃ t, done t ∧ t.csrValue reg = (old &&& ~~~mask) ||| (new &&& mask)) ∧
    (∀ mask, (reg, mask) ∈ [(0x830, 0xF1FFF#64), (0x832, 0x3FF#64)] → dieOf s.core.site < 8 →
      ∃ t, done t ∧ t.csrValue reg = (old &&& ~~~mask) ||| (new &&& mask) ∧
        ∀ k, k ≠ dieOf s.core.site → t.dev.dieSt k = s.dev.dieSt k) ∧
    (reg = 0x800 → ∃ t, done t ∧ old = 0#64 ∧ t.csrValue reg = 0#64 ∧
      t.dev.part = { s.dev.part with capkey := key.extractLsb' 64 64 ++ new }) ∧
    (reg = 0x801 → ∃ t, done t ∧ old = 0#64 ∧ t.csrValue reg = 0#64 ∧
      t.dev.part = { s.dev.part with capkey := new ++ key.extractLsb' 0 64 }) ∧
    (reg = 0x813 → bit new 19 = false ∨ s.core.phys.halted = false →
      ∃ t, done t ∧ t.core.phys = { s.core.phys with hgrp := new &&& 0x1FFFF#64 } ∧ t.others = s.others)

/-- R293, R354, R355: in supervisor mode, a write form of TLBINV (TLBINV_PAGE, TLBINV_ASID, TLBINV_ALL) on a memory or pager core completes,
and removes the entries that the word names from every TLB of every core and die: those of one page, of one address space, or all;
TLBINV reads as zero. Where its own firing holds a store to external memory that was translated under such an entry, it asks the firing to
end its region first: R293 says only when the write returns, and that the end of the region is what it waits for is the model's reading
(DEDUCED, log 31). A write form of PWRQ (PWRQ_GATE, PWRQ_WAKE) returns the register's old value and gates the selected quad, when it is on
and no residency uses it, or wakes it: gating is cancelled, and a quad that is off starts waking. -/
def Obligations.SupervisorCommands : Prop :=
  ∀ (s : State) (fn : BitVec 2) (a d : BitVec 5) (sp : Sp), s.core.f.smode = true → fn ≠ 0#2 →
    (∀ f ∈ [Instr.tlbinvPage fn a d sp, .tlbinvAsid fn a d sp, .tlbinvAll fn a d sp],
      s.core.isMemory = true ∨ s.core.isPager = true →
      let v := combined fn 0#64 (s.regs.getS a)
      field v 2 2 ≠ 3 →
      (s.core.heldUnder v s.core.f = true → exec f s = .next s.split) ∧
      (s.core.heldUnder v s.core.f = false → s.commitsOut = false → (∀ x ∈ s.cores, x.busy = true → x.heldUnder v x.f = false) →
      ∃ t, exec f s = .next t ∧ PassedWith s t (spLen sp) d 0#64 ∧
        (∀ x ∈ t.cores, ∀ e ∈ x.phys.tlb, ¬ (
          (field v 2 2 = 0 ∧ e.covers (v.extractLsb' 4 8) (field v 12 45 * 4096) = true) ∨
          (field v 2 2 = 1 ∧ e.asid = v.extractLsb' 4 8) ∨ 2 ≤ field v 2 2)) ∧
        t.cores.map (fun x => x.phys.tlb) = (s.cores.map fun x => x.phys.tlb.filter fun e => !tlbInvalid v e) ∧
        ∀ k : Fin 8, t.dev.dies[k].tlb = s.dev.dies[k].tlb.filter fun e => !tlbInvalid v e)) ∧
    let v := combined fn s.pwrqWord (s.regs.getS a)
    let q := pwQuad (dieOf s.core.site) v
    field v 8 5 ≤ 16 →
    (field v 0 2 = 1 → s.quadInUse q = false →
      ∃ t, exec (.pwrqGate fn a d sp) s = .next t ∧ PassedWith s t (spLen sp) d s.pwrqWord ∧
        (t.dev.quadAt q).gate = if (s.dev.quadAt q).gate = .on then .gating else (s.dev.quadAt q).gate) ∧
    (field v 0 2 = 2 →
      ∃ t, exec (.pwrqWake fn a d sp) s = .next t ∧ PassedWith s t (spLen sp) d s.pwrqWord ∧
        (t.dev.quadAt q).gate = match (s.dev.quadAt q).gate with
          | .on => .on
          | .gating => if (s.dev.quadAt q).since + 640 ≤ s.dev.time then .waking else .on
          | .off | .waking => .waking)

/-- R357 to R360: RESUME = 1 on a halted core that no dump holds and that is in no halt group releases it, when no window of it defers
a publish; setting DUMP.HOLD asks the core to halt at its next boundary, with code 4, and starts the limit. -/
def Obligations.HaltRegisters : Prop :=
  ∀ (s : State) (a d : BitVec 5) (sp : Sp), s.core.f.smode = true → bit s.core.phys.dump 0 = false →
    let v := s.regs.getS a
    (s.core.phys.halted = true → (∀ k, (s.core.win k).st = .absent) → v = 0x80000#64 →
      ∃ t, exec (.hgrpResume 1#2 a d sp) s = .next t ∧ t.core.f.pc = s.core.f.pc + spLen sp ∧
        t.core.phys.halted = false ∧ t.core.phys.haltPending = none ∧ SameBytes s t) ∧
    (v &&& ~~~0xFFFF0003#64 = 0#64 → bit v 0 = true → field v 16 16 ≠ 0 →
      ∃ t, exec (.dumpHold 1#2 a d sp) s = .next t ∧ Passed { s with core := { s.core with f := { s.core.f with
          regs := s.regs.setS d s.core.phys.dump } } } t (spLen sp) ∧
        t.core.phys.dump = (s.core.phys.dump &&& ~~~0xFFFF0003#64) ||| v ∧ t.core.phys.holdAt = s.dev.time ∧
        t.core.phys.haltPending = s.core.phys.haltPending.or (some 4))

/-- R61, R18, R62: in job mode the supervisor forms and every access of a supervisor register stop with PRIV and have no effect. TADDR
receives the encoding, which is the model's reading (log 25). -/
def Obligations.JobModeIsPrivileged : Prop :=
  ∀ (s : State) (i : BitVec 11) (c : BitVec 12) (a d : BitVec 5) (sp : Sp) (f : Instr) (entry : Nat),
    f ∈ supervisorForms i c a d sp → s.core.f.smode = false → StopEntry s causePriv entry →
      ∃ t, exec f s = .next t ∧ StopTaken s t 10 s.core.f.pc (s.core.f.pc + spLen sp) (encWord f) entry ∧
        t.dev = s.dev ∧ t.net = s.net

/-- R158, R335, R358: in supervisor mode HALT of another core sends it the request; SLEEP ends at its deadline and writes TIME; WFR takes
the value of the message that came for it; MOVE ends its firing and puts the core into the drain of a move, or, where a halt is to take
effect as the firing ends, leaves the move asked for behind the halt (that order is the model's reading, log 82). -/
def Obligations.SupervisorForms : Prop :=
  ∀ (s : State) (i : BitVec 11) (a d : BitVec 5) (sp : Sp), s.core.f.smode = true → AtOnce s →
    let v := s.regs.getS a
    let site : Site := ⟨BitVec.ofNat 8 (field v 32 8), BitVec.ofNat 8 (field v 40 8)⟩
    (∀ c, siteOnDevice site = true → field v 0 32 = 0 → field v 48 16 = 0 →
      s.cores.find? (fun k => k.onSite site) = some c → c.id ≠ s.core.id →
      ∃ t, exec (.halt a sp) s = .next t ∧ Passed s t (spLen sp) ∧
        ∃ p ∈ t.net, p.src = s.core.id ∧ p.dst = c.id ∧ p.net = .sys ∧ p.body = .halt) ∧
    (v.toNat ≤ s.readTime.1.toNat →
      ∃ t, exec (.sleep a d sp) s = .next t ∧ PassedWith s t (spLen sp) d s.readTime.1) ∧
    (∀ w got, s.core.f.wait = .replied (.words [w]) got →
      ∃ t, exec (.wfr a d sp) s = .next t ∧ PassedWith s t (spLen sp) d w) ∧
    (s.inPool site = true → dieOf site = dieOf s.core.site → s.core.isMesh = true → s.canName s.core.id site = true →
      s.moveWaits = false →
      let halt := s.core.phys.haltPending.or (if s.core.phys.haltBy = some s.core.f.serial then some 0 else none)
      ∃ t, exec (.move i a sp) s = .next t ∧ t.core.busy = false ∧ SameBytes s t ∧ t.core.phys.haltPending = halt ∧
        t.core.moving = if halt = none then .draining site (i.setWidth 2) else .requested site (i.setWidth 2))

/-! ### Debug and capability forms -/

/-- R156, R157, R361: BRK with BRKEN = 0 does nothing, and with it ends the region and asks for a halt at the boundary behind it, once the
region's probes are granted and no region stop is on its way to it;
TRACE makes a record of kind 5 when the session is open and the kind enabled, and does nothing else. -/
def Obligations.DebugForms : Prop :=
  ∀ (s : State) (i : BitVec 11) (a : BitVec 5) (sp : Sp),
    (s.core.phys.brken = false → ∃ t, exec (.brk i sp) s = .next t ∧ t.regs = s.regs ∧ Performed s t (spLen sp)) ∧
    (s.core.phys.brken = true →
      ∃ t, exec (.brk i sp) s = .next t ∧ Passed s t (spLen sp) ∧
        (s.core.f.region.probed = [] → s.stopDue = false →
          t.core.phys.haltPending = s.core.phys.haltPending.or (some (1 + 16 * i.toNat)) ∧
          t.core.f.region = Region.fresh (s.core.f.region.gen + 1#8) ∧
          t.core.f.ckpt = { regs := s.regs, live := liveAfter sp, ctl := s.core.f.ctl, pc := s.core.f.pc + spLen sp }) ∧
        (s.core.f.region.probed ≠ [] ∨ s.stopDue = true → t.core.phys = s.core.phys ∧
          ∃ toks, t.core.f.wait = .probes toks (.brk (liveAfter sp) (1 + 16 * i.toNat)))) ∧
    (s.lone →
      ∃ t, exec (.trace i a sp) s = .next t ∧ Passed s t (spLen sp) ∧
        (s.timeHere < 2 ^ 64 → bit s.core.phys.trcctl 0 = true → bit s.core.phys.trcctl 12 = true →
          s.core.phys.traceQ.length + (if s.core.phys.traceDrop = 0 then 0 else 1) < 16 →
          ∃ r : BitVec 256, t.core.phys.traceQ.getLast? = some r ∧ field r 64 16 = 5 ∧ field r 80 16 = i.toNat ∧
            field r 192 64 = (s.regs.getS a).toNat) ∧
        (bit s.core.phys.trcctl 0 = false → t.core.phys = s.core.phys))

/-- R154, R155, R202: CAPMINT adds a grant of the named range and rights and returns a capability with its serial, rights and check; CAPREV
drops the grant that a capability matches and no other, whatever the upper half of its word holds (the model's reading, log 46); MCAP
attenuates the rights of a valid capability, or writes 0. -/
def Obligations.Capabilities : Prop :=
  ∀ (s : State) (i : BitVec 11) (b a d : BitVec 5) (sp : Sp), s.lone →
    let v := s.regs.getS a
    let m := s.regs.getS b
    let key := s.dev.part.capkey
    let off := field v 0 15
    let len := field v 16 15
    (field v 15 1 = 0 → field v 31 33 = 0 → off % 256 = 0 → len % 256 = 0 → 256 ≤ len → off + len ≤ 32768 →
      s.core.tab.grants.length < 16 →
      ∃ t w, exec (.capmint i a d sp) s = .next t ∧ PassedWith s t (spLen sp) d w ∧
        t.core.tab.grants = s.core.tab.grants ++ [⟨s.core.tab.capser, i.setWidth 8, off, len⟩] ∧
        t.core.tab.capser = s.core.tab.capser + 1#16 ∧ field w 16 16 = s.core.tab.capser.toNat ∧
        field w 8 8 = i.toNat % 2 ^ 8 ∧ field w 32 32 = 0 ∧
        field w 0 8 = capChk key s.core.tab.capser.toNat (i.toNat % 2 ^ 8) s.xy.1 s.xy.2 % 2 ^ 8) ∧
    (∃ t, exec (.caprev a sp) s = .next t ∧ Passed s t (spLen sp) ∧
      t.core.tab.grants = s.core.tab.grants.filter fun g =>
        !(decide (g.ser.toNat = field v 16 16) && decide (g.rights.toNat = field v 8 8) &&
          decide (field v 0 8 = capChk key g.ser.toNat g.rights.toNat s.xy.1 s.xy.2))) ∧
    (field v 32 32 = 0 → field m 8 24 = 0 → field m 48 16 = 0 → field m 32 8 < pextWidth s.dev.part.pext →
      field m 40 8 < pextHeight s.dev.part.pext →
      (s.core.eng.mq.filter fun k => !k.started).length < 2 → s.core.unsent = false →
      ∃ t w k, exec (.mcap b a d sp) s = .next t ∧ PassedWith s t (spLen sp) d w ∧ t.core.eng.mq = s.core.eng.mq ++ [k] ∧
        (field v 0 8 ≠ capChk key (field v 16 16) (field v 8 8) (field m 32 8) (field m 40 8) → w = 0#64) ∧
        (field v 0 8 = capChk key (field v 16 16) (field v 8 8) (field m 32 8) (field m 40 8) →
          field w 16 16 = field v 16 16 ∧ field w 8 8 = field v 8 8 &&& field m 0 8))

namespace Sys2Proof.Machine

/-! ### Tables of forms: engines -/

/-- A vector form at a state: its records with the checks that the spec puts on them, the records and the value it queues. -/
structure VecForm where
  instr : Instr
  uses : List RecUse
  a : Shape
  b : Shape
  d : Shape
  value : Word

/-- The vector forms (R172 to R182). -/
def vectorForms (s : State) (c o : BitVec 4) (t b a d : BitVec 5) (sp : Sp) : List VecForm :=
  let ra := s.regs.getH (a.setWidth 4)
  let rb := s.regs.getH (b.setWidth 4)
  let rd := s.regs.getH (d.setWidth 4)
  let two (i : Instr) : VecForm := ⟨i, [useA a t, useA b t, useD d t], ra, rb, rd, 0#64⟩
  let one (i : Instr) : VecForm := ⟨i, [useA a t, useD d t], ra, 0#256, rd, 0#64⟩
  let mask : Nat := if t.toNat ≤ 7 then 4 + t.toNat % 4 else if t.toNat = 10 then 6 else 5
  [two (.vadd t b a d sp), two (.vsub t b a d sp), two (.vmul t b a d sp), two (.vfma t b a d sp), two (.vdiv t b a d sp),
   two (.vmin t b a d sp), two (.vmax t b a d sp), two (.vand t b a d sp), two (.vor t b a d sp), two (.vxor t b a d sp),
   two (.vshl t b a d sp), two (.vshr t b a d sp), two (.vsel t b a d sp),
   one (.vabs t a d sp), one (.vneg t a d sp), one (.vrsq t a d sp), one (.vexp2 t a d sp), one (.vlog2 t a d sp),
   one (.vscan o t a d sp), one (.vcpy t a d sp),
   { two (.vcmp c t b a d sp) with uses := [useA a t, useA b t, { useD d t with ty := (· = mask) }] },
   { one (.vred o t a d sp) with
      uses := [{ useA a t with conform := false }, { useD d t with conform := false, own := fun r => shCount r = 1 }] },
   { one (.vcvt t a d sp) with uses := [{ useA a t with ty := (· ≠ t.toNat) }, useD d t] },
   { one (.vqnt t a d sp) with uses := [{ useA a t with ty := (· = 10) }, useD d t] },
   { one (.vtrn t a d sp) with
      uses := [{ useA a t with conform := false, own := fun r => 2 ≤ shRank r },
        { useD d t with conform := false, own := transposed ra }] },
   { two (.vgath t b a d sp) with uses := [{ useA a t with conform := false }, useIndex b, useD d t] },
   { two (.vscat t b a d sp) with uses := [useA a t, useIndex b, { useD d t with conform := false }] },
   ⟨.vfill t a d sp, [useD d t], 0#256, 0#256, rd, s.regs.getS a⟩,
   ⟨.vident t a d sp, [{ useD d t with own := identTile }], 0#256, 0#256, rd, s.regs.getS a⟩]

/-- A form of the matrix queue at a state: its checks, the bytes it touches, what it queues, its charge, and what it changes in the
issue shadows (R183). -/
structure MatForm where
  instr : Instr
  ok : Bool
  spans : List Span
  a : Shape
  b : Shape
  v : Word
  v2 : Word
  charge : Nat
  shadow : Engines → Engines

/-- The matrix forms that enter the queue (R188 to R199). -/
def matrixForms (s : State) (o t b a : BitVec 5) (sp : Sp) : List MatForm :=
  let e := s.core.eng
  let v := s.regs.getS a
  let w := s.regs.getS b
  let ra := s.regs.getH (a.setWidth 4)
  let rb := s.regs.getH (b.setWidth 4)
  let tile : List RecUse := [⟨a, false, (· = t.toNat), false, bTile⟩]
  let rows : List RecUse :=
    [⟨a, false, (· = t.toNat), false, aRows⟩, ⟨b, false, (fun k => k = 4 || k = 5), false, aIndex⟩]
  let region := if e.am = 0 then [] else [(131072 * 2 + ptrOff v, (e.am - 1) * (256 * e.cstr) + 256)]
  let step := accessOk s.dev.part v 0 true && s.isLocal v && decide (ptrBuf v = 2) && decide (e.am ≠ 0) && decide (e.bt ≠ 0)
    && decide (ptrOff v + ((e.am - 1) * e.cstr + 1) * 256 ≤ 32768) && !s.spanRefused region && decide (ptrOff v % 256 = 0)
  let payload := 16 + e.am * (8 * (e.at_ % 16) + 2)
  let right := if o.toNat = 0 then 0 else if o.toNat = 1 then 1 else 2
  [⟨.mcfg a sp, mcfgOk v, [], 0#256, 0#256, v, 0#64, 0, fun e => { e with cstr := field v 8 4 }⟩,
   ⟨.mupl a sp, (muSlots v).all slotOk, [], 0#256, 0#256, v, 0#64, 0, id⟩,
   ⟨.mbld t a sp, (recordStop s tile).isNone && decide (ptrOff (shBase ra) % 512 = 0), s.core.shSpans ra, ra, 0#256, 0#64, 0#64, 0,
    fun e => { e with bt := t.toNat }⟩,
   ⟨.mgat t b a sp, (recordStop s rows).isNone, s.core.shSpans ra ++ s.core.shSpans rb, ra, rb, 0#64, 0#64, 0,
    fun e => { e with am := shE rb 0, at_ := t.toNat }⟩,
   ⟨.mma a sp, step, region, 0#256, 0#256, v, 0#64, 0, id⟩,
   ⟨.mmaz a sp, step, region, 0#256, 0#256, v, 0#64, 0, id⟩,
   ⟨.mrec a sp, step, region, 0#256, 0#256, v, 0#64, 0, id⟩,
   ⟨.mcmd o b a sp, accessOk s.dev.part v 0 true && decide (ptrBuf v = 2) && decide (e.am ≠ 0)
      && decide (ptrOff v + e.am * 256 ≤ 32768) && !(s.isLocal v && s.core.inShadow (ptrKey v) (256 * e.am)) && decide (field w 38 26 = 0) && decide (ptrOff v % 256 = 0)
      && !s.overMeter (s.chargeOf v payload) && bit w (8 + right), [], 0#256, 0#256, v, w, s.chargeOf v payload, id⟩]

/-- What a copy form names (R212): the box's pointer or index, a destination CB or s[d], the counter, and the tag. -/
structure CopyUse where
  ptr : Word
  cb : Option Nat
  dst : Word
  ctr : Option Word
  tag : BitVec 6

def copyUse (s : State) (i : BitVec 11) (a d : BitVec 5) : CopyUse :=
  { ptr := s.regs.getS a
    cb := if i.getLsbD 8 then some d.toNat else none
    dst := s.regs.getS d
    ctr := if i.getLsbD 6 then some (s.regs.getS (d + 1#5)) else none
    tag := i.extractLsb' 0 6 }

end Sys2Proof.Machine

/-! ### Engine forms -/

/-- R164 to R167, R172 to R182: a vector form whose records are valid and touch no absent window enters the queue behind the region's
end, with its records, RM and the region it was issued from; it writes no register, flag or byte. -/
def Obligations.VectorFormsAreQueued : Prop :=
  ∀ (s : State) (c o : BitVec 4) (t b a d : BitVec 5) (sp : Sp) (f : VecForm), f ∈ vectorForms s c o t b a d sp →
    s.lone → s.core.unsent = false → recordStop s f.uses = none →
    (f.instr = .vident t a d sp → identValue (t.toNat % 16) (s.regs.getS a) = true) →
    s.core.touchAbsent (f.uses.flatMap fun u => u.spans s) = none →
    (s.core.eng.vq.filter fun k => !k.started).length < 2 →
      ∃ u, exec f.instr s = .next u ∧ Passed s u (spLen sp) ∧ u.core.tab = s.core.tab ∧
        u.core.eng = { s.core.eng with
          nextOrd := s.core.eng.nextOrd + 1
          vq := s.core.eng.vq ++ [{
            form := f.instr, a := f.a, b := f.b, d := f.d, sval := f.value, rm := s.core.f.ctl.rm,
            serial := s.core.f.serial,
            gen := if s.core.f.irrev then s.core.f.region.gen else s.core.f.region.gen + 1#8,
            pc := s.core.f.pc, lhnd := s.core.f.lhnd, started := false, prog := Progress.fresh, ord := s.core.eng.nextOrd }] }

/-- R183 to R199: a matrix form whose operands the spec admits enters the queue with the issue shadows of the A latch and of CSTR; MCFG,
MBLD and MGAT move the shadows on, MCMD pays its charge. MSYNC goes on when the queue is empty, and MSTAT writes the state of the
engine. -/
def Obligations.MatrixFormsAreQueued : Prop :=
  ∀ (s : State) (o t b a d : BitVec 5) (sp : Sp), s.lone →
    let e := s.core.eng
    (∀ f ∈ matrixForms s o t b a sp, f.ok = true → s.core.touchAbsent f.spans = none → s.core.unsent = false →
      (e.mq.filter fun k => !k.started).length < 2 →
      ∃ u, exec f.instr s = .next u ∧ u.core.f.pc = s.core.f.pc + spLen sp ∧ u.regs = s.regs ∧ SameBytes s u ∧
        u.core.f.ctl = { s.core.f.ctl with mnom := satAdd s.core.f.ctl.mnom f.charge } ∧ u.core.tab = s.core.tab ∧
        u.core.eng = f.shadow { e with
          nextOrd := e.nextOrd + 1
          mq := e.mq ++ [{
            form := f.instr, a := f.a, b := f.b, sval := f.v, sval2 := f.v2, cstr := e.cstr, rows := e.am, at_ := e.at_,
            serial := s.core.f.serial,
            gen := if s.core.f.irrev then s.core.f.region.gen else s.core.f.region.gen + 1#8,
            pc := s.core.f.pc, lhnd := s.core.f.lhnd, started := false, prog := Progress.fresh, ord := e.nextOrd }] }) ∧
    (e.mq = [] → ∃ u, exec (.msync sp) s = .next u ∧ Passed s u (spLen sp) ∧ u.core.eng = e) ∧
    ∃ u, exec (.mstat d sp) s = .next u ∧ Computed s u (spLen sp) d (BitVec.ofNat 64
      (e.am + e.at_ * 2 ^ 10 + e.bt * 2 ^ 15 + (e.mq.filter fun k => !k.started).length * 2 ^ 20
        + (e.rq.filter fun k => !k.started).length * 2 ^ 22
        + (if (∃ k ∈ e.mq, k.started = true) ∨ ∃ k ∈ e.rq, k.started = true then 2 ^ 25 else 0) + e.rflags.toNat * 2 ^ 26
        + e.elc.toNat * 2 ^ 32 + e.cstr * 2 ^ 48 + s.core.tab.grants.length * 2 ^ 52))

/-- R212, R213, R216, R303: CBOX and CRED with a box that passes its checks pay their charge, clear their tag and queue one walk over the
whole box; CCAN of tags that no copy uses goes on, and CSTAT writes the tags of its mask that a copy uses. No byte changes. -/
def Obligations.CopiesAreIssued : Prop :=
  ∀ (s : State) (i : BitVec 11) (a d : BitVec 5) (sp : Sp), s.lone →
    let e := s.core.eng
    let m := tagsOf s i a
    let u := copyUse s i a d
    (∀ (red : Bool) (b : Box),
      (bit u.ptr 63 = false ∧ s.dev.image.boxes[u.ptr.toNat]? = some b ∨
        bit u.ptr 63 = true ∧ recordPtrOk s u.ptr 64 = true ∧ Undisturbed s false [(ptrKey u.ptr, 64)] ∧
          (∃ table, Granted s (ptrKey u.ptr) 64 false table) ∧
          b = BitVec.ofNat 512 (bytesToNat (s.core.readBytes (ptrKey u.ptr) 64))) →
      s.copyStop red u.ptr b u.cb u.dst u.ctr = none → s.core.unsent = false → (e.walks.filter fun w => !w.active && w.win.isNone).length < 2 →
      ∃ t w, exec (if red then .cred i a d sp else .cbox i a d sp) s = .next t ∧ t.core.f.pc = s.core.f.pc + spLen sp ∧
        t.regs = s.regs ∧ SameBytes s t ∧
        t.core.f.ctl = { s.core.f.ctl with
          mnom := satAdd s.core.f.ctl.mnom (s.copyCharge b (s.copyEnds b u.cb u.dst)) } ∧
        t.core.tab = { s.core.tab with
          tags := s.core.tab.tags &&& ~~~(1#64 <<< u.tag.toNat)
          tagerr := s.core.tab.tagerr &&& ~~~(1#64 <<< u.tag.toNat) } ∧
        t.core.eng = { e with nextWalk := e.nextWalk + 1, nextOrd := e.nextOrd + 1, walks := e.walks ++ [w] } ∧
        w.num = e.nextWalk ∧ w.view = plainView b ∧ w.tag = u.tag ∧ w.ctr = u.ctr ∧ w.perd = i.getLsbD 7 ∧ w.sent = 0 ∧
        w.win = none ∧ (w.dst, w.pending) = s.copyDst b u.cb u.dst) ∧
    ((∀ w ∈ e.walks, m.getLsbD w.tag.toNat = false) →
      ∃ t, exec (.ccan i a sp) s = .next t ∧ Passed s t (spLen sp) ∧ t.core.eng = e) ∧
    ∃ t v, exec (.cstat i a d sp) s = .next t ∧ Computed s t (spLen sp) d v ∧
      ∀ k, v.getLsbD k = (m.getLsbD k && e.walks.any fun w => w.tag.toNat = k)

/-- R217 to R225: the window forms, each where the spec lets it act: WDEF defines, WBIND binds a box and clears its tag, WPUB publishes
or reports POISONED, WABS lets an unchained window go, WSTEP makes a chain, WDEPTH sets its depth and WQRY reports a window. That every
window of a chain counts as bound is the model's reading (log 36). -/
def Obligations.WindowForms : Prop :=
  ∀ (s : State) (i : BitVec 11) (a d : BitVec 5) (sp : Sp), s.lone →
    let k : BitVec 4 := d.setWidth 4
    let j : BitVec 4 := a.setWidth 4
    let w := s.core.win k
    let x := s.core.win j
    let v := s.regs.getS a
    let only (t : State) (n : BitVec 4) (y : Window) : Prop := t.core.tab.win = s.core.tab.win.set n.toNat y
    (∀ r, s.dev.image.windows[i.toNat]? = some r → windowRecordOk r = true → s.core.overlapsWindow r = false →
      w.defined = false →
      ∃ t, exec (.wdef i d sp) s = .next t ∧ Passed s t (spLen sp) ∧ only t k { Window.reset with
        defined := true, buf := field r 30 2, off := field r 0 17, size := 512 * field r 32 16 }) ∧
    (∀ b, w.defined = true → w.st = .absent → w.chain = none → s.dev.image.boxes[i.toNat]? = some b →
      s.boxValid b = true → bxMap b = 0 → bxRed b = 0 → bxSwz b = 0 → w.admits w.key b = true →
      (bxMesh b = true → ptrOff (bxSrc b) % bxAlign b = 0) → s.overMeter (s.fillCharge w b) = false →
      ∃ t, exec (.wbind i a d sp) s = .next t ∧ t.core.f.pc = s.core.f.pc + spLen sp ∧ t.regs = s.regs ∧ SameBytes s t ∧
        t.core.f.ctl = { s.core.f.ctl with mnom := satAdd s.core.f.ctl.mnom (s.fillCharge w b) } ∧
        only t k { w with bound := some ⟨b, a.zeroExtend 6, s.core.f.pc, s.core.f.lhnd⟩, started := false } ∧
        t.core.tab.tags = s.core.tab.tags &&& ~~~(1#64 <<< a.toNat) ∧
        t.core.tab.tagerr = s.core.tab.tagerr &&& ~~~(1#64 <<< a.toNat)) ∧
    (x.defined = true → x.st = .poisoned →
      ∃ t, exec (.wpub a d sp) s = .next t ∧ PassedWith s t (spLen sp) d 1#64 ∧ t.core.tab = s.core.tab) ∧
    (x.defined = true → x.st ≠ .poisoned → x.pend = 0 → (∀ e ∈ s.core.scrim, e.firstHit x.sectors = none) →
      ∃ t, exec (.wpub a d sp) s = .next t ∧ PassedWith s t (spLen sp) d 0#64 ∧
        only t j { x with half := !x.half, st := .present }) ∧
    (x.defined = true → x.chain = none → x.st = .present →
      let charge := match x.bound with
        | some b => s.fillCharge x b.box
        | none => 0
      s.overMeter charge = false →
      ∃ t, exec (.wabs a sp) s = .next t ∧ t.core.f.pc = s.core.f.pc + spLen sp ∧ t.regs = s.regs ∧ SameBytes s t ∧
        t.core.f.ctl = { s.core.f.ctl with mnom := satAdd s.core.f.ctl.mnom charge } ∧
        only t j { x with
          st := .absent, started := false, noPublish := false
          bound := x.bound.map fun b => { b with pc := s.core.f.pc, lhnd := s.core.f.lhnd } }) ∧
    (∀ b, 2 ≤ i.toNat → i.toNat ≤ 16 → k.toNat + i.toNat ≤ 16 → s.core.chainFails k i.toNat = none → w.bound = some b →
      (∀ ch ∈ s.core.tab.chains, ch.first ≠ k) → recordPtrOk s v 16 = true → Undisturbed s false [(ptrKey v, 16)] →
      (∃ table, Granted s (ptrKey v) 16 false table) → ptrOff v % 16 = 0 →
      let ds : BitVec 128 := BitVec.ofNat 128 (bytesToNat (s.core.readBytes (ptrKey v) 16))
      descOk ds b.box = true → s.overMeter ((dL ds - 1) * s.fillCharge w b.box) = false →
      ∃ t, exec (.wstep i a d sp) s = .next t ∧ t.core.f.pc = s.core.f.pc + spLen sp ∧ t.regs = s.regs ∧ SameBytes s t ∧
        (∃ ch ∈ t.core.tab.chains, ch.first = k ∧ ch.n = i.toNat ∧ ch.desc = ds ∧ ch.released = 0 ∧ ch.dmin = 1 ∧
          ch.dmax = i.toNat) ∧
        ∀ n, n < i.toNat → (t.core.win (k + BitVec.ofNat 4 n)).chain = some k ∧
          (t.core.win (k + BitVec.ofNat 4 n)).nextLink = n ∧
          (t.core.win (k + BitVec.ofNat 4 n)).bound.map Bound.box = some b.box) ∧
    (∀ ch, s.core.tab.chains.find? (fun ch => ch.first = k) = some ch → field v 8 56 = 0 →
      let lo := if field v 0 4 = 0 then 16 else field v 0 4
      let hi := if field v 4 4 = 0 then 16 else field v 4 4
      lo ≤ hi → hi ≤ ch.n →
      ∃ t, exec (.wdepth a d sp) s = .next t ∧ Passed s t (spLen sp) ∧
        (∃ c ∈ t.core.tab.chains, c.first = k) ∧ ∀ c ∈ t.core.tab.chains, c.first = k → c.dmin = lo ∧ c.dmax = hi) ∧
    ∃ t, exec (.wqry a d sp) s = .next t ∧ Computed s t (spLen sp) d
      (if x.defined then BitVec.ofNat 64 (32 + (if x.bound.isSome then 8 else 0) + (if x.half then 4 else 0)
        + (match x.st with | .absent => 0 | .filling => 1 | .present => 2 | .poisoned => 3) + x.pend * 2 ^ 8
        + (match x.bound with | some b => b.tag.toNat * 2 ^ 16 | none => 0)
        + match s.core.chainOf j with
          | some ch => 16 + ch.depth % 16 * 2 ^ 24 + ch.first.toNat * 2 ^ 28 + ch.released % 2 ^ 16 * 2 ^ 32
              + x.nextLink % 2 ^ 16 * 2 ^ 48
          | none => 0) else 0#64)

namespace Sys2Proof.Machine

/-- The oldest packet of a flow has reached the core in focus with this body; `t` is the state without it (R322). -/
def Arrived (s : State) (src : CoreId) (net : Net) (b : Body) (t : State) : Prop :=
  s.recv src net (fun _ => true) = some (b, t)

/-- Delay accumulator j of an access to this core and bank (R328); the coordinates of a memory core are those of its pointers (R24). -/
def delayIndex (p : Partition) (c : CoreId) (bank : Nat) : Nat :=
  match c with
  | .mesh x y => (x.toNat + 5 * y.toNat + 11 * bank) % 32
  | .memory d i => (p.memEntry (.memory d i) + 5 * 255 + 11 * bank) % 32
  | .far d x y => (x.toNat + 5 * y.toNat + 11 * bank + 13 * d.toNat) % 32
  | .pager _ _ | .control | .port _ => 11 * bank % 32

/-- The trailer of an answer to the oldest packet of a flow: the links and die crossings that the packet has come over, its device links,
the accumulator of the core and this bank, and the payload and the firing that MACT counts them for (R326 to R328). -/
def Outward (s : State) (src : CoreId) (net : Net) (bank : Nat) (n : Option Nat) (ser : BitVec 16) (tr : Trailer) : Prop :=
  let way := pathCost (s.pathOf src net (fun _ => true) ++ [s.core.site])
  tr = ⟨way.1, way.2, s.dev.part.deviceHops src, 0, delayIndex s.dev.part s.core.id bank, n, ser⟩

/-- What the reply unit knows of an answer: its trailer, and for another device's answer what was kept of the access it answers. -/
def told (s : State) (src : CoreId) (place : Option AnswerPlace) (tr : Trailer) : Trailer :=
  match src with
  | .far _ _ _ =>
    { tr with
      idx := delayIndex s.dev.part src ((place.map fun x => x.bank.getD (tr.idx % 16)).getD 16)
      n := place.bind (·.n)
      ser := (place.map (·.ser)).getD tr.ser
      devs := s.dev.part.deviceHops src }
  | .mesh _ _ | .memory _ _ | .pager _ _ | .control | .port _ => tr

/-- Hops of the round trip of an answer: a link counts one, a die crossing four, a device link 160 (R326, Table 19.3). -/
def roundTrip (s : State) (src : CoreId) (e : Trailer) : Nat :=
  let way := pathCost (s.pathOf src .rep (fun _ => true) ++ [s.core.site])
  Nat.min 0xFFFF (e.links + 4 * e.xing + 160 * e.devs + (e.back + way.1 + 4 * way.2 + 160 * s.dev.part.deviceHops src))

/-- An answer's trailer has reached the meters (R327, R328): one delay accumulator grows by the hops of the round trip and the cycles
waited, and MACT of the running firing by the charge of the outward distance if the answer is its own. -/
structure Metered (s u : State) (src : CoreId) (qw : BitVec 16) (e : Trailer) : Prop where
  delay : ∀ j, j < 32 → u.core.phys.dacc.getD j 0#64 = if j = e.idx % 32
    then BitVec.ofNat 64 (Nat.min ((s.core.phys.dacc.getD j 0#64).toNat + roundTrip s src e + qw.toNat) (2 ^ 64 - 1))
    else s.core.phys.dacc.getD j 0#64
  actual : s.core.busy = true → u.core.f.mact = match e.n with
    | some n => if s.core.f.serial.setWidth 16 = e.ser
        then BitVec.ofNat 64 (Nat.min (s.core.f.mact.toNat
          + (8 * n + 64) * (4 * (e.links % 1024) + 32 * (e.xing % 16) + 512 * (e.devs % 16))) (2 ^ 64 - 1))
        else s.core.f.mact
    | none => s.core.f.mact

/-- A region stop (R279, Tables 15.2 to 15.4): the checkpoint is back, but for registers outside its live set and for TADDR, which has the
address, the region is fresh and its stores are gone, the report is written, and the firing goes on after its back-off. Stores that the
region applied to its own core stay. -/
structure RegionStopped (s u : State) (cause pc : Nat) (addr other : Word) : Prop where
  bytes : SameBytes s u
  goesOn : u.core.busy = true ∧ u.core.f.wait = .backoff
  resumes : u.core.f.pc = s.core.f.ckpt.pc
  ctl : u.core.f.ctl = { s.core.f.ckpt.ctl with taddr := addr }
  regsS : ∀ k, u.regs.getS k = if s.core.f.ckpt.live.s k.toNat then s.core.f.ckpt.regs.getS k else s.regs.getS k
  regsP : ∀ k, u.regs.getP k = if s.core.f.ckpt.live.p k.toNat then s.core.f.ckpt.regs.getP k else s.regs.getP k
  regsI : ∀ k : Fin 4, u.regs.i[k] = if s.core.f.ckpt.live.i k then s.core.f.ckpt.regs.i[k] else s.regs.i[k]
  regsH : ∀ k, u.regs.getH k = if k.toNat < 12 ∧ s.core.f.ckpt.live.h k.toNat then s.core.f.ckpt.regs.getH k else s.regs.getH k
  regsE : ∀ k, u.regs.getE k = if s.core.f.ckpt.live.e k.toNat then s.core.f.ckpt.regs.getE k else s.regs.getE k
  region : u.core.f.region = Region.fresh (s.core.f.region.gen + 1#8)
  scrim : u.core.scrim = s.core.scrim.filter fun e => e.agent.id ≠ s.agent.id || e.agent.ser ≠ s.agent.ser
  rspc : u.core.f.rspc = BitVec.ofNat 64
    (cause * 2 ^ 56 + Nat.min (s.core.f.rspc.toNat / 2 ^ 40 % 2 ^ 16 + 1) 0xFFFF * 2 ^ 40 + pc % 2 ^ 15)
  rsaddr : u.core.f.rsaddr = addr
  rsagent : u.core.f.rsagent = other

/-- Elementwise integer forms with the result for elements x and y of a and b and the old element z of d, of width `w` in bits, signed
or not (R172, R174, Table 4.1). -/
def integerLanes (t b a d : BitVec 5) (sp : Sp) : List (Instr × (Bool → Nat → Nat → Nat → Nat → Nat)) :=
  let val (sg : Bool) (w x : Nat) : Int := if sg then signedOf w x else x
  let wrapped (w : Nat) (v : Int) : Nat := (v % 2 ^ w).toNat
  [(.vadd t b a d sp, fun _ w x y _ => (x + y) % 2 ^ w),
   (.vsub t b a d sp, fun _ w x y _ => (x + (2 ^ w - y)) % 2 ^ w),
   (.vmul t b a d sp, fun _ w x y _ => x * y % 2 ^ w),
   (.vdiv t b a d sp, fun sg w x y _ => if y = 0 then 2 ^ w - 1 else wrapped w ((val sg w x).tdiv (val sg w y))),
   (.vmin t b a d sp, fun sg w x y _ => if val sg w x ≤ val sg w y then x else y),
   (.vmax t b a d sp, fun sg w x y _ => if val sg w y ≤ val sg w x then x else y),
   (.vabs t a d sp, fun sg w x _ _ => wrapped w (val sg w x).natAbs),
   (.vneg t a d sp, fun _ w x _ _ => (2 ^ w - x) % 2 ^ w),
   (.vand t b a d sp, fun _ _ x y _ => x &&& y),
   (.vor t b a d sp, fun _ _ x y _ => x ||| y),
   (.vxor t b a d sp, fun _ _ x y _ => x ^^^ y),
   (.vshl t b a d sp, fun _ w x y _ => x * 2 ^ (y % w) % 2 ^ w),
   (.vshr t b a d sp, fun sg w x y _ => wrapped w (val sg w x / 2 ^ (y % w))),
   (.vsel t b a d sp, fun _ _ x y z => if z ≠ 0 then x else y)]

/-- Elementwise floating forms with the result and the flags for x, y and z in a format and a rounding mode (R172, R173, R71). -/
def floatLanes (t b a d : BitVec 5) (sp : Sp) : List (Instr × (Fmt → Rounding → Nat → Nat → Nat → Nat × Flags)) :=
  [(.vadd t b a d sp, fun f rm x y _ => fAdd f rm x y),
   (.vsub t b a d sp, fun f rm x y _ => fSub f rm x y),
   (.vmul t b a d sp, fun f rm x y _ => fMul f rm x y),
   (.vfma t b a d sp, fun f rm x y z => fFma f rm x y z),
   (.vdiv t b a d sp, fun f rm x y _ => fDiv f rm x y),
   (.vmin t b a d sp, fun f _ x y _ => fMinMax f false x y),
   (.vmax t b a d sp, fun f _ x y _ => fMinMax f true x y),
   (.vabs t a d sp, fun f _ x _ _ => (x % 2 ^ (f.width - 1), 0#6)),
   (.vneg t a d sp, fun f _ x _ _ => ((x + 2 ^ (f.width - 1)) % 2 ^ f.width, 0#6)),
   (.vrsq t a d sp, fun f rm x _ _ => fRsq f rm x),
   (.vexp2 t a d sp, fun f rm x _ _ => fExp2 f rm x),
   (.vlog2 t a d sp, fun f rm x _ _ => fLog2 f rm x)]

/-- VCMP of two integers (R175): conditions 0 to 5 by the type's own signedness, 6 to 9 unsigned. -/
def integerHolds (c : Nat) (sg : Bool) (w x y : Nat) : Bool :=
  let val (x : Nat) : Int := if sg then signedOf w x else x
  match c with
  | 0 => x = y
  | 1 => x ≠ y
  | 2 => val x < val y
  | 3 => val x ≤ val y
  | 4 => val y < val x
  | 5 => val y ≤ val x
  | 6 => x < y
  | 7 => x ≤ y
  | 8 => y < x
  | 9 => y ≤ x
  | _ => false

/-- VCMP of two floating operands, with its flags (R175): NV for any NaN under lt, le, gt and ge, else for a signalling one, and FI
where an operand is flushed. -/
def floatHolds (c : Nat) (f : Fmt) (x y : Nat) : Bool × Flags :=
  let a := f.operand x
  let b := f.operand y
  (condFloat c (numCompare a.1 b.1),
    a.2 ||| b.2 ||| if (a.1.isNaN || b.1.isNaN) && decide (2 ≤ c ∧ c ≤ 5) || a.1.isSignalling || b.1.isSignalling then flagNV else 0#6)

/-- Reductions and scans of integers (Table 3.5, R79, R80): add, max, min, and, or, xor. -/
def integerOp (o : Nat) (sg : Bool) (w x y : Nat) : Nat :=
  let val (x : Nat) : Int := if sg then signedOf w x else x
  match o with
  | 0 => (x + y) % 2 ^ w
  | 1 => if val y ≤ val x then x else y
  | 2 => if val x ≤ val y then x else y
  | 3 => x &&& y
  | 4 => x ||| y
  | _ => x ^^^ y

/-- All the flags of a list. -/
def joined (fs : List Flags) : Flags := fs.foldl (· ||| ·) 0#6

/-- An engine of the core is free to act on its buffers: no region of another agent is open there, no sector is torn off or has an
uncorrectable error, and the core's memory has the form that every step keeps. -/
structure EngineAlone (c : Core) : Prop where
  calm : c.scrim = []
  sound : c.badSecs = []
  whole : c.tear = false
  form : c.memoryWf = true
  apart : WindowsApart c

/-- A vector command at the head of its queue has started and not read yet; the elements of its destination do not overlap. -/
structure VecDue (s : State) (k : VCmd) (rest : List VCmd) : Prop extends EngineAlone s.core where
  queue : s.core.eng.vq = k :: rest
  started : k.started = true
  fresh : k.prog = Progress.fresh
  cbs : s.core.cbReady k = true
  once : (s.core.recordKeys k.d true).Nodup

/-- The flags of an engine command have reached FSTAT of its firing, running or parked, and no other firing's (R72). -/
structure Flagged (s u : State) (serial : Word) (fl : Flags) : Prop where
  own : s.core.busy = true → s.core.f.serial = serial → u.core.f.ctl = { s.core.f.ctl with fstat := s.core.f.ctl.fstat ||| fl }
  other : s.core.f.serial ≠ serial → u.core.f = s.core.f
  regs : u.regs = s.regs
  pc : u.core.f.pc = s.core.f.pc
  parked : (u.core.q.parked.map fun p => p.f.ctl.fstat) = s.core.q.parked.map fun p =>
    if p.f.serial = serial then p.f.ctl.fstat ||| fl else p.f.ctl.fstat

/-- Bytes that lie at none of these visible keys of the core read as before. -/
def SameBut (s u : State) (keys : List Nat) : Prop :=
  ∀ p, (∀ k ∈ keys, p ≠ .buffer s.core.id (s.core.phys' k)) → u.byteAt p = s.byteAt p

/-- A vector command has completed with these flags: it has left its queue, and no byte outside its destination has changed; CBs move
for KIND 1 records alone. -/
structure VecDone (s u : State) (k : VCmd) (rest : List VCmd) (fl : Flags) : Prop where
  engines : u.core.eng = { s.core.eng with vq := rest }
  flags : Flagged s u k.serial fl
  outside : SameBut s u (s.core.recordKeys k.d true)
  plain : shKind1 k.a = false → shKind1 k.b = false → shKind1 k.d = false → u.core.tab = s.core.tab ∧ u.net = s.net

/-- Element `j` of the destination is `r j`, and the flags are those of all elements. -/
def VecGives (s : State) (k : VCmd) (rest : List VCmd) (r : Nat → Nat × Flags) : Prop :=
  let keys := s.core.elemKeys k.d (shTy k.d) true
  ∃ u, exec .vectorCommandCompletion s = .next u ∧
    VecDone s u k rest (joined ((List.range keys.length).map fun j => (r j).2)) ∧
    ∀ j, j < keys.length → u.core.elemAt (shTy k.d).size (keys.getD j 0) = (r j).1 % 2 ^ (8 * (shTy k.d).size)

/-- Block `i` of a .qm destination has this scale byte and these mantissas. -/
def VecGivesBlocks (s : State) (k : VCmd) (rest : List VCmd) (m : Nat) (scale : Nat → Nat) (mant : Nat → Nat → Int) (fl : Flags) :
    Prop :=
  let blocks := blockOffsets k.d
  ∃ u, exec .vectorCommandCompletion s = .next u ∧ VecDone s u k rest fl ∧
    ∀ i, i < blocks.length → u.core.scaleAt k.d (blocks.getD i 0) = scale i % 256 ∧
      ∀ j : Nat, j < 32 → u.core.mantissa k.d m (blocks.getD i 0 + j) = mant i j

/-- A matrix command at the head of its queue has started and not read yet. -/
structure MatDue (s : State) (k : MCmd) (rest : List MCmd) : Prop extends EngineAlone s.core where
  queue : s.core.eng.mq = k :: rest
  started : k.started = true
  fresh : k.prog = Progress.fresh

/-- What an output of a step becomes (R81, R192, R196), from its old word, a row of A and column n of B. -/
def stepOut (op : MOp) (mupr : Word) (b : BLatch) (old : Nat) (row : ARow) (n : Nat) : Nat × Flags :=
  let col := columnOf ((List.range 64).map b.rowNums) n
  match op with
  | .mma => matrixStep old row.nums col
  | .mmaz => matrixStep 0 row.nums col
  | .mrec => recurOut mupr row.nums col old

/-- The C region at `off` with rows `stride` bytes apart has taken a step of the A latch `a`, with these flags of all outputs; no other
byte has changed, and ELC counts an elided step (R192 to R196). -/
def StepTaken (s u : State) (op : MOp) (a : ALatch) (b : BLatch) (off stride : Nat) (fl : Flags) : Prop :=
  let old (i n : Nat) : Nat := bytesToNat (s.core.readBytes (keyOf 2 (off + i * stride + 4 * n)) 4)
  let out (i n : Nat) : Nat × Flags := stepOut op s.core.eng.mupr b (old i n) (a.rows.getD i ⟨[], 0#8, 0#8, none⟩) n
  let outs := (List.range a.rows.length).flatMap fun i => (List.range 64).map fun n => (i, n)
  let skipped := op ≠ .mrec ∧ bit s.core.eng.mxcfg 0 = false ∧ (
    (a.sum.zero = true ∧ b.sum.spec = false) ∨ (b.sum.zero = true ∧ a.sum.spec = false) ∨
    (b.sum.spec = false ∧ (a.sum.ident ≠ none ∨ a.sum.const ≠ none)))
  fl = joined (outs.map fun p => (out p.1 p.2).2) ∧
  (∀ p ∈ outs, bytesToNat (u.core.readBytes (keyOf 2 (off + p.1 * stride + 4 * p.2)) 4) = (out p.1 p.2).1 % 2 ^ 32) ∧
  SameBut s u (outs.flatMap fun p => (List.range 4).map fun j => keyOf 2 (off + p.1 * stride + 4 * p.2) + j) ∧
  (skipped → u.core.eng.elc = s.core.eng.elc + 1#16) ∧ (¬ skipped → u.core.eng.elc = s.core.eng.elc)

end Sys2Proof.Machine

/-! ### Events: the sequencer -/

/-- R260, R135, R137, R262, R263, R265, R266, R370: the steps of the sequencer and of its inputs, LAUNCH_RECEIPT, PHASE_RECEIPT, CANCEL_RECEIPT,
PLACEMENT, COLLECTION_ROUND, RETIREMENT_REPORT, BULK_PROMOTION and JOB_START_MESSAGE, complete where their conditions hold: a launch,
a phase and a cancel are received in the order they were handed over, and a cancel of a unit that has ended has no effect; a cohort
is placed on a free slot and gets its start message, with the header, the argument, its linear index, its coordinates and its handle; two
collection rounds with equal totals declare it retired, and the report reaches the scoreboard; a bulk candidate is promoted after 64 µs;
the job's start message waits for the entry handler. How totals are summed, and what an idle core is, is the model's reading (log 50);
so is that a launch which joins a cancelled unit is born cancelled and ends at once with status 1 (log 45). -/
def Obligations.SequencerEvents : Prop :=
  ∀ s : State,
    let q := s.dev.seq
    (∀ serial rcd arg x y g rest, q.inbox = .launch serial rcd arg x y g :: rest →
      ∃ t l, exec .launchReceipt s = .next t ∧ SameBytes s t ∧ t.dev.seq.inbox = rest ∧
        t.dev.seq.launches = q.launches ++ [l] ∧ l.serial = serial ∧ l.rcd = rcd ∧ l.arg = arg ∧ l.phase = q.phase ∧
        l.graph = g ∧ l.cancelled = q.bornCancelled g ∧ (l.cancelled = true → l.ended = true ∧ l.status = 1)) ∧
    (∀ k rest, q.inbox = .phase k :: rest →
      ∃ t, exec .phaseReceipt s = .next t ∧ SameBytes s t ∧
        t.dev.seq = { q with inbox := rest, phase := k, jobEnded := t.dev.seq.jobEnded }) ∧
    (∀ h c rest, q.inbox = .cancel h c :: rest → let q' : Seq := { q with inbox := rest }
      (q'.status h = none → ∃ t, exec .cancelReceipt s = .next t ∧ t.dev.seq.inbox = rest ∧
        ∀ l ∈ t.dev.seq.launches, l.serial ∈ q'.unitLaunches h → l.cancelled = true) ∧
      ((q'.status h).isSome = true → ∃ t, exec .cancelReceipt s = .next t ∧ SameBytes s t ∧
        t.dev.seq = { q' with jobEnded := t.dev.seq.jobEnded })) ∧
    (∀ c cs l, q.preempting = false → q.out = false → q.jobEnded = false → s.dev.ctxs.any Context.first = false →
      q.reserved = none → q.candidates s.dev.part = c :: cs → c.wave = false → q.launch c.serial = some l →
      c.lin = linOf l.rcd c.idx → s.dev.ctxs.any (Context.holds l.serial c.lin) = false →
      let slot := slotCores s.dev.part l.rcd (slotOfLin s.dev.part l.rcd c.lin)
      (∀ x ∈ slot, s.coreFree x = true) →
      let (ox, oy) := slotOrigin s.dev.part l.rcd (slotOfLin s.dev.part l.rcd c.lin)
      ∃ t p, exec .placement s = .next t ∧ t.net = s.net ++ [p] ∧ p.src = .control ∧
        (if l.serial = 0 ∧ c.lin = 0 then
          p.dst = .mesh s.dev.image.startX s.dev.image.startY ∧ p.net = .sys ∧ p.body = .jobStart [0#64, 0#64, 0#64, 0#64]
        else p.dst = .mesh (BitVec.ofNat 8 ox) (BitVec.ofNat 8 oy) ∧ p.net = .req ∧
          p.body = .msg (BitVec.ofNat 64 (4 * 2 ^ 48 + l.srcY.toNat * 2 ^ 40 + l.srcX.toNat * 2 ^ 32
              + if recClass l.rcd then 2 ^ 16 else 0))
            [l.arg, BitVec.ofNat 64 c.lin, BitVec.ofNat 64 (coordOf l.rcd c.idx 0 + coordOf l.rcd c.idx 1 * 2 ^ 16
              + coordOf l.rcd c.idx 2 * 2 ^ 32), handleWord 0 l.phase l.serial] (handleWord 0 l.phase l.serial) c.lin none false) ∧
        (∀ x k, t.byteAt (.buffer x k) = s.byteAt (.buffer x k)) ∧
        ∀ x ∈ slot, ∃ y h, t.coreAt x = some y ∧ y.cohort = some h ∧ h.serial = l.serial ∧ h.lin = c.lin ∧ h.rcd = l.rcd) ∧
    (∀ serial k l e, q.launch serial = some l → l.entry k = some e → e.placed = true → l.cancelled = false →
      let lin := linOf l.rcd k
      let cs := s.cores.filter (Core.holdsCohort serial lin)
      let totals := ((cs.map fun c => c.q.sent).sum, (cs.map fun c => c.q.accepted).sum)
      cs ≠ [] → s.dev.ctxs.any (Context.holds serial lin) = false → (∀ c ∈ cs, s.coreIdle c = true) →
      (e.idleTotals ≠ some totals →
        ∃ t l', exec (.collectionRound serial k) s = .next t ∧ SameBytes s t ∧ t.cores = s.cores ∧
          t.dev.seq.reports = q.reports ∧ t.dev.seq.launch serial = some l' ∧
          l'.entry k = some { e with idleTotals := some totals }) ∧
      (e.idleTotals = some totals →
        ∃ t, exec (.collectionRound serial k) s = .next t ∧ SameBytes s t ∧
          t.dev.seq.reports = q.reports ++ [(serial, k)])) ∧
    (∀ serial k, (serial, k) ∈ q.reports →
      ∃ t, exec (.retirementReport serial k) s = .next t ∧ SameBytes s t ∧ t.dev.seq.reports = q.reports.erase (serial, k) ∧
        t.dev.seq.launches = q.launches.map fun l => if l.serial = serial then l.retire s.dev.part s.dev.time k else l) ∧
    (∀ serial k l e, q.launch serial = some l → l.entry k = some e → recClass l.rcd = false → q.out = false →
      e.count = 0 → e.placed = false → e.promoted = none → e.readyAt + 64000 ≤ s.dev.time →
      ∃ t l', exec (.bulkPromotion serial k) s = .next t ∧ SameBytes s t ∧ t.dev.seq.launch serial = some l' ∧
        l'.entry k = some { e with promoted := some s.dev.time }) ∧
    ∀ args t, Arrived s .control .sys (.jobStart args) t → q.jobCancelled = false → s.redirect none = none →
      ∃ u m, exec .jobStartMessage s = .next u ∧ SameBytes s u ∧ u.core.q.sys = s.core.q.sys ++ [m] ∧ m.args = args ∧
        field m.hdr 0 8 = s.dev.image.startH.toNat

/-! ### Events: firings and messages -/

/-- R270, R14, R277, R119, R120, R281, R272: a free core starts the handler of its oldest REP message with its registers, flags and first
checkpoint as the spec gives them; a message and a notice leave in order, and in turn where both wait for REQ; a message that arrives
enters its mailbox; a waiting message is promoted after 64 µs; an update of a watched CB reaches the binding. -/
def Obligations.MessageEvents : Prop :=
  ∀ s : State,
    (∀ m r e, s.core.busy = false → s.core.q.parked = [] → (∀ k, s.core.bindAt k = .empty) → s.core.awaitsCohort = false →
      (∀ k : Fin 6, s.core.q.pass[k] < 16) → s.core.q.rep = m :: r → m.sup = false →
      s.handlerEntry (hdrHnd m.hdr) = some e → m.args.length ≤ 15 →
      ∃ t, exec .firingSelection s = .next t ∧ SameBytes s t ∧ t.core.busy = true ∧ t.core.q.rep = r ∧
        t.core.f.pc = hOffset e ∧ t.core.f.fromRep = true ∧ t.core.f.serial = s.core.serials ∧
        t.core.serials = s.core.serials + 1#64 ∧
        t.core.f.ctl = { Ctl.reset with mlim := s.core.launchMlim, fhdr := m.hdr } ∧
        (∀ x, t.regs.getS x = if x = 0#5 then 0#64 else m.args.getD (x.toNat - 1) 0#64) ∧
        t.core.f.ckpt = { regs := t.regs, live := .all, ctl := t.core.f.ctl, pc := hOffset e }) ∧
    (∀ rep e r, s.core.sendQ rep = e :: r → e.by_ = none → e.ahead = 0 → s.core.ack.waiting = [] →
      (rep = true ∨ s.core.q.notices = [] ∨ s.core.q.turn = true) →
      ∃ t, exec (.messageInjection rep) s = .next t ∧ SameBytes s t ∧
        Sent s t e.dst (if rep then .rep else .req) (.msg e.hdr e.args e.lhnd e.lin none false) ∧ t.core.sendQ rep = r ∧
        t.core.q.outbound = s.core.q.outbound + 1 ∧ t.core.q.sent = s.core.q.sent + 1 ∧
        (rep = false → t.core.q.turn = false)) ∧
    (∀ n r, s.core.q.notices = n :: r → (s.core.q.turn = false ∨ s.core.sendReady false = false) →
      ∃ t lhnd lin, exec .noticeInjection s = .next t ∧ SameBytes s t ∧
        Sent s t n.1 .req (.msg n.2.1 n.2.2 lhnd lin none true) ∧ t.core.q.notices = r ∧ t.core.q.turn = true) ∧
    (∀ src rep hdr args lhnd lin ctx note t, Arrived s src (if rep then .rep else .req) (.msg hdr args lhnd lin ctx note) t →
      s.core.isPagerAnswer rep hdr args = false → s.redirect ctx = none → (rep = false ∨ hdrHnd hdr ≠ 255) →
      (s.core.awaitsCohort = true ∨ (s.handlerEntry (hdrHnd hdr)).isSome = true) →
      (if rep then s.core.q.rep else s.core.q.req).length < 32 →
      let mail : Mail := ⟨hdr, args, lhnd, s.dev.time, none, note, lin, false, s.dev.arrivals⟩
      ∃ u, exec (.messageArrival src rep) s = .next u ∧ SameBytes s u ∧ u.core.f = s.core.f ∧ u.dev.arrivals = s.dev.arrivals + 1 ∧
        u.core.q.accepted = s.core.q.accepted + 1 ∧
        u.core.q.rep = (if rep then s.core.q.rep ++ [mail] else s.core.q.rep) ∧
        u.core.q.req = (if rep then s.core.q.req else s.core.q.req ++ [mail])) ∧
    (∀ n m, s.core.q.req[n]? = some m → hdrCls m.hdr = false → m.promoted = none → m.at_ + 64000 ≤ s.dev.time →
      ∃ t, exec (.messagePromotion n) s = .next t ∧ SameBytes s t ∧
        t.core.q.req = s.core.q.req.set n { m with promoted := some s.dev.time }) ∧
    ∀ src link f n num t k r m x live seen, Arrived s src .sys (.watchUpd link f n num s.core.ctx) t →
      s.redirect (some s.core.ctx) = none → s.core.tab.watch.contains (link, num) = true →
      s.core.bindAt k = .actor r m x live seen → link ∈ acHandles r →
      ∃ u, exec (.watchUpdate src) s = .next u ∧ SameBytes s u ∧
        u.core.bindAt k = .actor r m x live ((link, f, n) :: seen.filter fun p => p.1 ≠ link)

/-- R129, R158, R248, R271, R279, R284: a waiting firing is parked at its wait when another trigger is present, and its region has ended;
a wait whose condition holds completes, or makes its parked firing ready; a SLEEP wakes at its deadline; a region stop's back-off ends;
a request makes a safe point at the boundary where the firing stands, and so does a split. -/
def Obligations.WaitEvents : Prop :=
  ∀ s : State, s.core.busy = true →
    (s.core.q.parked = [] → s.core.f.wait = .poll → s.core.f.region.held = [] → s.stopDue = false → s.core.drainedWait = true →
      (s.core.waitAt s.core.f).isSome = true → s.core.triggers ≠ [] →
      ∃ t p, exec .park s = .next t ∧ SameBytes s t ∧ t.core.busy = false ∧ t.core.q.parked = [p] ∧
        p.f.pc = s.core.f.pc ∧ p.f.regs = s.regs ∧ p.f.ctl = s.core.f.ctl ∧ p.f.wait = .poll ∧ p.ready = none ∧
        p.f.region = Region.fresh (s.core.f.region.gen + 1#8)) ∧
    (∀ i a sp, s.core.f.wait = .poll → s.core.fetch = .instr (.waitt i a sp) →
      (∀ k, (tagsOf s i a).getLsbD k = true → s.core.tab.tags.getLsbD k = true) →
      ∃ t, exec (.waitSatisfied 0) s = .next t ∧ t.regs = s.regs ∧ Performed s t (spLen sp)) ∧
    (∀ k p w, s.core.q.parked[k]? = some p → p.ready = none → p.window = some w →
      ((s.core.win w).st = .present ∨ (s.core.win w).st = .poisoned) →
      ∃ t, exec (.waitSatisfied (k + 1)) s = .next t ∧ SameBytes s t ∧ t.core.q.parked =
        s.core.q.parked.set k { p with ready := some (nextReady (s.core.q.parked.eraseIdx k)) }) ∧
    (∀ a d sp, s.core.f.wait = .poll → s.core.fetch = .instr (.sleep a d sp) → s.core.f.smode = true → AtOnce s →
      (s.regs.getS a).toNat ≤ s.readTime.1.toNat →
      ∃ t, exec .sleepWake s = .next t ∧ PassedWith s t (spLen sp) d s.readTime.1) ∧
    (s.core.f.wait = .backoff →
      ∃ t, exec .regionStopResume s = .next t ∧ SameBytes s t ∧ t.net = s.net ∧
        t.core.f = { s.core.f with wait := .none }) ∧
    (s.core.requested = true → s.core.f.region.held = [] → s.stopDue = false →
      (s.core.f.wait = .none ∨ s.core.f.wait = .poll ∨ s.core.f.wait = .backoff) →
      ∃ t, exec .forcedSafePoint s = .next t ∧ Opened s t) ∧
    ∀ src t, Arrived s src .req (.split s.agent) t → s.core.f.region.held = [] → s.stopDue = false →
      (∀ toks next, s.core.f.wait ≠ .probes toks next) →
      ∃ u, exec (.splitRequest src) s = .next u ∧ Opened s u

/-! ### Events: the home's side and the reply unit -/

/-- R108, R110, R125, R245, R246: what a core's banks answer. A plain remote load gets its bytes, or the region stop of a conflict; a granted
probe is staged, its commit stores it and nothing else, and a close of a bank frees the agent's entries that accesses to that bank alone
opened, all but those that wait for its commit; a sync access and a CB operation act at once. Each answer reports the outward path and its
accumulator (R326, R328). That an entry keeps the banks it was reached by and goes with the last of their closes is the model's reading
(log 15). -/
def Obligations.HomeEvents : Prop :=
  ∀ (s : State) (src : CoreId),
    (∀ tok a pc key n low m t, Arrived s src .req (.access tok a pc key (.read n) low m) t → s.core.slotOf src = none →
      s.core.inShadow key n = false →
      let ans := s.core.bankAccess a (s.core.sectors key n) false false ((bankOf key).getD 0) s.core.slotted
      (∀ table, ans = .ok table →
        ∃ u tr, exec (.remoteAccessRequest src) s = .next u ∧ SameBytes s u ∧ u.core.scrim = table ∧
          Outward s src .req (keyOff key / 8192) m a.ser tr ∧
          Sent t u src .rep (.reply tok (.data (s.core.readBytes key n)) none tr)) ∧
      ∀ e, ans = .conflict e →
        ∃ u tr addr, exec (.remoteAccessRequest src) s = .next u ∧ SameBytes s u ∧ u.core.scrim = s.core.scrim ∧
          Outward s src .req (keyOff key / 8192) m a.ser tr ∧
          Sent t u src .rep (.reply tok (.conflict addr (agentWord s.dev.part.memEntry e.agent) pc) none tr)) ∧
    (∀ tok a pc key data table t, Arrived s src .req (.probe tok a pc key data) t → s.core.inShadow key data.length = false →
      s.core.bankAccess a (s.core.sectors key data.length) true true ((bankOf key).getD 0) s.core.slotted = .ok table →
      ∃ u tr, exec (.probeArrival src) s = .next u ∧ SameBytes s u ∧ u.core.scrim = table ∧
        u.core.staged = s.core.staged ++ [⟨a, s.core.phys' key, data, (bankOf key).getD 0⟩] ∧
        Outward s src .req (keyOff key / 8192) (some data.length) a.ser tr ∧ Sent t u src .rep (.reply tok .ok none tr)) ∧
    (∀ a scope bank x t, Arrived s src .req (.commit a scope bank) t → s.core.memoryWf = true →
      (s.core.staged.filter fun x => x.agent = a) = [x] →
      ∃ u tr, exec (.commitArrival src) s = .next u ∧ Sent t u src .rep (.ack scope none tr) ∧
        Outward s src .req bank none a.ser tr ∧
        u.core.staged = (s.core.staged.filter fun x => x.agent ≠ a) ∧
        ∀ k, u.byteAt (.buffer s.core.id k) = if x.key ≤ k ∧ k < x.key + x.data.length then x.data.getD (k - x.key) 0#8
          else s.byteAt (.buffer s.core.id k)) ∧
    (∀ a bank discard t, Arrived s src .req (.close a bank discard) t →
      ∃ u tr, exec (.closeMessage src) s = .next u ∧ SameBytes s u ∧ Sent t u src .rep (.closeAck tr) ∧
        Outward s src .req 16 none a.ser tr ∧
        u.core.staged = (s.core.staged.filter fun x => discard = false ∨ x.agent ≠ a ∨ x.via ≠ bank) ∧
        (∀ e, e.agent ≠ a ∨ bank ∉ e.via → e ∈ s.core.scrim → e ∈ u.core.scrim) ∧
        ∀ e ∈ u.core.scrim, e ∈ s.core.scrim ∧ (e.agent ≠ a ∨ bank ∉ e.via) ∨
          ∃ o ∈ s.core.scrim, o.agent = a ∧ bank ∈ o.via ∧
            (o.via ≠ [bank] ∧ e = { o with via := o.via.erase bank } ∨
             o.via = [bank] ∧ e = { o with closing := true, rd := 0#256 } ∧
               ∃ x ∈ u.core.staged, x.agent = a ∧ bankOf x.key = some o.bank)) ∧
    (∀ tok a pc key n b ex m t, Arrived s src .req (.access tok a pc key (.atomic .add n b ex) none m) t →
      s.readyCounter src = none → s.core.inShadow key n = false → s.core.conflict a (s.core.sectors key n) true = none →
      let old := bytesToNat (s.core.readBytes key n)
      ∃ u tr, exec (.syncAccessArrival src) s = .next u ∧
        Sent t u src .rep (.reply tok (.words [BitVec.ofNat 64 old, 0#64]) none tr) ∧
        Outward s src .req (keyOff key / 8192) m a.ser tr ∧
        Stored s u key (natToBytes n ((old + b.toNat % 2 ^ (8 * n)) % 2 ^ (8 * n)))) ∧
    (∀ tok a pc key bs sc m t, Arrived s src .req (.access tok a pc key (.syncWrite bs) (some sc) m) t →
      s.readyCounter src = none → s.core.inShadow key bs.length = false →
      s.core.conflict a (s.core.sectors key bs.length) true = none →
      ∃ u tr, exec (.syncAccessArrival src) s = .next u ∧ Sent t u src .rep (.ack sc (some tok) tr) ∧
        Outward s src .req (keyOff key / 8192) m a.ser tr ∧ Stored s u key bs) ∧
    ∀ tok a h k m t rcd hd tl f lh lin, Arrived s src .req (.cb tok a h (.get k) none m) t → s.readyCb src = none →
      s.core.cbAt h = .home rcd hd tl f [] lh lin → s.cbInScope rcd lh lin src a = true → k ≤ f →
      ∃ u tr, exec (.cbRequest src) s = .next u ∧ SameBytes s u ∧ Sent t u src .rep (.reply tok (.words []) none tr) ∧
        Outward s src .req ((cbOff rcd + hd * cbSlot rcd) / 8192) m a.ser tr ∧
        u.core.cbAt h = .home rcd ((hd + k) % cbS rcd) tl (f - k) [] lh lin

/-- R325 to R329, R201, R214, R245, R279, R106, R290: what a requester does with an answer: a reply gives the waiting instruction its
bytes, an acknowledgment lowers its count, a completion of a matrix command or of a copy sets its tag, and a pager's result ends the wait
of its walk. Every answer with a trailer adds the hops of its round trip and its waiting to one delay accumulator, and a reply or
acknowledgment to an access of the running firing its charge to MACT. A reply that carries a conflict, and a stop that another core's bank
sends to the region's agent, are region stops: the checkpoint is restored, the held stores are discarded, and RSPC, RSADDR and RSAGENT
report it. That TADDR then has the sector's address, although it is in the checkpoint, is the model's choice (log 65). -/
def Obligations.ReplyEvents : Prop :=
  ∀ (s : State) (src : CoreId) (qw : BitVec 16),
    (∀ tok bs low tr got t, Arrived s src .rep (.reply tok (.data bs) low tr) t → s.core.busy = true →
      s.core.f.wait = .reply tok got → s.core.ack.waiting = [] →
      ∃ u, exec (.replyArrival src qw) s = .next u ∧ SameBytes s u ∧ u.core.f.wait = .replied (.data bs) got ∧
        u.core.f.pc = s.core.f.pc ∧ u.regs = s.regs ∧
        Metered s u src qw (told s src (s.core.placeFor src (some tok)) tr)) ∧
    (∀ tok addr other pc low tr got t, Arrived s src .rep (.reply tok (.conflict addr other pc) low tr) t → s.core.busy = true →
      s.core.f.wait = .reply tok got → s.core.ack.waiting = [] →
      ∃ u, exec (.replyArrival src qw) s = .next u ∧ RegionStopped s u 16 s.core.f.pc addr other ∧
        Metered s u src qw (told s src (s.core.placeFor src (some tok)) tr)) ∧
    (∀ addr other pc t, Arrived s src .rep (.regionStop s.agent addr other pc) t → s.core.busy = true →
      ∃ u, exec (.replyArrival src qw) s = .next u ∧ RegionStopped s u 16 pc addr other ∧ u.core.f.mact = s.core.f.mact) ∧
    (∀ scope tr t, Arrived s src .rep (.ack scope none tr) t → s.core.ack.waiting = [] →
      ∃ u, exec (.acknowledgmentArrival src qw) s = .next u ∧ SameBytes s u ∧ u.core.ack = s.core.ack.sub scope ∧
        Metered s u src qw (told s src (s.core.placeFor src none) tr)) ∧
    (∀ tr t, Arrived s src .rep (.closeAck tr) t → s.core.ack.waiting = [] →
      ∃ u, exec (.acknowledgmentArrival src qw) s = .next u ∧ SameBytes s u ∧
        u.core.ack = { s.core.ack with closes := s.core.ack.closes - 1 } ∧ Metered s u src qw (told s src none tr)) ∧
    (∀ r fl tr t, Arrived s src .rep (.mcmdDone r fl false tr) t → s.core.ctx = r.ctx → s.core.cohort.isSome = true →
      ∃ u, exec (.mcmdCompletion src qw) s = .next u ∧ SameBytes s u ∧
        u.core.tab.tags = s.core.tab.tags ||| (1#64 <<< r.tag.toNat) ∧ u.core.tab.tagerr = s.core.tab.tagerr ∧
        u.core.eng.rflags = s.core.eng.rflags ||| fl ∧ u.core.eng.outstanding = s.core.eng.outstanding - 1 ∧
        Metered s u src qw (told s src none tr)) ∧
    (∀ num w tr t, Arrived s src .rep (.copied num s.core.ctx none tr) t →
      s.core.eng.walks.find? (fun w => w.num = num) = some w → w.bumping = false → w.pending = [src] →
      w.err = none → w.ctr = none →
      ∃ u, exec (.copyCompletion src qw) s = .next u ∧ SameBytes s u ∧
        u.core.tab.tags = s.core.tab.tags ||| (1#64 <<< w.tag.toNat) ∧ u.core.tab.tagerr = s.core.tab.tagerr ∧
        u.core.eng.walks = s.core.eng.walks.filter (fun x => x.num ≠ num) ∧ Metered s u src qw (told s src none tr)) ∧
    ∀ hdr args lhnd lin ctx note t, Arrived s src .rep (.msg hdr args lhnd lin ctx note) t →
      s.core.isPagerAnswer true hdr args = true → args.getD 1 0#64 = 0#64 →
      (s.core.firingWalk (args.getD 0 0#64).toNat = false ∨ s.redirect none = none) →
      ∃ u, exec (.pagerResult src) s = .next u ∧ SameBytes s u ∧
        u.core.pageWaits = s.core.pageWaits.filter fun w => w.tok ≠ (args.getD 0 0#64).toNat

/-! ### Events: the engines -/

/-- R167, R172 to R182, R79, R80, R76: a vector command, at its completion, has written to each element of its destination what its form
makes of the source elements, which were all read before, and changed no other byte; its flags are in FSTAT of its firing, and it has
left its queue. Elementwise arithmetic and bitwise forms, VCMP, VRED, VSCAN, VCVT, VFILL, VCPY, VGATH, VSCAT and VTRN on byte-sized types,
and VQNT, VFILL, VCPY and VIDENT on .qm, where VIDENT leaves its panels IDENT with their phase. Sources and destinations may be circular
buffers whose slots are ready; a command that waits for the slots of both before it reads is the model's choice (log 71). -/
def Obligations.VectorResults : Prop :=
  ∀ (s : State) (k : VCmd) (rest : List VCmd) (c o : BitVec 4) (t b a d : BitVec 5) (sp : Sp), VecDue s k rest →
    let rm := Rounding.ofCode k.rm.toNat
    let ta := shTy k.a
    let td := shTy k.d
    let ka := s.core.elemKeys k.a ta false
    let kb := s.core.elemKeys k.b (shTy k.b) false
    let kd := s.core.elemKeys k.d td true
    let x (j : Nat) : Nat := s.core.elemAt ta.size (ka.getD j 0)
    let y (j : Nat) : Nat := s.core.elemAt (shTy k.b).size (kb.getD j 0)
    let z (j : Nat) : Nat := s.core.elemAt td.size (kd.getD j 0)
    let y0 (j : Nat) : Nat := if k.b = 0#256 then 0 else y j
    let gives := VecGives s k rest
    (ta = td → (k.b = 0#256 ∨ shTy k.b = td ∧ kb.length = kd.length) → ka.length = kd.length →
      (∀ f ∈ integerLanes t b a d sp, ∀ sg w, k.form = f.1 → ETy.ofCode (shTypeCode k.d) = some (.int sg w) →
        gives fun j => (f.2 sg w (x j) (y0 j) (z j), 0#6)) ∧
      (∀ f ∈ floatLanes t b a d sp, ∀ fmt, k.form = f.1 → td.fmt = some fmt →
        gives fun j => f.2 fmt rm (x j) (y0 j) (z j))) ∧
    (k.form = .vcmp c t b a d sp → (∀ m, td ≠ .q m) → ta = shTy k.b → td.size = ta.size →
      ka.length = kd.length → kb.length = kd.length →
      let all := 2 ^ (8 * ta.size) - 1
      (∀ sg w, ETy.ofCode (shTypeCode k.a) = some (.int sg w) →
        gives fun j => (if integerHolds c.toNat sg w (x j) (y j) then all else 0, 0#6)) ∧
      (∀ fmt, ta.fmt = some fmt →
        gives fun j => (if (floatHolds c.toNat fmt (x j) (y j)).1 then all else 0, (floatHolds c.toNat fmt (x j) (y j)).2))) ∧
    (k.form = .vred o t a d sp → ta = td → kd.length = 1 → ka ≠ [] → 1 ≤ shE k.a 0 → o.toNat ≤ 5 →
      (∀ sg w, ETy.ofCode (shTypeCode k.d) = some (.int sg w) →
        gives fun _ => (((List.range (ka.length - 1)).map fun j => x (j + 1)).foldl (integerOp o.toNat sg w) (x 0), 0#6)) ∧
      (∀ fmt, td.fmt = some fmt →
        gives fun _ => reduce (redOp o.toNat) td rm (shE k.a 0) ((List.range ka.length).map x))) ∧
    (k.form = .vscan o t a d sp → ta = td → ka.length = kd.length → 1 ≤ shE k.a 0 → o.toNat ≤ 5 →
      let first (j : Nat) : Nat := j / shE k.a 0 * shE k.a 0
      let steps (j : Nat) : List Nat := (List.range (j - first j)).map fun i => x (first j + i + 1)
      (∀ sg w, ETy.ofCode (shTypeCode k.d) = some (.int sg w) →
        gives fun j => ((steps j).foldl (integerOp o.toNat sg w) (x (first j)), 0#6)) ∧
      (∀ fmt, td.fmt = some fmt →
        gives fun j => (steps j).foldl (fun p v => lane (redOp o.toNat) td rm p.1 v 0) (x (first j), 0#6))) ∧
    (k.form = .vcvt t a d sp → (∀ m, td ≠ .q m) → (s.core.elemNums k.a ta).length = kd.length →
      gives fun j => cvtTo td rm ta.isInt ((s.core.elemNums k.a ta).getD j (.fin false 0 0))) ∧
    (k.form = .vfill t a d sp → (∀ m, td ≠ .q m) → gives fun _ => (k.sval.toNat, 0#6)) ∧
    (k.form = .vcpy t a d sp → (∀ m, td ≠ .q m) → ta = td → ka.length = kd.length → gives fun j => (x j, 0#6)) ∧
    (k.form = .vgath t b a d sp → (∀ m, td ≠ .q m) → ta = td → kb.length = kd.length →
      gives fun j => (if y j < ka.length then x (y j) else 0, 0#6)) ∧
    (k.form = .vscat t b a d sp → (∀ m, td ≠ .q m) → ta = td → ka.length = kb.length →
      gives fun j => (match ((List.range kb.length).filter fun i => y i = j).getLast? with
        | some i => x i
        | none => z j, 0#6)) ∧
    (k.form = .vtrn t a d sp → (∀ m, td ≠ .q m) → ta = td → ka.length = kd.length →
      let e0 := shE k.a 1
      let e1 := shE k.a 0
      1 ≤ e0 → 1 ≤ e1 → kd.length % (e0 * e1) = 0 →
      gives fun j => (x (j / (e0 * e1) * (e0 * e1) + j % e0 * e1 + j / e0 % e1), 0#6)) ∧
    ∀ m, ETy.ofCode (shTypeCode k.d) = some (.q m) → shKind1 k.d = false →
      (∀ e ∈ blockOffsets k.d, 0 ≤ (ptrOff (shBase k.d) : Int) + e / 32 * (4 * m)) →
      let blocks := blockOffsets k.d
      let quant (i : Nat) : Nat × List Int × Flags := quantiseBlock m ((List.range 32).map fun j => x (32 * i + j))
      let source (i : Nat) : Int := (blockOffsets k.a).getD i 0
      (k.form = .vqnt t a d sp → ta = .f32 → ka.length = 32 * blocks.length →
        VecGivesBlocks s k rest m (fun i => (quant i).1) (fun i j => (quant i).2.1.getD j 0)
          (joined ((List.range blocks.length).map fun i => (quant i).2.2))) ∧
      (k.form = .vfill t a d sp →
        VecGivesBlocks s k rest m (fun _ => field k.sval 8 8) (fun _ _ => signedOf m k.sval.toNat) 0#6) ∧
      (k.form = .vcpy t a d sp → (blockOffsets k.a).length = blocks.length →
        VecGivesBlocks s k rest m (fun i => s.core.scaleAt k.a (source i))
          (fun i j => s.core.mantissa k.a m (source i + j)) 0#6) ∧
      (k.form = .vident t a d sp → identTile k.d = true → shS k.d 0 = 1 → identValue m k.sval = true →
        let v := signedOf 8 k.sval.toNat
        VecGivesBlocks s k rest m (fun _ => field k.sval 8 8)
          (fun i j => if (32 * i + j) % 64 = (32 * i + j) / 64 then v else 0) 0#6 ∧
        (ptrOff (shBase k.d) + 512 * m ≤ bufSize 0 →
          (∀ j, j < 512 * m → s.core.phys' (ptrOff (shBase k.d) + j) = ptrOff (shBase k.d) + j) →
          ∃ u, exec .vectorCommandCompletion s = .next u ∧ ∀ p, p < m →
            u.core.entry (ptrOff (shBase k.d) / 512 + p) = dirEntry classIdent (7 + m) false p (field k.sval 0 16)))

/-- R186 to R196, R199 to R201, R81, Table 9.4: the effect of a matrix command at its completion. MBLD has filled the B latch from its
tile, MGAT the A latch with the rows that its indices name and zero rows for the others, each without a change to a byte; MMA, MMAZ and
MREC have written each output of their C region from its old word, and no other byte, with their flags in FSTAT and ELC counting an elided
step; MCMD has sent the A latch, with its operation and capability, to the core that it names. A remote command has done the same to the
region that it names, with its own A latch, and its completion goes to the requester with its flags, the core's own FSTAT and A latch
untouched. A step whose operands hold a NaN block, whose products are all zero, or whose old word is no finite number gives what R81
says. -/
def Obligations.MatrixResults : Prop :=
  (∀ (s : State) (k : MCmd) (rest : List MCmd) (o t b a : BitVec 5) (sp : Sp), MatDue s k rest →
    let e := s.core.eng
    let m := t.toNat % 16
    let off := ptrOff k.sval
    (k.form = .mbld t a sp →
      ∃ u l, exec .matrixCommandCompletion s = .next u ∧ SameBytes s u ∧ u.regs = s.regs ∧ u.net = s.net ∧
        u.core.eng = { e with mq := rest, bLatch := some l } ∧
        (∀ r n : Nat, r < 64 → n < 64 → (l.rows.getD r []).getD n 0 = s.core.mantissa k.a m ((64 * r + n : Nat) : Int)) ∧
        ∀ j : Nat, j < 128 → (l.scales.getD j 0#8).toNat = s.core.scaleAt k.a ((32 * j : Nat) : Int)) ∧
    (k.form = .mgat t b a sp →
      let picks := (s.core.elemKeys k.b (shTy k.b) false).map (s.core.elemAt (shTy k.b).size)
      ∃ u l, exec .matrixCommandCompletion s = .next u ∧ SameBytes s u ∧ u.regs = s.regs ∧ u.net = s.net ∧
        u.core.eng = { e with mq := rest, aLatch := l } ∧ l.rows.length = picks.length ∧
        ∀ i, i < picks.length → ∃ row, l.rows[i]? = some row ∧ row.mant.length = 64 ∧
          let r := picks.getD i 0
          let at_ (n : Nat) : Int := (n : Int) + (r : Int) * shS k.a 1
          if r < shE k.a 1 then row.src = some r ∧ row.e0.toNat = s.core.scaleAt k.a (at_ 0) ∧
            row.e1.toNat = s.core.scaleAt k.a (at_ 32) ∧
            ∀ n, n < 64 → row.mant.getD n 0 = s.core.mantissa k.a m (at_ n)
          else row.src = none ∧ row.e0 = 0#8 ∧ row.e1 = 0#8 ∧ ∀ n, n < 64 → row.mant.getD n 0 = 0) ∧
    (∀ f ∈ [(Instr.mma a sp, MOp.mma), (.mmaz a sp, .mmaz), (.mrec a sp, .mrec)], k.form = f.1 → 1 ≤ k.cstr →
      ∀ l, e.bLatch = some l →
      ∃ u fl, exec .matrixCommandCompletion s = .next u ∧ StepTaken s u f.2 e.aLatch l off (256 * k.cstr) fl ∧
        Flagged s u k.serial fl ∧ u.core.eng = { e with mq := rest, elc := u.core.eng.elc } ∧ u.net = s.net) ∧
    (k.form = .mcmd o b a sp →
      ∃ u r, exec .matrixCommandCompletion s = .next u ∧ SameBytes s u ∧ u.regs = s.regs ∧
        Sent s u (ptrCore k.sval) .data (.mcmd r) ∧ r.src = s.core.id ∧ r.a = e.aLatch ∧ r.off = off ∧ r.at_ = k.at_ ∧
        r.op = (if o.toNat = 0 then .mma else if o.toNat = 1 then .mmaz else .mrec) ∧ r.cap.toNat = field k.sval2 0 32 ∧
        r.tag.toNat = field k.sval2 32 6 ∧ u.core.eng = { e with mq := rest, outstanding := e.outstanding + 1 })) ∧
  (∀ (s : State) (r : RCmd) (rest : List RCmd) (l : BLatch), EngineAlone s.core → (∀ k ∈ s.core.eng.mq, k.started = false) →
    s.core.eng.rq = r :: rest → r.started = true → r.prog = Progress.fresh → s.core.eng.bLatch = some l →
    ∃ u fl tr x, exec .matrixCommandCompletion s = .next u ∧ StepTaken s u r.op r.a l r.off 256 fl ∧ u.core.f = s.core.f ∧
      u.core.eng = { s.core.eng with rq := rest, elc := u.core.eng.elc } ∧
      Sent s u r.src .rep (.mcmdDone x fl false tr) ∧ x.tag = r.tag ∧ x.src = r.src) ∧
  ∀ (old : Nat) (a b : List FNum), a.length = 64 → b.length = 64 → old < 2 ^ 32 →
    let c := fmtF32.unpack old
    let nan : Nat × Flags := (0x7FC00000, if c.isSignalling then flagNV else 0#6)
    (a.any FNum.isNaN = true ∨ b.any FNum.isNaN = true → matrixStep old a b = nan) ∧
    ((∀ x ∈ a, ∃ n m e, x = .fin n m e) → (∀ x ∈ b, ∃ n m e, x = .fin n m e) →
      ((∀ j, j < 64 → (a.getD j (.fin false 0 0)).isZero = true ∨ (b.getD j (.fin false 0 0)).isZero = true) →
        matrixStep old a b = (old, 0#6)) ∧
      ((∃ j, j < 64 ∧ (a.getD j (.fin false 0 0)).isZero = false ∧ (b.getD j (.fin false 0 0)).isZero = false) →
        (c.isNaN = true → matrixStep old a b = nan) ∧ ((∃ n, c = .inf n) → matrixStep old a b = (old, 0#6))))

/-- R298 to R300, R187, R188, R195, R200: the command at the head of a queue starts when nothing holds it back; MUPL and MCFG take effect at
completion; a remote command is queued, and when its turn comes it starts if the target accepts it and is answered with an error if it
does not. -/
def Obligations.EngineEvents : Prop :=
  ∀ s : State,
    let e := s.core.eng
    (∀ k r, e.vq = k :: r → k.started = false → s.core.vecFree k = true → s.core.cbReady k = true →
      ∃ t, exec .vectorCommandStart s = .next t ∧ SameBytes s t ∧
        t.core = { s.core with eng := { e with vq := { k with started := true } :: r } }) ∧
    (∀ k r, e.mq = k :: r → (∀ x ∈ e.mq, x.started = false) → e.rq = [] → s.core.matFree k = true →
      ∃ t, exec .matrixCommandStart s = .next t ∧ SameBytes s t ∧
        t.core = { s.core with eng := { e with mq := { k with started := true } :: r, remoteTurn := true } }) ∧
    (∀ k r a sp, e.mq = k :: r → k.started = true → k.form = .mupl a sp →
      ∃ t, exec .matrixCommandCompletion s = .next t ∧ SameBytes s t ∧
        t.core = { s.core with eng := { e with mq := r, mupr := k.sval } }) ∧
    (∀ k r a sp, e.mq = k :: r → k.started = true → k.form = .mcfg a sp →
      ∃ t, exec .matrixCommandCompletion s = .next t ∧ SameBytes s t ∧ t.core = { s.core with eng := { e with
        mq := r, mxcfg := k.sval &&& ~~~4#64, rflags := if bit k.sval 2 then 0#6 else e.rflags } }) ∧
    (∀ src r t, Arrived s src .data (.mcmd r) t → (e.rq.filter fun k => !k.started).length < 4 →
      ∃ u, exec (.remoteMatrixPacket src) s = .next u ∧ SameBytes s u ∧ u.net = t.net ∧
        u.core = { s.core with eng := { e with rq := e.rq ++ [r] } }) ∧
    ∀ r rs, e.rq = r :: rs → e.mq = [] → (∀ x ∈ e.rq, x.started = false) →
      (s.accepts r = true → ∃ t, exec .matrixCommandStart s = .next t ∧ SameBytes s t ∧
        t.core = { s.core with eng := { e with rq := { r with started := true } :: rs, remoteTurn := false } }) ∧
      (s.accepts r = false → ∃ t tr r', exec .matrixCommandStart s = .next t ∧ SameBytes s t ∧
        t.core.eng = { e with rq := rs, remoteTurn := false } ∧
        Sent s t r.src .rep (.mcmdDone r' 0#6 true tr) ∧ r'.tag = r.tag ∧ r'.src = r.src)

/-- R303 to R308, R312, R215, R223: the oldest queued walk takes a free slot; the walk whose turn it is sends its next flit, with the bytes of
the stream; a flit that arrives is written where it belongs, in the shadow of its window, and nowhere else; a chain issues the link
that is due; a memory core streams a part of its source and stores a part of a destination. That a source is read when its flit is
sent, a part at a time, is the model's own (log 29). -/
def Obligations.CopyEvents : Prop :=
  ∀ s : State,
    let e := s.core.eng
    (∀ w, (∃ k, k < 16 ∧ ∀ x ∈ e.walks, x.active = true → x.slot ≠ k) → e.walks.find? (fun w => !w.active) = some w →
      ∃ t slot, exec .walkActivation s = .next t ∧ SameBytes s t ∧ slot < 16 ∧ (∀ x ∈ e.walks, x.active = true → x.slot ≠ slot) ∧
        t.core = { s.core with eng := { e with
          walks := e.walks.map fun x => if x.num = w.num then { w with active := true, slot := slot } else x } }) ∧
    (∀ slot w p c path, s.core.walkAt slot = some w → s.slotTurn = some slot → w.err = none → w.failing = false → w.dst = .mesh p →
      bxMesh w.view.box = true → ptrCore (bxSrc w.view.box) = s.core.id → meshDests w.view.box p = c :: path →
      s.core.badSecs = [] → s.core.scrim = [] →
      let n := flitLen w.view.box w.sent
      let buf := ptrBuf (bxSrc w.view.box)
      (∀ k ∈ w.view.sectorKeys w.sent n, s.core.inShadow (32 * k) 32 = false) → tableWf [] w.secs = true →
      (∀ q ∈ w.secs, q.2 = s.core.readBytes (32 * q.1) 32) →
      ∃ t h, exec (.stencilFlitSend slot) s = .next t ∧ SameBytes s t ∧
        Sent s t c .data (.flit h w.sent ((List.range n).map fun j =>
          (w.view.stream (w.sent + j)).value fun a => s.core.readByte (keyOf buf a))) ∧ h.walk = w.num ∧
        h.issuer = s.core.id ∧ h.view = w.view ∧ h.path = path ∧ t.core.eng.lastSlot = slot ∧
        ∃ x ∈ t.core.eng.walks, x.num = w.num ∧ x.sent = w.sent + n) ∧
    (∀ src h at_ bytes key l t, Arrived s src .data (.flit h at_ bytes) t → h.dst = .shadow key → h.path = [] →
      bxRed h.view.box = 0 → s.core.landing h = some l → l.dead = false → l.part src = 0 → s.core.tear = false →
      l.got + bytes.length < bxBytes h.view.box → s.core.scrim = [] → s.core.memoryWf = true →
      let keys := (s.core.landKeys h at_ bytes.length).map (s.core.landPhys l)
      keys.Nodup →
      ∃ u, exec (.copyFlitArrival src) s = .next u ∧ u.net = t.net ∧ u.regs = s.regs ∧
        (∀ j, j < bytes.length → u.byteAt (.buffer s.core.id (keys.getD j 0)) = bytes.getD j 0#8) ∧
        ∀ k, k ∉ keys → u.byteAt (.buffer s.core.id k) = s.byteAt (.buffer s.core.id k)) ∧
    (∀ win ch b, s.core.chainOf win = some ch → ch.issued - ch.released < ch.depth → ch.issued < dL ch.desc →
      let k := ch.first + BitVec.ofNat 4 (ch.issued % ch.n)
      (s.core.win k).st = .absent → (s.core.win k).bound = some b →
      ∃ t, exec (.chainLinkIssue win) s = .next t ∧ SameBytes s t ∧ (t.core.win k).st = .filling ∧
        (t.core.win k).fill = true ∧
        (∃ w ∈ t.core.eng.walks, w.num = e.nextWalk ∧ w.view = linkView ch.desc b.box ch.issued ∧ w.win = some k) ∧
        t.core.tab.chains.find? (fun x => x.first = ch.first) = some { ch with issued := ch.issued + 1 }) ∧
    (∀ src h dst at_ len cur t page pa host v, Arrived s src .req (.pull h dst at_ len cur) t → h.view.pageOf at_ len = some page →
      (∀ a ∈ h.view.addrs at_ len, a / 4096 = page) →
      t.paged (4096 * page) 4096 false (some (h.issuer, h.walk)) h.ctx (kernelCore h.issuer) = .done [(pa, 4096, host)] v →
      s.core.taken = [] → v.dev.badExt = [] → 1 ≤ len → len ≤ flitLen h.view.box at_ →
      ∃ u x, exec (.pullRequest src) s = .next u ∧ u.net = v.net ++ [x] ∧ x.dst = dst ∧ x.net = .data ∧
        x.body = .flit h at_ (h.view.fromPages v.dev [⟨page, pa, host⟩] at_ len)) ∧
    ∀ src h addr data last t pa host v, Arrived s src .data (.store h addr data last) t → bxRed h.view.box = 0 →
      (s.core.landing h).any Landing.dead = false →
      t.paged addr data.length true (some (h.issuer, h.walk)) h.ctx (kernelCore h.issuer) = .done [(pa, data.length, host)] v →
      s.core.taken = [] → v.dev.ext.wf = true → v.dev.host.wf = true →
      ∃ u, exec (.storerRequest src) s = .next u ∧ u.dev.physRead host pa data.length = data ∧
        (last = false → u.net = v.net) ∧
        (last = true → ∃ x tr, u.net = v.net ++ [x] ∧ x.dst = h.issuer ∧ x.net = .rep ∧ x.body = .copied h.walk h.ctx none tr)

/-! ### Events: saves, moves and recovery -/

/-- R275, R284, R285, R288: a pre-emption asks every residency of the job to be saved; a drained core is written to its context and vacated:
its memories and the cursors of its walks go to the context area, each at its place in Table 15.6, and nothing else of external memory
changes; a resume makes the saved running set due, and a due context comes back with its memories and tables. That no core is saved
before all that are asked to save have stopped is the model's own (log 80), and so is that what Table 15.6 names without a layout is kept
in the context's record and writes none of the context's bytes (log 81).
R335 to R339, R341: a move is asked for, or told to the move service as discarded, and one that must wait is held at the core, out of the
fabric, until it is looked at again; it drains, streams and stands at its new site with its memory; the map update visits the routers, and
each sends its markers, ahead of what the new map translates, and passes it on; the old
site forwards what reaches it. The order in which an update visits the routers is the model's choice (log 83), and so is that the requests
of Float come from the control cluster (log 55). -/
def Obligations.SaveAndMoveEvents : Prop :=
  (∀ s : State,
    let q := s.dev.seq
    (q.preempting = false → q.started = true → q.jobEnded = false →
      ∃ t, exec .preemptRequest s = .next t ∧ SameBytes s t ∧ t.dev.seq.preempting = true ∧
        ∀ c ∈ t.cores, (c.cohort.isSome = true ∨ c.isMemory = true) → c.saveAsked = true) ∧
    (s.core.saveAsked = true → s.saversStopped = true → s.core.drainedForSave = true → s.core.badSecs = [] →
      let base := s.dev.ctxAt s.core.ctx
      ∃ t x, exec .residencySave s = .next t ∧ t.dev.ctxs = s.dev.ctxs ++ [x] ∧ x.ctx = s.core.ctx ∧
        x.core = some { s.core with mem := Mems.reset } ∧ x.log = [] ∧ t.core.cohort = none ∧ t.core.saveAsked = false ∧
        t.core.tab = Tables.reset ∧ (∀ p, (∀ a, p ≠ .external a) → t.byteAt p = s.byteAt p) ∧
        (s.dev.ext.wf = true →
          ∀ a, a < base + 0x1000 ∨ (base + 0x49F00 ≤ a ∧ a < base + 0x4A800) ∨ base + 0x4B000 ≤ a →
            t.byteAt (.external a) = s.byteAt (.external a)) ∧
        (s.dev.ext.wf = true → s.core.memoryWf = true → lockedMeets s.dev.boot.locked base 0x58000 = false →
          (∀ k w, k < 16 → s.core.walkAt k = some w →
            t.dev.ext.read (base + 0x4A800 + 128 * k) 128 = natToBytes 128 (s.cursor w w.sent).toNat) ∧
          (∀ b off, b < 3 → off < bufSize b →
            (Mems.ofContext t.dev.ext base).data.get (keyOf b off) = s.core.mem.data.get (keyOf b off)) ∧
          ∀ off, off < 0x8000 → (Mems.ofContext t.dev.ext base).istore.get off = s.core.mem.istore.get off)) ∧
    (q.out = true →
      ∃ t, exec .jobResume s = .next t ∧ SameBytes s t ∧ t.dev.seq.preempting = false ∧ t.dev.seq.out = false ∧
        t.dev.ctxs = s.dev.ctxs.map fun x =>
          if (s.dev.seqSaved.getD (q.save s.dev.part)).runs x then { x with due := true, first := true } else x) ∧
    ∀ x c, s.dueCtx s.core.id = some x → x.core = some c → x.log = [] → q.preempting = false → q.out = false →
      s.core.busy = false → s.core.cohort = none → s.core.phys.halted = false → s.dev.bad.contains s.core.site = false →
      s.core.q.sendReq = [] → s.core.q.sendRep = [] → lockedMeets s.dev.boot.locked (s.dev.ctxAt x.ctx) 0x58000 = false →
      ∃ t, exec .residencyRestore s = .next t ∧ t.core.mem = Mems.ofContext s.dev.ext (s.dev.ctxAt x.ctx) ∧
        t.core.tab = c.tab ∧ t.core.cohort = c.cohort ∧ t.core.serials = c.serials ∧
        t.core.site = s.core.site ∧ t.core.phys.dacc = s.core.phys.dacc ∧ t.core.saveAsked = false ∧
        t.others = s.others ∧ ∀ y ∈ t.dev.ctxs, y.ctx ≠ x.ctx) ∧
  ∀ s : State,
    (∀ site why t, Arrived s .control .sys (.moveReq site why) t → s.core.takesNoMove = false → (site, why) ∉ s.core.moveHeld →
      s.core.site ≠ site →
      (s.moveWaits = false → s.moveTargetOk site why = true →
        ∃ u, exec (.moveRequest site why) s = .next u ∧ SameBytes s u ∧ u.net = t.net ∧
          u.core = { s.core with moving := .requested site why }) ∧
      (s.moveWaits = true →
        ∃ u, exec (.moveRequest site why) s = .next u ∧ SameBytes s u ∧ u.net = t.net ∧
          u.core = { s.core with moveHeld := s.core.moveHeld ++ [(site, why)] })) ∧
    (∀ site why, (site, why) ∈ s.core.moveHeld → s.core.takesNoMove = false → s.core.site ≠ site → s.moveWaits = false →
      s.moveTargetOk site why = true →
      ∃ u, exec (.moveRequest site why) s = .next u ∧ SameBytes s u ∧ u.net = s.net ∧
        u.core = { s.core with moving := .requested site why, moveHeld := s.core.moveHeld.erase (site, why) }) ∧
    (∀ site why t, Arrived s .control .sys (.moveReq site why) t → s.core.takesNoMove = true → s.core.id ≠ .control →
      (site, why) ∉ s.core.moveHeld →
      ∃ u, exec (.moveRequest site why) s = .next u ∧ SameBytes s u ∧ u.core = s.core ∧
        Sent t u .control .sys (.moveRefused site)) ∧
    (∀ site why, s.core.moving = .draining site why → s.core.drainedForMove = true →
      ∃ t, exec .moveDrainComplete s = .next t ∧ SameBytes s t ∧ t.core = { s.core with moving := .streaming site why }) ∧
    (∀ site why, s.core.moving = .streaming site why → (s.dev.quadAt (quadOf site)).gate = .on → s.core.badSecs = [] →
      ∃ t, exec .moveStreamComplete s = .next t ∧ SameBytes s t ∧ t.core.site = site ∧ t.core.moving = .no ∧
        t.core.f = s.core.f ∧ t.core.tab = s.core.tab ∧ t.core.q = s.core.q ∧ t.core.cohort = s.core.cohort ∧
        (∃ f ∈ t.dev.forwards, f.core = s.core.id ∧ f.old = s.core.site) ∧
        ∀ r rs, s.recipients = r :: rs → ∃ p ∈ t.net, p.src = .control ∧ p.dst = r ∧ p.net = .sys ∧
          ∃ k, p.body = .mapUpd s.dev.moves s.core.id site k rs) ∧
    (∀ c f p rest num site k path, s.dev.forward c = some f → s.arrivedUpdate c = some (p, rest) →
      p.body = .mapUpd num c site k path →
      ∃ t more, exec (.mapUpdate c) s = .next t ∧ SameBytes s t ∧
        t.core = { s.core with exc := (s.core.exc.filter fun e => !e.names c) ++ updateEntry c site k } ∧
        t.net = rest ++ (packetNets.map fun n => ⟨s.core.id, c, n, f.old, false, .marker c, [s.core.site]⟩) ++ more ∧
        (path = [] → more = []) ∧
        ∀ r rs, path = r :: rs → ∃ x, more = [x] ∧ x.dst = r ∧ x.net = .sys ∧ x.body = .mapUpd num c site k rs) ∧
    (∀ src f k rest, s.dev.forward s.core.id = some f → oldestAt src f.core f.old Packet.isMarker [] s.net = some (k, rest) →
      ∃ t, exec (.markerArrival src) s = .next t ∧ SameBytes s t ∧ t.core = s.core ∧
        t.net = rest ++ [{ k with site := s.core.site, fwd := true, path := k.path ++ [k.site] }]) ∧
    (∀ src f k rest, s.dev.forward s.core.id = some f →
      (s.relocMarker src = some (k, rest) →
        ∃ t, exec (.relocArrival src) s = .next t ∧ SameBytes s t ∧ t.core = s.core ∧ t.net = rest) ∧
      (s.relocMarker src = none → oldestAt src f.core f.old (fun k => !k.isMarker) [] s.net = some (k, rest) →
        ∃ t, exec (.relocArrival src) s = .next t ∧ SameBytes s t ∧ t.core = s.core ∧
          t.net = rest ++ [{ k with site := s.core.site, fwd := true, path := k.path ++ [k.site] }])) ∧
    ∀ die : BitVec 3, bit (s.dev.dieSt die.toNat).floatctl 0 = true →
      (s.dev.dieSt die.toNat).floatLast + 250000 * flPeriod (s.dev.dieSt die.toNat).floatctl ≤ s.dev.time →
      ∃ t new, exec (.floatPeriod die) s = .next t ∧ SameBytes s t ∧ (t.dev.dieSt die.toNat).floatLast = s.dev.time ∧
        t.net = s.net ++ new ∧ new.length ≤ 8 ∧ ∀ p ∈ new, p.src = .control ∧ ∃ site, p.body = .moveReq site 0#2

/-- R282, R283, R343, R344, R342, R352: a failed logical core is quarantined with its firing ended, and a failed memory or pager core
cancels the job; a failed core is rebuilt at another site with its memory, a sector that could not be corrected reading as zero; the
residency of a site at the limit of heat is asked to move to the coolest pool site, or with none the quad's cap is lowered, by how much
being free (log 17); one at the overheat limit sets it to 0. That the cancel of the job is an entry of the sequencer's inbox, and that the
host's news takes the word of the failed site, is the model's own (log 52). -/
def Obligations.RecoveryEvents : Prop :=
  ∀ s : State,
    (∀ syndrome pcv x y, s.core.id = .mesh x y → s.dev.bad.contains s.core.site = false →
      ∃ t, exec (.machineCheck syndrome pcv) s = .next t ∧ SameBytes s t ∧ t.core.busy = false ∧
        t.dev.bad = s.dev.bad ++ [s.core.site]) ∧
    (∀ syndrome pcv, (∃ x y, s.core.id = .memory x y) ∨ (∃ x y, s.core.id = .pager x y) →
      ∃ t, exec (.machineCheck syndrome pcv) s = .next t ∧ SameBytes s t ∧ t.core.busy = false ∧
        t.dev.seq.inbox = s.dev.seq.inbox ++ [.cancel jobHandle s.core.id] ∧
        t.dev.hostNews = s.dev.hostNews ++ [siteWord s.core.site]) ∧
    (∀ site, s.core.isMesh = true → s.dev.bad.contains s.core.site = true → s.moveWaits = false →
      s.rebuildOk site = true → (s.dev.quadAt (quadOf site)).gate = .on → s.core.memoryWf = true →
      ∃ t, exec (.rebuild site []) s = .next t ∧ t.core.site = site ∧ t.core.badSecs = [] ∧
        (∀ k, t.core.mem.data.get k = if s.core.badSecs.contains (k / 32) then 0#8 else s.core.mem.data.get k) ∧
        t.core.tab = s.core.tab ∧ t.core.cohort = s.core.cohort ∧ t.others = s.others) ∧
    (∀ (site : Site) (t : BitVec 10) (c : Core), thLim (s.dev.dieSt (dieOf site)) ≤ t.toNat →
      s.cores.find? (fun c => c.onSite site) = some c → (s.measured site t).coolest (dieOf site) [] = none →
      ∃ u, exec (.thermalEmergency site t) s = .next u ∧ SameBytes s u ∧
        (u.dev.quadAt (quadOf site)).cap ≤ (s.dev.quadAt (quadOf site)).cap ∧
        (0 < (s.dev.quadAt (quadOf site)).cap → (u.dev.quadAt (quadOf site)).cap < (s.dev.quadAt (quadOf site)).cap)) ∧
    (∀ (site : Site) (t : BitVec 10) (c : Core) (cool : Site), thLim (s.dev.dieSt (dieOf site)) ≤ t.toNat →
      s.cores.find? (fun c => c.onSite site) = some c → (s.measured site t).coolest (dieOf site) [] = some cool →
      s.excRoom c.id = true →
      ∃ u p, exec (.thermalEmergency site t) s = .next u ∧ SameBytes s u ∧ u.net = s.net ++ [p] ∧ p.dst = c.id ∧ p.net = .sys ∧
        p.body = .moveReq cool 1#2) ∧
    ∀ (site : Site) (t : BitVec 10), thLim (s.dev.dieSt (dieOf site)) + 40 ≤ t.toNat →
      ∃ u, exec (.overheatCap site t) s = .next u ∧ SameBytes s u ∧ (u.dev.quadAt (quadOf site)).cap = 0

/-! ### Events: power, debug, boot and host -/

/-- R351 to R355: a ramp ends at its target; droop halves a quad's clock until its hold of 2 µs has passed; a gated quad goes off at its
commit, 64 edges after the command, and comes on when it has been waking for 800, and what its routers held is then delivered; a cool
quad's cap below 3 is raised, by how much being free (log 17), at most to 3. That the core state of a quad's idle cores is lost at the
commit is the model's reading (log 18).
R158, R358, R360, R361: a halt request and a halt-group message ask a running core to halt; a dump whose limit has passed is given up; a
trace record leaves its queue for the collector, which writes it to its ring. -/
def Obligations.PowerAndDebugEvents : Prop :=
  (∀ (s : State) (q : Quad),
    let x := s.dev.quadAt q
    (x.ramping = true → s.request q = x.target →
      ∃ t, exec (.rampComplete q) s = .next t ∧ SameBytes s t ∧ (t.dev.quadAt q).point = x.target ∧
        (t.dev.quadAt q).ramping = false) ∧
    (∃ t, exec (.droopDetect q) s = .next t ∧ SameBytes s t ∧ t.dev.quadAt q = { x with halved := true, droopAt := s.dev.time }) ∧
    (x.droopAt + 2000 ≤ s.dev.time → ∃ t, exec (.droopHoldExpiry q) s = .next t ∧ SameBytes s t ∧ t.dev.quadAt q = { x with halved := false }) ∧
    (x.gate = .gating → x.since + 640 ≤ s.dev.time →
      ∃ t, exec (.gatingCommit q) s = .next t ∧ SameBytes s t ∧ t.dev.quadAt q = { x with gate := .off } ∧
      ∀ p ∈ t.dev.idle, quadOf p.1 ≠ q) ∧
    (x.gate = .waking → x.since + 8000 ≤ s.dev.time → ∃ t, exec (.wakeComplete q) s = .next t ∧ SameBytes s t ∧
      t.dev.quadAt q = { x with gate := .on } ∧ (∀ p ∈ t.dev.portHeld, quadOf p ≠ q) ∧
      ∀ p ∈ s.dev.portHeld, quadOf p = q → ((∀ c ∈ s.cores, c.onSite p = false) → (t.dev.idlePhys p).halted = true) ∧
        ∀ c, s.cores.find? (fun c => c.onSite p) = some c →
          ∃ k, t.coreAt c.id = some k ∧ (k.phys.halted = true ∨ k.phys.haltPending.isSome = true)) ∧
    ((∀ site ∈ quadSites q, s.tempAt site + 4 * flMargin (s.dev.dieSt q.die.toNat).floatctl ≤ thLim (s.dev.dieSt q.die.toNat)) →
      x.cap < 3 →
      ∃ t, exec (.capRaise q) s = .next t ∧ SameBytes s t ∧ x.cap < (t.dev.quadAt q).cap ∧ (t.dev.quadAt q).cap ≤ 3)) ∧
  ∀ (s : State) (src : CoreId),
    (∀ t, Arrived s src .sys .halt t → s.core.phys.halted = false →
      ∃ u, exec (.haltRequest src) s = .next u ∧ SameBytes s u ∧ u.net = t.net ∧ u.core.f = s.core.f ∧
        u.core.phys = { s.core.phys with haltPending := s.core.phys.haltPending.or (some 0) }) ∧
    (∀ g t, Arrived s src .sys (.haltGroup g) t → s.core.phys.halted = false →
      ∃ u, exec (.haltGroupMessage src) s = .next u ∧ SameBytes s u ∧ u.net = t.net ∧ u.core.f = s.core.f ∧
        u.core.phys = { s.core.phys with haltPending := s.core.phys.haltPending.or (some 3) }) ∧
    (bit s.core.phys.dump 0 = true → bit s.core.phys.dump 1 = false →
      s.core.phys.holdAt + 1000000 * field s.core.phys.dump 16 16 ≤ s.dev.time →
      (∀ k, (s.core.win k).st = .absent) →
      ∃ t, exec .dumpLimitExpiry s = .next t ∧ SameBytes s t ∧
        t.core.phys.dump = s.core.phys.dump &&& ~~~1#64 ∧ t.core.phys.halted = false) ∧
    (∀ r rest, s.core.phys.traceQ = r :: rest →
      ∃ t, exec .traceQueueSend s = .next t ∧ SameBytes s t ∧ t.core.phys = { s.core.phys with traceQ := rest } ∧
        Sent s t .control .sys (.trace r s.core.phys.trcring)) ∧
    ∀ r ring k t, s.net.find? (fun k => k.dst = s.core.id && k.body.isTrace) = some k → k.src = src →
      Arrived s src .sys (.trace r ring) t → s.dev.ext.wf = true →
      let frame := field ring 12 40
      let at_ := 4096 * frame + tget 0 s.dev.ringAt frame % (4096 * (field ring 0 8 + 1))
      lockedMeets s.dev.boot.locked at_ 32 = false →
      ∃ u, exec .traceRecord s = .next u ∧ u.net = t.net ∧ u.core = s.core ∧ u.others = s.others ∧
        u.dev.ext.read at_ 32 = natToBytes 32 r.toNat ∧
        tget 0 u.dev.ringAt frame = tget 0 s.dev.ringAt frame + 32 ∧
        ∀ a, (a < at_ ∨ at_ + 32 ≤ a) → u.byteAt (.external a) = s.byteAt (.external a)

/-- R364, R366 to R370: a reset leaves every core in reset, and device and host memory as they are, which is the model's choice (log 4);
the loading of a boot image that cannot be read or that fails its check halts the boot with its error, a drive's image below its rollback
limit with error 3, and one that cannot be read from either drive with error 4, the drive on root port 1 being tried once; one that
passes takes the boot on by the steps of Table 25.1 with its measurement; the root monitor's own steps set the locked ranges, of which
more than 16 halt the boot, and let the cores out of reset; the measurement of the job image that a start waits for, a nonce, a quote
and the host's window do as the spec says. Error 1 for a ROM-loaded image that cannot be read is the model's reading (log 56). -/
def Obligations.BootEvents : Prop :=
  ∀ s : State,
    let b := s.dev.boot
    let sound : Prop := ∀ c ∈ s.cores, c.checkDue = false
    (∃ t, exec .deviceReset s = .next t ∧ t.core = State.reset.core ∧ t.others = State.reset.others ∧ t.net = [] ∧
      t.dev.boot = Boot.reset ∧ t.dev.part = Partition.reset ∧ t.dev.ext = s.dev.ext ∧ t.dev.host = s.dev.host) ∧
    (let stage := field b.bootstat 0 8
      let stopped (t : State) (e : Nat) : Prop := SameBytes s t ∧ t.dev.boot.halted = true ∧
        field t.dev.boot.bootstat 0 8 = 0xFF ∧ field t.dev.boot.bootstat 24 8 = e
      let took (t : State) (k : Fin 4) (img : BootImage) : Prop := t.dev.boot.meas = b.meas.set k
        (BitVec.ofNat 512 (bytesToNat (sha3 (bytes512 b.meas[k] ++ digestOf img))))
      (∀ (img : BootImage) (e : Nat), stage = 0 →
        ((img.readable = false ∨ 65536 < imageSize img) ∧ e = 1
          ∨ img.readable = true ∧ imageSize img ≤ 65536 ∧ imageError Config.rootKey img = some e) → e < 256 →
        ∃ t, exec (.bootImageLoaded img) s = .next t ∧ stopped t e) ∧
      (∀ img : BootImage, stage = 0 → img.readable = true → imageSize img ≤ 65536 → imageError Config.rootKey img = none →
        ∃ t, exec (.bootImageLoaded img) s = .next t ∧ SameBytes s t ∧ field t.dev.boot.bootstat 0 8 = 1 ∧ took t 0 img ∧
          t.dev.boot.key = Config.keyIn img.body) ∧
      (∀ rest, s.agenda = .monitor :: rest → sound → stage = 1 →
        (16 < Config.lockedRanges.length → ∃ t, step s = .next t ∧ stopped t 5) ∧
        (Config.lockedRanges.length ≤ 16 → ∃ t, step s = .next t ∧ field t.dev.boot.bootstat 0 8 = 2 ∧
          t.dev.boot.locked = Config.lockedRanges ∧
          t.dev.ext = writePtes s.dev.ext (Config.rootTables.map fun e => (e.1, e.2 &&& ~~~0x60#64)))) ∧
      (∀ img : BootImage, (stage = 2 ∨ stage = 3 ∧ b.handlersIn = false) →
        (img.readable = false → b.port1 = false →
          ∃ t, exec (.bootImageLoaded img) s = .next t ∧ SameBytes s t ∧ t.dev.boot = { b with port1 := true }) ∧
        (∀ e, (img.readable = false ∧ b.port1 = true ∧ e = 4 ∨ img.readable = true ∧ imageError b.key img = some e
            ∨ img.readable = true ∧ imageError b.key img = none ∧ svnOf img < Config.rollback ∧ e = 3) → e < 256 →
          ∃ t, exec (.bootImageLoaded img) s = .next t ∧ stopped t e) ∧
        (img.readable = true → imageError b.key img = none → Config.rollback ≤ svnOf img →
          ∃ t, exec (.bootImageLoaded img) s = .next t ∧ field t.dev.boot.bootstat 0 8 = 3 ∧
            (stage = 2 → SameBytes s t ∧ took t 1 img ∧ field t.dev.boot.bootstat 8 16 = svnOf img % 2 ^ 16 ∧
              t.dev.boot.key = Config.keyIn img.body) ∧
            (stage = 3 → took t 2 img ∧ t.dev.boot.handlersIn = true ∧
              t.dev.ext = writePtes s.dev.ext (Config.kernelTables.map fun e => (e.1, e.2 ||| 0x10#64))))) ∧
      ∀ rest, s.agenda = .monitor :: rest → sound → stage = 3 → b.handlersIn = true →
        ∃ t, step s = .next t ∧ SameBytes s t ∧ field t.dev.boot.bootstat 0 8 = 4 ∧ t.booted = true) ∧
    (s.booted = true → s.dev.measDue = true → ∀ r, s.dev.image.launches[s.dev.image.entry]? = some r →
      let digest := BitVec.ofNat 512 (bytesToNat (sha3 (s.dev.ext.read s.dev.imageAt.1 s.dev.imageAt.2)))
      ∃ t, exec (.measExtend digest) s = .next t ∧ SameBytes s t ∧
        t.dev.boot.meas = b.meas.set 3 (BitVec.ofNat 512 (bytesToNat (sha3 (bytes512 b.meas[3] ++ bytes512 digest)))) ∧
        t.dev.boot = { b with meas := t.dev.boot.meas } ∧ t.dev.measDue = false ∧
        t.dev.seq.inbox = s.dev.seq.inbox ++ [.launch 0 r 0#64 0#8 0#8 none]) ∧
    (∀ nonce : BitVec 512, b.halted = false →
      ∃ t, exec (.nonceWrite nonce) s = .next t ∧ SameBytes s t ∧ t.dev.boot = { b with nonce := nonce }) ∧
    (b.halted = false → field b.bootstat 32 8 ≠ 1 →
      ∃ t, exec .quoteRequest s = .next t ∧ SameBytes s t ∧
        field t.dev.boot.bootstat 32 8 = (if field b.bootstat 0 8 < 3 then 3 else 1) ∧
        t.dev.boot.quoteNonce = (if field b.bootstat 0 8 < 3 then b.quoteNonce else b.nonce)) ∧
    (b.halted = false → field b.bootstat 32 8 = 1 →
      ∃ t, exec .quoteComplete s = .next t ∧ SameBytes s t ∧ field t.dev.boot.bootstat 32 8 = 2 ∧
        t.dev.boot.quote = b.quoted ++ natToBytes 4627 (Config.sign (sha3 b.quoted)).toNat ∧ t.dev.boot.quote.length = 5027) ∧
    ∀ (addr : Nat) (data : BitVec 64), s.booted = true → addr + 8 ≤ 2 ^ 32 →
      let pa := b.bar2 + addr
      let locked := b.locked.any fun r => rangesMeet pa 8 r.1 r.2
      (locked = true → ∃ t, exec (.hostBar2Access true addr data) s = .next t ∧ t = s) ∧
      (locked = false → s.dev.ext.wf = true → ∃ t, exec (.hostBar2Access true addr data) s = .next t ∧
        t.dev.ext.read pa 8 = natToBytes 8 data.toNat ∧ t.cores = s.cores ∧
        ∀ a, (a < pa ∨ pa + 8 ≤ a) → t.byteAt (.external a) = s.byteAt (.external a)) ∧
      ∃ t, exec (.hostBar2Access false addr data) s = .next t ∧ SameBytes s t ∧ t.cores = s.cores ∧
        t.dev.boot.hostData = if locked then BitVec.allOnes 64 else BitVec.ofNat 64 (bytesToNat (s.dev.ext.read pa 8))

/-- R16, R25, R43, R332, R370: a job that the control kernel has taken is refused when its map, its size or its start is not as the spec
asks, and the host is told by the word 2, which is the model's choice (log 93); else its partition is made with a core for each
coordinate, its memory cores and an ingress port for each C-die, its image is to be measured, and its entry launch has serial 0. -/
def Obligations.PartitionsAreMade : Prop :=
  ∀ s : State, s.booted = true → s.dev.part.made = false → s.dev.image.launches ≠ [] →
    (s.dev.part.mapOk = false ∨ s.dev.image.startOk = false ∨ s.dev.image.fits s.dev.part = false →
      ∃ t, exec .partitionCreation s = .next t ∧ SameBytes s t ∧ t.dev.part = Partition.reset ∧
        t.dev.image = Image.empty ∧ t.dev.hostNews = s.dev.hostNews ++ [2#64]) ∧
    (s.dev.part.mapOk = true → s.dev.image.startOk = true → s.dev.image.fits s.dev.part = true →
      ∃ t, exec .partitionCreation s = .next t ∧ t.dev.part = { s.dev.part with made := true } ∧ t.core.id = .control ∧
        t.net = [] ∧ t.dev.seq = { Seq.reset with nextLaunch := 1, started := true } ∧ t.dev.measDue = true ∧
        (s.dev.image.launches[s.dev.image.entry]?).isSome = true ∧
        (∀ x y : Nat, x < pextWidth s.dev.part.pext → y < pextHeight s.dev.part.pext →
          ∃ c ∈ t.others, c.id = .mesh (BitVec.ofNat 8 x) (BitVec.ofNat 8 y) ∧ c.busy = false ∧ c.cohort = none) ∧
        (∀ k, k < 128 → ∃ c ∈ t.others, c.id = s.dev.part.memCore k) ∧
        (∀ k : BitVec 3, ∃ c ∈ t.others, c.id = .port k ∧ c.exc = s.dev.part.exc) ∧
        t.dev.ext = s.dev.ext ∧ t.dev.host = s.dev.host)

namespace Sys2Proof.Machine

/-- Encodings that the spec prints, with the instructions it prints them for (Tables 3.9, 5.11 and 2.3, the encoding tables of the
other chapters, and the selected encodings of its two listings). -/
def printedEncodings : List (List Parcel × Instr) :=
  [([0x4101#16, 0x000C#16], .add 0#3 3#5 2#5 1#5 none),
   ([0xE101#16, 0x05C2#16], .xor 0#3 16#5 23#5 1#5 none),
   ([0x2901#16, 0x2C39#16], .sel 1#3 14#5 9#5 9#5 none),
   ([0x8F09#16, 0x0FFE#16], .andi 0x3FF#14 20#5 15#5 none),
   ([0x8221#16, 0x0314#16], .cmp 0#3 6#4 5#5 4#5 2#5 none),
   ([0xA325#16, 0x0004#16], .cmpi 0#10 1#4 5#5 3#5 none),
   ([0x2329#16, 0x0408#16], .plog 0#3 8#4 2#5 1#5 3#5 none),
   ([0xA231#16, 0x2468#16], .movhi 0x12345#19 2#5 none),
   ([0x8335#16, 0x0780#16], .ext 7#6 32#6 4#5 3#5 none),
   ([0x0739#16, 0x0009#16], .mkptr 0#3 2#2 8#5 7#5 none),
   ([0xEA39#16, 0x01AC#16], .dist 0#3 11#5 7#5 10#5 none),
   ([0xE341#16, 0x00C4#16], .ld 6#11 1#3 7#5 3#5 none),
   ([0x4945#16, 0xFF0C#16], .st 0x7F8#11 3#3 2#5 9#5 none),
   ([0xA461#16, 0x0818#16], .aadd 0#3 1#1 6#5 5#5 4#5 none),
   ([0xF665#16, 0x0066#16], .acas 0#3 0#1 25#5 23#5 22#5 none),
   ([0x0071#16, 0x0100#16], .fence 0#3 2#2 none),
   ([0x4175#16, 0x00C9#16], .send 3#8 2#4 10#5 1#5 none),
   ([0x2177#16, 0x4088#16, 0x8004#16, 0x0080#16], .sendt 2#8 2#4 1#5 1#5 (some (0x00808004#32, none))),
   ([0x6479#16, 0xA008#16], .cbpop 2#4 3#5 4#5 none),
   ([0x4081#16, 0x0010#16], .br 16#16 2#3 none),
   ([0x009F#16, 0x0000#16, 0x0000#16, 0x0000#16], .fin 0#3 (some (0#32, none))),
   ([0xC5A1#16, 0x400C#16], .lnch 3#11 6#5 5#5 none),
   ([0x00A5#16, 0x2014#16], .waitt 5#11 0#5 none),
   ([0x00A7#16, 0xA000#16, 0x0001#16, 0x0000#16, 0x0108#16, 0x0000#16], .safe (some (1#32, some 0x108#32))),
   ([0x00A9#16, 0x6004#16], .trap 3#3 1#11 none),
   ([0x00AD#16, 0x0004#16], .tret 1#11 none),
   ([0x08B1#16, 0x00A0#16], .csrd 0x028#12 8#5 none),
   ([0x49B5#16, 0x0005#16], .capmint 1#11 10#5 9#5 none),
   ([0x80B9#16, 0x6004#16], .move 1#11 4#5 none),
   ([0x02C1#16, 0x001C#16], .shld 7#11 0#5 2#5 none),
   ([0x02C5#16, 0x0504#16], .vadd 0x0A#5 1#5 0#5 2#5 none),
   ([0x8DD3#16, 0x0501#16, 0x0280#16, 0x0000#16], .vred 0#4 0x0A#5 12#5 13#5 (some (0x280#32, none))),
   ([0x20E1#16, 0x2A08#16], .mgat 0x14#5 2#5 1#5 none),
   ([0xA7E5#16, 0x1018#16], .mcap 6#5 5#5 7#5 none),
   ([0xA6F1#16, 0x010C#16], .cbox 0x43#11 5#5 6#5 none),
   ([0xA4F5#16, 0xC008#16], .wstep 2#11 5#5 4#5 none),
   ([0x0552#16], .andiCompact 1#6 5#4)]

end Sys2Proof.Machine

/-! ### The device as a whole -/

/-- R9, R45, R46, R60: a parcel whose start bit is set, and whose instruction with its mask words decodes to a well-formed one, is fetched
as that instruction; and a running core that nothing holds back, with a firing that waits for no answer, steps by its meaning, in the
state in which it has been noted which parked firings are ready, which changes nothing else of the core and the device (R270). Where the
instruction has met a sector with an uncorrectable error the step ends with the machine check (R282, R283); where it has met none, its
meaning is the step. -/
def Obligations.StepRunsTheInstruction : Prop :=
  (∀ (c : Core) (i : Instr) (n len : Nat), c.startBit c.f.pc = true → parcelsLen (c.parcels c.f.pc 6) = some len →
    decode (c.parcels c.f.pc 6) = .ok (i, n) → i.wf = true → c.fetch = .instr i) ∧
  (∀ s : State, let t := s.noted
    t.dev = s.dev ∧ t.net = s.net ∧ t.agenda = s.agenda ∧ t.core = { s.core with q := { s.core.q with parked := t.core.q.parked } } ∧
    t.core.q.parked.map (fun p => { p with ready := none }) = s.core.q.parked.map fun p => { p with ready := none }) ∧
  (∀ t : State, (∀ c ∈ t.cores, c.checkDue = false) → struck (.next t) = .next t) ∧
  ∀ (s : State) (i : Instr), s.agenda = [] → s.booted = true → s.failed = false → s.powered = true → s.core.phys.halted = false →
    s.core.moving.freezes = false → s.core.atRequest = false → s.core.busy = true →
    (s.core.f.wait = .none ∨ s.core.f.wait = .poll ∨ (∃ r got, s.core.f.wait = .replied r got) ∨ ∃ got, s.core.f.wait = .part got) →
    s.core.fetch = .instr i → step s = struck (exec i s.noted)

/-- R50, R58, R60 and the encodings that the spec prints: each decodes to the instruction that it is printed for. -/
def Obligations.PrintedEncodingsDecode : Prop :=
  ∀ e ∈ printedEncodings, decode e.1 = .ok (e.2, e.1.length) ∧ e.2.wf = true

/-- R45, R48, R50, R58: an instruction is read back from its words, whatever follows them, and words that decode are those of the
instruction they decode to: no two instructions share words, and no bit of a word is ignored. -/
def Obligations.DecodeAndEncodeAgree : Prop :=
  (∀ (i : Instr) (ps rest : List Parcel), spOk i.sp = true → encode i = some ps → decode (ps ++ rest) = .ok (i, ps.length)) ∧
  ∀ (i : Instr) (ps : List Parcel) (n : Nat), decode ps = .ok (i, n) → spOk i.sp = true ∧ encode i = some (ps.take n)

/-- The buffers of a core: a store through the windows keeps the memory's canonical form, and no byte but those stored to changes; with the
windows inside their buffers and apart, each key has a place of its own (R217), and the bytes stored read back. Two memories in
canonical form that read alike are equal. -/
def Obligations.MemoryLaws : Prop :=
  (∀ (c : Core) (key : Nat) (bs : List Byte), c.memoryWf = true →
    (c.store key bs).memoryWf = true ∧
    (∀ p, (∀ j, j < bs.length → p ≠ c.phys' (key + j)) → (c.store key bs).mem.data.get p = c.mem.data.get p) ∧
    (WindowsApart c → (c.store key bs).readBytes key bs.length = bs)) ∧
  (∀ c : Core, WindowsApart c → ∀ j k, c.phys' j = c.phys' k → j = k) ∧
  ∀ m n : Memory, m.wf = true → n.wf = true → (∀ a, m.get a = n.get a) → m = n

/-- Every step, whatever agent it moves, keeps every memory in its canonical form and every core's windows apart (R217), the saved cores'
among them. -/
def Obligations.StepsKeepTheForm : Prop :=
  ∀ s t : State, Formed s → step s = .next t → Formed t

/-- R364: while the boot has not reached step 5 and no image comes that could take it there, every step leaves the device before step 5, and
no core executes: it is as it was, or a device reset has put it back into reset. -/
def Obligations.CoresStayInReset : Prop :=
  ∀ s t : State, HeldInReset s → step s = .next t →
    HeldInReset t ∧ (CoresStill s t ∨ t.core = State.reset.core ∧ t.others = State.reset.others)

/-- The device after reset has the form that every step keeps, executes nothing, and holds the reset values of the spec: TIME and MEAS0 to
MEAS3 (R356, R366), BOOTSTAT (Table 25.3), the map (R333), and the registers of a core and a die (Tables 4.3, 4.4, 7.8, 9.2, 15.8, 20.3,
20.5, 23.2, 24.1 to 24.4). -/
def Obligations.ResetState : Prop :=
  let s := State.reset
  Formed s ∧ HeldInReset s ∧ s.dev.time = 0 ∧ (∀ k : Fin 4, s.dev.boot.meas[k] = 0#512) ∧ s.dev.boot.bootstat = 0#64 ∧
    (∀ dc band c, s.dev.part.cmapAt dc band c = c) ∧ s.dev.part.pext = 0#64 ∧ s.dev.part.capkey = 0#128 ∧
    (∀ k : Fin 8, s.dev.dies[k].floatctl = 0x40211#64 ∧ s.dev.dies[k].thlim = 0x1A4#64) ∧
    ∀ c ∈ s.cores, c.f.ctl = Ctl.reset ∧ c.f.ctl.fstat = 0#6 ∧ c.f.ctl.rm = 0#3 ∧ c.f.mact = 0#64 ∧ c.f.rspc = 0#64 ∧
      c.f.rsaddr = 0#64 ∧ c.f.rsagent = 0#64 ∧ c.tab.tags = 0#64 ∧ c.tab.tagerr = 0#64 ∧ c.tab.sqctl = 0x1010#64 ∧
      c.tab.capser = 0#16 ∧ c.tab.grants = [] ∧ c.eng.mxcfg = 0x102#64 ∧ c.eng.cstr = 1 ∧ c.eng.rflags = 0#6 ∧
      c.eng.elc = 0#16 ∧ c.eng.am = 0 ∧ c.eng.bt = 0 ∧ (∀ k : Fin 32, c.phys.dacc[k] = 0#64) ∧ c.phys.brken = false ∧
      c.phys.trcctl = 0#64 ∧ c.phys.trcring = 0#64 ∧ c.phys.hgrp = 0#64 ∧ c.phys.dump = 0x3E80000#64 ∧
      c.phys.ptroot = 0#64 ∧ c.phys.opreq = 3#64 ∧ c.phys.halted = false ∧ ∀ k : Fin 16, c.tab.win[k].st = .absent
end

