-- ==== Sys2Proof/Laws/State.lean ====
section
/-!
SUPPORT. Sys2Proof/Laws/State.lean: what each named update of the state leaves in each field, so that no proof need unfold
a record update.
-/
namespace Sys2Proof.Machine

/-! ### The parts of the state -/

@[simp] theorem State.mapC_core (s : State) (g : Core → Core) : (s.mapC g).core = g s.core := rfl
@[simp] theorem State.mapC_others (s : State) (g : Core → Core) : (s.mapC g).others = s.others := rfl
@[simp] theorem State.mapC_dev (s : State) (g : Core → Core) : (s.mapC g).dev = s.dev := rfl
@[simp] theorem State.mapC_net (s : State) (g : Core → Core) : (s.mapC g).net = s.net := rfl
@[simp] theorem State.mapC_agenda (s : State) (g : Core → Core) : (s.mapC g).agenda = s.agenda := rfl

@[simp] theorem State.mapD_dev (s : State) (g : Device → Device) : (s.mapD g).dev = g s.dev := rfl
@[simp] theorem State.mapD_core (s : State) (g : Device → Device) : (s.mapD g).core = s.core := rfl
@[simp] theorem State.mapD_others (s : State) (g : Device → Device) : (s.mapD g).others = s.others := rfl
@[simp] theorem State.mapD_net (s : State) (g : Device → Device) : (s.mapD g).net = s.net := rfl
@[simp] theorem State.mapD_agenda (s : State) (g : Device → Device) : (s.mapD g).agenda = s.agenda := rfl
@[simp] theorem State.mapD_regs (s : State) (g : Device → Device) : (s.mapD g).regs = s.regs := rfl

@[simp] theorem State.mapF_f (s : State) (g : Firing → Firing) : (s.mapF g).core.f = g s.core.f := rfl
@[simp] theorem State.mapF_id (s : State) (g : Firing → Firing) : (s.mapF g).core.id = s.core.id := rfl
@[simp] theorem State.mapF_site (s : State) (g : Firing → Firing) : (s.mapF g).core.site = s.core.site := rfl
@[simp] theorem State.mapF_busy (s : State) (g : Firing → Firing) : (s.mapF g).core.busy = s.core.busy := rfl
@[simp] theorem State.mapF_serials (s : State) (g : Firing → Firing) : (s.mapF g).core.serials = s.core.serials := rfl
@[simp] theorem State.mapF_cohort (s : State) (g : Firing → Firing) : (s.mapF g).core.cohort = s.core.cohort := rfl
@[simp] theorem State.mapF_mem (s : State) (g : Firing → Firing) : (s.mapF g).core.mem = s.core.mem := rfl
@[simp] theorem State.mapF_tab (s : State) (g : Firing → Firing) : (s.mapF g).core.tab = s.core.tab := rfl
@[simp] theorem State.mapF_q (s : State) (g : Firing → Firing) : (s.mapF g).core.q = s.core.q := rfl
@[simp] theorem State.mapF_eng (s : State) (g : Firing → Firing) : (s.mapF g).core.eng = s.core.eng := rfl
@[simp] theorem State.mapF_ack (s : State) (g : Firing → Firing) : (s.mapF g).core.ack = s.core.ack := rfl
@[simp] theorem State.mapF_scrim (s : State) (g : Firing → Firing) : (s.mapF g).core.scrim = s.core.scrim := rfl
@[simp] theorem State.mapF_staged (s : State) (g : Firing → Firing) : (s.mapF g).core.staged = s.core.staged := rfl
@[simp] theorem State.mapF_slots (s : State) (g : Firing → Firing) : (s.mapF g).core.slots = s.core.slots := rfl
@[simp] theorem State.mapF_phys (s : State) (g : Firing → Firing) : (s.mapF g).core.phys = s.core.phys := rfl
@[simp] theorem State.mapF_exc (s : State) (g : Firing → Firing) : (s.mapF g).core.exc = s.core.exc := rfl
@[simp] theorem State.mapF_moving (s : State) (g : Firing → Firing) : (s.mapF g).core.moving = s.core.moving := rfl
@[simp] theorem State.mapF_saveAsked (s : State) (g : Firing → Firing) : (s.mapF g).core.saveAsked = s.core.saveAsked := rfl
@[simp] theorem State.mapF_lastTime (s : State) (g : Firing → Firing) : (s.mapF g).core.lastTime = s.core.lastTime := rfl
@[simp] theorem State.mapF_pageWaits (s : State) (g : Firing → Firing) : (s.mapF g).core.pageWaits = s.core.pageWaits := rfl
@[simp] theorem State.mapF_memCtx (s : State) (g : Firing → Firing) : (s.mapF g).core.memCtx = s.core.memCtx := rfl
@[simp] theorem State.mapF_sysMem (s : State) (g : Firing → Firing) : (s.mapF g).core.sysMem = s.core.sysMem := rfl
@[simp] theorem State.mapF_taken (s : State) (g : Firing → Firing) : (s.mapF g).core.taken = s.core.taken := rfl
@[simp] theorem State.mapF_badSecs (s : State) (g : Firing → Firing) : (s.mapF g).core.badSecs = s.core.badSecs := rfl
@[simp] theorem State.mapF_checkDue (s : State) (g : Firing → Firing) : (s.mapF g).core.checkDue = s.core.checkDue := rfl
@[simp] theorem State.mapF_tear (s : State) (g : Firing → Firing) : (s.mapF g).core.tear = s.core.tear := rfl
@[simp] theorem State.mapF_moveHeld (s : State) (g : Firing → Firing) : (s.mapF g).core.moveHeld = s.core.moveHeld := rfl
@[simp] theorem State.mapF_clock (s : State) (g : Firing → Firing) : (s.mapF g).core.clock = s.core.clock := rfl
@[simp] theorem State.mapF_places (s : State) (g : Firing → Firing) : (s.mapF g).core.places = s.core.places := rfl
@[simp] theorem State.mapF_others (s : State) (g : Firing → Firing) : (s.mapF g).others = s.others := rfl
@[simp] theorem State.mapF_dev (s : State) (g : Firing → Firing) : (s.mapF g).dev = s.dev := rfl
@[simp] theorem State.mapF_net (s : State) (g : Firing → Firing) : (s.mapF g).net = s.net := rfl
@[simp] theorem State.mapF_agenda (s : State) (g : Firing → Firing) : (s.mapF g).agenda = s.agenda := rfl

/-! ### A register written -/

@[simp] theorem State.setS_regs (s : State) (r : BitVec 5) (v : Word) : (s.setS r v).core.f.regs = s.regs.setS r v := rfl
@[simp] theorem State.setS_regs' (s : State) (r : BitVec 5) (v : Word) : (s.setS r v).regs = s.regs.setS r v := rfl
@[simp] theorem State.setS_serial (s : State) (r : BitVec 5) (v : Word) : (s.setS r v).core.f.serial = s.core.f.serial := rfl
@[simp] theorem State.setS_smode (s : State) (r : BitVec 5) (v : Word) : (s.setS r v).core.f.smode = s.core.f.smode := rfl
@[simp] theorem State.setS_inSys (s : State) (r : BitVec 5) (v : Word) : (s.setS r v).core.f.inSys = s.core.f.inSys := rfl
@[simp] theorem State.setS_fromRep (s : State) (r : BitVec 5) (v : Word) : (s.setS r v).core.f.fromRep = s.core.f.fromRep := rfl
@[simp] theorem State.setS_actor (s : State) (r : BitVec 5) (v : Word) : (s.setS r v).core.f.actor = s.core.f.actor := rfl
@[simp] theorem State.setS_pc (s : State) (r : BitVec 5) (v : Word) : (s.setS r v).core.f.pc = s.core.f.pc := rfl
@[simp] theorem State.setS_ctl (s : State) (r : BitVec 5) (v : Word) : (s.setS r v).core.f.ctl = s.core.f.ctl := rfl
@[simp] theorem State.setS_mact (s : State) (r : BitVec 5) (v : Word) : (s.setS r v).core.f.mact = s.core.f.mact := rfl
@[simp] theorem State.setS_rspc (s : State) (r : BitVec 5) (v : Word) : (s.setS r v).core.f.rspc = s.core.f.rspc := rfl
@[simp] theorem State.setS_rsaddr (s : State) (r : BitVec 5) (v : Word) : (s.setS r v).core.f.rsaddr = s.core.f.rsaddr := rfl
@[simp] theorem State.setS_rsagent (s : State) (r : BitVec 5) (v : Word) : (s.setS r v).core.f.rsagent = s.core.f.rsagent := rfl
@[simp] theorem State.setS_ckpt (s : State) (r : BitVec 5) (v : Word) : (s.setS r v).core.f.ckpt = s.core.f.ckpt := rfl
@[simp] theorem State.setS_region (s : State) (r : BitVec 5) (v : Word) : (s.setS r v).core.f.region = s.core.f.region := rfl
@[simp] theorem State.setS_irrev (s : State) (r : BitVec 5) (v : Word) : (s.setS r v).core.f.irrev = s.core.f.irrev := rfl
@[simp] theorem State.setS_wait (s : State) (r : BitVec 5) (v : Word) : (s.setS r v).core.f.wait = s.core.f.wait := rfl
@[simp] theorem State.setS_lhnd (s : State) (r : BitVec 5) (v : Word) : (s.setS r v).core.f.lhnd = s.core.f.lhnd := rfl
@[simp] theorem State.setS_lin (s : State) (r : BitVec 5) (v : Word) : (s.setS r v).core.f.lin = s.core.f.lin := rfl
@[simp] theorem State.setS_route (s : State) (r : BitVec 5) (v : Word) : (s.setS r v).core.f.route = s.core.f.route := rfl
@[simp] theorem State.setS_entry (s : State) (r : BitVec 5) (v : Word) : (s.setS r v).core.f.entry = s.core.f.entry := rfl
@[simp] theorem State.setS_core_id (s : State) (r : BitVec 5) (v : Word) : (s.setS r v).core.id = s.core.id := rfl
@[simp] theorem State.setS_core_site (s : State) (r : BitVec 5) (v : Word) : (s.setS r v).core.site = s.core.site := rfl
@[simp] theorem State.setS_core_busy (s : State) (r : BitVec 5) (v : Word) : (s.setS r v).core.busy = s.core.busy := rfl
@[simp] theorem State.setS_core_serials (s : State) (r : BitVec 5) (v : Word) : (s.setS r v).core.serials = s.core.serials := rfl
@[simp] theorem State.setS_core_cohort (s : State) (r : BitVec 5) (v : Word) : (s.setS r v).core.cohort = s.core.cohort := rfl
@[simp] theorem State.setS_core_mem (s : State) (r : BitVec 5) (v : Word) : (s.setS r v).core.mem = s.core.mem := rfl
@[simp] theorem State.setS_core_tab (s : State) (r : BitVec 5) (v : Word) : (s.setS r v).core.tab = s.core.tab := rfl
@[simp] theorem State.setS_core_q (s : State) (r : BitVec 5) (v : Word) : (s.setS r v).core.q = s.core.q := rfl
@[simp] theorem State.setS_core_eng (s : State) (r : BitVec 5) (v : Word) : (s.setS r v).core.eng = s.core.eng := rfl
@[simp] theorem State.setS_core_ack (s : State) (r : BitVec 5) (v : Word) : (s.setS r v).core.ack = s.core.ack := rfl
@[simp] theorem State.setS_core_scrim (s : State) (r : BitVec 5) (v : Word) : (s.setS r v).core.scrim = s.core.scrim := rfl
@[simp] theorem State.setS_core_staged (s : State) (r : BitVec 5) (v : Word) : (s.setS r v).core.staged = s.core.staged := rfl
@[simp] theorem State.setS_core_slots (s : State) (r : BitVec 5) (v : Word) : (s.setS r v).core.slots = s.core.slots := rfl
@[simp] theorem State.setS_core_phys (s : State) (r : BitVec 5) (v : Word) : (s.setS r v).core.phys = s.core.phys := rfl
@[simp] theorem State.setS_core_exc (s : State) (r : BitVec 5) (v : Word) : (s.setS r v).core.exc = s.core.exc := rfl
@[simp] theorem State.setS_core_moving (s : State) (r : BitVec 5) (v : Word) : (s.setS r v).core.moving = s.core.moving := rfl
@[simp] theorem State.setS_core_saveAsked (s : State) (r : BitVec 5) (v : Word) : (s.setS r v).core.saveAsked = s.core.saveAsked := rfl
@[simp] theorem State.setS_core_lastTime (s : State) (r : BitVec 5) (v : Word) : (s.setS r v).core.lastTime = s.core.lastTime := rfl
@[simp] theorem State.setS_core_pageWaits (s : State) (r : BitVec 5) (v : Word) : (s.setS r v).core.pageWaits = s.core.pageWaits := rfl
@[simp] theorem State.setS_core_memCtx (s : State) (r : BitVec 5) (v : Word) : (s.setS r v).core.memCtx = s.core.memCtx := rfl
@[simp] theorem State.setS_core_sysMem (s : State) (r : BitVec 5) (v : Word) : (s.setS r v).core.sysMem = s.core.sysMem := rfl
@[simp] theorem State.setS_core_taken (s : State) (r : BitVec 5) (v : Word) : (s.setS r v).core.taken = s.core.taken := rfl
@[simp] theorem State.setS_core_badSecs (s : State) (r : BitVec 5) (v : Word) : (s.setS r v).core.badSecs = s.core.badSecs := rfl
@[simp] theorem State.setS_core_checkDue (s : State) (r : BitVec 5) (v : Word) : (s.setS r v).core.checkDue = s.core.checkDue := rfl
@[simp] theorem State.setS_core_tear (s : State) (r : BitVec 5) (v : Word) : (s.setS r v).core.tear = s.core.tear := rfl
@[simp] theorem State.setS_core_moveHeld (s : State) (r : BitVec 5) (v : Word) : (s.setS r v).core.moveHeld = s.core.moveHeld := rfl
@[simp] theorem State.setS_core_clock (s : State) (r : BitVec 5) (v : Word) : (s.setS r v).core.clock = s.core.clock := rfl
@[simp] theorem State.setS_core_places (s : State) (r : BitVec 5) (v : Word) : (s.setS r v).core.places = s.core.places := rfl
@[simp] theorem State.setS_others (s : State) (r : BitVec 5) (v : Word) : (s.setS r v).others = s.others := rfl
@[simp] theorem State.setS_dev (s : State) (r : BitVec 5) (v : Word) : (s.setS r v).dev = s.dev := rfl
@[simp] theorem State.setS_net (s : State) (r : BitVec 5) (v : Word) : (s.setS r v).net = s.net := rfl
@[simp] theorem State.setS_agenda (s : State) (r : BitVec 5) (v : Word) : (s.setS r v).agenda = s.agenda := rfl

/-! ### A predicate written -/

@[simp] theorem State.setP_regs (s : State) (r : BitVec 3) (v : Bool) : (s.setP r v).core.f.regs = s.regs.setP r v := rfl
@[simp] theorem State.setP_regs' (s : State) (r : BitVec 3) (v : Bool) : (s.setP r v).regs = s.regs.setP r v := rfl
@[simp] theorem State.setP_serial (s : State) (r : BitVec 3) (v : Bool) : (s.setP r v).core.f.serial = s.core.f.serial := rfl
@[simp] theorem State.setP_smode (s : State) (r : BitVec 3) (v : Bool) : (s.setP r v).core.f.smode = s.core.f.smode := rfl
@[simp] theorem State.setP_inSys (s : State) (r : BitVec 3) (v : Bool) : (s.setP r v).core.f.inSys = s.core.f.inSys := rfl
@[simp] theorem State.setP_fromRep (s : State) (r : BitVec 3) (v : Bool) : (s.setP r v).core.f.fromRep = s.core.f.fromRep := rfl
@[simp] theorem State.setP_actor (s : State) (r : BitVec 3) (v : Bool) : (s.setP r v).core.f.actor = s.core.f.actor := rfl
@[simp] theorem State.setP_pc (s : State) (r : BitVec 3) (v : Bool) : (s.setP r v).core.f.pc = s.core.f.pc := rfl
@[simp] theorem State.setP_ctl (s : State) (r : BitVec 3) (v : Bool) : (s.setP r v).core.f.ctl = s.core.f.ctl := rfl
@[simp] theorem State.setP_mact (s : State) (r : BitVec 3) (v : Bool) : (s.setP r v).core.f.mact = s.core.f.mact := rfl
@[simp] theorem State.setP_rspc (s : State) (r : BitVec 3) (v : Bool) : (s.setP r v).core.f.rspc = s.core.f.rspc := rfl
@[simp] theorem State.setP_rsaddr (s : State) (r : BitVec 3) (v : Bool) : (s.setP r v).core.f.rsaddr = s.core.f.rsaddr := rfl
@[simp] theorem State.setP_rsagent (s : State) (r : BitVec 3) (v : Bool) : (s.setP r v).core.f.rsagent = s.core.f.rsagent := rfl
@[simp] theorem State.setP_ckpt (s : State) (r : BitVec 3) (v : Bool) : (s.setP r v).core.f.ckpt = s.core.f.ckpt := rfl
@[simp] theorem State.setP_region (s : State) (r : BitVec 3) (v : Bool) : (s.setP r v).core.f.region = s.core.f.region := rfl
@[simp] theorem State.setP_irrev (s : State) (r : BitVec 3) (v : Bool) : (s.setP r v).core.f.irrev = s.core.f.irrev := rfl
@[simp] theorem State.setP_wait (s : State) (r : BitVec 3) (v : Bool) : (s.setP r v).core.f.wait = s.core.f.wait := rfl
@[simp] theorem State.setP_lhnd (s : State) (r : BitVec 3) (v : Bool) : (s.setP r v).core.f.lhnd = s.core.f.lhnd := rfl
@[simp] theorem State.setP_lin (s : State) (r : BitVec 3) (v : Bool) : (s.setP r v).core.f.lin = s.core.f.lin := rfl
@[simp] theorem State.setP_route (s : State) (r : BitVec 3) (v : Bool) : (s.setP r v).core.f.route = s.core.f.route := rfl
@[simp] theorem State.setP_entry (s : State) (r : BitVec 3) (v : Bool) : (s.setP r v).core.f.entry = s.core.f.entry := rfl
@[simp] theorem State.setP_core_id (s : State) (r : BitVec 3) (v : Bool) : (s.setP r v).core.id = s.core.id := rfl
@[simp] theorem State.setP_core_site (s : State) (r : BitVec 3) (v : Bool) : (s.setP r v).core.site = s.core.site := rfl
@[simp] theorem State.setP_core_busy (s : State) (r : BitVec 3) (v : Bool) : (s.setP r v).core.busy = s.core.busy := rfl
@[simp] theorem State.setP_core_serials (s : State) (r : BitVec 3) (v : Bool) : (s.setP r v).core.serials = s.core.serials := rfl
@[simp] theorem State.setP_core_cohort (s : State) (r : BitVec 3) (v : Bool) : (s.setP r v).core.cohort = s.core.cohort := rfl
@[simp] theorem State.setP_core_mem (s : State) (r : BitVec 3) (v : Bool) : (s.setP r v).core.mem = s.core.mem := rfl
@[simp] theorem State.setP_core_tab (s : State) (r : BitVec 3) (v : Bool) : (s.setP r v).core.tab = s.core.tab := rfl
@[simp] theorem State.setP_core_q (s : State) (r : BitVec 3) (v : Bool) : (s.setP r v).core.q = s.core.q := rfl
@[simp] theorem State.setP_core_eng (s : State) (r : BitVec 3) (v : Bool) : (s.setP r v).core.eng = s.core.eng := rfl
@[simp] theorem State.setP_core_ack (s : State) (r : BitVec 3) (v : Bool) : (s.setP r v).core.ack = s.core.ack := rfl
@[simp] theorem State.setP_core_scrim (s : State) (r : BitVec 3) (v : Bool) : (s.setP r v).core.scrim = s.core.scrim := rfl
@[simp] theorem State.setP_core_staged (s : State) (r : BitVec 3) (v : Bool) : (s.setP r v).core.staged = s.core.staged := rfl
@[simp] theorem State.setP_core_slots (s : State) (r : BitVec 3) (v : Bool) : (s.setP r v).core.slots = s.core.slots := rfl
@[simp] theorem State.setP_core_phys (s : State) (r : BitVec 3) (v : Bool) : (s.setP r v).core.phys = s.core.phys := rfl
@[simp] theorem State.setP_core_exc (s : State) (r : BitVec 3) (v : Bool) : (s.setP r v).core.exc = s.core.exc := rfl
@[simp] theorem State.setP_core_moving (s : State) (r : BitVec 3) (v : Bool) : (s.setP r v).core.moving = s.core.moving := rfl
@[simp] theorem State.setP_core_saveAsked (s : State) (r : BitVec 3) (v : Bool) : (s.setP r v).core.saveAsked = s.core.saveAsked := rfl
@[simp] theorem State.setP_core_lastTime (s : State) (r : BitVec 3) (v : Bool) : (s.setP r v).core.lastTime = s.core.lastTime := rfl
@[simp] theorem State.setP_core_pageWaits (s : State) (r : BitVec 3) (v : Bool) : (s.setP r v).core.pageWaits = s.core.pageWaits := rfl
@[simp] theorem State.setP_core_memCtx (s : State) (r : BitVec 3) (v : Bool) : (s.setP r v).core.memCtx = s.core.memCtx := rfl
@[simp] theorem State.setP_core_sysMem (s : State) (r : BitVec 3) (v : Bool) : (s.setP r v).core.sysMem = s.core.sysMem := rfl
@[simp] theorem State.setP_core_taken (s : State) (r : BitVec 3) (v : Bool) : (s.setP r v).core.taken = s.core.taken := rfl
@[simp] theorem State.setP_core_badSecs (s : State) (r : BitVec 3) (v : Bool) : (s.setP r v).core.badSecs = s.core.badSecs := rfl
@[simp] theorem State.setP_core_checkDue (s : State) (r : BitVec 3) (v : Bool) : (s.setP r v).core.checkDue = s.core.checkDue := rfl
@[simp] theorem State.setP_core_tear (s : State) (r : BitVec 3) (v : Bool) : (s.setP r v).core.tear = s.core.tear := rfl
@[simp] theorem State.setP_core_moveHeld (s : State) (r : BitVec 3) (v : Bool) : (s.setP r v).core.moveHeld = s.core.moveHeld := rfl
@[simp] theorem State.setP_core_clock (s : State) (r : BitVec 3) (v : Bool) : (s.setP r v).core.clock = s.core.clock := rfl
@[simp] theorem State.setP_core_places (s : State) (r : BitVec 3) (v : Bool) : (s.setP r v).core.places = s.core.places := rfl
@[simp] theorem State.setP_others (s : State) (r : BitVec 3) (v : Bool) : (s.setP r v).others = s.others := rfl
@[simp] theorem State.setP_dev (s : State) (r : BitVec 3) (v : Bool) : (s.setP r v).dev = s.dev := rfl
@[simp] theorem State.setP_net (s : State) (r : BitVec 3) (v : Bool) : (s.setP r v).net = s.net := rfl
@[simp] theorem State.setP_agenda (s : State) (r : BitVec 3) (v : Bool) : (s.setP r v).agenda = s.agenda := rfl

/-! ### A shape register written -/

@[simp] theorem State.setH_regs (s : State) (r : BitVec 4) (v : BitVec 256) : (s.setH r v).core.f.regs = s.regs.setH r v := rfl
@[simp] theorem State.setH_regs' (s : State) (r : BitVec 4) (v : BitVec 256) : (s.setH r v).regs = s.regs.setH r v := rfl
@[simp] theorem State.setH_serial (s : State) (r : BitVec 4) (v : BitVec 256) : (s.setH r v).core.f.serial = s.core.f.serial := rfl
@[simp] theorem State.setH_smode (s : State) (r : BitVec 4) (v : BitVec 256) : (s.setH r v).core.f.smode = s.core.f.smode := rfl
@[simp] theorem State.setH_inSys (s : State) (r : BitVec 4) (v : BitVec 256) : (s.setH r v).core.f.inSys = s.core.f.inSys := rfl
@[simp] theorem State.setH_fromRep (s : State) (r : BitVec 4) (v : BitVec 256) : (s.setH r v).core.f.fromRep = s.core.f.fromRep := rfl
@[simp] theorem State.setH_actor (s : State) (r : BitVec 4) (v : BitVec 256) : (s.setH r v).core.f.actor = s.core.f.actor := rfl
@[simp] theorem State.setH_pc (s : State) (r : BitVec 4) (v : BitVec 256) : (s.setH r v).core.f.pc = s.core.f.pc := rfl
@[simp] theorem State.setH_ctl (s : State) (r : BitVec 4) (v : BitVec 256) : (s.setH r v).core.f.ctl = s.core.f.ctl := rfl
@[simp] theorem State.setH_mact (s : State) (r : BitVec 4) (v : BitVec 256) : (s.setH r v).core.f.mact = s.core.f.mact := rfl
@[simp] theorem State.setH_rspc (s : State) (r : BitVec 4) (v : BitVec 256) : (s.setH r v).core.f.rspc = s.core.f.rspc := rfl
@[simp] theorem State.setH_rsaddr (s : State) (r : BitVec 4) (v : BitVec 256) : (s.setH r v).core.f.rsaddr = s.core.f.rsaddr := rfl
@[simp] theorem State.setH_rsagent (s : State) (r : BitVec 4) (v : BitVec 256) : (s.setH r v).core.f.rsagent = s.core.f.rsagent := rfl
@[simp] theorem State.setH_ckpt (s : State) (r : BitVec 4) (v : BitVec 256) : (s.setH r v).core.f.ckpt = s.core.f.ckpt := rfl
@[simp] theorem State.setH_region (s : State) (r : BitVec 4) (v : BitVec 256) : (s.setH r v).core.f.region = s.core.f.region := rfl
@[simp] theorem State.setH_irrev (s : State) (r : BitVec 4) (v : BitVec 256) : (s.setH r v).core.f.irrev = s.core.f.irrev := rfl
@[simp] theorem State.setH_wait (s : State) (r : BitVec 4) (v : BitVec 256) : (s.setH r v).core.f.wait = s.core.f.wait := rfl
@[simp] theorem State.setH_lhnd (s : State) (r : BitVec 4) (v : BitVec 256) : (s.setH r v).core.f.lhnd = s.core.f.lhnd := rfl
@[simp] theorem State.setH_lin (s : State) (r : BitVec 4) (v : BitVec 256) : (s.setH r v).core.f.lin = s.core.f.lin := rfl
@[simp] theorem State.setH_route (s : State) (r : BitVec 4) (v : BitVec 256) : (s.setH r v).core.f.route = s.core.f.route := rfl
@[simp] theorem State.setH_entry (s : State) (r : BitVec 4) (v : BitVec 256) : (s.setH r v).core.f.entry = s.core.f.entry := rfl
@[simp] theorem State.setH_core_id (s : State) (r : BitVec 4) (v : BitVec 256) : (s.setH r v).core.id = s.core.id := rfl
@[simp] theorem State.setH_core_site (s : State) (r : BitVec 4) (v : BitVec 256) : (s.setH r v).core.site = s.core.site := rfl
@[simp] theorem State.setH_core_busy (s : State) (r : BitVec 4) (v : BitVec 256) : (s.setH r v).core.busy = s.core.busy := rfl
@[simp] theorem State.setH_core_serials (s : State) (r : BitVec 4) (v : BitVec 256) : (s.setH r v).core.serials = s.core.serials := rfl
@[simp] theorem State.setH_core_cohort (s : State) (r : BitVec 4) (v : BitVec 256) : (s.setH r v).core.cohort = s.core.cohort := rfl
@[simp] theorem State.setH_core_mem (s : State) (r : BitVec 4) (v : BitVec 256) : (s.setH r v).core.mem = s.core.mem := rfl
@[simp] theorem State.setH_core_tab (s : State) (r : BitVec 4) (v : BitVec 256) : (s.setH r v).core.tab = s.core.tab := rfl
@[simp] theorem State.setH_core_q (s : State) (r : BitVec 4) (v : BitVec 256) : (s.setH r v).core.q = s.core.q := rfl
@[simp] theorem State.setH_core_eng (s : State) (r : BitVec 4) (v : BitVec 256) : (s.setH r v).core.eng = s.core.eng := rfl
@[simp] theorem State.setH_core_ack (s : State) (r : BitVec 4) (v : BitVec 256) : (s.setH r v).core.ack = s.core.ack := rfl
@[simp] theorem State.setH_core_scrim (s : State) (r : BitVec 4) (v : BitVec 256) : (s.setH r v).core.scrim = s.core.scrim := rfl
@[simp] theorem State.setH_core_staged (s : State) (r : BitVec 4) (v : BitVec 256) : (s.setH r v).core.staged = s.core.staged := rfl
@[simp] theorem State.setH_core_slots (s : State) (r : BitVec 4) (v : BitVec 256) : (s.setH r v).core.slots = s.core.slots := rfl
@[simp] theorem State.setH_core_phys (s : State) (r : BitVec 4) (v : BitVec 256) : (s.setH r v).core.phys = s.core.phys := rfl
@[simp] theorem State.setH_core_exc (s : State) (r : BitVec 4) (v : BitVec 256) : (s.setH r v).core.exc = s.core.exc := rfl
@[simp] theorem State.setH_core_moving (s : State) (r : BitVec 4) (v : BitVec 256) : (s.setH r v).core.moving = s.core.moving := rfl
@[simp] theorem State.setH_core_saveAsked (s : State) (r : BitVec 4) (v : BitVec 256) : (s.setH r v).core.saveAsked = s.core.saveAsked := rfl
@[simp] theorem State.setH_core_lastTime (s : State) (r : BitVec 4) (v : BitVec 256) : (s.setH r v).core.lastTime = s.core.lastTime := rfl
@[simp] theorem State.setH_core_pageWaits (s : State) (r : BitVec 4) (v : BitVec 256) : (s.setH r v).core.pageWaits = s.core.pageWaits := rfl
@[simp] theorem State.setH_core_memCtx (s : State) (r : BitVec 4) (v : BitVec 256) : (s.setH r v).core.memCtx = s.core.memCtx := rfl
@[simp] theorem State.setH_core_sysMem (s : State) (r : BitVec 4) (v : BitVec 256) : (s.setH r v).core.sysMem = s.core.sysMem := rfl
@[simp] theorem State.setH_core_taken (s : State) (r : BitVec 4) (v : BitVec 256) : (s.setH r v).core.taken = s.core.taken := rfl
@[simp] theorem State.setH_core_badSecs (s : State) (r : BitVec 4) (v : BitVec 256) : (s.setH r v).core.badSecs = s.core.badSecs := rfl
@[simp] theorem State.setH_core_checkDue (s : State) (r : BitVec 4) (v : BitVec 256) : (s.setH r v).core.checkDue = s.core.checkDue := rfl
@[simp] theorem State.setH_core_tear (s : State) (r : BitVec 4) (v : BitVec 256) : (s.setH r v).core.tear = s.core.tear := rfl
@[simp] theorem State.setH_core_moveHeld (s : State) (r : BitVec 4) (v : BitVec 256) : (s.setH r v).core.moveHeld = s.core.moveHeld := rfl
@[simp] theorem State.setH_core_clock (s : State) (r : BitVec 4) (v : BitVec 256) : (s.setH r v).core.clock = s.core.clock := rfl
@[simp] theorem State.setH_core_places (s : State) (r : BitVec 4) (v : BitVec 256) : (s.setH r v).core.places = s.core.places := rfl
@[simp] theorem State.setH_others (s : State) (r : BitVec 4) (v : BitVec 256) : (s.setH r v).others = s.others := rfl
@[simp] theorem State.setH_dev (s : State) (r : BitVec 4) (v : BitVec 256) : (s.setH r v).dev = s.dev := rfl
@[simp] theorem State.setH_net (s : State) (r : BitVec 4) (v : BitVec 256) : (s.setH r v).net = s.net := rfl
@[simp] theorem State.setH_agenda (s : State) (r : BitVec 4) (v : BitVec 256) : (s.setH r v).agenda = s.agenda := rfl

/-! ### Consecutive registers written -/

@[simp] theorem State.setSMany_regs (s : State) (r : BitVec 5) (ws : List Word) : (s.setSMany r ws).core.f.regs = s.regs.setSMany r ws := rfl
@[simp] theorem State.setSMany_regs' (s : State) (r : BitVec 5) (ws : List Word) : (s.setSMany r ws).regs = s.regs.setSMany r ws := rfl
@[simp] theorem State.setSMany_serial (s : State) (r : BitVec 5) (ws : List Word) : (s.setSMany r ws).core.f.serial = s.core.f.serial := rfl
@[simp] theorem State.setSMany_smode (s : State) (r : BitVec 5) (ws : List Word) : (s.setSMany r ws).core.f.smode = s.core.f.smode := rfl
@[simp] theorem State.setSMany_inSys (s : State) (r : BitVec 5) (ws : List Word) : (s.setSMany r ws).core.f.inSys = s.core.f.inSys := rfl
@[simp] theorem State.setSMany_fromRep (s : State) (r : BitVec 5) (ws : List Word) : (s.setSMany r ws).core.f.fromRep = s.core.f.fromRep := rfl
@[simp] theorem State.setSMany_actor (s : State) (r : BitVec 5) (ws : List Word) : (s.setSMany r ws).core.f.actor = s.core.f.actor := rfl
@[simp] theorem State.setSMany_pc (s : State) (r : BitVec 5) (ws : List Word) : (s.setSMany r ws).core.f.pc = s.core.f.pc := rfl
@[simp] theorem State.setSMany_ctl (s : State) (r : BitVec 5) (ws : List Word) : (s.setSMany r ws).core.f.ctl = s.core.f.ctl := rfl
@[simp] theorem State.setSMany_mact (s : State) (r : BitVec 5) (ws : List Word) : (s.setSMany r ws).core.f.mact = s.core.f.mact := rfl
@[simp] theorem State.setSMany_rspc (s : State) (r : BitVec 5) (ws : List Word) : (s.setSMany r ws).core.f.rspc = s.core.f.rspc := rfl
@[simp] theorem State.setSMany_rsaddr (s : State) (r : BitVec 5) (ws : List Word) : (s.setSMany r ws).core.f.rsaddr = s.core.f.rsaddr := rfl
@[simp] theorem State.setSMany_rsagent (s : State) (r : BitVec 5) (ws : List Word) : (s.setSMany r ws).core.f.rsagent = s.core.f.rsagent := rfl
@[simp] theorem State.setSMany_ckpt (s : State) (r : BitVec 5) (ws : List Word) : (s.setSMany r ws).core.f.ckpt = s.core.f.ckpt := rfl
@[simp] theorem State.setSMany_region (s : State) (r : BitVec 5) (ws : List Word) : (s.setSMany r ws).core.f.region = s.core.f.region := rfl
@[simp] theorem State.setSMany_irrev (s : State) (r : BitVec 5) (ws : List Word) : (s.setSMany r ws).core.f.irrev = s.core.f.irrev := rfl
@[simp] theorem State.setSMany_wait (s : State) (r : BitVec 5) (ws : List Word) : (s.setSMany r ws).core.f.wait = s.core.f.wait := rfl
@[simp] theorem State.setSMany_lhnd (s : State) (r : BitVec 5) (ws : List Word) : (s.setSMany r ws).core.f.lhnd = s.core.f.lhnd := rfl
@[simp] theorem State.setSMany_lin (s : State) (r : BitVec 5) (ws : List Word) : (s.setSMany r ws).core.f.lin = s.core.f.lin := rfl
@[simp] theorem State.setSMany_route (s : State) (r : BitVec 5) (ws : List Word) : (s.setSMany r ws).core.f.route = s.core.f.route := rfl
@[simp] theorem State.setSMany_entry (s : State) (r : BitVec 5) (ws : List Word) : (s.setSMany r ws).core.f.entry = s.core.f.entry := rfl
@[simp] theorem State.setSMany_core_id (s : State) (r : BitVec 5) (ws : List Word) : (s.setSMany r ws).core.id = s.core.id := rfl
@[simp] theorem State.setSMany_core_site (s : State) (r : BitVec 5) (ws : List Word) : (s.setSMany r ws).core.site = s.core.site := rfl
@[simp] theorem State.setSMany_core_busy (s : State) (r : BitVec 5) (ws : List Word) : (s.setSMany r ws).core.busy = s.core.busy := rfl
@[simp] theorem State.setSMany_core_serials (s : State) (r : BitVec 5) (ws : List Word) : (s.setSMany r ws).core.serials = s.core.serials := rfl
@[simp] theorem State.setSMany_core_cohort (s : State) (r : BitVec 5) (ws : List Word) : (s.setSMany r ws).core.cohort = s.core.cohort := rfl
@[simp] theorem State.setSMany_core_mem (s : State) (r : BitVec 5) (ws : List Word) : (s.setSMany r ws).core.mem = s.core.mem := rfl
@[simp] theorem State.setSMany_core_tab (s : State) (r : BitVec 5) (ws : List Word) : (s.setSMany r ws).core.tab = s.core.tab := rfl
@[simp] theorem State.setSMany_core_q (s : State) (r : BitVec 5) (ws : List Word) : (s.setSMany r ws).core.q = s.core.q := rfl
@[simp] theorem State.setSMany_core_eng (s : State) (r : BitVec 5) (ws : List Word) : (s.setSMany r ws).core.eng = s.core.eng := rfl
@[simp] theorem State.setSMany_core_ack (s : State) (r : BitVec 5) (ws : List Word) : (s.setSMany r ws).core.ack = s.core.ack := rfl
@[simp] theorem State.setSMany_core_scrim (s : State) (r : BitVec 5) (ws : List Word) : (s.setSMany r ws).core.scrim = s.core.scrim := rfl
@[simp] theorem State.setSMany_core_staged (s : State) (r : BitVec 5) (ws : List Word) : (s.setSMany r ws).core.staged = s.core.staged := rfl
@[simp] theorem State.setSMany_core_slots (s : State) (r : BitVec 5) (ws : List Word) : (s.setSMany r ws).core.slots = s.core.slots := rfl
@[simp] theorem State.setSMany_core_phys (s : State) (r : BitVec 5) (ws : List Word) : (s.setSMany r ws).core.phys = s.core.phys := rfl
@[simp] theorem State.setSMany_core_exc (s : State) (r : BitVec 5) (ws : List Word) : (s.setSMany r ws).core.exc = s.core.exc := rfl
@[simp] theorem State.setSMany_core_moving (s : State) (r : BitVec 5) (ws : List Word) : (s.setSMany r ws).core.moving = s.core.moving := rfl
@[simp] theorem State.setSMany_core_saveAsked (s : State) (r : BitVec 5) (ws : List Word) : (s.setSMany r ws).core.saveAsked = s.core.saveAsked := rfl
@[simp] theorem State.setSMany_core_lastTime (s : State) (r : BitVec 5) (ws : List Word) : (s.setSMany r ws).core.lastTime = s.core.lastTime := rfl
@[simp] theorem State.setSMany_core_pageWaits (s : State) (r : BitVec 5) (ws : List Word) : (s.setSMany r ws).core.pageWaits = s.core.pageWaits := rfl
@[simp] theorem State.setSMany_core_memCtx (s : State) (r : BitVec 5) (ws : List Word) : (s.setSMany r ws).core.memCtx = s.core.memCtx := rfl
@[simp] theorem State.setSMany_core_sysMem (s : State) (r : BitVec 5) (ws : List Word) : (s.setSMany r ws).core.sysMem = s.core.sysMem := rfl
@[simp] theorem State.setSMany_core_taken (s : State) (r : BitVec 5) (ws : List Word) : (s.setSMany r ws).core.taken = s.core.taken := rfl
@[simp] theorem State.setSMany_core_badSecs (s : State) (r : BitVec 5) (ws : List Word) : (s.setSMany r ws).core.badSecs = s.core.badSecs := rfl
@[simp] theorem State.setSMany_core_checkDue (s : State) (r : BitVec 5) (ws : List Word) : (s.setSMany r ws).core.checkDue = s.core.checkDue := rfl
@[simp] theorem State.setSMany_core_tear (s : State) (r : BitVec 5) (ws : List Word) : (s.setSMany r ws).core.tear = s.core.tear := rfl
@[simp] theorem State.setSMany_core_moveHeld (s : State) (r : BitVec 5) (ws : List Word) : (s.setSMany r ws).core.moveHeld = s.core.moveHeld := rfl
@[simp] theorem State.setSMany_core_clock (s : State) (r : BitVec 5) (ws : List Word) : (s.setSMany r ws).core.clock = s.core.clock := rfl
@[simp] theorem State.setSMany_core_places (s : State) (r : BitVec 5) (ws : List Word) : (s.setSMany r ws).core.places = s.core.places := rfl
@[simp] theorem State.setSMany_others (s : State) (r : BitVec 5) (ws : List Word) : (s.setSMany r ws).others = s.others := rfl
@[simp] theorem State.setSMany_dev (s : State) (r : BitVec 5) (ws : List Word) : (s.setSMany r ws).dev = s.dev := rfl
@[simp] theorem State.setSMany_net (s : State) (r : BitVec 5) (ws : List Word) : (s.setSMany r ws).net = s.net := rfl
@[simp] theorem State.setSMany_agenda (s : State) (r : BitVec 5) (ws : List Word) : (s.setSMany r ws).agenda = s.agenda := rfl

/-! ### Flags raised (R72) -/

@[simp] theorem State.raise_ctl (s : State) (fl : Flags) : (s.raise fl).core.f.ctl = s.core.f.ctl.raise fl := rfl
@[simp] theorem State.raise_regs' (s : State) (fl : Flags) : (s.raise fl).regs = s.regs := rfl
@[simp] theorem State.raise_serial (s : State) (fl : Flags) : (s.raise fl).core.f.serial = s.core.f.serial := rfl
@[simp] theorem State.raise_smode (s : State) (fl : Flags) : (s.raise fl).core.f.smode = s.core.f.smode := rfl
@[simp] theorem State.raise_inSys (s : State) (fl : Flags) : (s.raise fl).core.f.inSys = s.core.f.inSys := rfl
@[simp] theorem State.raise_fromRep (s : State) (fl : Flags) : (s.raise fl).core.f.fromRep = s.core.f.fromRep := rfl
@[simp] theorem State.raise_actor (s : State) (fl : Flags) : (s.raise fl).core.f.actor = s.core.f.actor := rfl
@[simp] theorem State.raise_pc (s : State) (fl : Flags) : (s.raise fl).core.f.pc = s.core.f.pc := rfl
@[simp] theorem State.raise_regs (s : State) (fl : Flags) : (s.raise fl).core.f.regs = s.core.f.regs := rfl
@[simp] theorem State.raise_mact (s : State) (fl : Flags) : (s.raise fl).core.f.mact = s.core.f.mact := rfl
@[simp] theorem State.raise_rspc (s : State) (fl : Flags) : (s.raise fl).core.f.rspc = s.core.f.rspc := rfl
@[simp] theorem State.raise_rsaddr (s : State) (fl : Flags) : (s.raise fl).core.f.rsaddr = s.core.f.rsaddr := rfl
@[simp] theorem State.raise_rsagent (s : State) (fl : Flags) : (s.raise fl).core.f.rsagent = s.core.f.rsagent := rfl
@[simp] theorem State.raise_ckpt (s : State) (fl : Flags) : (s.raise fl).core.f.ckpt = s.core.f.ckpt := rfl
@[simp] theorem State.raise_region (s : State) (fl : Flags) : (s.raise fl).core.f.region = s.core.f.region := rfl
@[simp] theorem State.raise_irrev (s : State) (fl : Flags) : (s.raise fl).core.f.irrev = s.core.f.irrev := rfl
@[simp] theorem State.raise_wait (s : State) (fl : Flags) : (s.raise fl).core.f.wait = s.core.f.wait := rfl
@[simp] theorem State.raise_lhnd (s : State) (fl : Flags) : (s.raise fl).core.f.lhnd = s.core.f.lhnd := rfl
@[simp] theorem State.raise_lin (s : State) (fl : Flags) : (s.raise fl).core.f.lin = s.core.f.lin := rfl
@[simp] theorem State.raise_route (s : State) (fl : Flags) : (s.raise fl).core.f.route = s.core.f.route := rfl
@[simp] theorem State.raise_entry (s : State) (fl : Flags) : (s.raise fl).core.f.entry = s.core.f.entry := rfl
@[simp] theorem State.raise_core_id (s : State) (fl : Flags) : (s.raise fl).core.id = s.core.id := rfl
@[simp] theorem State.raise_core_site (s : State) (fl : Flags) : (s.raise fl).core.site = s.core.site := rfl
@[simp] theorem State.raise_core_busy (s : State) (fl : Flags) : (s.raise fl).core.busy = s.core.busy := rfl
@[simp] theorem State.raise_core_serials (s : State) (fl : Flags) : (s.raise fl).core.serials = s.core.serials := rfl
@[simp] theorem State.raise_core_cohort (s : State) (fl : Flags) : (s.raise fl).core.cohort = s.core.cohort := rfl
@[simp] theorem State.raise_core_mem (s : State) (fl : Flags) : (s.raise fl).core.mem = s.core.mem := rfl
@[simp] theorem State.raise_core_tab (s : State) (fl : Flags) : (s.raise fl).core.tab = s.core.tab := rfl
@[simp] theorem State.raise_core_q (s : State) (fl : Flags) : (s.raise fl).core.q = s.core.q := rfl
@[simp] theorem State.raise_core_eng (s : State) (fl : Flags) : (s.raise fl).core.eng = s.core.eng := rfl
@[simp] theorem State.raise_core_ack (s : State) (fl : Flags) : (s.raise fl).core.ack = s.core.ack := rfl
@[simp] theorem State.raise_core_scrim (s : State) (fl : Flags) : (s.raise fl).core.scrim = s.core.scrim := rfl
@[simp] theorem State.raise_core_staged (s : State) (fl : Flags) : (s.raise fl).core.staged = s.core.staged := rfl
@[simp] theorem State.raise_core_slots (s : State) (fl : Flags) : (s.raise fl).core.slots = s.core.slots := rfl
@[simp] theorem State.raise_core_phys (s : State) (fl : Flags) : (s.raise fl).core.phys = s.core.phys := rfl
@[simp] theorem State.raise_core_exc (s : State) (fl : Flags) : (s.raise fl).core.exc = s.core.exc := rfl
@[simp] theorem State.raise_core_moving (s : State) (fl : Flags) : (s.raise fl).core.moving = s.core.moving := rfl
@[simp] theorem State.raise_core_saveAsked (s : State) (fl : Flags) : (s.raise fl).core.saveAsked = s.core.saveAsked := rfl
@[simp] theorem State.raise_core_lastTime (s : State) (fl : Flags) : (s.raise fl).core.lastTime = s.core.lastTime := rfl
@[simp] theorem State.raise_core_pageWaits (s : State) (fl : Flags) : (s.raise fl).core.pageWaits = s.core.pageWaits := rfl
@[simp] theorem State.raise_core_memCtx (s : State) (fl : Flags) : (s.raise fl).core.memCtx = s.core.memCtx := rfl
@[simp] theorem State.raise_core_sysMem (s : State) (fl : Flags) : (s.raise fl).core.sysMem = s.core.sysMem := rfl
@[simp] theorem State.raise_core_taken (s : State) (fl : Flags) : (s.raise fl).core.taken = s.core.taken := rfl
@[simp] theorem State.raise_core_badSecs (s : State) (fl : Flags) : (s.raise fl).core.badSecs = s.core.badSecs := rfl
@[simp] theorem State.raise_core_checkDue (s : State) (fl : Flags) : (s.raise fl).core.checkDue = s.core.checkDue := rfl
@[simp] theorem State.raise_core_tear (s : State) (fl : Flags) : (s.raise fl).core.tear = s.core.tear := rfl
@[simp] theorem State.raise_core_moveHeld (s : State) (fl : Flags) : (s.raise fl).core.moveHeld = s.core.moveHeld := rfl
@[simp] theorem State.raise_core_clock (s : State) (fl : Flags) : (s.raise fl).core.clock = s.core.clock := rfl
@[simp] theorem State.raise_core_places (s : State) (fl : Flags) : (s.raise fl).core.places = s.core.places := rfl
@[simp] theorem State.raise_others (s : State) (fl : Flags) : (s.raise fl).others = s.others := rfl
@[simp] theorem State.raise_dev (s : State) (fl : Flags) : (s.raise fl).dev = s.dev := rfl
@[simp] theorem State.raise_net (s : State) (fl : Flags) : (s.raise fl).net = s.net := rfl
@[simp] theorem State.raise_agenda (s : State) (fl : Flags) : (s.raise fl).agenda = s.agenda := rfl

/-! ### The firing waits -/

@[simp] theorem State.setWait_wait (s : State) (w : Wait) : (s.setWait w).core.f.wait = w := rfl
@[simp] theorem State.setWait_regs' (s : State) (w : Wait) : (s.setWait w).regs = s.regs := rfl
@[simp] theorem State.setWait_serial (s : State) (w : Wait) : (s.setWait w).core.f.serial = s.core.f.serial := rfl
@[simp] theorem State.setWait_smode (s : State) (w : Wait) : (s.setWait w).core.f.smode = s.core.f.smode := rfl
@[simp] theorem State.setWait_inSys (s : State) (w : Wait) : (s.setWait w).core.f.inSys = s.core.f.inSys := rfl
@[simp] theorem State.setWait_fromRep (s : State) (w : Wait) : (s.setWait w).core.f.fromRep = s.core.f.fromRep := rfl
@[simp] theorem State.setWait_actor (s : State) (w : Wait) : (s.setWait w).core.f.actor = s.core.f.actor := rfl
@[simp] theorem State.setWait_pc (s : State) (w : Wait) : (s.setWait w).core.f.pc = s.core.f.pc := rfl
@[simp] theorem State.setWait_regs (s : State) (w : Wait) : (s.setWait w).core.f.regs = s.core.f.regs := rfl
@[simp] theorem State.setWait_ctl (s : State) (w : Wait) : (s.setWait w).core.f.ctl = s.core.f.ctl := rfl
@[simp] theorem State.setWait_mact (s : State) (w : Wait) : (s.setWait w).core.f.mact = s.core.f.mact := rfl
@[simp] theorem State.setWait_rspc (s : State) (w : Wait) : (s.setWait w).core.f.rspc = s.core.f.rspc := rfl
@[simp] theorem State.setWait_rsaddr (s : State) (w : Wait) : (s.setWait w).core.f.rsaddr = s.core.f.rsaddr := rfl
@[simp] theorem State.setWait_rsagent (s : State) (w : Wait) : (s.setWait w).core.f.rsagent = s.core.f.rsagent := rfl
@[simp] theorem State.setWait_ckpt (s : State) (w : Wait) : (s.setWait w).core.f.ckpt = s.core.f.ckpt := rfl
@[simp] theorem State.setWait_region (s : State) (w : Wait) : (s.setWait w).core.f.region = s.core.f.region := rfl
@[simp] theorem State.setWait_irrev (s : State) (w : Wait) : (s.setWait w).core.f.irrev = s.core.f.irrev := rfl
@[simp] theorem State.setWait_lhnd (s : State) (w : Wait) : (s.setWait w).core.f.lhnd = s.core.f.lhnd := rfl
@[simp] theorem State.setWait_lin (s : State) (w : Wait) : (s.setWait w).core.f.lin = s.core.f.lin := rfl
@[simp] theorem State.setWait_route (s : State) (w : Wait) : (s.setWait w).core.f.route = s.core.f.route := rfl
@[simp] theorem State.setWait_entry (s : State) (w : Wait) : (s.setWait w).core.f.entry = s.core.f.entry := rfl
@[simp] theorem State.setWait_core_id (s : State) (w : Wait) : (s.setWait w).core.id = s.core.id := rfl
@[simp] theorem State.setWait_core_site (s : State) (w : Wait) : (s.setWait w).core.site = s.core.site := rfl
@[simp] theorem State.setWait_core_busy (s : State) (w : Wait) : (s.setWait w).core.busy = s.core.busy := rfl
@[simp] theorem State.setWait_core_serials (s : State) (w : Wait) : (s.setWait w).core.serials = s.core.serials := rfl
@[simp] theorem State.setWait_core_cohort (s : State) (w : Wait) : (s.setWait w).core.cohort = s.core.cohort := rfl
@[simp] theorem State.setWait_core_mem (s : State) (w : Wait) : (s.setWait w).core.mem = s.core.mem := rfl
@[simp] theorem State.setWait_core_tab (s : State) (w : Wait) : (s.setWait w).core.tab = s.core.tab := rfl
@[simp] theorem State.setWait_core_q (s : State) (w : Wait) : (s.setWait w).core.q = s.core.q := rfl
@[simp] theorem State.setWait_core_eng (s : State) (w : Wait) : (s.setWait w).core.eng = s.core.eng := rfl
@[simp] theorem State.setWait_core_ack (s : State) (w : Wait) : (s.setWait w).core.ack = s.core.ack := rfl
@[simp] theorem State.setWait_core_scrim (s : State) (w : Wait) : (s.setWait w).core.scrim = s.core.scrim := rfl
@[simp] theorem State.setWait_core_staged (s : State) (w : Wait) : (s.setWait w).core.staged = s.core.staged := rfl
@[simp] theorem State.setWait_core_slots (s : State) (w : Wait) : (s.setWait w).core.slots = s.core.slots := rfl
@[simp] theorem State.setWait_core_phys (s : State) (w : Wait) : (s.setWait w).core.phys = s.core.phys := rfl
@[simp] theorem State.setWait_core_exc (s : State) (w : Wait) : (s.setWait w).core.exc = s.core.exc := rfl
@[simp] theorem State.setWait_core_moving (s : State) (w : Wait) : (s.setWait w).core.moving = s.core.moving := rfl
@[simp] theorem State.setWait_core_saveAsked (s : State) (w : Wait) : (s.setWait w).core.saveAsked = s.core.saveAsked := rfl
@[simp] theorem State.setWait_core_lastTime (s : State) (w : Wait) : (s.setWait w).core.lastTime = s.core.lastTime := rfl
@[simp] theorem State.setWait_core_pageWaits (s : State) (w : Wait) : (s.setWait w).core.pageWaits = s.core.pageWaits := rfl
@[simp] theorem State.setWait_core_memCtx (s : State) (w : Wait) : (s.setWait w).core.memCtx = s.core.memCtx := rfl
@[simp] theorem State.setWait_core_sysMem (s : State) (w : Wait) : (s.setWait w).core.sysMem = s.core.sysMem := rfl
@[simp] theorem State.setWait_core_taken (s : State) (w : Wait) : (s.setWait w).core.taken = s.core.taken := rfl
@[simp] theorem State.setWait_core_badSecs (s : State) (w : Wait) : (s.setWait w).core.badSecs = s.core.badSecs := rfl
@[simp] theorem State.setWait_core_checkDue (s : State) (w : Wait) : (s.setWait w).core.checkDue = s.core.checkDue := rfl
@[simp] theorem State.setWait_core_tear (s : State) (w : Wait) : (s.setWait w).core.tear = s.core.tear := rfl
@[simp] theorem State.setWait_core_moveHeld (s : State) (w : Wait) : (s.setWait w).core.moveHeld = s.core.moveHeld := rfl
@[simp] theorem State.setWait_core_clock (s : State) (w : Wait) : (s.setWait w).core.clock = s.core.clock := rfl
@[simp] theorem State.setWait_core_places (s : State) (w : Wait) : (s.setWait w).core.places = s.core.places := rfl
@[simp] theorem State.setWait_others (s : State) (w : Wait) : (s.setWait w).others = s.others := rfl
@[simp] theorem State.setWait_dev (s : State) (w : Wait) : (s.setWait w).dev = s.dev := rfl
@[simp] theorem State.setWait_net (s : State) (w : Wait) : (s.setWait w).net = s.net := rfl
@[simp] theorem State.setWait_agenda (s : State) (w : Wait) : (s.setWait w).agenda = s.agenda := rfl

/-! ### The instruction is tried again (R129) -/

@[simp] theorem State.poll_wait (s : State) : (s.poll).core.f.wait = .poll := rfl
@[simp] theorem State.poll_regs' (s : State) : (s.poll).regs = s.regs := rfl
@[simp] theorem State.poll_serial (s : State) : (s.poll).core.f.serial = s.core.f.serial := rfl
@[simp] theorem State.poll_smode (s : State) : (s.poll).core.f.smode = s.core.f.smode := rfl
@[simp] theorem State.poll_inSys (s : State) : (s.poll).core.f.inSys = s.core.f.inSys := rfl
@[simp] theorem State.poll_fromRep (s : State) : (s.poll).core.f.fromRep = s.core.f.fromRep := rfl
@[simp] theorem State.poll_actor (s : State) : (s.poll).core.f.actor = s.core.f.actor := rfl
@[simp] theorem State.poll_pc (s : State) : (s.poll).core.f.pc = s.core.f.pc := rfl
@[simp] theorem State.poll_regs (s : State) : (s.poll).core.f.regs = s.core.f.regs := rfl
@[simp] theorem State.poll_ctl (s : State) : (s.poll).core.f.ctl = s.core.f.ctl := rfl
@[simp] theorem State.poll_mact (s : State) : (s.poll).core.f.mact = s.core.f.mact := rfl
@[simp] theorem State.poll_rspc (s : State) : (s.poll).core.f.rspc = s.core.f.rspc := rfl
@[simp] theorem State.poll_rsaddr (s : State) : (s.poll).core.f.rsaddr = s.core.f.rsaddr := rfl
@[simp] theorem State.poll_rsagent (s : State) : (s.poll).core.f.rsagent = s.core.f.rsagent := rfl
@[simp] theorem State.poll_ckpt (s : State) : (s.poll).core.f.ckpt = s.core.f.ckpt := rfl
@[simp] theorem State.poll_region (s : State) : (s.poll).core.f.region = s.core.f.region := rfl
@[simp] theorem State.poll_irrev (s : State) : (s.poll).core.f.irrev = s.core.f.irrev := rfl
@[simp] theorem State.poll_lhnd (s : State) : (s.poll).core.f.lhnd = s.core.f.lhnd := rfl
@[simp] theorem State.poll_lin (s : State) : (s.poll).core.f.lin = s.core.f.lin := rfl
@[simp] theorem State.poll_route (s : State) : (s.poll).core.f.route = s.core.f.route := rfl
@[simp] theorem State.poll_entry (s : State) : (s.poll).core.f.entry = s.core.f.entry := rfl
@[simp] theorem State.poll_core_id (s : State) : (s.poll).core.id = s.core.id := rfl
@[simp] theorem State.poll_core_site (s : State) : (s.poll).core.site = s.core.site := rfl
@[simp] theorem State.poll_core_busy (s : State) : (s.poll).core.busy = s.core.busy := rfl
@[simp] theorem State.poll_core_serials (s : State) : (s.poll).core.serials = s.core.serials := rfl
@[simp] theorem State.poll_core_cohort (s : State) : (s.poll).core.cohort = s.core.cohort := rfl
@[simp] theorem State.poll_core_mem (s : State) : (s.poll).core.mem = s.core.mem := rfl
@[simp] theorem State.poll_core_tab (s : State) : (s.poll).core.tab = s.core.tab := rfl
@[simp] theorem State.poll_core_q (s : State) : (s.poll).core.q = s.core.q := rfl
@[simp] theorem State.poll_core_eng (s : State) : (s.poll).core.eng = s.core.eng := rfl
@[simp] theorem State.poll_core_ack (s : State) : (s.poll).core.ack = s.core.ack := rfl
@[simp] theorem State.poll_core_scrim (s : State) : (s.poll).core.scrim = s.core.scrim := rfl
@[simp] theorem State.poll_core_staged (s : State) : (s.poll).core.staged = s.core.staged := rfl
@[simp] theorem State.poll_core_slots (s : State) : (s.poll).core.slots = s.core.slots := rfl
@[simp] theorem State.poll_core_phys (s : State) : (s.poll).core.phys = s.core.phys := rfl
@[simp] theorem State.poll_core_exc (s : State) : (s.poll).core.exc = s.core.exc := rfl
@[simp] theorem State.poll_core_moving (s : State) : (s.poll).core.moving = s.core.moving := rfl
@[simp] theorem State.poll_core_saveAsked (s : State) : (s.poll).core.saveAsked = s.core.saveAsked := rfl
@[simp] theorem State.poll_core_lastTime (s : State) : (s.poll).core.lastTime = s.core.lastTime := rfl
@[simp] theorem State.poll_core_pageWaits (s : State) : (s.poll).core.pageWaits = s.core.pageWaits := rfl
@[simp] theorem State.poll_core_memCtx (s : State) : (s.poll).core.memCtx = s.core.memCtx := rfl
@[simp] theorem State.poll_core_sysMem (s : State) : (s.poll).core.sysMem = s.core.sysMem := rfl
@[simp] theorem State.poll_core_taken (s : State) : (s.poll).core.taken = s.core.taken := rfl
@[simp] theorem State.poll_core_badSecs (s : State) : (s.poll).core.badSecs = s.core.badSecs := rfl
@[simp] theorem State.poll_core_checkDue (s : State) : (s.poll).core.checkDue = s.core.checkDue := rfl
@[simp] theorem State.poll_core_tear (s : State) : (s.poll).core.tear = s.core.tear := rfl
@[simp] theorem State.poll_core_moveHeld (s : State) : (s.poll).core.moveHeld = s.core.moveHeld := rfl
@[simp] theorem State.poll_core_clock (s : State) : (s.poll).core.clock = s.core.clock := rfl
@[simp] theorem State.poll_core_places (s : State) : (s.poll).core.places = s.core.places := rfl
@[simp] theorem State.poll_others (s : State) : (s.poll).others = s.others := rfl
@[simp] theorem State.poll_dev (s : State) : (s.poll).dev = s.dev := rfl
@[simp] theorem State.poll_net (s : State) : (s.poll).net = s.net := rfl
@[simp] theorem State.poll_agenda (s : State) : (s.poll).agenda = s.agenda := rfl

/-! ### The pc moves on -/

@[simp] theorem State.advance_pc (s : State) (n : Nat) : (s.advance n).core.f.pc = s.core.f.pc + n := rfl
@[simp] theorem State.advance_wait (s : State) (n : Nat) : (s.advance n).core.f.wait = .none := rfl
@[simp] theorem State.advance_regs' (s : State) (n : Nat) : (s.advance n).regs = s.regs := rfl
@[simp] theorem State.advance_serial (s : State) (n : Nat) : (s.advance n).core.f.serial = s.core.f.serial := rfl
@[simp] theorem State.advance_smode (s : State) (n : Nat) : (s.advance n).core.f.smode = s.core.f.smode := rfl
@[simp] theorem State.advance_inSys (s : State) (n : Nat) : (s.advance n).core.f.inSys = s.core.f.inSys := rfl
@[simp] theorem State.advance_fromRep (s : State) (n : Nat) : (s.advance n).core.f.fromRep = s.core.f.fromRep := rfl
@[simp] theorem State.advance_actor (s : State) (n : Nat) : (s.advance n).core.f.actor = s.core.f.actor := rfl
@[simp] theorem State.advance_regs (s : State) (n : Nat) : (s.advance n).core.f.regs = s.core.f.regs := rfl
@[simp] theorem State.advance_ctl (s : State) (n : Nat) : (s.advance n).core.f.ctl = s.core.f.ctl := rfl
@[simp] theorem State.advance_mact (s : State) (n : Nat) : (s.advance n).core.f.mact = s.core.f.mact := rfl
@[simp] theorem State.advance_rspc (s : State) (n : Nat) : (s.advance n).core.f.rspc = s.core.f.rspc := rfl
@[simp] theorem State.advance_rsaddr (s : State) (n : Nat) : (s.advance n).core.f.rsaddr = s.core.f.rsaddr := rfl
@[simp] theorem State.advance_rsagent (s : State) (n : Nat) : (s.advance n).core.f.rsagent = s.core.f.rsagent := rfl
@[simp] theorem State.advance_ckpt (s : State) (n : Nat) : (s.advance n).core.f.ckpt = s.core.f.ckpt := rfl
@[simp] theorem State.advance_region (s : State) (n : Nat) : (s.advance n).core.f.region = s.core.f.region := rfl
@[simp] theorem State.advance_irrev (s : State) (n : Nat) : (s.advance n).core.f.irrev = s.core.f.irrev := rfl
@[simp] theorem State.advance_lhnd (s : State) (n : Nat) : (s.advance n).core.f.lhnd = s.core.f.lhnd := rfl
@[simp] theorem State.advance_lin (s : State) (n : Nat) : (s.advance n).core.f.lin = s.core.f.lin := rfl
@[simp] theorem State.advance_route (s : State) (n : Nat) : (s.advance n).core.f.route = s.core.f.route := rfl
@[simp] theorem State.advance_entry (s : State) (n : Nat) : (s.advance n).core.f.entry = s.core.f.entry := rfl
@[simp] theorem State.advance_core_id (s : State) (n : Nat) : (s.advance n).core.id = s.core.id := rfl
@[simp] theorem State.advance_core_site (s : State) (n : Nat) : (s.advance n).core.site = s.core.site := rfl
@[simp] theorem State.advance_core_busy (s : State) (n : Nat) : (s.advance n).core.busy = s.core.busy := rfl
@[simp] theorem State.advance_core_serials (s : State) (n : Nat) : (s.advance n).core.serials = s.core.serials := rfl
@[simp] theorem State.advance_core_cohort (s : State) (n : Nat) : (s.advance n).core.cohort = s.core.cohort := rfl
@[simp] theorem State.advance_core_mem (s : State) (n : Nat) : (s.advance n).core.mem = s.core.mem := rfl
@[simp] theorem State.advance_core_tab (s : State) (n : Nat) : (s.advance n).core.tab = s.core.tab := rfl
@[simp] theorem State.advance_core_q (s : State) (n : Nat) : (s.advance n).core.q = s.core.q := rfl
@[simp] theorem State.advance_core_eng (s : State) (n : Nat) : (s.advance n).core.eng = s.core.eng := rfl
@[simp] theorem State.advance_core_ack (s : State) (n : Nat) : (s.advance n).core.ack = s.core.ack := rfl
@[simp] theorem State.advance_core_scrim (s : State) (n : Nat) : (s.advance n).core.scrim = s.core.scrim := rfl
@[simp] theorem State.advance_core_staged (s : State) (n : Nat) : (s.advance n).core.staged = s.core.staged := rfl
@[simp] theorem State.advance_core_slots (s : State) (n : Nat) : (s.advance n).core.slots = s.core.slots := rfl
@[simp] theorem State.advance_core_phys (s : State) (n : Nat) : (s.advance n).core.phys = s.core.phys := rfl
@[simp] theorem State.advance_core_exc (s : State) (n : Nat) : (s.advance n).core.exc = s.core.exc := rfl
@[simp] theorem State.advance_core_moving (s : State) (n : Nat) : (s.advance n).core.moving = s.core.moving := rfl
@[simp] theorem State.advance_core_saveAsked (s : State) (n : Nat) : (s.advance n).core.saveAsked = s.core.saveAsked := rfl
@[simp] theorem State.advance_core_lastTime (s : State) (n : Nat) : (s.advance n).core.lastTime = s.core.lastTime := rfl
@[simp] theorem State.advance_core_pageWaits (s : State) (n : Nat) : (s.advance n).core.pageWaits = s.core.pageWaits := rfl
@[simp] theorem State.advance_core_memCtx (s : State) (n : Nat) : (s.advance n).core.memCtx = s.core.memCtx := rfl
@[simp] theorem State.advance_core_sysMem (s : State) (n : Nat) : (s.advance n).core.sysMem = s.core.sysMem := rfl
@[simp] theorem State.advance_core_taken (s : State) (n : Nat) : (s.advance n).core.taken = s.core.taken := rfl
@[simp] theorem State.advance_core_badSecs (s : State) (n : Nat) : (s.advance n).core.badSecs = s.core.badSecs := rfl
@[simp] theorem State.advance_core_checkDue (s : State) (n : Nat) : (s.advance n).core.checkDue = s.core.checkDue := rfl
@[simp] theorem State.advance_core_tear (s : State) (n : Nat) : (s.advance n).core.tear = s.core.tear := rfl
@[simp] theorem State.advance_core_moveHeld (s : State) (n : Nat) : (s.advance n).core.moveHeld = s.core.moveHeld := rfl
@[simp] theorem State.advance_core_clock (s : State) (n : Nat) : (s.advance n).core.clock = s.core.clock := rfl
@[simp] theorem State.advance_core_places (s : State) (n : Nat) : (s.advance n).core.places = s.core.places := rfl
@[simp] theorem State.advance_others (s : State) (n : Nat) : (s.advance n).others = s.others := rfl
@[simp] theorem State.advance_dev (s : State) (n : Nat) : (s.advance n).dev = s.dev := rfl
@[simp] theorem State.advance_net (s : State) (n : Nat) : (s.advance n).net = s.net := rfl
@[simp] theorem State.advance_agenda (s : State) (n : Nat) : (s.advance n).agenda = s.agenda := rfl

/-! ### A region opens (R277) -/

@[simp] theorem State.openRegion_region (s : State) (l : Live) : (s.openRegion l).core.f.region = Region.fresh (s.core.f.region.gen + 1#8) := rfl
@[simp] theorem State.openRegion_ckpt (s : State) (l : Live) : (s.openRegion l).core.f.ckpt = { regs := s.regs, live := l, ctl := s.core.f.ctl, pc := s.core.f.pc } := rfl
@[simp] theorem State.openRegion_wait (s : State) (l : Live) : (s.openRegion l).core.f.wait = .none := rfl
@[simp] theorem State.openRegion_regs' (s : State) (l : Live) : (s.openRegion l).regs = s.regs := rfl
@[simp] theorem State.openRegion_serial (s : State) (l : Live) : (s.openRegion l).core.f.serial = s.core.f.serial := rfl
@[simp] theorem State.openRegion_smode (s : State) (l : Live) : (s.openRegion l).core.f.smode = s.core.f.smode := rfl
@[simp] theorem State.openRegion_inSys (s : State) (l : Live) : (s.openRegion l).core.f.inSys = s.core.f.inSys := rfl
@[simp] theorem State.openRegion_fromRep (s : State) (l : Live) : (s.openRegion l).core.f.fromRep = s.core.f.fromRep := rfl
@[simp] theorem State.openRegion_actor (s : State) (l : Live) : (s.openRegion l).core.f.actor = s.core.f.actor := rfl
@[simp] theorem State.openRegion_pc (s : State) (l : Live) : (s.openRegion l).core.f.pc = s.core.f.pc := rfl
@[simp] theorem State.openRegion_regs (s : State) (l : Live) : (s.openRegion l).core.f.regs = s.core.f.regs := rfl
@[simp] theorem State.openRegion_ctl (s : State) (l : Live) : (s.openRegion l).core.f.ctl = s.core.f.ctl := rfl
@[simp] theorem State.openRegion_mact (s : State) (l : Live) : (s.openRegion l).core.f.mact = s.core.f.mact := rfl
@[simp] theorem State.openRegion_rspc (s : State) (l : Live) : (s.openRegion l).core.f.rspc = s.core.f.rspc := rfl
@[simp] theorem State.openRegion_rsaddr (s : State) (l : Live) : (s.openRegion l).core.f.rsaddr = s.core.f.rsaddr := rfl
@[simp] theorem State.openRegion_rsagent (s : State) (l : Live) : (s.openRegion l).core.f.rsagent = s.core.f.rsagent := rfl
@[simp] theorem State.openRegion_irrev (s : State) (l : Live) : (s.openRegion l).core.f.irrev = s.core.f.irrev := rfl
@[simp] theorem State.openRegion_lhnd (s : State) (l : Live) : (s.openRegion l).core.f.lhnd = s.core.f.lhnd := rfl
@[simp] theorem State.openRegion_lin (s : State) (l : Live) : (s.openRegion l).core.f.lin = s.core.f.lin := rfl
@[simp] theorem State.openRegion_route (s : State) (l : Live) : (s.openRegion l).core.f.route = s.core.f.route := rfl
@[simp] theorem State.openRegion_entry (s : State) (l : Live) : (s.openRegion l).core.f.entry = s.core.f.entry := rfl
@[simp] theorem State.openRegion_core_id (s : State) (l : Live) : (s.openRegion l).core.id = s.core.id := rfl
@[simp] theorem State.openRegion_core_site (s : State) (l : Live) : (s.openRegion l).core.site = s.core.site := rfl
@[simp] theorem State.openRegion_core_busy (s : State) (l : Live) : (s.openRegion l).core.busy = s.core.busy := rfl
@[simp] theorem State.openRegion_core_serials (s : State) (l : Live) : (s.openRegion l).core.serials = s.core.serials := rfl
@[simp] theorem State.openRegion_core_cohort (s : State) (l : Live) : (s.openRegion l).core.cohort = s.core.cohort := rfl
@[simp] theorem State.openRegion_core_mem (s : State) (l : Live) : (s.openRegion l).core.mem = s.core.mem := rfl
@[simp] theorem State.openRegion_core_tab (s : State) (l : Live) : (s.openRegion l).core.tab = s.core.tab := rfl
@[simp] theorem State.openRegion_core_q (s : State) (l : Live) : (s.openRegion l).core.q = s.core.q := rfl
@[simp] theorem State.openRegion_core_eng (s : State) (l : Live) : (s.openRegion l).core.eng = s.core.eng := rfl
@[simp] theorem State.openRegion_core_ack (s : State) (l : Live) : (s.openRegion l).core.ack = s.core.ack := rfl
@[simp] theorem State.openRegion_core_scrim (s : State) (l : Live) : (s.openRegion l).core.scrim = s.core.scrim := rfl
@[simp] theorem State.openRegion_core_staged (s : State) (l : Live) : (s.openRegion l).core.staged = s.core.staged := rfl
@[simp] theorem State.openRegion_core_slots (s : State) (l : Live) : (s.openRegion l).core.slots = s.core.slots := rfl
@[simp] theorem State.openRegion_core_phys (s : State) (l : Live) : (s.openRegion l).core.phys = s.core.phys := rfl
@[simp] theorem State.openRegion_core_exc (s : State) (l : Live) : (s.openRegion l).core.exc = s.core.exc := rfl
@[simp] theorem State.openRegion_core_moving (s : State) (l : Live) : (s.openRegion l).core.moving = s.core.moving := rfl
@[simp] theorem State.openRegion_core_saveAsked (s : State) (l : Live) : (s.openRegion l).core.saveAsked = s.core.saveAsked := rfl
@[simp] theorem State.openRegion_core_lastTime (s : State) (l : Live) : (s.openRegion l).core.lastTime = s.core.lastTime := rfl
@[simp] theorem State.openRegion_core_pageWaits (s : State) (l : Live) : (s.openRegion l).core.pageWaits = s.core.pageWaits := rfl
@[simp] theorem State.openRegion_core_memCtx (s : State) (l : Live) : (s.openRegion l).core.memCtx = s.core.memCtx := rfl
@[simp] theorem State.openRegion_core_sysMem (s : State) (l : Live) : (s.openRegion l).core.sysMem = s.core.sysMem := rfl
@[simp] theorem State.openRegion_core_taken (s : State) (l : Live) : (s.openRegion l).core.taken = s.core.taken := rfl
@[simp] theorem State.openRegion_core_badSecs (s : State) (l : Live) : (s.openRegion l).core.badSecs = s.core.badSecs := rfl
@[simp] theorem State.openRegion_core_checkDue (s : State) (l : Live) : (s.openRegion l).core.checkDue = s.core.checkDue := rfl
@[simp] theorem State.openRegion_core_tear (s : State) (l : Live) : (s.openRegion l).core.tear = s.core.tear := rfl
@[simp] theorem State.openRegion_core_moveHeld (s : State) (l : Live) : (s.openRegion l).core.moveHeld = s.core.moveHeld := rfl
@[simp] theorem State.openRegion_core_clock (s : State) (l : Live) : (s.openRegion l).core.clock = s.core.clock := rfl
@[simp] theorem State.openRegion_core_places (s : State) (l : Live) : (s.openRegion l).core.places = s.core.places := rfl
@[simp] theorem State.openRegion_others (s : State) (l : Live) : (s.openRegion l).others = s.others := rfl
@[simp] theorem State.openRegion_dev (s : State) (l : Live) : (s.openRegion l).dev = s.dev := rfl
@[simp] theorem State.openRegion_net (s : State) (l : Live) : (s.openRegion l).net = s.net := rfl
@[simp] theorem State.openRegion_agenda (s : State) (l : Live) : (s.openRegion l).agenda = s.agenda := rfl

/-! ### Packets and tokens -/

@[simp] theorem State.send_others (s : State) (dst : CoreId) (n : Net) (b : Body) : (s.send dst n b).others = s.others := rfl
@[simp] theorem State.send_dev (s : State) (dst : CoreId) (n : Net) (b : Body) : (s.send dst n b).dev = s.dev := rfl
@[simp] theorem State.send_agenda (s : State) (dst : CoreId) (n : Net) (b : Body) : (s.send dst n b).agenda = s.agenda := rfl
@[simp] theorem State.send_core_f (s : State) (dst : CoreId) (n : Net) (b : Body) : (s.send dst n b).core.f = s.core.f := rfl
@[simp] theorem State.send_core_id (s : State) (dst : CoreId) (n : Net) (b : Body) : (s.send dst n b).core.id = s.core.id := rfl
@[simp] theorem State.send_core_site (s : State) (dst : CoreId) (n : Net) (b : Body) : (s.send dst n b).core.site = s.core.site := rfl
@[simp] theorem State.send_core_busy (s : State) (dst : CoreId) (n : Net) (b : Body) : (s.send dst n b).core.busy = s.core.busy := rfl
@[simp] theorem State.send_core_serials (s : State) (dst : CoreId) (n : Net) (b : Body) : (s.send dst n b).core.serials = s.core.serials := rfl
@[simp] theorem State.send_core_cohort (s : State) (dst : CoreId) (n : Net) (b : Body) : (s.send dst n b).core.cohort = s.core.cohort := rfl
@[simp] theorem State.send_core_mem (s : State) (dst : CoreId) (n : Net) (b : Body) : (s.send dst n b).core.mem = s.core.mem := rfl
@[simp] theorem State.send_core_tab (s : State) (dst : CoreId) (n : Net) (b : Body) : (s.send dst n b).core.tab = s.core.tab := rfl
@[simp] theorem State.send_core_q (s : State) (dst : CoreId) (n : Net) (b : Body) : (s.send dst n b).core.q = s.core.q := rfl
@[simp] theorem State.send_core_eng (s : State) (dst : CoreId) (n : Net) (b : Body) : (s.send dst n b).core.eng = s.core.eng := rfl
@[simp] theorem State.send_core_ack (s : State) (dst : CoreId) (n : Net) (b : Body) : (s.send dst n b).core.ack = s.core.ack := rfl
@[simp] theorem State.send_core_scrim (s : State) (dst : CoreId) (n : Net) (b : Body) : (s.send dst n b).core.scrim = s.core.scrim := rfl
@[simp] theorem State.send_core_staged (s : State) (dst : CoreId) (n : Net) (b : Body) : (s.send dst n b).core.staged = s.core.staged := rfl
@[simp] theorem State.send_core_slots (s : State) (dst : CoreId) (n : Net) (b : Body) : (s.send dst n b).core.slots = s.core.slots := rfl
@[simp] theorem State.send_core_phys (s : State) (dst : CoreId) (n : Net) (b : Body) : (s.send dst n b).core.phys = s.core.phys := rfl
@[simp] theorem State.send_core_exc (s : State) (dst : CoreId) (n : Net) (b : Body) : (s.send dst n b).core.exc = s.core.exc := rfl
@[simp] theorem State.send_core_moving (s : State) (dst : CoreId) (n : Net) (b : Body) : (s.send dst n b).core.moving = s.core.moving := rfl
@[simp] theorem State.send_core_saveAsked (s : State) (dst : CoreId) (n : Net) (b : Body) : (s.send dst n b).core.saveAsked = s.core.saveAsked := rfl
@[simp] theorem State.send_core_lastTime (s : State) (dst : CoreId) (n : Net) (b : Body) : (s.send dst n b).core.lastTime = s.core.lastTime := rfl
@[simp] theorem State.send_core_pageWaits (s : State) (dst : CoreId) (n : Net) (b : Body) : (s.send dst n b).core.pageWaits = s.core.pageWaits := rfl
@[simp] theorem State.send_core_memCtx (s : State) (dst : CoreId) (n : Net) (b : Body) : (s.send dst n b).core.memCtx = s.core.memCtx := rfl
@[simp] theorem State.send_core_sysMem (s : State) (dst : CoreId) (n : Net) (b : Body) : (s.send dst n b).core.sysMem = s.core.sysMem := rfl
@[simp] theorem State.send_core_taken (s : State) (dst : CoreId) (n : Net) (b : Body) : (s.send dst n b).core.taken = s.core.taken := rfl
@[simp] theorem State.send_core_badSecs (s : State) (dst : CoreId) (n : Net) (b : Body) : (s.send dst n b).core.badSecs = s.core.badSecs := rfl
@[simp] theorem State.send_core_checkDue (s : State) (dst : CoreId) (n : Net) (b : Body) : (s.send dst n b).core.checkDue = s.core.checkDue := rfl
@[simp] theorem State.send_core_tear (s : State) (dst : CoreId) (n : Net) (b : Body) : (s.send dst n b).core.tear = s.core.tear := rfl
@[simp] theorem State.send_core_moveHeld (s : State) (dst : CoreId) (n : Net) (b : Body) : (s.send dst n b).core.moveHeld = s.core.moveHeld := rfl
@[simp] theorem State.send_core_clock (s : State) (dst : CoreId) (n : Net) (b : Body) : (s.send dst n b).core.clock = s.core.clock := rfl
@[simp] theorem State.send_core_places (s : State) (dst : CoreId) (n : Net) (b : Body) : (s.send dst n b).core.places = s.core.places ++ (placeOfAnswer dst b).toList := rfl
@[simp] theorem State.send_net (s : State) (dst : CoreId) (n : Net) (b : Body) : (s.send dst n b).net = s.net ++ [s.core.packet s.dev.part dst n b] := rfl
@[simp] theorem State.useToken_core (s : State) : s.useToken.core = s.core := rfl
@[simp] theorem State.useToken_others (s : State) : s.useToken.others = s.others := rfl
@[simp] theorem State.useToken_net (s : State) : s.useToken.net = s.net := rfl
@[simp] theorem State.useToken_agenda (s : State) : s.useToken.agenda = s.agenda := rfl
@[simp] theorem State.useToken_nextTok (s : State) : s.useToken.dev.nextTok = s.dev.nextTok + 1 := rfl

end Sys2Proof.Machine
end

