-- ==== Sys2Proof/Laws/Ops.lean ====
section
/-!
SUPPORT. Sys2Proof/Laws/Ops.lean: what each shared operation of Machine/Ops.lean can do, said once: the end of a region, the
end of an instruction, a stop, and a region stop.
-/
namespace Sys2Proof.Machine

/-! ### Packets of a region's end (R108, R246, R329)

Each of these changes the counts, the places for answers and the network of the focused core, and nothing else. -/

/-- Nothing but the counts and the places for answers of the focused core and the network has changed. -/
structure Posted (s t : State) : Prop where
  core : t.core = { s.core with ack := t.core.ack, places := t.core.places }
  others : t.others = s.others
  dev : t.dev = s.dev
  agenda : t.agenda = s.agenda

theorem Posted.refl (s : State) : Posted s s := ⟨rfl, rfl, rfl, rfl⟩

theorem Posted.trans {s t u : State} (h : Posted s t) (k : Posted t u) : Posted s u :=
  ⟨by rw [k.core, h.core], k.others.trans h.others, k.dev.trans h.dev, k.agenda.trans h.agenda⟩

theorem post_posted (s : State) (dst : CoreId) (cls : AckClass) (b : Body) : Posted s (s.post dst cls b) := by
  unfold State.post
  split <;> exact ⟨rfl, rfl, rfl, rfl⟩

theorem postWaiting_posted : ∀ (l : List (CoreId × AckClass × Body)) (s : State), Posted s (postWaiting l s)
  | [], _ => ⟨rfl, rfl, rfl, rfl⟩
  | (dst, cls, b) :: r, s => by
    unfold postWaiting
    split
    · exact Posted.trans (t := (s.send dst .req b).mapC fun c => { c with ack := c.ack.raise cls }) ⟨rfl, rfl, rfl, rfl⟩
        (postWaiting_posted r _)
    · exact ⟨rfl, rfl, rfl, rfl⟩

theorem sendCommits_posted (ag : Agent) : ∀ (l : List CoreId) (s : State), Posted s (sendCommits ag l s)
  | [], s => Posted.refl s
  | h :: hs, s => (post_posted s h _ _).trans (sendCommits_posted ag hs _)

theorem sendCloses_posted (ag : Agent) (d : Bool) : ∀ (l : List (CoreId × Nat)) (s : State), Posted s (sendCloses ag d l s)
  | [], s => Posted.refl s
  | p :: ps, s => (post_posted s p.1 _ _).trans (sendCloses_posted ag d ps _)

theorem sendExternal_posted (ag : Agent) (ws : List (Nat × Bool × List Byte)) (s : State) : Posted s (sendExternal ag ws s) := by
  unfold sendExternal
  split
  · exact Posted.refl s
  · exact post_posted _ _ _ _

/-- What the end of a region sends. -/
theorem endRegion_posted (s : State) : Posted s (sendExternal s.agent s.core.f.region.external
    (sendCommits s.agent s.core.f.region.homes (sendCloses s.agent false s.core.remoteTouched s))) :=
  ((sendCloses_posted _ _ _ _).trans (sendCommits_posted _ _ _)).trans (sendExternal_posted _ _ _)

/-- The end of a region with no store held and no remote bank touched sends nothing: its entries leave the own banks. -/
theorem endRegion_quiet {s : State} (h : s.core.f.region.held = []) (r : s.core.remoteTouched = []) :
    s.endRegion = s.mapC Core.closeOwn := by
  unfold State.endRegion Region.homes Region.external Region.probed
  dsimp only
  rw [h, r]
  rfl

/-- The end of a region: the counts, the places for answers, the network and the Scrim entries and slots of the own banks (R246). -/
theorem endRegion_core (s : State) : s.endRegion.core =
    { s.core with
      ack := s.endRegion.core.ack
      places := s.endRegion.core.places
      scrim := s.core.scrim.filter fun e => e.foreign s.agent
      slots := s.core.slots.filter fun x => x.src ≠ s.core.id } := by
  have h := endRegion_posted s
  unfold State.endRegion Core.closeOwn
  simp only [State.mapC_core]
  rw [h.core]
  rfl

theorem endRegion_rest (s : State) : s.endRegion.others = s.others ∧ s.endRegion.dev = s.dev ∧ s.endRegion.agenda = s.agenda := by
  have h := endRegion_posted s
  exact ⟨h.others, h.dev, h.agenda⟩

@[simp] theorem endRegion_f (s : State) : s.endRegion.core.f = s.core.f := by rw [endRegion_core]
@[simp] theorem endRegion_mem (s : State) : s.endRegion.core.mem = s.core.mem := by rw [endRegion_core]
@[simp] theorem endRegion_tab (s : State) : s.endRegion.core.tab = s.core.tab := by rw [endRegion_core]
@[simp] theorem endRegion_id (s : State) : s.endRegion.core.id = s.core.id := by rw [endRegion_core]
@[simp] theorem endRegion_eng (s : State) : s.endRegion.core.eng = s.core.eng := by rw [endRegion_core]
@[simp] theorem endRegion_q (s : State) : s.endRegion.core.q = s.core.q := by rw [endRegion_core]
@[simp] theorem endRegion_phys (s : State) : s.endRegion.core.phys = s.core.phys := by rw [endRegion_core]
@[simp] theorem endRegion_others (s : State) : s.endRegion.others = s.others := (endRegion_rest s).1
@[simp] theorem endRegion_dev (s : State) : s.endRegion.dev = s.dev := (endRegion_rest s).2.1
@[simp] theorem endRegion_agenda (s : State) : s.endRegion.agenda = s.agenda := (endRegion_rest s).2.2

/-- Probes change the counts, the places for answers, the network and the counter of tokens. -/
theorem sendProbes_frame (ag : Agent) : ∀ (l : List Held) (s : State),
    (sendProbes ag l s).core = { s.core with ack := (sendProbes ag l s).core.ack, places := (sendProbes ag l s).core.places } ∧
    (sendProbes ag l s).others = s.others ∧ (sendProbes ag l s).agenda = s.agenda ∧
    (sendProbes ag l s).dev = { s.dev with nextTok := s.dev.nextTok + l.length }
  | [], _ => ⟨rfl, rfl, rfl, rfl⟩
  | h :: hs, s => by
    have p := post_posted s h.tgt .probe (.probe s.token ag h.pc h.key h.data)
    obtain ⟨a, b, c, d⟩ := sendProbes_frame ag hs ((s.post h.tgt .probe (.probe s.token ag h.pc h.key h.data)).useToken)
    simp only [State.useToken, State.mapD_core, State.mapD_others, State.mapD_agenda, State.mapD_dev] at a b c d
    unfold sendProbes
    refine ⟨?_, b.trans p.others, c.trans p.agenda, d.trans ?_⟩
    · exact a.trans (by rw [p.core]; rfl)
    · rw [p.dev]; simp only [List.length_cons, Nat.add_assoc, Nat.add_comm 1]

/-- A region that holds no store for another core's buffer ends at once, and what follows it happens, unless a stop is on its way to it:
then it waits for the stop (R242). -/
theorem closeRegion_empty {s : State} (h : s.core.f.region.probed = []) (next : After) :
    s.closeRegion next = if s.stopDue then s.setWait (.probes [] next) else s.endRegion.after next := by
  unfold State.closeRegion State.granted
  simp only [h, if_true]

theorem probed_empty {r : Region} (h : r.held = []) : r.probed = [] := by
  unfold Region.probed
  rw [h]
  rfl

/-- A region that holds stores for other cores' buffers ends when its probes are granted (R108): until then the firing waits. -/
theorem closeRegion_held {s : State} (h : s.core.f.region.probed ≠ []) (next : After) :
    (s.closeRegion next).core.f.wait =
      .probes ((List.range s.core.f.region.probed.length).map (s.dev.nextTok + ·)) next ∧
    (s.closeRegion next).core.mem = s.core.mem ∧ (s.closeRegion next).core.tab = s.core.tab ∧
    (s.closeRegion next).core.f.regs = s.core.f.regs ∧ (s.closeRegion next).core.f.pc = s.core.f.pc ∧
    (s.closeRegion next).core.f.ctl = s.core.f.ctl ∧ (s.closeRegion next).others = s.others := by
  obtain ⟨a, b, -, -⟩ := sendProbes_frame s.agent s.core.f.region.probed s
  unfold State.closeRegion
  simp only [h, if_false, State.mapF, b, State.token]
  rw [a]
  exact ⟨trivial, rfl, rfl, rfl, rfl, rfl, trivial⟩

/-- A boundary: the registers, the flags, the pc and the buffers stay, whether the region ends at once or waits (R108). -/
theorem closeRegion_boundary (s : State) (live : Live) : (s.closeRegion (.boundary live)).regs = s.regs ∧
    (s.closeRegion (.boundary live)).core.f.ctl = s.core.f.ctl ∧ (s.closeRegion (.boundary live)).core.f.pc = s.core.f.pc ∧
    (s.closeRegion (.boundary live)).core.mem = s.core.mem ∧ (s.closeRegion (.boundary live)).core.tab = s.core.tab ∧
    (s.closeRegion (.boundary live)).others = s.others := by
  by_cases h : s.core.f.region.probed = []
  · rw [closeRegion_empty h]
    split
    · exact ⟨rfl, rfl, rfl, rfl, rfl, rfl⟩
    unfold State.after
    simp only [State.openRegion_regs, State.openRegion_ctl, State.openRegion_pc, State.openRegion_core_mem,
      State.openRegion_core_tab, State.openRegion_others, State.regs, endRegion_f, endRegion_mem, endRegion_tab,
      endRegion_others, and_self]
  · obtain ⟨-, a, b, c, d, e, g⟩ := closeRegion_held h (.boundary live)
    exact ⟨c, e, d, a, b, g⟩

/-! ### The end of an instruction -/

theorem retire_none (s : State) (n : Nat) : s.retire n none = s.advance n := rfl

/-- A revocable instruction has been performed: the pc has moved on, and the registers and flags are those it left. -/
theorem retire_frame (s : State) (n : Nat) (sp : Sp) : (s.retire n sp).regs = s.regs ∧
    (s.retire n sp).core.f.ctl = s.core.f.ctl ∧ (s.retire n sp).core.f.pc = s.core.f.pc + n ∧
    (s.retire n sp).core.mem = s.core.mem ∧ (s.retire n sp).core.tab = s.core.tab ∧
    (s.retire n sp).others = s.others := by
  unfold State.retire State.retireAt
  cases sp with
  | none => exact ⟨rfl, rfl, rfl, rfl, rfl, rfl⟩
  | some m => exact closeRegion_boundary (s.mapF fun f => { f with pc := s.core.f.pc + n, wait := .none }) (liveOf m)

/-- The same for an irrevocable instruction. -/
theorem retireIrrev_frame (s : State) (n : Nat) (sp : Sp) : (s.retireIrrev n sp).regs = s.regs ∧
    (s.retireIrrev n sp).core.f.ctl = s.core.f.ctl ∧ (s.retireIrrev n sp).core.f.pc = s.core.f.pc + n ∧
    (s.retireIrrev n sp).core.mem = s.core.mem ∧ (s.retireIrrev n sp).core.tab = s.core.tab ∧
    (s.retireIrrev n sp).others = s.others :=
  closeRegion_boundary (s.mapF fun f => { f with pc := f.pc + n, wait := .none, irrev := false }) (liveAfter sp)

/-! ### Irrevocable instructions -/

/-- An irrevocable instruction either acts in its own region or waits for the probes of the one before, or for a stop that is on its way
to it (R57, R242). -/
theorem irrevocably_cases (s : State) (k : State → Out) :
    (s.core.f.irrev = true ∨ s.core.f.region.probed = [] ∧ s.stopDue = false) ∧ irrevocably s k = k s.alone ∨
      s.core.f.irrev = false ∧ (s.core.f.region.probed ≠ [] ∨ s.stopDue = true) ∧
        irrevocably s k = .next (s.closeRegion .irrev) := by
  unfold irrevocably State.alone
  by_cases i : s.core.f.irrev = true
  · exact .inl ⟨.inl i, by simp [i]⟩
  · by_cases h : s.core.f.region.probed = []
    · by_cases d : s.stopDue = true
      · exact .inr ⟨by simpa using i, .inr d, by simp [i, h, d]⟩
      · exact .inl ⟨.inr ⟨h, by simpa using d⟩, by simp [i, h, d]⟩
    · exact .inr ⟨by simpa using i, .inl h, by simp [i, h]⟩

theorem irrevocably_alone {s : State} (h : s.lone) (k : State → Out) : irrevocably s k = k s.alone := by
  obtain ⟨-, e⟩ | ⟨i, g, -⟩ := irrevocably_cases s k
  · exact e
  · rcases h with h | ⟨h, d⟩
    · simp [h] at i
    · rcases g with g | g
      · exact absurd (probed_empty h) g
      · simp [d] at g

theorem AtOnce.lone {s : State} (h : AtOnce s) : s.lone :=
  h.unstopped.elim .inl fun d => h.alone.elim .inl fun e => .inr ⟨e.1, d⟩

theorem messagesFirst_now {s : State} (h : s.core.unsent = false) (k : State → Out) : messagesFirst s k = k s := by
  unfold messagesFirst
  rw [h]
  rfl

/-- What the instruction finds there: everything but the region, its checkpoint, the wait, the own entries, the counts and the
network. -/
theorem alone_frame (s : State) : s.alone.regs = s.regs ∧ s.alone.core.f.ctl = s.core.f.ctl ∧
    s.alone.core.f.pc = s.core.f.pc ∧ s.alone.core.mem = s.core.mem ∧ s.alone.core.tab = s.core.tab ∧
    s.alone.core.eng = s.core.eng ∧ s.alone.core.q = s.core.q ∧ s.alone.core.phys = s.core.phys ∧
    s.alone.core.id = s.core.id ∧ s.alone.others = s.others ∧ s.alone.dev = s.dev ∧ s.alone.agenda = s.agenda := by
  unfold State.alone
  split
  · exact ⟨rfl, rfl, rfl, rfl, rfl, rfl, rfl, rfl, rfl, rfl, rfl, rfl⟩
  · simp only [State.after, State.openRegion, State.mapF, State.regs, endRegion_f, endRegion_mem, endRegion_tab, endRegion_eng,
      endRegion_q, endRegion_phys, endRegion_id, endRegion_others, endRegion_dev, endRegion_agenda, and_self]

theorem draining_now {s : State} (h : s.core.ack.drained = true) (k : State → Out) : draining s k = k s := by
  unfold draining
  rw [if_pos h]

/-- A read changes nothing where no sector has an uncorrectable error. -/
@[simp] theorem readOf_clean {s : State} (h : s.core.badSecs = []) (key n : Nat) : s.readOf key n = s := by
  unfold State.readOf
  simp [h]

/-- A read can do no more than make a machine check due (R282). -/
theorem readOf_core (s : State) (key n : Nat) :
    (s.readOf key n).core = { s.core with checkDue := (s.readOf key n).core.checkDue } := by
  unfold State.readOf
  split <;> rfl

@[simp] theorem readOf_f (s : State) (key n : Nat) : (s.readOf key n).core.f = s.core.f := by rw [readOf_core]
@[simp] theorem readOf_mem (s : State) (key n : Nat) : (s.readOf key n).core.mem = s.core.mem := by rw [readOf_core]
@[simp] theorem readOf_tab (s : State) (key n : Nat) : (s.readOf key n).core.tab = s.core.tab := by rw [readOf_core]
@[simp] theorem readOf_id (s : State) (key n : Nat) : (s.readOf key n).core.id = s.core.id := by rw [readOf_core]
@[simp] theorem readOf_badSecs (s : State) (key n : Nat) : (s.readOf key n).core.badSecs = s.core.badSecs := by rw [readOf_core]
@[simp] theorem readOf_others (s : State) (key n : Nat) : (s.readOf key n).others = s.others := by
  unfold State.readOf; split <;> rfl
@[simp] theorem readOf_dev (s : State) (key n : Nat) : (s.readOf key n).dev = s.dev := by
  unfold State.readOf; split <;> rfl
@[simp] theorem readOf_net (s : State) (key n : Nat) : (s.readOf key n).net = s.net := by
  unfold State.readOf; split <;> rfl

/-- A step at whose end no machine check is due strikes nothing. -/
theorem strike_clean {s : State} (h : s.cores.all (fun c => !c.checkDue) = true) : s.strike = s := by
  have e : s.cores.filter Core.checkDue = [] := by
    rw [List.filter_eq_nil_iff]
    intro c m
    simpa using List.all_eq_true.mp h c m
  unfold State.strike
  rw [e]
  rfl

theorem guarded_true {s : State} {g : BitVec 3} (h : s.regs.getP g = true) (sp : Sp) (k : State → Out) :
    guarded s g sp k = k s := by
  unfold guarded
  rw [if_pos h]

theorem guarded_false {s : State} {g : BitVec 3} (h : s.regs.getP g = false) (sp : Sp) (k : State → Out) :
    guarded s g sp k = .next (s.advance (spLen sp)) := by
  unfold guarded
  rw [if_neg (by simp [h])]

/-! ### Stops -/

/-- Trace records change the physical core's queue alone. -/
theorem trace_core (s : State) (kind code : Nat) (v : Word) :
    (s.trace kind code v).core = { s.core with phys := (s.trace kind code v).core.phys } := by
  unfold State.trace State.mapC Core.trace
  dsimp only
  split
  · rfl
  · split <;> split <;> rfl

@[simp] theorem trace_f (s : State) (kind code : Nat) (v : Word) : (s.trace kind code v).core.f = s.core.f := by
  rw [trace_core]

@[simp] theorem trace_mem (s : State) (kind code : Nat) (v : Word) : (s.trace kind code v).core.mem = s.core.mem := by
  rw [trace_core]

@[simp] theorem trace_sysMem (s : State) (kind code : Nat) (v : Word) : (s.trace kind code v).core.sysMem = s.core.sysMem := by
  rw [trace_core]

@[simp] theorem trace_tab (s : State) (kind code : Nat) (v : Word) : (s.trace kind code v).core.tab = s.core.tab := by
  rw [trace_core]

@[simp] theorem trace_others (s : State) (kind code : Nat) (v : Word) : (s.trace kind code v).others = s.others := rfl
@[simp] theorem trace_dev (s : State) (kind code : Nat) (v : Word) : (s.trace kind code v).dev = s.dev := rfl
@[simp] theorem trace_net (s : State) (kind code : Nat) (v : Word) : (s.trace kind code v).net = s.net := rfl

/-- A stop whose entry is valid and whose entry offset is an instruction is taken (R147): the stop registers are written,
the pc is at the entry, and the registers, FSTAT and the region stay. -/
theorem stopWith_taken {s : State} {cause entry : Nat} (h : StopEntry s cause entry) (tpc tnpc : Nat) (addr : Word) :
    (s.stopWith cause tpc tnpc addr).core.f = { s.core.f with
      pc := entry
      wait := .none
      irrev := false
      ctl := { s.core.f.ctl with
        act := true
        cause := BitVec.ofNat 8 cause
        tpc := BitVec.ofNat 15 tpc
        tnpc := BitVec.ofNat 15 tnpc
        taddr := addr } } ∧
    (s.stopWith cause tpc tnpc addr).core.mem = s.core.mem ∧ (s.stopWith cause tpc tnpc addr).others = s.others ∧
    (s.stopWith cause tpc tnpc addr).dev = s.dev ∧ (s.stopWith cause tpc tnpc addr).net = s.net := by
  have hv := h.valid
  have hf := h.fetchable
  unfold State.stopEntry State.handlerTable at hv
  unfold Core.startBit Core.code at hf
  unfold State.stopWith
  simp only [trace_f, h.free, Bool.false_eq_true, if_false, State.stopEntry, State.handlerTable, trace_tab, trace_dev, hv,
    Core.startBit, Core.code, trace_mem, trace_sysMem, hf, Bool.not_true, State.mapF_f, State.mapF_mem, State.mapF_others, State.mapF_dev,
    State.mapF_net, trace_others, trace_net, and_self]

/-- A discarded region leaves the buffers and tables as they are. -/
theorem discardRegion_core (s : State) : s.discardRegion.core = { s.core with
    f := { s.core.f with region := { s.core.f.region with held := [], touched := [] } }
    scrim := s.core.scrim.filter fun e => e.foreign s.agent
    slots := s.core.slots.filter fun x => x.src ≠ s.core.id
    ack := s.discardRegion.core.ack
    places := s.discardRegion.core.places } := by
  have h := sendCloses_posted s.agent true s.core.remoteTouched s
  unfold State.discardRegion Core.closeOwn
  simp only [State.mapC_core]
  rw [h.core]
  rfl

/-- TRET clears ACT and moves the pc (R149); nothing else changes. -/
theorem returnFrom_frame (s : State) (b : Bool) : (s.returnFrom b).regs = s.regs ∧
    (s.returnFrom b).core.f.ctl = { s.core.f.ctl with act := false } ∧
    (s.returnFrom b).core.f.pc = (if b then s.core.f.ctl.tnpc.toNat else s.core.f.ctl.tpc.toNat) ∧
    (s.returnFrom b).core.mem = s.core.mem ∧ (s.returnFrom b).others = s.others ∧ (s.returnFrom b).dev = s.dev ∧
    (s.returnFrom b).net = s.net :=
  ⟨rfl, rfl, rfl, rfl, rfl, rfl, rfl⟩

/-- The end of a firing leaves its buffers, the engines and the rest of the device as they are (R101). -/
theorem endFiring_frame (s : State) : s.endFiring.core.busy = false ∧ s.endFiring.core.mem = s.core.mem ∧
    s.endFiring.core.eng = s.core.eng ∧ s.endFiring.core.f = { Firing.reset with serial := s.core.f.serial } ∧
    s.endFiring.core.tab.win = s.core.tab.win ∧ s.endFiring.others = s.others ∧ s.endFiring.dev = s.dev ∧
    s.endFiring.net = s.net := by
  refine ⟨rfl, rfl, rfl, rfl, ?_, rfl, rfl, rfl⟩
  unfold State.endFiring State.mapC Core.ended
  dsimp only
  split <;> rfl

end Sys2Proof.Machine
end

