-- ==== Sys2Proof/Laws/PerInstr.lean ====
section
/-!
SUPPORT. Sys2Proof/Laws/PerInstr.lean: for each instruction, that the decoder reads it back from its words, whatever
follows them. The lemmas of the words' fields come first, one for each division of a word that the encoder uses.
-/
namespace Sys2Proof.Laws

/-! ### Words and mask words -/

theorem parcels_join (w : BitVec 32) : w.extractLsb' 16 16 ++ w.extractLsb' 0 16 = w := by
  rw [BitVec.extractLsb'_append_extractLsb'_eq_extractLsb' (by decide)]
  simp

theorem parcel_low_bit (w : BitVec 32) : (w.extractLsb' 0 16).extractLsb' 0 1 = w.extractLsb' 0 1 := by simp

theorem low_bit (m : BitVec 32) : m.extractLsb' 0 1 = if m.getLsbD 0 then 1#1 else 0#1 := by
  ext i hi
  obtain rfl : i = 0 := by omega
  by_cases h : m.getLsbD 0 <;> simp_all

/-- Mask words are read back (R45, R48). -/
theorem masks_read {m : BitVec 32} {k : Option (BitVec 32)} (h : spOk (some (m, k)) = true) (rest : List (BitVec 16)) :
    decodeMasks (maskParcels (some (m, k)) ++ rest) = .ok (some (m, k), (maskParcels (some (m, k))).length) := by
  cases k with
  | none =>
    have h0 : m.extractLsb' 0 1 = 0#1 := by simp_all [low_bit, spOk]
    simp [maskParcels, parcelsOf, decodeMasks, parcels_join, h0]
  | some k =>
    have h0 : ¬ m.extractLsb' 0 1 = 0#1 := by simp_all [low_bit, spOk]
    have h1 : k.extractLsb' 0 1 = 0#1 := by simp_all [low_bit, spOk]
    simp [maskParcels, parcelsOf, decodeMasks, parcels_join, h0, h1]

/-- A 32-bit instruction is read back when its word is. -/
theorem word_read {w : BitVec 32} {sp : Sp} {i : Sp → Instr} (rest : List (BitVec 16)) (hs : spOk sp = true)
    (h0 : w.extractLsb' 0 1 = 1#1) (h1 : w.extractLsb' 1 1 = safeBit sp) (hw : ∀ q, decodeWord w q = .ok (i q)) :
    decode (words32 w sp ++ rest) = .ok (i sp, (words32 w sp).length) := by
  cases sp with
  | none => simp [words32, parcelsOf, maskParcels, decode, parcels_join, h0, h1, safeBit, hw]
  | some x =>
    obtain ⟨m, k⟩ := x
    simp only [words32, parcelsOf, List.cons_append, List.nil_append, decode, parcel_low_bit, parcels_join, h0, h1, safeBit,
      hw, masks_read hs rest]
    simp
    omega

/-- The decoder reads the instruction back from its words, with every operand at every value that the encoding admits. -/
def Encodes.Statement (i : Instr) : Prop :=
  ∀ ps rest, spOk i.sp = true → encode i = some ps → decode (ps ++ rest) = .ok (i, ps.length)

theorem encodes32 {w : BitVec 32} {i : Sp → Instr} (sp : Sp) (hsp : (i sp).sp = sp)
    (he : encode (i sp) = some (words32 w sp)) (h0 : w.extractLsb' 0 1 = 1#1) (h1 : w.extractLsb' 1 1 = safeBit sp)
    (hw : ∀ q, decodeWord w q = .ok (i q)) : Encodes.Statement (i sp) := by
  intro ps rest hs h
  rw [he] at h
  obtain rfl := Option.some.inj h
  exact word_read rest (by rwa [hsp] at hs) h0 h1 hw

theorem encodes16 {w : BitVec 16} {i : Instr} (he : encode i = some [w]) (h0 : w.extractLsb' 0 1 = 0#1)
    (hw : decodeCompact w = .ok i) : Encodes.Statement i := by
  intro ps rest _ h
  rw [he] at h
  obtain rfl := Option.some.inj h
  simp [decode, h0, hw]

/-- An event has no words. -/
theorem encodes_none {i : Instr} (he : encode i = none) : Encodes.Statement i := by
  intro ps rest _ h
  rw [he] at h
  exact absurd h (by simp)

/-! ### Majors and compact opcodes -/

theorem major_00 {w : BitVec 32} (sp : Sp) (h : w.extractLsb' 2 6 = 0#6) : decodeWord w sp = decodeMajor00 w sp := by
  unfold decodeWord
  rw [h]
  rfl

theorem major_01 {w : BitVec 32} (sp : Sp) (h : w.extractLsb' 2 6 = 1#6) : decodeWord w sp = decodeMajor01 w sp := by
  unfold decodeWord
  rw [h]
  rfl

theorem major_02 {w : BitVec 32} (sp : Sp) (h : w.extractLsb' 2 6 = 2#6) : decodeWord w sp = decodeMajor02 w sp := by
  unfold decodeWord
  rw [h]
  rfl

theorem major_03 {w : BitVec 32} (sp : Sp) (h : w.extractLsb' 2 6 = 3#6) : decodeWord w sp = decodeMajor03 w sp := by
  unfold decodeWord
  rw [h]
  rfl

theorem major_04 {w : BitVec 32} (sp : Sp) (h : w.extractLsb' 2 6 = 4#6) : decodeWord w sp = decodeMajor04 w sp := by
  unfold decodeWord
  rw [h]
  rfl

theorem major_05 {w : BitVec 32} (sp : Sp) (h : w.extractLsb' 2 6 = 5#6) : decodeWord w sp = decodeMajor05 w sp := by
  unfold decodeWord
  rw [h]
  rfl

theorem major_06 {w : BitVec 32} (sp : Sp) (h : w.extractLsb' 2 6 = 6#6) : decodeWord w sp = decodeMajor06 w sp := by
  unfold decodeWord
  rw [h]
  rfl

theorem major_07 {w : BitVec 32} (sp : Sp) (h : w.extractLsb' 2 6 = 7#6) : decodeWord w sp = decodeMajor07 w sp := by
  unfold decodeWord
  rw [h]
  rfl

theorem major_08 {w : BitVec 32} (sp : Sp) (h : w.extractLsb' 2 6 = 8#6) : decodeWord w sp = decodeMajor08 w sp := by
  unfold decodeWord
  rw [h]
  rfl

theorem major_09 {w : BitVec 32} (sp : Sp) (h : w.extractLsb' 2 6 = 9#6) : decodeWord w sp = decodeMajor09 w sp := by
  unfold decodeWord
  rw [h]
  rfl

theorem major_0A {w : BitVec 32} (sp : Sp) (h : w.extractLsb' 2 6 = 10#6) : decodeWord w sp = decodeMajor0A w sp := by
  unfold decodeWord
  rw [h]
  rfl

theorem major_0B {w : BitVec 32} (sp : Sp) (h : w.extractLsb' 2 6 = 11#6) : decodeWord w sp = decodeMajor0B w sp := by
  unfold decodeWord
  rw [h]
  rfl

theorem major_0C {w : BitVec 32} (sp : Sp) (h : w.extractLsb' 2 6 = 12#6) : decodeWord w sp = decodeMajor0C w sp := by
  unfold decodeWord
  rw [h]
  rfl

theorem major_0D {w : BitVec 32} (sp : Sp) (h : w.extractLsb' 2 6 = 13#6) : decodeWord w sp = decodeMajor0D w sp := by
  unfold decodeWord
  rw [h]
  rfl

theorem major_0E {w : BitVec 32} (sp : Sp) (h : w.extractLsb' 2 6 = 14#6) : decodeWord w sp = decodeMajor0E w sp := by
  unfold decodeWord
  rw [h]
  rfl

theorem major_10 {w : BitVec 32} (sp : Sp) (h : w.extractLsb' 2 6 = 16#6) : decodeWord w sp = decodeMajor10 w sp := by
  unfold decodeWord
  rw [h]
  rfl

theorem major_11 {w : BitVec 32} (sp : Sp) (h : w.extractLsb' 2 6 = 17#6) : decodeWord w sp = decodeMajor11 w sp := by
  unfold decodeWord
  rw [h]
  rfl

theorem major_12 {w : BitVec 32} (sp : Sp) (h : w.extractLsb' 2 6 = 18#6) : decodeWord w sp = decodeMajor12 w sp := by
  unfold decodeWord
  rw [h]
  rfl

theorem major_13 {w : BitVec 32} (sp : Sp) (h : w.extractLsb' 2 6 = 19#6) : decodeWord w sp = decodeMajor13 w sp := by
  unfold decodeWord
  rw [h]
  rfl

theorem major_14 {w : BitVec 32} (sp : Sp) (h : w.extractLsb' 2 6 = 20#6) : decodeWord w sp = decodeMajor14 w sp := by
  unfold decodeWord
  rw [h]
  rfl

theorem major_15 {w : BitVec 32} (sp : Sp) (h : w.extractLsb' 2 6 = 21#6) : decodeWord w sp = decodeMajor15 w sp := by
  unfold decodeWord
  rw [h]
  rfl

theorem major_16 {w : BitVec 32} (sp : Sp) (h : w.extractLsb' 2 6 = 22#6) : decodeWord w sp = decodeMajor16 w sp := by
  unfold decodeWord
  rw [h]
  rfl

theorem major_17 {w : BitVec 32} (sp : Sp) (h : w.extractLsb' 2 6 = 23#6) : decodeWord w sp = decodeMajor17 w sp := by
  unfold decodeWord
  rw [h]
  rfl

theorem major_18 {w : BitVec 32} (sp : Sp) (h : w.extractLsb' 2 6 = 24#6) : decodeWord w sp = decodeMajor18 w sp := by
  unfold decodeWord
  rw [h]
  rfl

theorem major_19 {w : BitVec 32} (sp : Sp) (h : w.extractLsb' 2 6 = 25#6) : decodeWord w sp = decodeMajor19 w sp := by
  unfold decodeWord
  rw [h]
  rfl

theorem major_1A {w : BitVec 32} (sp : Sp) (h : w.extractLsb' 2 6 = 26#6) : decodeWord w sp = decodeMajor1A w sp := by
  unfold decodeWord
  rw [h]
  rfl

theorem major_1B {w : BitVec 32} (sp : Sp) (h : w.extractLsb' 2 6 = 27#6) : decodeWord w sp = decodeMajor1B w sp := by
  unfold decodeWord
  rw [h]
  rfl

theorem major_1C {w : BitVec 32} (sp : Sp) (h : w.extractLsb' 2 6 = 28#6) : decodeWord w sp = decodeMajor1C w sp := by
  unfold decodeWord
  rw [h]
  rfl

theorem major_1D {w : BitVec 32} (sp : Sp) (h : w.extractLsb' 2 6 = 29#6) : decodeWord w sp = decodeMajor1D w sp := by
  unfold decodeWord
  rw [h]
  rfl

theorem major_1E {w : BitVec 32} (sp : Sp) (h : w.extractLsb' 2 6 = 30#6) : decodeWord w sp = decodeMajor1E w sp := by
  unfold decodeWord
  rw [h]
  rfl

theorem major_20 {w : BitVec 32} (sp : Sp) (h : w.extractLsb' 2 6 = 32#6) : decodeWord w sp = decodeMajor20 w sp := by
  unfold decodeWord
  rw [h]
  rfl

theorem major_21 {w : BitVec 32} (sp : Sp) (h : w.extractLsb' 2 6 = 33#6) : decodeWord w sp = decodeMajor21 w sp := by
  unfold decodeWord
  rw [h]
  rfl

theorem major_22 {w : BitVec 32} (sp : Sp) (h : w.extractLsb' 2 6 = 34#6) : decodeWord w sp = decodeMajor22 w sp := by
  unfold decodeWord
  rw [h]
  rfl

theorem major_23 {w : BitVec 32} (sp : Sp) (h : w.extractLsb' 2 6 = 35#6) : decodeWord w sp = decodeMajor23 w sp := by
  unfold decodeWord
  rw [h]
  rfl

theorem major_24 {w : BitVec 32} (sp : Sp) (h : w.extractLsb' 2 6 = 36#6) : decodeWord w sp = decodeMajor24 w sp := by
  unfold decodeWord
  rw [h]
  rfl

theorem major_25 {w : BitVec 32} (sp : Sp) (h : w.extractLsb' 2 6 = 37#6) : decodeWord w sp = decodeMajor25 w sp := by
  unfold decodeWord
  rw [h]
  rfl

theorem major_26 {w : BitVec 32} (sp : Sp) (h : w.extractLsb' 2 6 = 38#6) : decodeWord w sp = decodeMajor26 w sp := by
  unfold decodeWord
  rw [h]
  rfl

theorem major_27 {w : BitVec 32} (sp : Sp) (h : w.extractLsb' 2 6 = 39#6) : decodeWord w sp = decodeMajor27 w sp := by
  unfold decodeWord
  rw [h]
  rfl

theorem major_28 {w : BitVec 32} (sp : Sp) (h : w.extractLsb' 2 6 = 40#6) : decodeWord w sp = decodeMajor28 w sp := by
  unfold decodeWord
  rw [h]
  rfl

theorem major_29 {w : BitVec 32} (sp : Sp) (h : w.extractLsb' 2 6 = 41#6) : decodeWord w sp = decodeMajor29 w sp := by
  unfold decodeWord
  rw [h]
  rfl

theorem major_2A {w : BitVec 32} (sp : Sp) (h : w.extractLsb' 2 6 = 42#6) : decodeWord w sp = decodeMajor2A w sp := by
  unfold decodeWord
  rw [h]
  rfl

theorem major_2B {w : BitVec 32} (sp : Sp) (h : w.extractLsb' 2 6 = 43#6) : decodeWord w sp = decodeMajor2B w sp := by
  unfold decodeWord
  rw [h]
  rfl

theorem major_2C {w : BitVec 32} (sp : Sp) (h : w.extractLsb' 2 6 = 44#6) : decodeWord w sp = decodeMajor2C w sp := by
  unfold decodeWord
  rw [h]
  rfl

theorem major_2D {w : BitVec 32} (sp : Sp) (h : w.extractLsb' 2 6 = 45#6) : decodeWord w sp = decodeMajor2D w sp := by
  unfold decodeWord
  rw [h]
  rfl

theorem major_2E {w : BitVec 32} (sp : Sp) (h : w.extractLsb' 2 6 = 46#6) : decodeWord w sp = decodeMajor2E w sp := by
  unfold decodeWord
  rw [h]
  rfl

theorem major_30 {w : BitVec 32} (sp : Sp) (h : w.extractLsb' 2 6 = 48#6) : decodeWord w sp = decodeMajor30 w sp := by
  unfold decodeWord
  rw [h]
  rfl

theorem major_31 {w : BitVec 32} (sp : Sp) (h : w.extractLsb' 2 6 = 49#6) : decodeWord w sp = decodeMajor31 w sp := by
  unfold decodeWord
  rw [h]
  rfl

theorem major_32 {w : BitVec 32} (sp : Sp) (h : w.extractLsb' 2 6 = 50#6) : decodeWord w sp = decodeMajor32 w sp := by
  unfold decodeWord
  rw [h]
  rfl

theorem major_33 {w : BitVec 32} (sp : Sp) (h : w.extractLsb' 2 6 = 51#6) : decodeWord w sp = decodeMajor33 w sp := by
  unfold decodeWord
  rw [h]
  rfl

theorem major_34 {w : BitVec 32} (sp : Sp) (h : w.extractLsb' 2 6 = 52#6) : decodeWord w sp = decodeMajor34 w sp := by
  unfold decodeWord
  rw [h]
  rfl

theorem major_35 {w : BitVec 32} (sp : Sp) (h : w.extractLsb' 2 6 = 53#6) : decodeWord w sp = decodeMajor35 w sp := by
  unfold decodeWord
  rw [h]
  rfl

theorem major_36 {w : BitVec 32} (sp : Sp) (h : w.extractLsb' 2 6 = 54#6) : decodeWord w sp = decodeMajor36 w sp := by
  unfold decodeWord
  rw [h]
  rfl

theorem major_38 {w : BitVec 32} (sp : Sp) (h : w.extractLsb' 2 6 = 56#6) : decodeWord w sp = decodeMajor38 w sp := by
  unfold decodeWord
  rw [h]
  rfl

theorem major_39 {w : BitVec 32} (sp : Sp) (h : w.extractLsb' 2 6 = 57#6) : decodeWord w sp = decodeMajor39 w sp := by
  unfold decodeWord
  rw [h]
  rfl

theorem major_3C {w : BitVec 32} (sp : Sp) (h : w.extractLsb' 2 6 = 60#6) : decodeWord w sp = decodeMajor3C w sp := by
  unfold decodeWord
  rw [h]
  rfl

theorem major_3D {w : BitVec 32} (sp : Sp) (h : w.extractLsb' 2 6 = 61#6) : decodeWord w sp = decodeMajor3D w sp := by
  unfold decodeWord
  rw [h]
  rfl

theorem compact_1 {w : BitVec 16} (h : w.extractLsb' 1 5 = 1#5) : decodeCompact w = decodeCompact1 w := by
  unfold decodeCompact
  rw [h]
  rfl

theorem compact_2 {w : BitVec 16} (h : w.extractLsb' 1 5 = 2#5) : decodeCompact w = decodeCompact2 w := by
  unfold decodeCompact
  rw [h]
  rfl

theorem compact_3 {w : BitVec 16} (h : w.extractLsb' 1 5 = 3#5) : decodeCompact w = decodeCompact3 w := by
  unfold decodeCompact
  rw [h]
  rfl

theorem compact_4 {w : BitVec 16} (h : w.extractLsb' 1 5 = 4#5) : decodeCompact w = decodeCompact4 w := by
  unfold decodeCompact
  rw [h]
  rfl

theorem compact_5 {w : BitVec 16} (h : w.extractLsb' 1 5 = 5#5) : decodeCompact w = decodeCompact5 w := by
  unfold decodeCompact
  rw [h]
  rfl

theorem compact_6 {w : BitVec 16} (h : w.extractLsb' 1 5 = 6#5) : decodeCompact w = decodeCompact6 w := by
  unfold decodeCompact
  rw [h]
  rfl

theorem compact_7 {w : BitVec 16} (h : w.extractLsb' 1 5 = 7#5) : decodeCompact w = decodeCompact7 w := by
  unfold decodeCompact
  rw [h]
  rfl

theorem compact_8 {w : BitVec 16} (h : w.extractLsb' 1 5 = 8#5) : decodeCompact w = decodeCompact8 w := by
  unfold decodeCompact
  rw [h]
  rfl

theorem compact_9 {w : BitVec 16} (h : w.extractLsb' 1 5 = 9#5) : decodeCompact w = decodeCompact9 w := by
  unfold decodeCompact
  rw [h]
  rfl

theorem compact_10 {w : BitVec 16} (h : w.extractLsb' 1 5 = 10#5) : decodeCompact w = decodeCompact10 w := by
  unfold decodeCompact
  rw [h]
  rfl

theorem compact_11 {w : BitVec 16} (h : w.extractLsb' 1 5 = 11#5) : decodeCompact w = decodeCompact11 w := by
  unfold decodeCompact
  rw [h]
  rfl

theorem compact_12 {w : BitVec 16} (h : w.extractLsb' 1 5 = 12#5) : decodeCompact w = decodeCompact12 w := by
  unfold decodeCompact
  rw [h]
  rfl

theorem compact_13 {w : BitVec 16} (h : w.extractLsb' 1 5 = 13#5) : decodeCompact w = decodeCompact13 w := by
  unfold decodeCompact
  rw [h]
  rfl

theorem compact_14 {w : BitVec 16} (h : w.extractLsb' 1 5 = 14#5) : decodeCompact w = decodeCompact14 w := by
  unfold decodeCompact
  rw [h]
  rfl

theorem compact_15 {w : BitVec 16} (h : w.extractLsb' 1 5 = 15#5) : decodeCompact w = decodeCompact15 w := by
  unfold decodeCompact
  rw [h]
  rfl

theorem compact_16 {w : BitVec 16} (h : w.extractLsb' 1 5 = 16#5) : decodeCompact w = decodeCompact16 w := by
  unfold decodeCompact
  rw [h]
  rfl

theorem compact_17 {w : BitVec 16} (h : w.extractLsb' 1 5 = 17#5) : decodeCompact w = decodeCompact17 w := by
  unfold decodeCompact
  rw [h]
  rfl

theorem compact_18 {w : BitVec 16} (h : w.extractLsb' 1 5 = 18#5) : decodeCompact w = decodeCompact18 w := by
  unfold decodeCompact
  rw [h]
  rfl

/-! ### The fields of a word, for each division of one -/

theorem fields_3_6_5_5_5_6_1_1 (x0 : BitVec 3) (x1 : BitVec 6) (x2 : BitVec 5) (x3 : BitVec 5) (x4 : BitVec 5) (x5 : BitVec 6) (x6 : BitVec 1) (x7 : BitVec 1) :
    ∃ w : BitVec 32, x0 ++ x1 ++ x2 ++ x3 ++ x4 ++ x5 ++ x6 ++ x7 = w ∧ w.extractLsb' 29 3 = x0 ∧ w.extractLsb' 23 6 = x1 ∧ w.extractLsb' 18 5 = x2 ∧ w.extractLsb' 13 5 = x3 ∧ 
      w.extractLsb' 8 5 = x4 ∧ w.extractLsb' 2 6 = x5 ∧ w.extractLsb' 1 1 = x6 ∧ w.extractLsb' 0 1 = x7 := by
  refine ⟨_, rfl, ?_, ?_, ?_, ?_, ?_, ?_, ?_, ?_⟩ <;>
    (simp (disch := decide) only [BitVec.extractLsb'_append_eq_of_le, BitVec.extractLsb'_append_eq_of_add_le]; try simp)

theorem fields_14_5_5_6_1_1 (x0 : BitVec 14) (x1 : BitVec 5) (x2 : BitVec 5) (x3 : BitVec 6) (x4 : BitVec 1) (x5 : BitVec 1) :
    ∃ w : BitVec 32, x0 ++ x1 ++ x2 ++ x3 ++ x4 ++ x5 = w ∧ w.extractLsb' 18 14 = x0 ∧ w.extractLsb' 13 5 = x1 ∧ w.extractLsb' 8 5 = x2 ∧ w.extractLsb' 2 6 = x3 ∧ 
      w.extractLsb' 1 1 = x4 ∧ w.extractLsb' 0 1 = x5 := by
  refine ⟨_, rfl, ?_, ?_, ?_, ?_, ?_, ?_⟩ <;>
    (simp (disch := decide) only [BitVec.extractLsb'_append_eq_of_le, BitVec.extractLsb'_append_eq_of_add_le]; try simp)

theorem fields_8_6_5_5_6_1_1 (x0 : BitVec 8) (x1 : BitVec 6) (x2 : BitVec 5) (x3 : BitVec 5) (x4 : BitVec 6) (x5 : BitVec 1) (x6 : BitVec 1) :
    ∃ w : BitVec 32, x0 ++ x1 ++ x2 ++ x3 ++ x4 ++ x5 ++ x6 = w ∧ w.extractLsb' 24 8 = x0 ∧ w.extractLsb' 18 6 = x1 ∧ w.extractLsb' 13 5 = x2 ∧ w.extractLsb' 8 5 = x3 ∧ 
      w.extractLsb' 2 6 = x4 ∧ w.extractLsb' 1 1 = x5 ∧ w.extractLsb' 0 1 = x6 := by
  refine ⟨_, rfl, ?_, ?_, ?_, ?_, ?_, ?_, ?_⟩ <;>
    (simp (disch := decide) only [BitVec.extractLsb'_append_eq_of_le, BitVec.extractLsb'_append_eq_of_add_le]; try simp)

theorem fields_3_2_4_5_5_5_6_1_1 (x0 : BitVec 3) (x1 : BitVec 2) (x2 : BitVec 4) (x3 : BitVec 5) (x4 : BitVec 5) (x5 : BitVec 5) (x6 : BitVec 6) (x7 : BitVec 1) (x8 : BitVec 1) :
    ∃ w : BitVec 32, x0 ++ x1 ++ x2 ++ x3 ++ x4 ++ x5 ++ x6 ++ x7 ++ x8 = w ∧ w.extractLsb' 29 3 = x0 ∧ w.extractLsb' 27 2 = x1 ∧ w.extractLsb' 23 4 = x2 ∧ w.extractLsb' 18 5 = x3 ∧ 
      w.extractLsb' 13 5 = x4 ∧ w.extractLsb' 8 5 = x5 ∧ w.extractLsb' 2 6 = x6 ∧ w.extractLsb' 1 1 = x7 ∧ 
      w.extractLsb' 0 1 = x8 := by
  refine ⟨_, rfl, ?_, ?_, ?_, ?_, ?_, ?_, ?_, ?_, ?_⟩ <;>
    (simp (disch := decide) only [BitVec.extractLsb'_append_eq_of_le, BitVec.extractLsb'_append_eq_of_add_le]; try simp)

theorem fields_10_4_5_5_6_1_1 (x0 : BitVec 10) (x1 : BitVec 4) (x2 : BitVec 5) (x3 : BitVec 5) (x4 : BitVec 6) (x5 : BitVec 1) (x6 : BitVec 1) :
    ∃ w : BitVec 32, x0 ++ x1 ++ x2 ++ x3 ++ x4 ++ x5 ++ x6 = w ∧ w.extractLsb' 22 10 = x0 ∧ w.extractLsb' 18 4 = x1 ∧ w.extractLsb' 13 5 = x2 ∧ w.extractLsb' 8 5 = x3 ∧ 
      w.extractLsb' 2 6 = x4 ∧ w.extractLsb' 1 1 = x5 ∧ w.extractLsb' 0 1 = x6 := by
  refine ⟨_, rfl, ?_, ?_, ?_, ?_, ?_, ?_, ?_⟩ <;>
    (simp (disch := decide) only [BitVec.extractLsb'_append_eq_of_le, BitVec.extractLsb'_append_eq_of_add_le]; try simp)

theorem fields_19_5_6_1_1 (x0 : BitVec 19) (x1 : BitVec 5) (x2 : BitVec 6) (x3 : BitVec 1) (x4 : BitVec 1) :
    ∃ w : BitVec 32, x0 ++ x1 ++ x2 ++ x3 ++ x4 = w ∧ w.extractLsb' 13 19 = x0 ∧ w.extractLsb' 8 5 = x1 ∧ w.extractLsb' 2 6 = x2 ∧ w.extractLsb' 1 1 = x3 ∧ 
      w.extractLsb' 0 1 = x4 := by
  refine ⟨_, rfl, ?_, ?_, ?_, ?_, ?_⟩ <;>
    (simp (disch := decide) only [BitVec.extractLsb'_append_eq_of_le, BitVec.extractLsb'_append_eq_of_add_le]; try simp)

theorem fields_2_6_6_5_5_6_1_1 (x0 : BitVec 2) (x1 : BitVec 6) (x2 : BitVec 6) (x3 : BitVec 5) (x4 : BitVec 5) (x5 : BitVec 6) (x6 : BitVec 1) (x7 : BitVec 1) :
    ∃ w : BitVec 32, x0 ++ x1 ++ x2 ++ x3 ++ x4 ++ x5 ++ x6 ++ x7 = w ∧ w.extractLsb' 30 2 = x0 ∧ w.extractLsb' 24 6 = x1 ∧ w.extractLsb' 18 6 = x2 ∧ w.extractLsb' 13 5 = x3 ∧ 
      w.extractLsb' 8 5 = x4 ∧ w.extractLsb' 2 6 = x5 ∧ w.extractLsb' 1 1 = x6 ∧ w.extractLsb' 0 1 = x7 := by
  refine ⟨_, rfl, ?_, ?_, ?_, ?_, ?_, ?_, ?_, ?_⟩ <;>
    (simp (disch := decide) only [BitVec.extractLsb'_append_eq_of_le, BitVec.extractLsb'_append_eq_of_add_le]; try simp)

theorem fields_3_6_3_2_5_5_6_1_1 (x0 : BitVec 3) (x1 : BitVec 6) (x2 : BitVec 3) (x3 : BitVec 2) (x4 : BitVec 5) (x5 : BitVec 5) (x6 : BitVec 6) (x7 : BitVec 1) (x8 : BitVec 1) :
    ∃ w : BitVec 32, x0 ++ x1 ++ x2 ++ x3 ++ x4 ++ x5 ++ x6 ++ x7 ++ x8 = w ∧ w.extractLsb' 29 3 = x0 ∧ w.extractLsb' 23 6 = x1 ∧ w.extractLsb' 20 3 = x2 ∧ w.extractLsb' 18 2 = x3 ∧ 
      w.extractLsb' 13 5 = x4 ∧ w.extractLsb' 8 5 = x5 ∧ w.extractLsb' 2 6 = x6 ∧ w.extractLsb' 1 1 = x7 ∧ 
      w.extractLsb' 0 1 = x8 := by
  refine ⟨_, rfl, ?_, ?_, ?_, ?_, ?_, ?_, ?_, ?_, ?_⟩ <;>
    (simp (disch := decide) only [BitVec.extractLsb'_append_eq_of_le, BitVec.extractLsb'_append_eq_of_add_le]; try simp)

theorem fields_11_3_5_5_6_1_1 (x0 : BitVec 11) (x1 : BitVec 3) (x2 : BitVec 5) (x3 : BitVec 5) (x4 : BitVec 6) (x5 : BitVec 1) (x6 : BitVec 1) :
    ∃ w : BitVec 32, x0 ++ x1 ++ x2 ++ x3 ++ x4 ++ x5 ++ x6 = w ∧ w.extractLsb' 21 11 = x0 ∧ w.extractLsb' 18 3 = x1 ∧ w.extractLsb' 13 5 = x2 ∧ w.extractLsb' 8 5 = x3 ∧ 
      w.extractLsb' 2 6 = x4 ∧ w.extractLsb' 1 1 = x5 ∧ w.extractLsb' 0 1 = x6 := by
  refine ⟨_, rfl, ?_, ?_, ?_, ?_, ?_, ?_, ?_⟩ <;>
    (simp (disch := decide) only [BitVec.extractLsb'_append_eq_of_le, BitVec.extractLsb'_append_eq_of_add_le]; try simp)

theorem fields_3_2_1_3_5_5_5_6_1_1 (x0 : BitVec 3) (x1 : BitVec 2) (x2 : BitVec 1) (x3 : BitVec 3) (x4 : BitVec 5) (x5 : BitVec 5) (x6 : BitVec 5) (x7 : BitVec 6) (x8 : BitVec 1) (x9 : BitVec 1) :
    ∃ w : BitVec 32, x0 ++ x1 ++ x2 ++ x3 ++ x4 ++ x5 ++ x6 ++ x7 ++ x8 ++ x9 = w ∧ w.extractLsb' 29 3 = x0 ∧ w.extractLsb' 27 2 = x1 ∧ w.extractLsb' 26 1 = x2 ∧ w.extractLsb' 23 3 = x3 ∧ 
      w.extractLsb' 18 5 = x4 ∧ w.extractLsb' 13 5 = x5 ∧ w.extractLsb' 8 5 = x6 ∧ w.extractLsb' 2 6 = x7 ∧ 
      w.extractLsb' 1 1 = x8 ∧ w.extractLsb' 0 1 = x9 := by
  refine ⟨_, rfl, ?_, ?_, ?_, ?_, ?_, ?_, ?_, ?_, ?_, ?_⟩ <;>
    (simp (disch := decide) only [BitVec.extractLsb'_append_eq_of_le, BitVec.extractLsb'_append_eq_of_add_le]; try simp)

theorem fields_3_1_1_4_5_5_5_6_1_1 (x0 : BitVec 3) (x1 : BitVec 1) (x2 : BitVec 1) (x3 : BitVec 4) (x4 : BitVec 5) (x5 : BitVec 5) (x6 : BitVec 5) (x7 : BitVec 6) (x8 : BitVec 1) (x9 : BitVec 1) :
    ∃ w : BitVec 32, x0 ++ x1 ++ x2 ++ x3 ++ x4 ++ x5 ++ x6 ++ x7 ++ x8 ++ x9 = w ∧ w.extractLsb' 29 3 = x0 ∧ w.extractLsb' 28 1 = x1 ∧ w.extractLsb' 27 1 = x2 ∧ w.extractLsb' 23 4 = x3 ∧ 
      w.extractLsb' 18 5 = x4 ∧ w.extractLsb' 13 5 = x5 ∧ w.extractLsb' 8 5 = x6 ∧ w.extractLsb' 2 6 = x7 ∧ 
      w.extractLsb' 1 1 = x8 ∧ w.extractLsb' 0 1 = x9 := by
  refine ⟨_, rfl, ?_, ?_, ?_, ?_, ?_, ?_, ?_, ?_, ?_, ?_⟩ <;>
    (simp (disch := decide) only [BitVec.extractLsb'_append_eq_of_le, BitVec.extractLsb'_append_eq_of_add_le]; try simp)

theorem fields_3_5_1_5_5_5_6_1_1 (x0 : BitVec 3) (x1 : BitVec 5) (x2 : BitVec 1) (x3 : BitVec 5) (x4 : BitVec 5) (x5 : BitVec 5) (x6 : BitVec 6) (x7 : BitVec 1) (x8 : BitVec 1) :
    ∃ w : BitVec 32, x0 ++ x1 ++ x2 ++ x3 ++ x4 ++ x5 ++ x6 ++ x7 ++ x8 = w ∧ w.extractLsb' 29 3 = x0 ∧ w.extractLsb' 24 5 = x1 ∧ w.extractLsb' 23 1 = x2 ∧ w.extractLsb' 18 5 = x3 ∧ 
      w.extractLsb' 13 5 = x4 ∧ w.extractLsb' 8 5 = x5 ∧ w.extractLsb' 2 6 = x6 ∧ w.extractLsb' 1 1 = x7 ∧ 
      w.extractLsb' 0 1 = x8 := by
  refine ⟨_, rfl, ?_, ?_, ?_, ?_, ?_, ?_, ?_, ?_, ?_⟩ <;>
    (simp (disch := decide) only [BitVec.extractLsb'_append_eq_of_le, BitVec.extractLsb'_append_eq_of_add_le]; try simp)

theorem fields_3_4_2_5_5_5_6_1_1 (x0 : BitVec 3) (x1 : BitVec 4) (x2 : BitVec 2) (x3 : BitVec 5) (x4 : BitVec 5) (x5 : BitVec 5) (x6 : BitVec 6) (x7 : BitVec 1) (x8 : BitVec 1) :
    ∃ w : BitVec 32, x0 ++ x1 ++ x2 ++ x3 ++ x4 ++ x5 ++ x6 ++ x7 ++ x8 = w ∧ w.extractLsb' 29 3 = x0 ∧ w.extractLsb' 25 4 = x1 ∧ w.extractLsb' 23 2 = x2 ∧ w.extractLsb' 18 5 = x3 ∧ 
      w.extractLsb' 13 5 = x4 ∧ w.extractLsb' 8 5 = x5 ∧ w.extractLsb' 2 6 = x6 ∧ w.extractLsb' 1 1 = x7 ∧ 
      w.extractLsb' 0 1 = x8 := by
  refine ⟨_, rfl, ?_, ?_, ?_, ?_, ?_, ?_, ?_, ?_, ?_⟩ <;>
    (simp (disch := decide) only [BitVec.extractLsb'_append_eq_of_le, BitVec.extractLsb'_append_eq_of_add_le]; try simp)

theorem fields_2_8_4_5_5_6_1_1 (x0 : BitVec 2) (x1 : BitVec 8) (x2 : BitVec 4) (x3 : BitVec 5) (x4 : BitVec 5) (x5 : BitVec 6) (x6 : BitVec 1) (x7 : BitVec 1) :
    ∃ w : BitVec 32, x0 ++ x1 ++ x2 ++ x3 ++ x4 ++ x5 ++ x6 ++ x7 = w ∧ w.extractLsb' 30 2 = x0 ∧ w.extractLsb' 22 8 = x1 ∧ w.extractLsb' 18 4 = x2 ∧ w.extractLsb' 13 5 = x3 ∧ 
      w.extractLsb' 8 5 = x4 ∧ w.extractLsb' 2 6 = x5 ∧ w.extractLsb' 1 1 = x6 ∧ w.extractLsb' 0 1 = x7 := by
  refine ⟨_, rfl, ?_, ?_, ?_, ?_, ?_, ?_, ?_, ?_⟩ <;>
    (simp (disch := decide) only [BitVec.extractLsb'_append_eq_of_le, BitVec.extractLsb'_append_eq_of_add_le]; try simp)

theorem fields_3_11_5_5_6_1_1 (x0 : BitVec 3) (x1 : BitVec 11) (x2 : BitVec 5) (x3 : BitVec 5) (x4 : BitVec 6) (x5 : BitVec 1) (x6 : BitVec 1) :
    ∃ w : BitVec 32, x0 ++ x1 ++ x2 ++ x3 ++ x4 ++ x5 ++ x6 = w ∧ w.extractLsb' 29 3 = x0 ∧ w.extractLsb' 18 11 = x1 ∧ w.extractLsb' 13 5 = x2 ∧ w.extractLsb' 8 5 = x3 ∧ 
      w.extractLsb' 2 6 = x4 ∧ w.extractLsb' 1 1 = x5 ∧ w.extractLsb' 0 1 = x6 := by
  refine ⟨_, rfl, ?_, ?_, ?_, ?_, ?_, ?_, ?_⟩ <;>
    (simp (disch := decide) only [BitVec.extractLsb'_append_eq_of_le, BitVec.extractLsb'_append_eq_of_add_le]; try simp)

theorem fields_3_2_9_5_5_6_1_1 (x0 : BitVec 3) (x1 : BitVec 2) (x2 : BitVec 9) (x3 : BitVec 5) (x4 : BitVec 5) (x5 : BitVec 6) (x6 : BitVec 1) (x7 : BitVec 1) :
    ∃ w : BitVec 32, x0 ++ x1 ++ x2 ++ x3 ++ x4 ++ x5 ++ x6 ++ x7 = w ∧ w.extractLsb' 29 3 = x0 ∧ w.extractLsb' 27 2 = x1 ∧ w.extractLsb' 18 9 = x2 ∧ w.extractLsb' 13 5 = x3 ∧ 
      w.extractLsb' 8 5 = x4 ∧ w.extractLsb' 2 6 = x5 ∧ w.extractLsb' 1 1 = x6 ∧ w.extractLsb' 0 1 = x7 := by
  refine ⟨_, rfl, ?_, ?_, ?_, ?_, ?_, ?_, ?_, ?_⟩ <;>
    (simp (disch := decide) only [BitVec.extractLsb'_append_eq_of_le, BitVec.extractLsb'_append_eq_of_add_le]; try simp)

theorem fields_3_7_4_5_5_6_1_1 (x0 : BitVec 3) (x1 : BitVec 7) (x2 : BitVec 4) (x3 : BitVec 5) (x4 : BitVec 5) (x5 : BitVec 6) (x6 : BitVec 1) (x7 : BitVec 1) :
    ∃ w : BitVec 32, x0 ++ x1 ++ x2 ++ x3 ++ x4 ++ x5 ++ x6 ++ x7 = w ∧ w.extractLsb' 29 3 = x0 ∧ w.extractLsb' 22 7 = x1 ∧ w.extractLsb' 18 4 = x2 ∧ w.extractLsb' 13 5 = x3 ∧ 
      w.extractLsb' 8 5 = x4 ∧ w.extractLsb' 2 6 = x5 ∧ w.extractLsb' 1 1 = x6 ∧ w.extractLsb' 0 1 = x7 := by
  refine ⟨_, rfl, ?_, ?_, ?_, ?_, ?_, ?_, ?_, ?_⟩ <;>
    (simp (disch := decide) only [BitVec.extractLsb'_append_eq_of_le, BitVec.extractLsb'_append_eq_of_add_le]; try simp)

theorem fields_16_3_5_6_1_1 (x0 : BitVec 16) (x1 : BitVec 3) (x2 : BitVec 5) (x3 : BitVec 6) (x4 : BitVec 1) (x5 : BitVec 1) :
    ∃ w : BitVec 32, x0 ++ x1 ++ x2 ++ x3 ++ x4 ++ x5 = w ∧ w.extractLsb' 16 16 = x0 ∧ w.extractLsb' 13 3 = x1 ∧ w.extractLsb' 8 5 = x2 ∧ w.extractLsb' 2 6 = x3 ∧ 
      w.extractLsb' 1 1 = x4 ∧ w.extractLsb' 0 1 = x5 := by
  refine ⟨_, rfl, ?_, ?_, ?_, ?_, ?_, ?_⟩ <;>
    (simp (disch := decide) only [BitVec.extractLsb'_append_eq_of_le, BitVec.extractLsb'_append_eq_of_add_le]; try simp)

theorem fields_2_12_5_5_6_1_1 (x0 : BitVec 2) (x1 : BitVec 12) (x2 : BitVec 5) (x3 : BitVec 5) (x4 : BitVec 6) (x5 : BitVec 1) (x6 : BitVec 1) :
    ∃ w : BitVec 32, x0 ++ x1 ++ x2 ++ x3 ++ x4 ++ x5 ++ x6 = w ∧ w.extractLsb' 30 2 = x0 ∧ w.extractLsb' 18 12 = x1 ∧ w.extractLsb' 13 5 = x2 ∧ w.extractLsb' 8 5 = x3 ∧ 
      w.extractLsb' 2 6 = x4 ∧ w.extractLsb' 1 1 = x5 ∧ w.extractLsb' 0 1 = x6 := by
  refine ⟨_, rfl, ?_, ?_, ?_, ?_, ?_, ?_, ?_⟩ <;>
    (simp (disch := decide) only [BitVec.extractLsb'_append_eq_of_le, BitVec.extractLsb'_append_eq_of_add_le]; try simp)

theorem fields_4_5_5_5_5_6_1_1 (x0 : BitVec 4) (x1 : BitVec 5) (x2 : BitVec 5) (x3 : BitVec 5) (x4 : BitVec 5) (x5 : BitVec 6) (x6 : BitVec 1) (x7 : BitVec 1) :
    ∃ w : BitVec 32, x0 ++ x1 ++ x2 ++ x3 ++ x4 ++ x5 ++ x6 ++ x7 = w ∧ w.extractLsb' 28 4 = x0 ∧ w.extractLsb' 23 5 = x1 ∧ w.extractLsb' 18 5 = x2 ∧ w.extractLsb' 13 5 = x3 ∧ 
      w.extractLsb' 8 5 = x4 ∧ w.extractLsb' 2 6 = x5 ∧ w.extractLsb' 1 1 = x6 ∧ w.extractLsb' 0 1 = x7 := by
  refine ⟨_, rfl, ?_, ?_, ?_, ?_, ?_, ?_, ?_, ?_⟩ <;>
    (simp (disch := decide) only [BitVec.extractLsb'_append_eq_of_le, BitVec.extractLsb'_append_eq_of_add_le]; try simp)

theorem fields_2_4_4_5_1 (x0 : BitVec 2) (x1 : BitVec 4) (x2 : BitVec 4) (x3 : BitVec 5) (x4 : BitVec 1) :
    ∃ w : BitVec 16, x0 ++ x1 ++ x2 ++ x3 ++ x4 = w ∧ w.extractLsb' 14 2 = x0 ∧ w.extractLsb' 10 4 = x1 ∧ w.extractLsb' 6 4 = x2 ∧ w.extractLsb' 1 5 = x3 ∧ 
      w.extractLsb' 0 1 = x4 := by
  refine ⟨_, rfl, ?_, ?_, ?_, ?_, ?_⟩ <;>
    (simp (disch := decide) only [BitVec.extractLsb'_append_eq_of_le, BitVec.extractLsb'_append_eq_of_add_le]; try simp)

theorem fields_6_4_5_1 (x0 : BitVec 6) (x1 : BitVec 4) (x2 : BitVec 5) (x3 : BitVec 1) :
    ∃ w : BitVec 16, x0 ++ x1 ++ x2 ++ x3 = w ∧ w.extractLsb' 10 6 = x0 ∧ w.extractLsb' 6 4 = x1 ∧ w.extractLsb' 1 5 = x2 ∧ w.extractLsb' 0 1 = x3 := by
  refine ⟨_, rfl, ?_, ?_, ?_, ?_⟩ <;>
    (simp (disch := decide) only [BitVec.extractLsb'_append_eq_of_le, BitVec.extractLsb'_append_eq_of_add_le]; try simp)

theorem fields_10_5_1 (x0 : BitVec 10) (x1 : BitVec 5) (x2 : BitVec 1) :
    ∃ w : BitVec 16, x0 ++ x1 ++ x2 = w ∧ w.extractLsb' 6 10 = x0 ∧ w.extractLsb' 1 5 = x1 ∧ w.extractLsb' 0 1 = x2 := by
  refine ⟨_, rfl, ?_, ?_, ?_⟩ <;>
    (simp (disch := decide) only [BitVec.extractLsb'_append_eq_of_le, BitVec.extractLsb'_append_eq_of_add_le]; try simp)

/-! ### The instructions -/

theorem Encodes.add (g : BitVec 3) (b : BitVec 5) (a : BitVec 5) (d : BitVec 5) (sp : Sp) : Encodes.Statement (.add g b a d sp) := by
  obtain ⟨word, hw, h29, h23, h18, h13, h8, h2, h1, h0⟩ := fields_3_6_5_5_5_6_1_1 g 0#6 b a d 0#6 (safeBit sp) 1#1
  refine encodes32 (i := fun q => .add g b a d q) sp rfl (hw ▸ rfl) h0 h1 fun q => (major_00 q h2).trans ?_
  simp [decodeMajor00, h29, h23, h18, h13, h8]

theorem Encodes.sub (g : BitVec 3) (b : BitVec 5) (a : BitVec 5) (d : BitVec 5) (sp : Sp) : Encodes.Statement (.sub g b a d sp) := by
  obtain ⟨word, hw, h29, h23, h18, h13, h8, h2, h1, h0⟩ := fields_3_6_5_5_5_6_1_1 g 1#6 b a d 0#6 (safeBit sp) 1#1
  refine encodes32 (i := fun q => .sub g b a d q) sp rfl (hw ▸ rfl) h0 h1 fun q => (major_00 q h2).trans ?_
  simp [decodeMajor00, h29, h23, h18, h13, h8]

theorem Encodes.mul (g : BitVec 3) (b : BitVec 5) (a : BitVec 5) (d : BitVec 5) (sp : Sp) : Encodes.Statement (.mul g b a d sp) := by
  obtain ⟨word, hw, h29, h23, h18, h13, h8, h2, h1, h0⟩ := fields_3_6_5_5_5_6_1_1 g 2#6 b a d 0#6 (safeBit sp) 1#1
  refine encodes32 (i := fun q => .mul g b a d q) sp rfl (hw ▸ rfl) h0 h1 fun q => (major_00 q h2).trans ?_
  simp [decodeMajor00, h29, h23, h18, h13, h8]

theorem Encodes.mulh (g : BitVec 3) (b : BitVec 5) (a : BitVec 5) (d : BitVec 5) (sp : Sp) : Encodes.Statement (.mulh g b a d sp) := by
  obtain ⟨word, hw, h29, h23, h18, h13, h8, h2, h1, h0⟩ := fields_3_6_5_5_5_6_1_1 g 3#6 b a d 0#6 (safeBit sp) 1#1
  refine encodes32 (i := fun q => .mulh g b a d q) sp rfl (hw ▸ rfl) h0 h1 fun q => (major_00 q h2).trans ?_
  simp [decodeMajor00, h29, h23, h18, h13, h8]

theorem Encodes.mulhn (g : BitVec 3) (b : BitVec 5) (a : BitVec 5) (d : BitVec 5) (sp : Sp) : Encodes.Statement (.mulhn g b a d sp) := by
  obtain ⟨word, hw, h29, h23, h18, h13, h8, h2, h1, h0⟩ := fields_3_6_5_5_5_6_1_1 g 4#6 b a d 0#6 (safeBit sp) 1#1
  refine encodes32 (i := fun q => .mulhn g b a d q) sp rfl (hw ▸ rfl) h0 h1 fun q => (major_00 q h2).trans ?_
  simp [decodeMajor00, h29, h23, h18, h13, h8]

theorem Encodes.div (g : BitVec 3) (b : BitVec 5) (a : BitVec 5) (d : BitVec 5) (sp : Sp) : Encodes.Statement (.div g b a d sp) := by
  obtain ⟨word, hw, h29, h23, h18, h13, h8, h2, h1, h0⟩ := fields_3_6_5_5_5_6_1_1 g 5#6 b a d 0#6 (safeBit sp) 1#1
  refine encodes32 (i := fun q => .div g b a d q) sp rfl (hw ▸ rfl) h0 h1 fun q => (major_00 q h2).trans ?_
  simp [decodeMajor00, h29, h23, h18, h13, h8]

theorem Encodes.divn (g : BitVec 3) (b : BitVec 5) (a : BitVec 5) (d : BitVec 5) (sp : Sp) : Encodes.Statement (.divn g b a d sp) := by
  obtain ⟨word, hw, h29, h23, h18, h13, h8, h2, h1, h0⟩ := fields_3_6_5_5_5_6_1_1 g 6#6 b a d 0#6 (safeBit sp) 1#1
  refine encodes32 (i := fun q => .divn g b a d q) sp rfl (hw ▸ rfl) h0 h1 fun q => (major_00 q h2).trans ?_
  simp [decodeMajor00, h29, h23, h18, h13, h8]

theorem Encodes.rem (g : BitVec 3) (b : BitVec 5) (a : BitVec 5) (d : BitVec 5) (sp : Sp) : Encodes.Statement (.rem g b a d sp) := by
  obtain ⟨word, hw, h29, h23, h18, h13, h8, h2, h1, h0⟩ := fields_3_6_5_5_5_6_1_1 g 7#6 b a d 0#6 (safeBit sp) 1#1
  refine encodes32 (i := fun q => .rem g b a d q) sp rfl (hw ▸ rfl) h0 h1 fun q => (major_00 q h2).trans ?_
  simp [decodeMajor00, h29, h23, h18, h13, h8]

theorem Encodes.remn (g : BitVec 3) (b : BitVec 5) (a : BitVec 5) (d : BitVec 5) (sp : Sp) : Encodes.Statement (.remn g b a d sp) := by
  obtain ⟨word, hw, h29, h23, h18, h13, h8, h2, h1, h0⟩ := fields_3_6_5_5_5_6_1_1 g 8#6 b a d 0#6 (safeBit sp) 1#1
  refine encodes32 (i := fun q => .remn g b a d q) sp rfl (hw ▸ rfl) h0 h1 fun q => (major_00 q h2).trans ?_
  simp [decodeMajor00, h29, h23, h18, h13, h8]

theorem Encodes.and (g : BitVec 3) (b : BitVec 5) (a : BitVec 5) (d : BitVec 5) (sp : Sp) : Encodes.Statement (.and g b a d sp) := by
  obtain ⟨word, hw, h29, h23, h18, h13, h8, h2, h1, h0⟩ := fields_3_6_5_5_5_6_1_1 g 9#6 b a d 0#6 (safeBit sp) 1#1
  refine encodes32 (i := fun q => .and g b a d q) sp rfl (hw ▸ rfl) h0 h1 fun q => (major_00 q h2).trans ?_
  simp [decodeMajor00, h29, h23, h18, h13, h8]

theorem Encodes.or (g : BitVec 3) (b : BitVec 5) (a : BitVec 5) (d : BitVec 5) (sp : Sp) : Encodes.Statement (.or g b a d sp) := by
  obtain ⟨word, hw, h29, h23, h18, h13, h8, h2, h1, h0⟩ := fields_3_6_5_5_5_6_1_1 g 10#6 b a d 0#6 (safeBit sp) 1#1
  refine encodes32 (i := fun q => .or g b a d q) sp rfl (hw ▸ rfl) h0 h1 fun q => (major_00 q h2).trans ?_
  simp [decodeMajor00, h29, h23, h18, h13, h8]

theorem Encodes.xor (g : BitVec 3) (b : BitVec 5) (a : BitVec 5) (d : BitVec 5) (sp : Sp) : Encodes.Statement (.xor g b a d sp) := by
  obtain ⟨word, hw, h29, h23, h18, h13, h8, h2, h1, h0⟩ := fields_3_6_5_5_5_6_1_1 g 11#6 b a d 0#6 (safeBit sp) 1#1
  refine encodes32 (i := fun q => .xor g b a d q) sp rfl (hw ▸ rfl) h0 h1 fun q => (major_00 q h2).trans ?_
  simp [decodeMajor00, h29, h23, h18, h13, h8]

theorem Encodes.shl (g : BitVec 3) (b : BitVec 5) (a : BitVec 5) (d : BitVec 5) (sp : Sp) : Encodes.Statement (.shl g b a d sp) := by
  obtain ⟨word, hw, h29, h23, h18, h13, h8, h2, h1, h0⟩ := fields_3_6_5_5_5_6_1_1 g 12#6 b a d 0#6 (safeBit sp) 1#1
  refine encodes32 (i := fun q => .shl g b a d q) sp rfl (hw ▸ rfl) h0 h1 fun q => (major_00 q h2).trans ?_
  simp [decodeMajor00, h29, h23, h18, h13, h8]

theorem Encodes.shr (g : BitVec 3) (b : BitVec 5) (a : BitVec 5) (d : BitVec 5) (sp : Sp) : Encodes.Statement (.shr g b a d sp) := by
  obtain ⟨word, hw, h29, h23, h18, h13, h8, h2, h1, h0⟩ := fields_3_6_5_5_5_6_1_1 g 13#6 b a d 0#6 (safeBit sp) 1#1
  refine encodes32 (i := fun q => .shr g b a d q) sp rfl (hw ▸ rfl) h0 h1 fun q => (major_00 q h2).trans ?_
  simp [decodeMajor00, h29, h23, h18, h13, h8]

theorem Encodes.sha (g : BitVec 3) (b : BitVec 5) (a : BitVec 5) (d : BitVec 5) (sp : Sp) : Encodes.Statement (.sha g b a d sp) := by
  obtain ⟨word, hw, h29, h23, h18, h13, h8, h2, h1, h0⟩ := fields_3_6_5_5_5_6_1_1 g 14#6 b a d 0#6 (safeBit sp) 1#1
  refine encodes32 (i := fun q => .sha g b a d q) sp rfl (hw ▸ rfl) h0 h1 fun q => (major_00 q h2).trans ?_
  simp [decodeMajor00, h29, h23, h18, h13, h8]

theorem Encodes.rotl (g : BitVec 3) (b : BitVec 5) (a : BitVec 5) (d : BitVec 5) (sp : Sp) : Encodes.Statement (.rotl g b a d sp) := by
  obtain ⟨word, hw, h29, h23, h18, h13, h8, h2, h1, h0⟩ := fields_3_6_5_5_5_6_1_1 g 15#6 b a d 0#6 (safeBit sp) 1#1
  refine encodes32 (i := fun q => .rotl g b a d q) sp rfl (hw ▸ rfl) h0 h1 fun q => (major_00 q h2).trans ?_
  simp [decodeMajor00, h29, h23, h18, h13, h8]

theorem Encodes.min (g : BitVec 3) (b : BitVec 5) (a : BitVec 5) (d : BitVec 5) (sp : Sp) : Encodes.Statement (.min g b a d sp) := by
  obtain ⟨word, hw, h29, h23, h18, h13, h8, h2, h1, h0⟩ := fields_3_6_5_5_5_6_1_1 g 16#6 b a d 0#6 (safeBit sp) 1#1
  refine encodes32 (i := fun q => .min g b a d q) sp rfl (hw ▸ rfl) h0 h1 fun q => (major_00 q h2).trans ?_
  simp [decodeMajor00, h29, h23, h18, h13, h8]

theorem Encodes.max (g : BitVec 3) (b : BitVec 5) (a : BitVec 5) (d : BitVec 5) (sp : Sp) : Encodes.Statement (.max g b a d sp) := by
  obtain ⟨word, hw, h29, h23, h18, h13, h8, h2, h1, h0⟩ := fields_3_6_5_5_5_6_1_1 g 17#6 b a d 0#6 (safeBit sp) 1#1
  refine encodes32 (i := fun q => .max g b a d q) sp rfl (hw ▸ rfl) h0 h1 fun q => (major_00 q h2).trans ?_
  simp [decodeMajor00, h29, h23, h18, h13, h8]

theorem Encodes.minn (g : BitVec 3) (b : BitVec 5) (a : BitVec 5) (d : BitVec 5) (sp : Sp) : Encodes.Statement (.minn g b a d sp) := by
  obtain ⟨word, hw, h29, h23, h18, h13, h8, h2, h1, h0⟩ := fields_3_6_5_5_5_6_1_1 g 18#6 b a d 0#6 (safeBit sp) 1#1
  refine encodes32 (i := fun q => .minn g b a d q) sp rfl (hw ▸ rfl) h0 h1 fun q => (major_00 q h2).trans ?_
  simp [decodeMajor00, h29, h23, h18, h13, h8]

theorem Encodes.maxn (g : BitVec 3) (b : BitVec 5) (a : BitVec 5) (d : BitVec 5) (sp : Sp) : Encodes.Statement (.maxn g b a d sp) := by
  obtain ⟨word, hw, h29, h23, h18, h13, h8, h2, h1, h0⟩ := fields_3_6_5_5_5_6_1_1 g 19#6 b a d 0#6 (safeBit sp) 1#1
  refine encodes32 (i := fun q => .maxn g b a d q) sp rfl (hw ▸ rfl) h0 h1 fun q => (major_00 q h2).trans ?_
  simp [decodeMajor00, h29, h23, h18, h13, h8]

theorem Encodes.clz (g : BitVec 3) (a : BitVec 5) (d : BitVec 5) (sp : Sp) : Encodes.Statement (.clz g a d sp) := by
  obtain ⟨word, hw, h29, h23, h18, h13, h8, h2, h1, h0⟩ := fields_3_6_5_5_5_6_1_1 g 20#6 0#5 a d 0#6 (safeBit sp) 1#1
  refine encodes32 (i := fun q => .clz g a d q) sp rfl (hw ▸ rfl) h0 h1 fun q => (major_00 q h2).trans ?_
  simp [decodeMajor00, h29, h23, h18, h13, h8]

theorem Encodes.ctz (g : BitVec 3) (a : BitVec 5) (d : BitVec 5) (sp : Sp) : Encodes.Statement (.ctz g a d sp) := by
  obtain ⟨word, hw, h29, h23, h18, h13, h8, h2, h1, h0⟩ := fields_3_6_5_5_5_6_1_1 g 21#6 0#5 a d 0#6 (safeBit sp) 1#1
  refine encodes32 (i := fun q => .ctz g a d q) sp rfl (hw ▸ rfl) h0 h1 fun q => (major_00 q h2).trans ?_
  simp [decodeMajor00, h29, h23, h18, h13, h8]

theorem Encodes.popc (g : BitVec 3) (a : BitVec 5) (d : BitVec 5) (sp : Sp) : Encodes.Statement (.popc g a d sp) := by
  obtain ⟨word, hw, h29, h23, h18, h13, h8, h2, h1, h0⟩ := fields_3_6_5_5_5_6_1_1 g 22#6 0#5 a d 0#6 (safeBit sp) 1#1
  refine encodes32 (i := fun q => .popc g a d q) sp rfl (hw ▸ rfl) h0 h1 fun q => (major_00 q h2).trans ?_
  simp [decodeMajor00, h29, h23, h18, h13, h8]

theorem Encodes.bswap (g : BitVec 3) (a : BitVec 5) (d : BitVec 5) (sp : Sp) : Encodes.Statement (.bswap g a d sp) := by
  obtain ⟨word, hw, h29, h23, h18, h13, h8, h2, h1, h0⟩ := fields_3_6_5_5_5_6_1_1 g 23#6 0#5 a d 0#6 (safeBit sp) 1#1
  refine encodes32 (i := fun q => .bswap g a d q) sp rfl (hw ▸ rfl) h0 h1 fun q => (major_00 q h2).trans ?_
  simp [decodeMajor00, h29, h23, h18, h13, h8]

theorem Encodes.sel (p : BitVec 3) (b : BitVec 5) (a : BitVec 5) (d : BitVec 5) (sp : Sp) : Encodes.Statement (.sel p b a d sp) := by
  obtain ⟨word, hw, h29, h23, h18, h13, h8, h2, h1, h0⟩ := fields_3_6_5_5_5_6_1_1 p 24#6 b a d 0#6 (safeBit sp) 1#1
  refine encodes32 (i := fun q => .sel p b a d q) sp rfl (hw ▸ rfl) h0 h1 fun q => (major_00 q h2).trans ?_
  simp [decodeMajor00, h29, h23, h18, h13, h8]

theorem Encodes.addi (i : BitVec 14) (a : BitVec 5) (d : BitVec 5) (sp : Sp) : Encodes.Statement (.addi i a d sp) := by
  obtain ⟨word, hw, h18, h13, h8, h2, h1, h0⟩ := fields_14_5_5_6_1_1 i a d 1#6 (safeBit sp) 1#1
  refine encodes32 (i := fun q => .addi i a d q) sp rfl (hw ▸ rfl) h0 h1 fun q => (major_01 q h2).trans ?_
  simp [decodeMajor01, h18, h13, h8]

theorem Encodes.andi (i : BitVec 14) (a : BitVec 5) (d : BitVec 5) (sp : Sp) : Encodes.Statement (.andi i a d sp) := by
  obtain ⟨word, hw, h18, h13, h8, h2, h1, h0⟩ := fields_14_5_5_6_1_1 i a d 2#6 (safeBit sp) 1#1
  refine encodes32 (i := fun q => .andi i a d q) sp rfl (hw ▸ rfl) h0 h1 fun q => (major_02 q h2).trans ?_
  simp [decodeMajor02, h18, h13, h8]

theorem Encodes.ori (i : BitVec 14) (a : BitVec 5) (d : BitVec 5) (sp : Sp) : Encodes.Statement (.ori i a d sp) := by
  obtain ⟨word, hw, h18, h13, h8, h2, h1, h0⟩ := fields_14_5_5_6_1_1 i a d 3#6 (safeBit sp) 1#1
  refine encodes32 (i := fun q => .ori i a d q) sp rfl (hw ▸ rfl) h0 h1 fun q => (major_03 q h2).trans ?_
  simp [decodeMajor03, h18, h13, h8]

theorem Encodes.xori (i : BitVec 14) (a : BitVec 5) (d : BitVec 5) (sp : Sp) : Encodes.Statement (.xori i a d sp) := by
  obtain ⟨word, hw, h18, h13, h8, h2, h1, h0⟩ := fields_14_5_5_6_1_1 i a d 4#6 (safeBit sp) 1#1
  refine encodes32 (i := fun q => .xori i a d q) sp rfl (hw ▸ rfl) h0 h1 fun q => (major_04 q h2).trans ?_
  simp [decodeMajor04, h18, h13, h8]

theorem Encodes.shli (i : BitVec 6) (a : BitVec 5) (d : BitVec 5) (sp : Sp) : Encodes.Statement (.shli i a d sp) := by
  obtain ⟨word, hw, h24, h18, h13, h8, h2, h1, h0⟩ := fields_8_6_5_5_6_1_1 0#8 i a d 5#6 (safeBit sp) 1#1
  refine encodes32 (i := fun q => .shli i a d q) sp rfl (hw ▸ rfl) h0 h1 fun q => (major_05 q h2).trans ?_
  simp [decodeMajor05, h24, h18, h13, h8]

theorem Encodes.shri (i : BitVec 6) (a : BitVec 5) (d : BitVec 5) (sp : Sp) : Encodes.Statement (.shri i a d sp) := by
  obtain ⟨word, hw, h24, h18, h13, h8, h2, h1, h0⟩ := fields_8_6_5_5_6_1_1 0#8 i a d 6#6 (safeBit sp) 1#1
  refine encodes32 (i := fun q => .shri i a d q) sp rfl (hw ▸ rfl) h0 h1 fun q => (major_06 q h2).trans ?_
  simp [decodeMajor06, h24, h18, h13, h8]

theorem Encodes.shai (i : BitVec 6) (a : BitVec 5) (d : BitVec 5) (sp : Sp) : Encodes.Statement (.shai i a d sp) := by
  obtain ⟨word, hw, h24, h18, h13, h8, h2, h1, h0⟩ := fields_8_6_5_5_6_1_1 0#8 i a d 7#6 (safeBit sp) 1#1
  refine encodes32 (i := fun q => .shai i a d q) sp rfl (hw ▸ rfl) h0 h1 fun q => (major_07 q h2).trans ?_
  simp [decodeMajor07, h24, h18, h13, h8]

theorem Encodes.cmp (g : BitVec 3) (c : BitVec 4) (b : BitVec 5) (a : BitVec 5) (d : BitVec 5) (sp : Sp) : Encodes.Statement (.cmp g c b a d sp) := by
  obtain ⟨word, hw, h29, h27, h23, h18, h13, h8, h2, h1, h0⟩ := fields_3_2_4_5_5_5_6_1_1 g 0#2 c b a d 8#6 (safeBit sp) 1#1
  refine encodes32 (i := fun q => .cmp g c b a d q) sp rfl (hw ▸ rfl) h0 h1 fun q => (major_08 q h2).trans ?_
  simp [decodeMajor08, h29, h27, h23, h18, h13, h8]

theorem Encodes.cmpi (i : BitVec 10) (c : BitVec 4) (a : BitVec 5) (d : BitVec 5) (sp : Sp) : Encodes.Statement (.cmpi i c a d sp) := by
  obtain ⟨word, hw, h22, h18, h13, h8, h2, h1, h0⟩ := fields_10_4_5_5_6_1_1 i c a d 9#6 (safeBit sp) 1#1
  refine encodes32 (i := fun q => .cmpi i c a d q) sp rfl (hw ▸ rfl) h0 h1 fun q => (major_09 q h2).trans ?_
  simp [decodeMajor09, h22, h18, h13, h8]

theorem Encodes.plog (g : BitVec 3) (t : BitVec 4) (b : BitVec 5) (a : BitVec 5) (d : BitVec 5) (sp : Sp) : Encodes.Statement (.plog g t b a d sp) := by
  obtain ⟨word, hw, h29, h27, h23, h18, h13, h8, h2, h1, h0⟩ := fields_3_2_4_5_5_5_6_1_1 g 0#2 t b a d 10#6 (safeBit sp) 1#1
  refine encodes32 (i := fun q => .plog g t b a d q) sp rfl (hw ▸ rfl) h0 h1 fun q => (major_0A q h2).trans ?_
  simp [decodeMajor0A, h29, h27, h23, h18, h13, h8]

theorem Encodes.movi (i : BitVec 19) (d : BitVec 5) (sp : Sp) : Encodes.Statement (.movi i d sp) := by
  obtain ⟨word, hw, h13, h8, h2, h1, h0⟩ := fields_19_5_6_1_1 i d 11#6 (safeBit sp) 1#1
  refine encodes32 (i := fun q => .movi i d q) sp rfl (hw ▸ rfl) h0 h1 fun q => (major_0B q h2).trans ?_
  simp [decodeMajor0B, h13, h8]

theorem Encodes.movhi (i : BitVec 19) (d : BitVec 5) (sp : Sp) : Encodes.Statement (.movhi i d sp) := by
  obtain ⟨word, hw, h13, h8, h2, h1, h0⟩ := fields_19_5_6_1_1 i d 12#6 (safeBit sp) 1#1
  refine encodes32 (i := fun q => .movhi i d q) sp rfl (hw ▸ rfl) h0 h1 fun q => (major_0C q h2).trans ?_
  simp [decodeMajor0C, h13, h8]

theorem Encodes.ext (w : BitVec 6) (p : BitVec 6) (a : BitVec 5) (d : BitVec 5) (sp : Sp) : Encodes.Statement (.ext w p a d sp) := by
  obtain ⟨word, hw, h30, h24, h18, h13, h8, h2, h1, h0⟩ := fields_2_6_6_5_5_6_1_1 0#2 w p a d 13#6 (safeBit sp) 1#1
  refine encodes32 (i := fun q => .ext w p a d q) sp rfl (hw ▸ rfl) h0 h1 fun q => (major_0D q h2).trans ?_
  simp [decodeMajor0D, h30, h24, h18, h13, h8]

theorem Encodes.ins (w : BitVec 6) (p : BitVec 6) (a : BitVec 5) (d : BitVec 5) (sp : Sp) : Encodes.Statement (.ins w p a d sp) := by
  obtain ⟨word, hw, h30, h24, h18, h13, h8, h2, h1, h0⟩ := fields_2_6_6_5_5_6_1_1 1#2 w p a d 13#6 (safeBit sp) 1#1
  refine encodes32 (i := fun q => .ins w p a d q) sp rfl (hw ▸ rfl) h0 h1 fun q => (major_0D q h2).trans ?_
  simp [decodeMajor0D, h30, h24, h18, h13, h8]

theorem Encodes.mkptr (g : BitVec 3) (b : BitVec 2) (a : BitVec 5) (d : BitVec 5) (sp : Sp) : Encodes.Statement (.mkptr g b a d sp) := by
  obtain ⟨word, hw, h29, h23, h20, h18, h13, h8, h2, h1, h0⟩ := fields_3_6_3_2_5_5_6_1_1 g 0#6 0#3 b a d 14#6 (safeBit sp) 1#1
  refine encodes32 (i := fun q => .mkptr g b a d q) sp rfl (hw ▸ rfl) h0 h1 fun q => (major_0E q h2).trans ?_
  simp [decodeMajor0E, h29, h23, h20, h18, h13, h8]

theorem Encodes.ptrget (g : BitVec 3) (b : BitVec 5) (a : BitVec 5) (d : BitVec 5) (sp : Sp) : Encodes.Statement (.ptrget g b a d sp) := by
  obtain ⟨word, hw, h29, h23, h18, h13, h8, h2, h1, h0⟩ := fields_3_6_5_5_5_6_1_1 g 1#6 b a d 14#6 (safeBit sp) 1#1
  refine encodes32 (i := fun q => .ptrget g b a d q) sp rfl (hw ▸ rfl) h0 h1 fun q => (major_0E q h2).trans ?_
  simp [decodeMajor0E, h29, h23, h18, h13, h8]

theorem Encodes.ptradd (g : BitVec 3) (b : BitVec 5) (a : BitVec 5) (d : BitVec 5) (sp : Sp) : Encodes.Statement (.ptradd g b a d sp) := by
  obtain ⟨word, hw, h29, h23, h18, h13, h8, h2, h1, h0⟩ := fields_3_6_5_5_5_6_1_1 g 2#6 b a d 14#6 (safeBit sp) 1#1
  refine encodes32 (i := fun q => .ptradd g b a d q) sp rfl (hw ▸ rfl) h0 h1 fun q => (major_0E q h2).trans ?_
  simp [decodeMajor0E, h29, h23, h18, h13, h8]

theorem Encodes.dist (g : BitVec 3) (b : BitVec 5) (a : BitVec 5) (d : BitVec 5) (sp : Sp) : Encodes.Statement (.dist g b a d sp) := by
  obtain ⟨word, hw, h29, h23, h18, h13, h8, h2, h1, h0⟩ := fields_3_6_5_5_5_6_1_1 g 3#6 b a d 14#6 (safeBit sp) 1#1
  refine encodes32 (i := fun q => .dist g b a d q) sp rfl (hw ▸ rfl) h0 h1 fun q => (major_0E q h2).trans ?_
  simp [decodeMajor0E, h29, h23, h18, h13, h8]

theorem Encodes.dista (g : BitVec 3) (b : BitVec 5) (a : BitVec 5) (d : BitVec 5) (sp : Sp) : Encodes.Statement (.dista g b a d sp) := by
  obtain ⟨word, hw, h29, h23, h18, h13, h8, h2, h1, h0⟩ := fields_3_6_5_5_5_6_1_1 g 4#6 b a d 14#6 (safeBit sp) 1#1
  refine encodes32 (i := fun q => .dista g b a d q) sp rfl (hw ▸ rfl) h0 h1 fun q => (major_0E q h2).trans ?_
  simp [decodeMajor0E, h29, h23, h18, h13, h8]

theorem Encodes.ld (i : BitVec 11) (m : BitVec 3) (a : BitVec 5) (d : BitVec 5) (sp : Sp) : Encodes.Statement (.ld i m a d sp) := by
  obtain ⟨word, hw, h21, h18, h13, h8, h2, h1, h0⟩ := fields_11_3_5_5_6_1_1 i m a d 16#6 (safeBit sp) 1#1
  refine encodes32 (i := fun q => .ld i m a d q) sp rfl (hw ▸ rfl) h0 h1 fun q => (major_10 q h2).trans ?_
  simp [decodeMajor10, h21, h18, h13, h8]

theorem Encodes.st (i : BitVec 11) (m : BitVec 3) (a : BitVec 5) (d : BitVec 5) (sp : Sp) : Encodes.Statement (.st i m a d sp) := by
  obtain ⟨word, hw, h21, h18, h13, h8, h2, h1, h0⟩ := fields_11_3_5_5_6_1_1 i m a d 17#6 (safeBit sp) 1#1
  refine encodes32 (i := fun q => .st i m a d q) sp rfl (hw ▸ rfl) h0 h1 fun q => (major_11 q h2).trans ?_
  simp [decodeMajor11, h21, h18, h13, h8]

theorem Encodes.ldx (g : BitVec 3) (c : BitVec 2) (m : BitVec 3) (b : BitVec 5) (a : BitVec 5) (d : BitVec 5) (sp : Sp) : Encodes.Statement (.ldx g c m b a d sp) := by
  obtain ⟨word, hw, h29, h27, h26, h23, h18, h13, h8, h2, h1, h0⟩ := fields_3_2_1_3_5_5_5_6_1_1 g c 0#1 m b a d 18#6 (safeBit sp) 1#1
  refine encodes32 (i := fun q => .ldx g c m b a d q) sp rfl (hw ▸ rfl) h0 h1 fun q => (major_12 q h2).trans ?_
  simp [decodeMajor12, h29, h27, h26, h23, h18, h13, h8]

theorem Encodes.stx (g : BitVec 3) (c : BitVec 2) (m : BitVec 3) (b : BitVec 5) (a : BitVec 5) (d : BitVec 5) (sp : Sp) : Encodes.Statement (.stx g c m b a d sp) := by
  obtain ⟨word, hw, h29, h27, h26, h23, h18, h13, h8, h2, h1, h0⟩ := fields_3_2_1_3_5_5_5_6_1_1 g c 1#1 m b a d 18#6 (safeBit sp) 1#1
  refine encodes32 (i := fun q => .stx g c m b a d q) sp rfl (hw ▸ rfl) h0 h1 fun q => (major_12 q h2).trans ?_
  simp [decodeMajor12, h29, h27, h26, h23, h18, h13, h8]

theorem Encodes.ldi (i : BitVec 11) (m : BitVec 3) (a : BitVec 5) (d : BitVec 5) (sp : Sp) : Encodes.Statement (.ldi i m a d sp) := by
  obtain ⟨word, hw, h21, h18, h13, h8, h2, h1, h0⟩ := fields_11_3_5_5_6_1_1 i m a d 19#6 (safeBit sp) 1#1
  refine encodes32 (i := fun q => .ldi i m a d q) sp rfl (hw ▸ rfl) h0 h1 fun q => (major_13 q h2).trans ?_
  simp [decodeMajor13, h21, h18, h13, h8]

theorem Encodes.ldp (i : BitVec 11) (m : BitVec 3) (a : BitVec 5) (d : BitVec 5) (sp : Sp) : Encodes.Statement (.ldp i m a d sp) := by
  obtain ⟨word, hw, h21, h18, h13, h8, h2, h1, h0⟩ := fields_11_3_5_5_6_1_1 i m a d 20#6 (safeBit sp) 1#1
  refine encodes32 (i := fun q => .ldp i m a d q) sp rfl (hw ▸ rfl) h0 h1 fun q => (major_14 q h2).trans ?_
  simp [decodeMajor14, h21, h18, h13, h8]

theorem Encodes.stp (i : BitVec 11) (m : BitVec 3) (a : BitVec 5) (d : BitVec 5) (sp : Sp) : Encodes.Statement (.stp i m a d sp) := by
  obtain ⟨word, hw, h21, h18, h13, h8, h2, h1, h0⟩ := fields_11_3_5_5_6_1_1 i m a d 21#6 (safeBit sp) 1#1
  refine encodes32 (i := fun q => .stp i m a d q) sp rfl (hw ▸ rfl) h0 h1 fun q => (major_15 q h2).trans ?_
  simp [decodeMajor15, h21, h18, h13, h8]

theorem Encodes.lda (i : BitVec 11) (m : BitVec 3) (a : BitVec 5) (d : BitVec 5) (sp : Sp) : Encodes.Statement (.lda i m a d sp) := by
  obtain ⟨word, hw, h21, h18, h13, h8, h2, h1, h0⟩ := fields_11_3_5_5_6_1_1 i m a d 22#6 (safeBit sp) 1#1
  refine encodes32 (i := fun q => .lda i m a d q) sp rfl (hw ▸ rfl) h0 h1 fun q => (major_16 q h2).trans ?_
  simp [decodeMajor16, h21, h18, h13, h8]

theorem Encodes.stl (i : BitVec 11) (m : BitVec 3) (a : BitVec 5) (d : BitVec 5) (sp : Sp) : Encodes.Statement (.stl i m a d sp) := by
  obtain ⟨word, hw, h21, h18, h13, h8, h2, h1, h0⟩ := fields_11_3_5_5_6_1_1 i m a d 23#6 (safeBit sp) 1#1
  refine encodes32 (i := fun q => .stl i m a d q) sp rfl (hw ▸ rfl) h0 h1 fun q => (major_17 q h2).trans ?_
  simp [decodeMajor17, h21, h18, h13, h8]

theorem Encodes.aadd (g : BitVec 3) (w : BitVec 1) (b : BitVec 5) (a : BitVec 5) (d : BitVec 5) (sp : Sp) : Encodes.Statement (.aadd g w b a d sp) := by
  obtain ⟨word, hw, h29, h28, h27, h23, h18, h13, h8, h2, h1, h0⟩ := fields_3_1_1_4_5_5_5_6_1_1 g 0#1 w 0#4 b a d 24#6 (safeBit sp) 1#1
  refine encodes32 (i := fun q => .aadd g w b a d q) sp rfl (hw ▸ rfl) h0 h1 fun q => (major_18 q h2).trans ?_
  simp [decodeMajor18, h29, h28, h27, h23, h18, h13, h8]

theorem Encodes.aand (g : BitVec 3) (w : BitVec 1) (b : BitVec 5) (a : BitVec 5) (d : BitVec 5) (sp : Sp) : Encodes.Statement (.aand g w b a d sp) := by
  obtain ⟨word, hw, h29, h28, h27, h23, h18, h13, h8, h2, h1, h0⟩ := fields_3_1_1_4_5_5_5_6_1_1 g 0#1 w 1#4 b a d 24#6 (safeBit sp) 1#1
  refine encodes32 (i := fun q => .aand g w b a d q) sp rfl (hw ▸ rfl) h0 h1 fun q => (major_18 q h2).trans ?_
  simp [decodeMajor18, h29, h28, h27, h23, h18, h13, h8]

theorem Encodes.aor (g : BitVec 3) (w : BitVec 1) (b : BitVec 5) (a : BitVec 5) (d : BitVec 5) (sp : Sp) : Encodes.Statement (.aor g w b a d sp) := by
  obtain ⟨word, hw, h29, h28, h27, h23, h18, h13, h8, h2, h1, h0⟩ := fields_3_1_1_4_5_5_5_6_1_1 g 0#1 w 2#4 b a d 24#6 (safeBit sp) 1#1
  refine encodes32 (i := fun q => .aor g w b a d q) sp rfl (hw ▸ rfl) h0 h1 fun q => (major_18 q h2).trans ?_
  simp [decodeMajor18, h29, h28, h27, h23, h18, h13, h8]

theorem Encodes.axor (g : BitVec 3) (w : BitVec 1) (b : BitVec 5) (a : BitVec 5) (d : BitVec 5) (sp : Sp) : Encodes.Statement (.axor g w b a d sp) := by
  obtain ⟨word, hw, h29, h28, h27, h23, h18, h13, h8, h2, h1, h0⟩ := fields_3_1_1_4_5_5_5_6_1_1 g 0#1 w 3#4 b a d 24#6 (safeBit sp) 1#1
  refine encodes32 (i := fun q => .axor g w b a d q) sp rfl (hw ▸ rfl) h0 h1 fun q => (major_18 q h2).trans ?_
  simp [decodeMajor18, h29, h28, h27, h23, h18, h13, h8]

theorem Encodes.amin (g : BitVec 3) (w : BitVec 1) (b : BitVec 5) (a : BitVec 5) (d : BitVec 5) (sp : Sp) : Encodes.Statement (.amin g w b a d sp) := by
  obtain ⟨word, hw, h29, h28, h27, h23, h18, h13, h8, h2, h1, h0⟩ := fields_3_1_1_4_5_5_5_6_1_1 g 0#1 w 4#4 b a d 24#6 (safeBit sp) 1#1
  refine encodes32 (i := fun q => .amin g w b a d q) sp rfl (hw ▸ rfl) h0 h1 fun q => (major_18 q h2).trans ?_
  simp [decodeMajor18, h29, h28, h27, h23, h18, h13, h8]

theorem Encodes.amax (g : BitVec 3) (w : BitVec 1) (b : BitVec 5) (a : BitVec 5) (d : BitVec 5) (sp : Sp) : Encodes.Statement (.amax g w b a d sp) := by
  obtain ⟨word, hw, h29, h28, h27, h23, h18, h13, h8, h2, h1, h0⟩ := fields_3_1_1_4_5_5_5_6_1_1 g 0#1 w 5#4 b a d 24#6 (safeBit sp) 1#1
  refine encodes32 (i := fun q => .amax g w b a d q) sp rfl (hw ▸ rfl) h0 h1 fun q => (major_18 q h2).trans ?_
  simp [decodeMajor18, h29, h28, h27, h23, h18, h13, h8]

theorem Encodes.aminn (g : BitVec 3) (w : BitVec 1) (b : BitVec 5) (a : BitVec 5) (d : BitVec 5) (sp : Sp) : Encodes.Statement (.aminn g w b a d sp) := by
  obtain ⟨word, hw, h29, h28, h27, h23, h18, h13, h8, h2, h1, h0⟩ := fields_3_1_1_4_5_5_5_6_1_1 g 0#1 w 6#4 b a d 24#6 (safeBit sp) 1#1
  refine encodes32 (i := fun q => .aminn g w b a d q) sp rfl (hw ▸ rfl) h0 h1 fun q => (major_18 q h2).trans ?_
  simp [decodeMajor18, h29, h28, h27, h23, h18, h13, h8]

theorem Encodes.amaxn (g : BitVec 3) (w : BitVec 1) (b : BitVec 5) (a : BitVec 5) (d : BitVec 5) (sp : Sp) : Encodes.Statement (.amaxn g w b a d sp) := by
  obtain ⟨word, hw, h29, h28, h27, h23, h18, h13, h8, h2, h1, h0⟩ := fields_3_1_1_4_5_5_5_6_1_1 g 0#1 w 7#4 b a d 24#6 (safeBit sp) 1#1
  refine encodes32 (i := fun q => .amaxn g w b a d q) sp rfl (hw ▸ rfl) h0 h1 fun q => (major_18 q h2).trans ?_
  simp [decodeMajor18, h29, h28, h27, h23, h18, h13, h8]

theorem Encodes.aswp (g : BitVec 3) (w : BitVec 1) (b : BitVec 5) (a : BitVec 5) (d : BitVec 5) (sp : Sp) : Encodes.Statement (.aswp g w b a d sp) := by
  obtain ⟨word, hw, h29, h28, h27, h23, h18, h13, h8, h2, h1, h0⟩ := fields_3_1_1_4_5_5_5_6_1_1 g 0#1 w 8#4 b a d 24#6 (safeBit sp) 1#1
  refine encodes32 (i := fun q => .aswp g w b a d q) sp rfl (hw ▸ rfl) h0 h1 fun q => (major_18 q h2).trans ?_
  simp [decodeMajor18, h29, h28, h27, h23, h18, h13, h8]

theorem Encodes.acas (g : BitVec 3) (w : BitVec 1) (b : BitVec 5) (a : BitVec 5) (d : BitVec 5) (sp : Sp) : Encodes.Statement (.acas g w b a d sp) := by
  obtain ⟨word, hw, h29, h28, h27, h23, h18, h13, h8, h2, h1, h0⟩ := fields_3_1_1_4_5_5_5_6_1_1 g 0#1 w 0#4 b a d 25#6 (safeBit sp) 1#1
  refine encodes32 (i := fun q => .acas g w b a d q) sp rfl (hw ▸ rfl) h0 h1 fun q => (major_19 q h2).trans ?_
  simp [decodeMajor19, h29, h28, h27, h23, h18, h13, h8]

theorem Encodes.afadd (g : BitVec 3) (t : BitVec 1) (b : BitVec 5) (a : BitVec 5) (d : BitVec 5) (sp : Sp) : Encodes.Statement (.afadd g t b a d sp) := by
  obtain ⟨word, hw, h29, h24, h23, h18, h13, h8, h2, h1, h0⟩ := fields_3_5_1_5_5_5_6_1_1 g 0#5 t b a d 26#6 (safeBit sp) 1#1
  refine encodes32 (i := fun q => .afadd g t b a d q) sp rfl (hw ▸ rfl) h0 h1 fun q => (major_1A q h2).trans ?_
  simp [decodeMajor1A, h29, h24, h23, h18, h13, h8]

theorem Encodes.aclaim (g : BitVec 3) (b : BitVec 5) (a : BitVec 5) (d : BitVec 5) (sp : Sp) : Encodes.Statement (.aclaim g b a d sp) := by
  obtain ⟨word, hw, h29, h23, h18, h13, h8, h2, h1, h0⟩ := fields_3_6_5_5_5_6_1_1 g 0#6 b a d 27#6 (safeBit sp) 1#1
  refine encodes32 (i := fun q => .aclaim g b a d q) sp rfl (hw ▸ rfl) h0 h1 fun q => (major_1B q h2).trans ?_
  simp [decodeMajor1B, h29, h23, h18, h13, h8]

theorem Encodes.fence (g : BitVec 3) (s : BitVec 2) (sp : Sp) : Encodes.Statement (.fence g s sp) := by
  obtain ⟨word, hw, h29, h25, h23, h18, h13, h8, h2, h1, h0⟩ := fields_3_4_2_5_5_5_6_1_1 g 0#4 s 0#5 0#5 0#5 28#6 (safeBit sp) 1#1
  refine encodes32 (i := fun q => .fence g s q) sp rfl (hw ▸ rfl) h0 h1 fun q => (major_1C q h2).trans ?_
  simp [decodeMajor1C, h29, h25, h23, h18, h13, h8]

theorem Encodes.send (h : BitVec 8) (n : BitVec 4) (a : BitVec 5) (d : BitVec 5) (sp : Sp) : Encodes.Statement (.send h n a d sp) := by
  obtain ⟨word, hw, h30, h22, h18, h13, h8, h2, h1, h0⟩ := fields_2_8_4_5_5_6_1_1 0#2 h n a d 29#6 (safeBit sp) 1#1
  refine encodes32 (i := fun q => .send h n a d q) sp rfl (hw ▸ rfl) h0 h1 fun q => (major_1D q h2).trans ?_
  simp [decodeMajor1D, h30, h22, h18, h13, h8]

theorem Encodes.sendt (h : BitVec 8) (n : BitVec 4) (a : BitVec 5) (d : BitVec 5) (sp : Sp) : Encodes.Statement (.sendt h n a d sp) := by
  obtain ⟨word, hw, h30, h22, h18, h13, h8, h2, h1, h0⟩ := fields_2_8_4_5_5_6_1_1 1#2 h n a d 29#6 (safeBit sp) 1#1
  refine encodes32 (i := fun q => .sendt h n a d q) sp rfl (hw ▸ rfl) h0 h1 fun q => (major_1D q h2).trans ?_
  simp [decodeMajor1D, h30, h22, h18, h13, h8]

theorem Encodes.reply (h : BitVec 8) (n : BitVec 4) (a : BitVec 5) (d : BitVec 5) (sp : Sp) : Encodes.Statement (.reply h n a d sp) := by
  obtain ⟨word, hw, h30, h22, h18, h13, h8, h2, h1, h0⟩ := fields_2_8_4_5_5_6_1_1 2#2 h n a d 29#6 (safeBit sp) 1#1
  refine encodes32 (i := fun q => .reply h n a d q) sp rfl (hw ▸ rfl) h0 h1 fun q => (major_1D q h2).trans ?_
  simp [decodeMajor1D, h30, h22, h18, h13, h8]

theorem Encodes.msgq (d : BitVec 5) (sp : Sp) : Encodes.Statement (.msgq d sp) := by
  obtain ⟨word, hw, h30, h22, h18, h13, h8, h2, h1, h0⟩ := fields_2_8_4_5_5_6_1_1 3#2 0#8 0#4 0#5 d 29#6 (safeBit sp) 1#1
  refine encodes32 (i := fun q => .msgq d q) sp rfl (hw ▸ rfl) h0 h1 fun q => (major_1D q h2).trans ?_
  simp [decodeMajor1D, h30, h22, h18, h13, h8]

theorem Encodes.cbdef (i : BitVec 11) (a : BitVec 5) (d : BitVec 5) (sp : Sp) : Encodes.Statement (.cbdef i a d sp) := by
  obtain ⟨word, hw, h29, h18, h13, h8, h2, h1, h0⟩ := fields_3_11_5_5_6_1_1 0#3 i a d 30#6 (safeBit sp) 1#1
  refine encodes32 (i := fun q => .cbdef i a d q) sp rfl (hw ▸ rfl) h0 h1 fun q => (major_1E q h2).trans ?_
  simp [decodeMajor1E, h29, h18, h13, h8]

theorem Encodes.cbwait (k : BitVec 9) (a : BitVec 5) (d : BitVec 5) (sp : Sp) : Encodes.Statement (.cbwait k a d sp) := by
  obtain ⟨word, hw, h29, h27, h18, h13, h8, h2, h1, h0⟩ := fields_3_2_9_5_5_6_1_1 1#3 0#2 k a d 30#6 (safeBit sp) 1#1
  refine encodes32 (i := fun q => .cbwait k a d q) sp rfl (hw ▸ rfl) h0 h1 fun q => (major_1E q h2).trans ?_
  simp [decodeMajor1E, h29, h27, h18, h13, h8]

theorem Encodes.cbfree (k : BitVec 9) (a : BitVec 5) (d : BitVec 5) (sp : Sp) : Encodes.Statement (.cbfree k a d sp) := by
  obtain ⟨word, hw, h29, h27, h18, h13, h8, h2, h1, h0⟩ := fields_3_2_9_5_5_6_1_1 2#3 0#2 k a d 30#6 (safeBit sp) 1#1
  refine encodes32 (i := fun q => .cbfree k a d q) sp rfl (hw ▸ rfl) h0 h1 fun q => (major_1E q h2).trans ?_
  simp [decodeMajor1E, h29, h27, h18, h13, h8]

theorem Encodes.cbadvGet (k : BitVec 9) (a : BitVec 5) (sp : Sp) : Encodes.Statement (.cbadvGet k a sp) := by
  obtain ⟨word, hw, h29, h27, h18, h13, h8, h2, h1, h0⟩ := fields_3_2_9_5_5_6_1_1 3#3 0#2 k a 0#5 30#6 (safeBit sp) 1#1
  refine encodes32 (i := fun q => .cbadvGet k a q) sp rfl (hw ▸ rfl) h0 h1 fun q => (major_1E q h2).trans ?_
  simp [decodeMajor1E, h29, h27, h18, h13, h8]

theorem Encodes.cbadvPut (k : BitVec 9) (a : BitVec 5) (sp : Sp) : Encodes.Statement (.cbadvPut k a sp) := by
  obtain ⟨word, hw, h29, h27, h18, h13, h8, h2, h1, h0⟩ := fields_3_2_9_5_5_6_1_1 3#3 2#2 k a 0#5 30#6 (safeBit sp) 1#1
  refine encodes32 (i := fun q => .cbadvPut k a q) sp rfl (hw ▸ rfl) h0 h1 fun q => (major_1E q h2).trans ?_
  simp [decodeMajor1E, h29, h27, h18, h13, h8]

theorem Encodes.cbpush (n : BitVec 4) (a : BitVec 5) (d : BitVec 5) (sp : Sp) : Encodes.Statement (.cbpush n a d sp) := by
  obtain ⟨word, hw, h29, h22, h18, h13, h8, h2, h1, h0⟩ := fields_3_7_4_5_5_6_1_1 4#3 0#7 n a d 30#6 (safeBit sp) 1#1
  refine encodes32 (i := fun q => .cbpush n a d q) sp rfl (hw ▸ rfl) h0 h1 fun q => (major_1E q h2).trans ?_
  simp [decodeMajor1E, h29, h22, h18, h13, h8]

theorem Encodes.cbpop (n : BitVec 4) (a : BitVec 5) (d : BitVec 5) (sp : Sp) : Encodes.Statement (.cbpop n a d sp) := by
  obtain ⟨word, hw, h29, h22, h18, h13, h8, h2, h1, h0⟩ := fields_3_7_4_5_5_6_1_1 5#3 0#7 n a d 30#6 (safeBit sp) 1#1
  refine encodes32 (i := fun q => .cbpop n a d q) sp rfl (hw ▸ rfl) h0 h1 fun q => (major_1E q h2).trans ?_
  simp [decodeMajor1E, h29, h22, h18, h13, h8]

theorem Encodes.cbq (a : BitVec 5) (d : BitVec 5) (sp : Sp) : Encodes.Statement (.cbq a d sp) := by
  obtain ⟨word, hw, h29, h18, h13, h8, h2, h1, h0⟩ := fields_3_11_5_5_6_1_1 6#3 0#11 a d 30#6 (safeBit sp) 1#1
  refine encodes32 (i := fun q => .cbq a d q) sp rfl (hw ▸ rfl) h0 h1 fun q => (major_1E q h2).trans ?_
  simp [decodeMajor1E, h29, h18, h13, h8]

theorem Encodes.br (o : BitVec 16) (g : BitVec 3) (sp : Sp) : Encodes.Statement (.br o g sp) := by
  obtain ⟨word, hw, h16, h13, h8, h2, h1, h0⟩ := fields_16_3_5_6_1_1 o g 0#5 32#6 (safeBit sp) 1#1
  refine encodes32 (i := fun q => .br o g q) sp rfl (hw ▸ rfl) h0 h1 fun q => (major_20 q h2).trans ?_
  simp [decodeMajor20, h16, h13, h8]

theorem Encodes.brz (o : BitVec 16) (g : BitVec 3) (d : BitVec 5) (sp : Sp) : Encodes.Statement (.brz o g d sp) := by
  obtain ⟨word, hw, h16, h13, h8, h2, h1, h0⟩ := fields_16_3_5_6_1_1 o g d 33#6 (safeBit sp) 1#1
  refine encodes32 (i := fun q => .brz o g d q) sp rfl (hw ▸ rfl) h0 h1 fun q => (major_21 q h2).trans ?_
  simp [decodeMajor21, h16, h13, h8]

theorem Encodes.brnz (o : BitVec 16) (g : BitVec 3) (d : BitVec 5) (sp : Sp) : Encodes.Statement (.brnz o g d sp) := by
  obtain ⟨word, hw, h16, h13, h8, h2, h1, h0⟩ := fields_16_3_5_6_1_1 o g d 34#6 (safeBit sp) 1#1
  refine encodes32 (i := fun q => .brnz o g d q) sp rfl (hw ▸ rfl) h0 h1 fun q => (major_22 q h2).trans ?_
  simp [decodeMajor22, h16, h13, h8]

theorem Encodes.j (i : BitVec 19) (sp : Sp) : Encodes.Statement (.j i sp) := by
  obtain ⟨word, hw, h13, h8, h2, h1, h0⟩ := fields_19_5_6_1_1 i 0#5 35#6 (safeBit sp) 1#1
  refine encodes32 (i := fun q => .j i q) sp rfl (hw ▸ rfl) h0 h1 fun q => (major_23 q h2).trans ?_
  simp [decodeMajor23, h13, h8]

theorem Encodes.jl (i : BitVec 19) (d : BitVec 5) (sp : Sp) : Encodes.Statement (.jl i d sp) := by
  obtain ⟨word, hw, h13, h8, h2, h1, h0⟩ := fields_19_5_6_1_1 i d 36#6 (safeBit sp) 1#1
  refine encodes32 (i := fun q => .jl i d q) sp rfl (hw ▸ rfl) h0 h1 fun q => (major_24 q h2).trans ?_
  simp [decodeMajor24, h13, h8]

theorem Encodes.jr (g : BitVec 3) (a : BitVec 5) (sp : Sp) : Encodes.Statement (.jr g a sp) := by
  obtain ⟨word, hw, h29, h23, h18, h13, h8, h2, h1, h0⟩ := fields_3_6_5_5_5_6_1_1 g 0#6 0#5 a 0#5 37#6 (safeBit sp) 1#1
  refine encodes32 (i := fun q => .jr g a q) sp rfl (hw ▸ rfl) h0 h1 fun q => (major_25 q h2).trans ?_
  simp [decodeMajor25, h29, h23, h18, h13, h8]

theorem Encodes.jlr (g : BitVec 3) (a : BitVec 5) (d : BitVec 5) (sp : Sp) : Encodes.Statement (.jlr g a d sp) := by
  obtain ⟨word, hw, h29, h23, h18, h13, h8, h2, h1, h0⟩ := fields_3_6_5_5_5_6_1_1 g 1#6 0#5 a d 37#6 (safeBit sp) 1#1
  refine encodes32 (i := fun q => .jlr g a d q) sp rfl (hw ▸ rfl) h0 h1 fun q => (major_25 q h2).trans ?_
  simp [decodeMajor25, h29, h23, h18, h13, h8]

theorem Encodes.loop (o : BitVec 16) (g : BitVec 3) (d : BitVec 5) (sp : Sp) : Encodes.Statement (.loop o g d sp) := by
  obtain ⟨word, hw, h16, h13, h8, h2, h1, h0⟩ := fields_16_3_5_6_1_1 o g d 38#6 (safeBit sp) 1#1
  refine encodes32 (i := fun q => .loop o g d q) sp rfl (hw ▸ rfl) h0 h1 fun q => (major_26 q h2).trans ?_
  simp [decodeMajor26, h16, h13, h8]

theorem Encodes.fin (g : BitVec 3) (sp : Sp) : Encodes.Statement (.fin g sp) := by
  obtain ⟨word, hw, h29, h23, h18, h13, h8, h2, h1, h0⟩ := fields_3_6_5_5_5_6_1_1 g 0#6 0#5 0#5 0#5 39#6 (safeBit sp) 1#1
  refine encodes32 (i := fun q => .fin g q) sp rfl (hw ▸ rfl) h0 h1 fun q => (major_27 q h2).trans ?_
  simp [decodeMajor27, h29, h23, h18, h13, h8]

theorem Encodes.actdef (i : BitVec 11) (d : BitVec 5) (sp : Sp) : Encodes.Statement (.actdef i d sp) := by
  obtain ⟨word, hw, h29, h18, h13, h8, h2, h1, h0⟩ := fields_3_11_5_5_6_1_1 0#3 i 0#5 d 40#6 (safeBit sp) 1#1
  refine encodes32 (i := fun q => .actdef i d q) sp rfl (hw ▸ rfl) h0 h1 fun q => (major_28 q h2).trans ?_
  simp [decodeMajor28, h29, h18, h13, h8]

theorem Encodes.nestdef (i : BitVec 11) (a : BitVec 5) (d : BitVec 5) (sp : Sp) : Encodes.Statement (.nestdef i a d sp) := by
  obtain ⟨word, hw, h29, h18, h13, h8, h2, h1, h0⟩ := fields_3_11_5_5_6_1_1 1#3 i a d 40#6 (safeBit sp) 1#1
  refine encodes32 (i := fun q => .nestdef i a d q) sp rfl (hw ▸ rfl) h0 h1 fun q => (major_28 q h2).trans ?_
  simp [decodeMajor28, h29, h18, h13, h8]

theorem Encodes.lnch (i : BitVec 11) (a : BitVec 5) (d : BitVec 5) (sp : Sp) : Encodes.Statement (.lnch i a d sp) := by
  obtain ⟨word, hw, h29, h18, h13, h8, h2, h1, h0⟩ := fields_3_11_5_5_6_1_1 2#3 i a d 40#6 (safeBit sp) 1#1
  refine encodes32 (i := fun q => .lnch i a d q) sp rfl (hw ▸ rfl) h0 h1 fun q => (major_28 q h2).trans ?_
  simp [decodeMajor28, h29, h18, h13, h8]

theorem Encodes.graph (a : BitVec 5) (d : BitVec 5) (sp : Sp) : Encodes.Statement (.graph a d sp) := by
  obtain ⟨word, hw, h29, h18, h13, h8, h2, h1, h0⟩ := fields_3_11_5_5_6_1_1 3#3 0#11 a d 40#6 (safeBit sp) 1#1
  refine encodes32 (i := fun q => .graph a d q) sp rfl (hw ▸ rfl) h0 h1 fun q => (major_28 q h2).trans ?_
  simp [decodeMajor28, h29, h18, h13, h8]

theorem Encodes.phase (d : BitVec 5) (sp : Sp) : Encodes.Statement (.phase d sp) := by
  obtain ⟨word, hw, h29, h18, h13, h8, h2, h1, h0⟩ := fields_3_11_5_5_6_1_1 4#3 0#11 0#5 d 40#6 (safeBit sp) 1#1
  refine encodes32 (i := fun q => .phase d q) sp rfl (hw ▸ rfl) h0 h1 fun q => (major_28 q h2).trans ?_
  simp [decodeMajor28, h29, h18, h13, h8]

theorem Encodes.cncl (a : BitVec 5) (sp : Sp) : Encodes.Statement (.cncl a sp) := by
  obtain ⟨word, hw, h29, h18, h13, h8, h2, h1, h0⟩ := fields_3_11_5_5_6_1_1 5#3 0#11 a 0#5 40#6 (safeBit sp) 1#1
  refine encodes32 (i := fun q => .cncl a q) sp rfl (hw ▸ rfl) h0 h1 fun q => (major_28 q h2).trans ?_
  simp [decodeMajor28, h29, h18, h13, h8]

theorem Encodes.lwait (a : BitVec 5) (d : BitVec 5) (sp : Sp) : Encodes.Statement (.lwait a d sp) := by
  obtain ⟨word, hw, h29, h18, h13, h8, h2, h1, h0⟩ := fields_3_11_5_5_6_1_1 6#3 0#11 a d 40#6 (safeBit sp) 1#1
  refine encodes32 (i := fun q => .lwait a d q) sp rfl (hw ▸ rfl) h0 h1 fun q => (major_28 q h2).trans ?_
  simp [decodeMajor28, h29, h18, h13, h8]

theorem Encodes.waitc (a : BitVec 5) (d : BitVec 5) (sp : Sp) : Encodes.Statement (.waitc a d sp) := by
  obtain ⟨word, hw, h29, h18, h13, h8, h2, h1, h0⟩ := fields_3_11_5_5_6_1_1 0#3 0#11 a d 41#6 (safeBit sp) 1#1
  refine encodes32 (i := fun q => .waitc a d q) sp rfl (hw ▸ rfl) h0 h1 fun q => (major_29 q h2).trans ?_
  simp [decodeMajor29, h29, h18, h13, h8]

theorem Encodes.waitt (i : BitVec 11) (a : BitVec 5) (sp : Sp) : Encodes.Statement (.waitt i a sp) := by
  obtain ⟨word, hw, h29, h18, h13, h8, h2, h1, h0⟩ := fields_3_11_5_5_6_1_1 1#3 i a 0#5 41#6 (safeBit sp) 1#1
  refine encodes32 (i := fun q => .waitt i a q) sp rfl (hw ▸ rfl) h0 h1 fun q => (major_29 q h2).trans ?_
  simp [decodeMajor29, h29, h18, h13, h8]

theorem Encodes.waita (i : BitVec 11) (a : BitVec 5) (d : BitVec 5) (sp : Sp) : Encodes.Statement (.waita i a d sp) := by
  obtain ⟨word, hw, h29, h18, h13, h8, h2, h1, h0⟩ := fields_3_11_5_5_6_1_1 2#3 i a d 41#6 (safeBit sp) 1#1
  refine encodes32 (i := fun q => .waita i a d q) sp rfl (hw ▸ rfl) h0 h1 fun q => (major_29 q h2).trans ?_
  simp [decodeMajor29, h29, h18, h13, h8]

theorem Encodes.tfirst (i : BitVec 11) (a : BitVec 5) (d : BitVec 5) (sp : Sp) : Encodes.Statement (.tfirst i a d sp) := by
  obtain ⟨word, hw, h29, h18, h13, h8, h2, h1, h0⟩ := fields_3_11_5_5_6_1_1 3#3 i a d 41#6 (safeBit sp) 1#1
  refine encodes32 (i := fun q => .tfirst i a d q) sp rfl (hw ▸ rfl) h0 h1 fun q => (major_29 q h2).trans ?_
  simp [decodeMajor29, h29, h18, h13, h8]

theorem Encodes.tagclr (i : BitVec 11) (a : BitVec 5) (sp : Sp) : Encodes.Statement (.tagclr i a sp) := by
  obtain ⟨word, hw, h29, h18, h13, h8, h2, h1, h0⟩ := fields_3_11_5_5_6_1_1 4#3 i a 0#5 41#6 (safeBit sp) 1#1
  refine encodes32 (i := fun q => .tagclr i a q) sp rfl (hw ▸ rfl) h0 h1 fun q => (major_29 q h2).trans ?_
  simp [decodeMajor29, h29, h18, h13, h8]

theorem Encodes.safe (sp : Sp) : Encodes.Statement (.safe sp) := by
  obtain ⟨word, hw, h29, h18, h13, h8, h2, h1, h0⟩ := fields_3_11_5_5_6_1_1 5#3 0#11 0#5 0#5 41#6 (safeBit sp) 1#1
  refine encodes32 (i := fun q => .safe q) sp rfl (hw ▸ rfl) h0 h1 fun q => (major_29 q h2).trans ?_
  simp [decodeMajor29, h29, h18, h13, h8]

theorem Encodes.trap (g : BitVec 3) (i : BitVec 11) (sp : Sp) : Encodes.Statement (.trap g i sp) := by
  obtain ⟨word, hw, h29, h18, h13, h8, h2, h1, h0⟩ := fields_3_11_5_5_6_1_1 g i 0#5 0#5 42#6 (safeBit sp) 1#1
  refine encodes32 (i := fun q => .trap g i q) sp rfl (hw ▸ rfl) h0 h1 fun q => (major_2A q h2).trans ?_
  simp [decodeMajor2A, h29, h18, h13, h8]

theorem Encodes.tret (i : BitVec 11) (sp : Sp) : Encodes.Statement (.tret i sp) := by
  obtain ⟨word, hw, h29, h18, h13, h8, h2, h1, h0⟩ := fields_3_11_5_5_6_1_1 0#3 i 0#5 0#5 43#6 (safeBit sp) 1#1
  refine encodes32 (i := fun q => .tret i q) sp rfl (hw ▸ rfl) h0 h1 fun q => (major_2B q h2).trans ?_
  simp [decodeMajor2B, h29, h18, h13, h8]

theorem Encodes.brk (i : BitVec 11) (sp : Sp) : Encodes.Statement (.brk i sp) := by
  obtain ⟨word, hw, h29, h18, h13, h8, h2, h1, h0⟩ := fields_3_11_5_5_6_1_1 1#3 i 0#5 0#5 43#6 (safeBit sp) 1#1
  refine encodes32 (i := fun q => .brk i q) sp rfl (hw ▸ rfl) h0 h1 fun q => (major_2B q h2).trans ?_
  simp [decodeMajor2B, h29, h18, h13, h8]

theorem Encodes.trace (i : BitVec 11) (a : BitVec 5) (sp : Sp) : Encodes.Statement (.trace i a sp) := by
  obtain ⟨word, hw, h29, h18, h13, h8, h2, h1, h0⟩ := fields_3_11_5_5_6_1_1 2#3 i a 0#5 43#6 (safeBit sp) 1#1
  refine encodes32 (i := fun q => .trace i a q) sp rfl (hw ▸ rfl) h0 h1 fun q => (major_2B q h2).trans ?_
  simp [decodeMajor2B, h29, h18, h13, h8]

theorem Encodes.csrd (c : BitVec 12) (d : BitVec 5) (sp : Sp) : Encodes.Statement (.csrd c d sp) := by
  obtain ⟨word, hw, h30, h18, h13, h8, h2, h1, h0⟩ := fields_2_12_5_5_6_1_1 0#2 c 0#5 d 44#6 (safeBit sp) 1#1
  refine encodes32 (i := fun q => .csrd c d q) sp rfl (hw ▸ rfl) h0 h1 fun q => (major_2C q h2).trans ?_
  simp [decodeMajor2C, h30, h18, h13, h8]

theorem Encodes.cswr (c : BitVec 12) (a : BitVec 5) (d : BitVec 5) (sp : Sp) : Encodes.Statement (.cswr c a d sp) := by
  obtain ⟨word, hw, h30, h18, h13, h8, h2, h1, h0⟩ := fields_2_12_5_5_6_1_1 1#2 c a d 44#6 (safeBit sp) 1#1
  refine encodes32 (i := fun q => .cswr c a d q) sp rfl (hw ▸ rfl) h0 h1 fun q => (major_2C q h2).trans ?_
  simp [decodeMajor2C, h30, h18, h13, h8]

theorem Encodes.csset (c : BitVec 12) (a : BitVec 5) (d : BitVec 5) (sp : Sp) : Encodes.Statement (.csset c a d sp) := by
  obtain ⟨word, hw, h30, h18, h13, h8, h2, h1, h0⟩ := fields_2_12_5_5_6_1_1 2#2 c a d 44#6 (safeBit sp) 1#1
  refine encodes32 (i := fun q => .csset c a d q) sp rfl (hw ▸ rfl) h0 h1 fun q => (major_2C q h2).trans ?_
  simp [decodeMajor2C, h30, h18, h13, h8]

theorem Encodes.csclr (c : BitVec 12) (a : BitVec 5) (d : BitVec 5) (sp : Sp) : Encodes.Statement (.csclr c a d sp) := by
  obtain ⟨word, hw, h30, h18, h13, h8, h2, h1, h0⟩ := fields_2_12_5_5_6_1_1 3#2 c a d 44#6 (safeBit sp) 1#1
  refine encodes32 (i := fun q => .csclr c a d q) sp rfl (hw ▸ rfl) h0 h1 fun q => (major_2C q h2).trans ?_
  simp [decodeMajor2C, h30, h18, h13, h8]

theorem Encodes.capmint (i : BitVec 11) (a : BitVec 5) (d : BitVec 5) (sp : Sp) : Encodes.Statement (.capmint i a d sp) := by
  obtain ⟨word, hw, h29, h18, h13, h8, h2, h1, h0⟩ := fields_3_11_5_5_6_1_1 0#3 i a d 45#6 (safeBit sp) 1#1
  refine encodes32 (i := fun q => .capmint i a d q) sp rfl (hw ▸ rfl) h0 h1 fun q => (major_2D q h2).trans ?_
  simp [decodeMajor2D, h29, h18, h13, h8]

theorem Encodes.caprev (a : BitVec 5) (sp : Sp) : Encodes.Statement (.caprev a sp) := by
  obtain ⟨word, hw, h29, h18, h13, h8, h2, h1, h0⟩ := fields_3_11_5_5_6_1_1 1#3 0#11 a 0#5 45#6 (safeBit sp) 1#1
  refine encodes32 (i := fun q => .caprev a q) sp rfl (hw ▸ rfl) h0 h1 fun q => (major_2D q h2).trans ?_
  simp [decodeMajor2D, h29, h18, h13, h8]

theorem Encodes.halt (a : BitVec 5) (sp : Sp) : Encodes.Statement (.halt a sp) := by
  obtain ⟨word, hw, h29, h18, h13, h8, h2, h1, h0⟩ := fields_3_11_5_5_6_1_1 0#3 0#11 a 0#5 46#6 (safeBit sp) 1#1
  refine encodes32 (i := fun q => .halt a q) sp rfl (hw ▸ rfl) h0 h1 fun q => (major_2E q h2).trans ?_
  simp [decodeMajor2E, h29, h18, h13, h8]

theorem Encodes.sleep (a : BitVec 5) (d : BitVec 5) (sp : Sp) : Encodes.Statement (.sleep a d sp) := by
  obtain ⟨word, hw, h29, h18, h13, h8, h2, h1, h0⟩ := fields_3_11_5_5_6_1_1 1#3 0#11 a d 46#6 (safeBit sp) 1#1
  refine encodes32 (i := fun q => .sleep a d q) sp rfl (hw ▸ rfl) h0 h1 fun q => (major_2E q h2).trans ?_
  simp [decodeMajor2E, h29, h18, h13, h8]

theorem Encodes.wfr (a : BitVec 5) (d : BitVec 5) (sp : Sp) : Encodes.Statement (.wfr a d sp) := by
  obtain ⟨word, hw, h29, h18, h13, h8, h2, h1, h0⟩ := fields_3_11_5_5_6_1_1 2#3 0#11 a d 46#6 (safeBit sp) 1#1
  refine encodes32 (i := fun q => .wfr a d q) sp rfl (hw ▸ rfl) h0 h1 fun q => (major_2E q h2).trans ?_
  simp [decodeMajor2E, h29, h18, h13, h8]

theorem Encodes.move (i : BitVec 11) (a : BitVec 5) (sp : Sp) : Encodes.Statement (.move i a sp) := by
  obtain ⟨word, hw, h29, h18, h13, h8, h2, h1, h0⟩ := fields_3_11_5_5_6_1_1 3#3 i a 0#5 46#6 (safeBit sp) 1#1
  refine encodes32 (i := fun q => .move i a q) sp rfl (hw ▸ rfl) h0 h1 fun q => (major_2E q h2).trans ?_
  simp [decodeMajor2E, h29, h18, h13, h8]

theorem Encodes.shld (i : BitVec 11) (a : BitVec 5) (d : BitVec 5) (sp : Sp) : Encodes.Statement (.shld i a d sp) := by
  obtain ⟨word, hw, h29, h18, h13, h8, h2, h1, h0⟩ := fields_3_11_5_5_6_1_1 0#3 i a d 48#6 (safeBit sp) 1#1
  refine encodes32 (i := fun q => .shld i a d q) sp rfl (hw ▸ rfl) h0 h1 fun q => (major_30 q h2).trans ?_
  simp [decodeMajor30, h29, h18, h13, h8]

theorem Encodes.shst (a : BitVec 5) (d : BitVec 5) (sp : Sp) : Encodes.Statement (.shst a d sp) := by
  obtain ⟨word, hw, h29, h18, h13, h8, h2, h1, h0⟩ := fields_3_11_5_5_6_1_1 1#3 0#11 a d 48#6 (safeBit sp) 1#1
  refine encodes32 (i := fun q => .shst a d q) sp rfl (hw ▸ rfl) h0 h1 fun q => (major_30 q h2).trans ?_
  simp [decodeMajor30, h29, h18, h13, h8]

theorem Encodes.shmod (i : BitVec 11) (a : BitVec 5) (d : BitVec 5) (sp : Sp) : Encodes.Statement (.shmod i a d sp) := by
  obtain ⟨word, hw, h29, h18, h13, h8, h2, h1, h0⟩ := fields_3_11_5_5_6_1_1 2#3 i a d 48#6 (safeBit sp) 1#1
  refine encodes32 (i := fun q => .shmod i a d q) sp rfl (hw ▸ rfl) h0 h1 fun q => (major_30 q h2).trans ?_
  simp [decodeMajor30, h29, h18, h13, h8]

theorem Encodes.vadd (t : BitVec 5) (b : BitVec 5) (a : BitVec 5) (d : BitVec 5) (sp : Sp) : Encodes.Statement (.vadd t b a d sp) := by
  obtain ⟨word, hw, h28, h23, h18, h13, h8, h2, h1, h0⟩ := fields_4_5_5_5_5_6_1_1 0#4 t b a d 49#6 (safeBit sp) 1#1
  refine encodes32 (i := fun q => .vadd t b a d q) sp rfl (hw ▸ rfl) h0 h1 fun q => (major_31 q h2).trans ?_
  simp [decodeMajor31, h28, h23, h18, h13, h8]

theorem Encodes.vsub (t : BitVec 5) (b : BitVec 5) (a : BitVec 5) (d : BitVec 5) (sp : Sp) : Encodes.Statement (.vsub t b a d sp) := by
  obtain ⟨word, hw, h28, h23, h18, h13, h8, h2, h1, h0⟩ := fields_4_5_5_5_5_6_1_1 1#4 t b a d 49#6 (safeBit sp) 1#1
  refine encodes32 (i := fun q => .vsub t b a d q) sp rfl (hw ▸ rfl) h0 h1 fun q => (major_31 q h2).trans ?_
  simp [decodeMajor31, h28, h23, h18, h13, h8]

theorem Encodes.vmul (t : BitVec 5) (b : BitVec 5) (a : BitVec 5) (d : BitVec 5) (sp : Sp) : Encodes.Statement (.vmul t b a d sp) := by
  obtain ⟨word, hw, h28, h23, h18, h13, h8, h2, h1, h0⟩ := fields_4_5_5_5_5_6_1_1 2#4 t b a d 49#6 (safeBit sp) 1#1
  refine encodes32 (i := fun q => .vmul t b a d q) sp rfl (hw ▸ rfl) h0 h1 fun q => (major_31 q h2).trans ?_
  simp [decodeMajor31, h28, h23, h18, h13, h8]

theorem Encodes.vfma (t : BitVec 5) (b : BitVec 5) (a : BitVec 5) (d : BitVec 5) (sp : Sp) : Encodes.Statement (.vfma t b a d sp) := by
  obtain ⟨word, hw, h28, h23, h18, h13, h8, h2, h1, h0⟩ := fields_4_5_5_5_5_6_1_1 3#4 t b a d 49#6 (safeBit sp) 1#1
  refine encodes32 (i := fun q => .vfma t b a d q) sp rfl (hw ▸ rfl) h0 h1 fun q => (major_31 q h2).trans ?_
  simp [decodeMajor31, h28, h23, h18, h13, h8]

theorem Encodes.vdiv (t : BitVec 5) (b : BitVec 5) (a : BitVec 5) (d : BitVec 5) (sp : Sp) : Encodes.Statement (.vdiv t b a d sp) := by
  obtain ⟨word, hw, h28, h23, h18, h13, h8, h2, h1, h0⟩ := fields_4_5_5_5_5_6_1_1 4#4 t b a d 49#6 (safeBit sp) 1#1
  refine encodes32 (i := fun q => .vdiv t b a d q) sp rfl (hw ▸ rfl) h0 h1 fun q => (major_31 q h2).trans ?_
  simp [decodeMajor31, h28, h23, h18, h13, h8]

theorem Encodes.vmin (t : BitVec 5) (b : BitVec 5) (a : BitVec 5) (d : BitVec 5) (sp : Sp) : Encodes.Statement (.vmin t b a d sp) := by
  obtain ⟨word, hw, h28, h23, h18, h13, h8, h2, h1, h0⟩ := fields_4_5_5_5_5_6_1_1 5#4 t b a d 49#6 (safeBit sp) 1#1
  refine encodes32 (i := fun q => .vmin t b a d q) sp rfl (hw ▸ rfl) h0 h1 fun q => (major_31 q h2).trans ?_
  simp [decodeMajor31, h28, h23, h18, h13, h8]

theorem Encodes.vmax (t : BitVec 5) (b : BitVec 5) (a : BitVec 5) (d : BitVec 5) (sp : Sp) : Encodes.Statement (.vmax t b a d sp) := by
  obtain ⟨word, hw, h28, h23, h18, h13, h8, h2, h1, h0⟩ := fields_4_5_5_5_5_6_1_1 6#4 t b a d 49#6 (safeBit sp) 1#1
  refine encodes32 (i := fun q => .vmax t b a d q) sp rfl (hw ▸ rfl) h0 h1 fun q => (major_31 q h2).trans ?_
  simp [decodeMajor31, h28, h23, h18, h13, h8]

theorem Encodes.vabs (t : BitVec 5) (a : BitVec 5) (d : BitVec 5) (sp : Sp) : Encodes.Statement (.vabs t a d sp) := by
  obtain ⟨word, hw, h28, h23, h18, h13, h8, h2, h1, h0⟩ := fields_4_5_5_5_5_6_1_1 7#4 t 0#5 a d 49#6 (safeBit sp) 1#1
  refine encodes32 (i := fun q => .vabs t a d q) sp rfl (hw ▸ rfl) h0 h1 fun q => (major_31 q h2).trans ?_
  simp [decodeMajor31, h28, h23, h18, h13, h8]

theorem Encodes.vneg (t : BitVec 5) (a : BitVec 5) (d : BitVec 5) (sp : Sp) : Encodes.Statement (.vneg t a d sp) := by
  obtain ⟨word, hw, h28, h23, h18, h13, h8, h2, h1, h0⟩ := fields_4_5_5_5_5_6_1_1 8#4 t 0#5 a d 49#6 (safeBit sp) 1#1
  refine encodes32 (i := fun q => .vneg t a d q) sp rfl (hw ▸ rfl) h0 h1 fun q => (major_31 q h2).trans ?_
  simp [decodeMajor31, h28, h23, h18, h13, h8]

theorem Encodes.vrsq (t : BitVec 5) (a : BitVec 5) (d : BitVec 5) (sp : Sp) : Encodes.Statement (.vrsq t a d sp) := by
  obtain ⟨word, hw, h28, h23, h18, h13, h8, h2, h1, h0⟩ := fields_4_5_5_5_5_6_1_1 9#4 t 0#5 a d 49#6 (safeBit sp) 1#1
  refine encodes32 (i := fun q => .vrsq t a d q) sp rfl (hw ▸ rfl) h0 h1 fun q => (major_31 q h2).trans ?_
  simp [decodeMajor31, h28, h23, h18, h13, h8]

theorem Encodes.vexp2 (t : BitVec 5) (a : BitVec 5) (d : BitVec 5) (sp : Sp) : Encodes.Statement (.vexp2 t a d sp) := by
  obtain ⟨word, hw, h28, h23, h18, h13, h8, h2, h1, h0⟩ := fields_4_5_5_5_5_6_1_1 10#4 t 0#5 a d 49#6 (safeBit sp) 1#1
  refine encodes32 (i := fun q => .vexp2 t a d q) sp rfl (hw ▸ rfl) h0 h1 fun q => (major_31 q h2).trans ?_
  simp [decodeMajor31, h28, h23, h18, h13, h8]

theorem Encodes.vlog2 (t : BitVec 5) (a : BitVec 5) (d : BitVec 5) (sp : Sp) : Encodes.Statement (.vlog2 t a d sp) := by
  obtain ⟨word, hw, h28, h23, h18, h13, h8, h2, h1, h0⟩ := fields_4_5_5_5_5_6_1_1 11#4 t 0#5 a d 49#6 (safeBit sp) 1#1
  refine encodes32 (i := fun q => .vlog2 t a d q) sp rfl (hw ▸ rfl) h0 h1 fun q => (major_31 q h2).trans ?_
  simp [decodeMajor31, h28, h23, h18, h13, h8]

theorem Encodes.vand (t : BitVec 5) (b : BitVec 5) (a : BitVec 5) (d : BitVec 5) (sp : Sp) : Encodes.Statement (.vand t b a d sp) := by
  obtain ⟨word, hw, h28, h23, h18, h13, h8, h2, h1, h0⟩ := fields_4_5_5_5_5_6_1_1 0#4 t b a d 50#6 (safeBit sp) 1#1
  refine encodes32 (i := fun q => .vand t b a d q) sp rfl (hw ▸ rfl) h0 h1 fun q => (major_32 q h2).trans ?_
  simp [decodeMajor32, h28, h23, h18, h13, h8]

theorem Encodes.vor (t : BitVec 5) (b : BitVec 5) (a : BitVec 5) (d : BitVec 5) (sp : Sp) : Encodes.Statement (.vor t b a d sp) := by
  obtain ⟨word, hw, h28, h23, h18, h13, h8, h2, h1, h0⟩ := fields_4_5_5_5_5_6_1_1 1#4 t b a d 50#6 (safeBit sp) 1#1
  refine encodes32 (i := fun q => .vor t b a d q) sp rfl (hw ▸ rfl) h0 h1 fun q => (major_32 q h2).trans ?_
  simp [decodeMajor32, h28, h23, h18, h13, h8]

theorem Encodes.vxor (t : BitVec 5) (b : BitVec 5) (a : BitVec 5) (d : BitVec 5) (sp : Sp) : Encodes.Statement (.vxor t b a d sp) := by
  obtain ⟨word, hw, h28, h23, h18, h13, h8, h2, h1, h0⟩ := fields_4_5_5_5_5_6_1_1 2#4 t b a d 50#6 (safeBit sp) 1#1
  refine encodes32 (i := fun q => .vxor t b a d q) sp rfl (hw ▸ rfl) h0 h1 fun q => (major_32 q h2).trans ?_
  simp [decodeMajor32, h28, h23, h18, h13, h8]

theorem Encodes.vshl (t : BitVec 5) (b : BitVec 5) (a : BitVec 5) (d : BitVec 5) (sp : Sp) : Encodes.Statement (.vshl t b a d sp) := by
  obtain ⟨word, hw, h28, h23, h18, h13, h8, h2, h1, h0⟩ := fields_4_5_5_5_5_6_1_1 3#4 t b a d 50#6 (safeBit sp) 1#1
  refine encodes32 (i := fun q => .vshl t b a d q) sp rfl (hw ▸ rfl) h0 h1 fun q => (major_32 q h2).trans ?_
  simp [decodeMajor32, h28, h23, h18, h13, h8]

theorem Encodes.vshr (t : BitVec 5) (b : BitVec 5) (a : BitVec 5) (d : BitVec 5) (sp : Sp) : Encodes.Statement (.vshr t b a d sp) := by
  obtain ⟨word, hw, h28, h23, h18, h13, h8, h2, h1, h0⟩ := fields_4_5_5_5_5_6_1_1 4#4 t b a d 50#6 (safeBit sp) 1#1
  refine encodes32 (i := fun q => .vshr t b a d q) sp rfl (hw ▸ rfl) h0 h1 fun q => (major_32 q h2).trans ?_
  simp [decodeMajor32, h28, h23, h18, h13, h8]

theorem Encodes.vsel (t : BitVec 5) (b : BitVec 5) (a : BitVec 5) (d : BitVec 5) (sp : Sp) : Encodes.Statement (.vsel t b a d sp) := by
  obtain ⟨word, hw, h28, h23, h18, h13, h8, h2, h1, h0⟩ := fields_4_5_5_5_5_6_1_1 5#4 t b a d 50#6 (safeBit sp) 1#1
  refine encodes32 (i := fun q => .vsel t b a d q) sp rfl (hw ▸ rfl) h0 h1 fun q => (major_32 q h2).trans ?_
  simp [decodeMajor32, h28, h23, h18, h13, h8]

theorem Encodes.vcmp (c : BitVec 4) (t : BitVec 5) (b : BitVec 5) (a : BitVec 5) (d : BitVec 5) (sp : Sp) : Encodes.Statement (.vcmp c t b a d sp) := by
  obtain ⟨word, hw, h28, h23, h18, h13, h8, h2, h1, h0⟩ := fields_4_5_5_5_5_6_1_1 c t b a d 51#6 (safeBit sp) 1#1
  refine encodes32 (i := fun q => .vcmp c t b a d q) sp rfl (hw ▸ rfl) h0 h1 fun q => (major_33 q h2).trans ?_
  simp [decodeMajor33, h28, h23, h18, h13, h8]

theorem Encodes.vred (o : BitVec 4) (t : BitVec 5) (a : BitVec 5) (d : BitVec 5) (sp : Sp) : Encodes.Statement (.vred o t a d sp) := by
  obtain ⟨word, hw, h28, h23, h18, h13, h8, h2, h1, h0⟩ := fields_4_5_5_5_5_6_1_1 o t 0#5 a d 52#6 (safeBit sp) 1#1
  refine encodes32 (i := fun q => .vred o t a d q) sp rfl (hw ▸ rfl) h0 h1 fun q => (major_34 q h2).trans ?_
  simp [decodeMajor34, h28, h23, h18, h13, h8]

theorem Encodes.vscan (o : BitVec 4) (t : BitVec 5) (a : BitVec 5) (d : BitVec 5) (sp : Sp) : Encodes.Statement (.vscan o t a d sp) := by
  obtain ⟨word, hw, h28, h23, h18, h13, h8, h2, h1, h0⟩ := fields_4_5_5_5_5_6_1_1 o t 0#5 a d 53#6 (safeBit sp) 1#1
  refine encodes32 (i := fun q => .vscan o t a d q) sp rfl (hw ▸ rfl) h0 h1 fun q => (major_35 q h2).trans ?_
  simp [decodeMajor35, h28, h23, h18, h13, h8]

theorem Encodes.vcvt (t : BitVec 5) (a : BitVec 5) (d : BitVec 5) (sp : Sp) : Encodes.Statement (.vcvt t a d sp) := by
  obtain ⟨word, hw, h28, h23, h18, h13, h8, h2, h1, h0⟩ := fields_4_5_5_5_5_6_1_1 0#4 t 0#5 a d 54#6 (safeBit sp) 1#1
  refine encodes32 (i := fun q => .vcvt t a d q) sp rfl (hw ▸ rfl) h0 h1 fun q => (major_36 q h2).trans ?_
  simp [decodeMajor36, h28, h23, h18, h13, h8]

theorem Encodes.vqnt (t : BitVec 5) (a : BitVec 5) (d : BitVec 5) (sp : Sp) : Encodes.Statement (.vqnt t a d sp) := by
  obtain ⟨word, hw, h28, h23, h18, h13, h8, h2, h1, h0⟩ := fields_4_5_5_5_5_6_1_1 1#4 t 0#5 a d 54#6 (safeBit sp) 1#1
  refine encodes32 (i := fun q => .vqnt t a d q) sp rfl (hw ▸ rfl) h0 h1 fun q => (major_36 q h2).trans ?_
  simp [decodeMajor36, h28, h23, h18, h13, h8]

theorem Encodes.vfill (t : BitVec 5) (a : BitVec 5) (d : BitVec 5) (sp : Sp) : Encodes.Statement (.vfill t a d sp) := by
  obtain ⟨word, hw, h28, h23, h18, h13, h8, h2, h1, h0⟩ := fields_4_5_5_5_5_6_1_1 2#4 t 0#5 a d 54#6 (safeBit sp) 1#1
  refine encodes32 (i := fun q => .vfill t a d q) sp rfl (hw ▸ rfl) h0 h1 fun q => (major_36 q h2).trans ?_
  simp [decodeMajor36, h28, h23, h18, h13, h8]

theorem Encodes.vident (t : BitVec 5) (a : BitVec 5) (d : BitVec 5) (sp : Sp) : Encodes.Statement (.vident t a d sp) := by
  obtain ⟨word, hw, h28, h23, h18, h13, h8, h2, h1, h0⟩ := fields_4_5_5_5_5_6_1_1 3#4 t 0#5 a d 54#6 (safeBit sp) 1#1
  refine encodes32 (i := fun q => .vident t a d q) sp rfl (hw ▸ rfl) h0 h1 fun q => (major_36 q h2).trans ?_
  simp [decodeMajor36, h28, h23, h18, h13, h8]

theorem Encodes.vcpy (t : BitVec 5) (a : BitVec 5) (d : BitVec 5) (sp : Sp) : Encodes.Statement (.vcpy t a d sp) := by
  obtain ⟨word, hw, h28, h23, h18, h13, h8, h2, h1, h0⟩ := fields_4_5_5_5_5_6_1_1 4#4 t 0#5 a d 54#6 (safeBit sp) 1#1
  refine encodes32 (i := fun q => .vcpy t a d q) sp rfl (hw ▸ rfl) h0 h1 fun q => (major_36 q h2).trans ?_
  simp [decodeMajor36, h28, h23, h18, h13, h8]

theorem Encodes.vgath (t : BitVec 5) (b : BitVec 5) (a : BitVec 5) (d : BitVec 5) (sp : Sp) : Encodes.Statement (.vgath t b a d sp) := by
  obtain ⟨word, hw, h28, h23, h18, h13, h8, h2, h1, h0⟩ := fields_4_5_5_5_5_6_1_1 5#4 t b a d 54#6 (safeBit sp) 1#1
  refine encodes32 (i := fun q => .vgath t b a d q) sp rfl (hw ▸ rfl) h0 h1 fun q => (major_36 q h2).trans ?_
  simp [decodeMajor36, h28, h23, h18, h13, h8]

theorem Encodes.vscat (t : BitVec 5) (b : BitVec 5) (a : BitVec 5) (d : BitVec 5) (sp : Sp) : Encodes.Statement (.vscat t b a d sp) := by
  obtain ⟨word, hw, h28, h23, h18, h13, h8, h2, h1, h0⟩ := fields_4_5_5_5_5_6_1_1 6#4 t b a d 54#6 (safeBit sp) 1#1
  refine encodes32 (i := fun q => .vscat t b a d q) sp rfl (hw ▸ rfl) h0 h1 fun q => (major_36 q h2).trans ?_
  simp [decodeMajor36, h28, h23, h18, h13, h8]

theorem Encodes.vtrn (t : BitVec 5) (a : BitVec 5) (d : BitVec 5) (sp : Sp) : Encodes.Statement (.vtrn t a d sp) := by
  obtain ⟨word, hw, h28, h23, h18, h13, h8, h2, h1, h0⟩ := fields_4_5_5_5_5_6_1_1 7#4 t 0#5 a d 54#6 (safeBit sp) 1#1
  refine encodes32 (i := fun q => .vtrn t a d q) sp rfl (hw ▸ rfl) h0 h1 fun q => (major_36 q h2).trans ?_
  simp [decodeMajor36, h28, h23, h18, h13, h8]

theorem Encodes.mcfg (a : BitVec 5) (sp : Sp) : Encodes.Statement (.mcfg a sp) := by
  obtain ⟨word, hw, h28, h23, h18, h13, h8, h2, h1, h0⟩ := fields_4_5_5_5_5_6_1_1 0#4 0#5 0#5 a 0#5 56#6 (safeBit sp) 1#1
  refine encodes32 (i := fun q => .mcfg a q) sp rfl (hw ▸ rfl) h0 h1 fun q => (major_38 q h2).trans ?_
  simp [decodeMajor38, h28, h23, h18, h13, h8]

theorem Encodes.mbld (t : BitVec 5) (a : BitVec 5) (sp : Sp) : Encodes.Statement (.mbld t a sp) := by
  obtain ⟨word, hw, h28, h23, h18, h13, h8, h2, h1, h0⟩ := fields_4_5_5_5_5_6_1_1 1#4 t 0#5 a 0#5 56#6 (safeBit sp) 1#1
  refine encodes32 (i := fun q => .mbld t a q) sp rfl (hw ▸ rfl) h0 h1 fun q => (major_38 q h2).trans ?_
  simp [decodeMajor38, h28, h23, h18, h13, h8]

theorem Encodes.mgat (t : BitVec 5) (b : BitVec 5) (a : BitVec 5) (sp : Sp) : Encodes.Statement (.mgat t b a sp) := by
  obtain ⟨word, hw, h28, h23, h18, h13, h8, h2, h1, h0⟩ := fields_4_5_5_5_5_6_1_1 2#4 t b a 0#5 56#6 (safeBit sp) 1#1
  refine encodes32 (i := fun q => .mgat t b a q) sp rfl (hw ▸ rfl) h0 h1 fun q => (major_38 q h2).trans ?_
  simp [decodeMajor38, h28, h23, h18, h13, h8]

theorem Encodes.mma (a : BitVec 5) (sp : Sp) : Encodes.Statement (.mma a sp) := by
  obtain ⟨word, hw, h28, h23, h18, h13, h8, h2, h1, h0⟩ := fields_4_5_5_5_5_6_1_1 3#4 0#5 0#5 a 0#5 56#6 (safeBit sp) 1#1
  refine encodes32 (i := fun q => .mma a q) sp rfl (hw ▸ rfl) h0 h1 fun q => (major_38 q h2).trans ?_
  simp [decodeMajor38, h28, h23, h18, h13, h8]

theorem Encodes.mmaz (a : BitVec 5) (sp : Sp) : Encodes.Statement (.mmaz a sp) := by
  obtain ⟨word, hw, h28, h23, h18, h13, h8, h2, h1, h0⟩ := fields_4_5_5_5_5_6_1_1 4#4 0#5 0#5 a 0#5 56#6 (safeBit sp) 1#1
  refine encodes32 (i := fun q => .mmaz a q) sp rfl (hw ▸ rfl) h0 h1 fun q => (major_38 q h2).trans ?_
  simp [decodeMajor38, h28, h23, h18, h13, h8]

theorem Encodes.mrec (a : BitVec 5) (sp : Sp) : Encodes.Statement (.mrec a sp) := by
  obtain ⟨word, hw, h28, h23, h18, h13, h8, h2, h1, h0⟩ := fields_4_5_5_5_5_6_1_1 5#4 0#5 0#5 a 0#5 56#6 (safeBit sp) 1#1
  refine encodes32 (i := fun q => .mrec a q) sp rfl (hw ▸ rfl) h0 h1 fun q => (major_38 q h2).trans ?_
  simp [decodeMajor38, h28, h23, h18, h13, h8]

theorem Encodes.mupl (a : BitVec 5) (sp : Sp) : Encodes.Statement (.mupl a sp) := by
  obtain ⟨word, hw, h28, h23, h18, h13, h8, h2, h1, h0⟩ := fields_4_5_5_5_5_6_1_1 6#4 0#5 0#5 a 0#5 56#6 (safeBit sp) 1#1
  refine encodes32 (i := fun q => .mupl a q) sp rfl (hw ▸ rfl) h0 h1 fun q => (major_38 q h2).trans ?_
  simp [decodeMajor38, h28, h23, h18, h13, h8]

theorem Encodes.msync (sp : Sp) : Encodes.Statement (.msync sp) := by
  obtain ⟨word, hw, h28, h23, h18, h13, h8, h2, h1, h0⟩ := fields_4_5_5_5_5_6_1_1 7#4 0#5 0#5 0#5 0#5 56#6 (safeBit sp) 1#1
  refine encodes32 (i := fun q => .msync q) sp rfl (hw ▸ rfl) h0 h1 fun q => (major_38 q h2).trans ?_
  simp [decodeMajor38, h28, h23, h18, h13, h8]

theorem Encodes.mstat (d : BitVec 5) (sp : Sp) : Encodes.Statement (.mstat d sp) := by
  obtain ⟨word, hw, h28, h23, h18, h13, h8, h2, h1, h0⟩ := fields_4_5_5_5_5_6_1_1 8#4 0#5 0#5 0#5 d 56#6 (safeBit sp) 1#1
  refine encodes32 (i := fun q => .mstat d q) sp rfl (hw ▸ rfl) h0 h1 fun q => (major_38 q h2).trans ?_
  simp [decodeMajor38, h28, h23, h18, h13, h8]

theorem Encodes.mcmd (o : BitVec 5) (b : BitVec 5) (a : BitVec 5) (sp : Sp) : Encodes.Statement (.mcmd o b a sp) := by
  obtain ⟨word, hw, h28, h23, h18, h13, h8, h2, h1, h0⟩ := fields_4_5_5_5_5_6_1_1 0#4 o b a 0#5 57#6 (safeBit sp) 1#1
  refine encodes32 (i := fun q => .mcmd o b a q) sp rfl (hw ▸ rfl) h0 h1 fun q => (major_39 q h2).trans ?_
  simp [decodeMajor39, h28, h23, h18, h13, h8]

theorem Encodes.mcap (b : BitVec 5) (a : BitVec 5) (d : BitVec 5) (sp : Sp) : Encodes.Statement (.mcap b a d sp) := by
  obtain ⟨word, hw, h28, h23, h18, h13, h8, h2, h1, h0⟩ := fields_4_5_5_5_5_6_1_1 1#4 0#5 b a d 57#6 (safeBit sp) 1#1
  refine encodes32 (i := fun q => .mcap b a d q) sp rfl (hw ▸ rfl) h0 h1 fun q => (major_39 q h2).trans ?_
  simp [decodeMajor39, h28, h23, h18, h13, h8]

theorem Encodes.cbox (i : BitVec 11) (a : BitVec 5) (d : BitVec 5) (sp : Sp) : Encodes.Statement (.cbox i a d sp) := by
  obtain ⟨word, hw, h29, h18, h13, h8, h2, h1, h0⟩ := fields_3_11_5_5_6_1_1 0#3 i a d 60#6 (safeBit sp) 1#1
  refine encodes32 (i := fun q => .cbox i a d q) sp rfl (hw ▸ rfl) h0 h1 fun q => (major_3C q h2).trans ?_
  simp [decodeMajor3C, h29, h18, h13, h8]

theorem Encodes.cred (i : BitVec 11) (a : BitVec 5) (d : BitVec 5) (sp : Sp) : Encodes.Statement (.cred i a d sp) := by
  obtain ⟨word, hw, h29, h18, h13, h8, h2, h1, h0⟩ := fields_3_11_5_5_6_1_1 1#3 i a d 60#6 (safeBit sp) 1#1
  refine encodes32 (i := fun q => .cred i a d q) sp rfl (hw ▸ rfl) h0 h1 fun q => (major_3C q h2).trans ?_
  simp [decodeMajor3C, h29, h18, h13, h8]

theorem Encodes.ccan (i : BitVec 11) (a : BitVec 5) (sp : Sp) : Encodes.Statement (.ccan i a sp) := by
  obtain ⟨word, hw, h29, h18, h13, h8, h2, h1, h0⟩ := fields_3_11_5_5_6_1_1 2#3 i a 0#5 60#6 (safeBit sp) 1#1
  refine encodes32 (i := fun q => .ccan i a q) sp rfl (hw ▸ rfl) h0 h1 fun q => (major_3C q h2).trans ?_
  simp [decodeMajor3C, h29, h18, h13, h8]

theorem Encodes.cstat (i : BitVec 11) (a : BitVec 5) (d : BitVec 5) (sp : Sp) : Encodes.Statement (.cstat i a d sp) := by
  obtain ⟨word, hw, h29, h18, h13, h8, h2, h1, h0⟩ := fields_3_11_5_5_6_1_1 3#3 i a d 60#6 (safeBit sp) 1#1
  refine encodes32 (i := fun q => .cstat i a d q) sp rfl (hw ▸ rfl) h0 h1 fun q => (major_3C q h2).trans ?_
  simp [decodeMajor3C, h29, h18, h13, h8]

theorem Encodes.wdef (i : BitVec 11) (d : BitVec 5) (sp : Sp) : Encodes.Statement (.wdef i d sp) := by
  obtain ⟨word, hw, h29, h18, h13, h8, h2, h1, h0⟩ := fields_3_11_5_5_6_1_1 0#3 i 0#5 d 61#6 (safeBit sp) 1#1
  refine encodes32 (i := fun q => .wdef i d q) sp rfl (hw ▸ rfl) h0 h1 fun q => (major_3D q h2).trans ?_
  simp [decodeMajor3D, h29, h18, h13, h8]

theorem Encodes.wbind (i : BitVec 11) (a : BitVec 5) (d : BitVec 5) (sp : Sp) : Encodes.Statement (.wbind i a d sp) := by
  obtain ⟨word, hw, h29, h18, h13, h8, h2, h1, h0⟩ := fields_3_11_5_5_6_1_1 1#3 i a d 61#6 (safeBit sp) 1#1
  refine encodes32 (i := fun q => .wbind i a d q) sp rfl (hw ▸ rfl) h0 h1 fun q => (major_3D q h2).trans ?_
  simp [decodeMajor3D, h29, h18, h13, h8]

theorem Encodes.wpub (a : BitVec 5) (d : BitVec 5) (sp : Sp) : Encodes.Statement (.wpub a d sp) := by
  obtain ⟨word, hw, h29, h18, h13, h8, h2, h1, h0⟩ := fields_3_11_5_5_6_1_1 2#3 0#11 a d 61#6 (safeBit sp) 1#1
  refine encodes32 (i := fun q => .wpub a d q) sp rfl (hw ▸ rfl) h0 h1 fun q => (major_3D q h2).trans ?_
  simp [decodeMajor3D, h29, h18, h13, h8]

theorem Encodes.wabs (a : BitVec 5) (sp : Sp) : Encodes.Statement (.wabs a sp) := by
  obtain ⟨word, hw, h29, h18, h13, h8, h2, h1, h0⟩ := fields_3_11_5_5_6_1_1 3#3 0#11 a 0#5 61#6 (safeBit sp) 1#1
  refine encodes32 (i := fun q => .wabs a q) sp rfl (hw ▸ rfl) h0 h1 fun q => (major_3D q h2).trans ?_
  simp [decodeMajor3D, h29, h18, h13, h8]

theorem Encodes.wdepth (a : BitVec 5) (d : BitVec 5) (sp : Sp) : Encodes.Statement (.wdepth a d sp) := by
  obtain ⟨word, hw, h29, h18, h13, h8, h2, h1, h0⟩ := fields_3_11_5_5_6_1_1 4#3 0#11 a d 61#6 (safeBit sp) 1#1
  refine encodes32 (i := fun q => .wdepth a d q) sp rfl (hw ▸ rfl) h0 h1 fun q => (major_3D q h2).trans ?_
  simp [decodeMajor3D, h29, h18, h13, h8]

theorem Encodes.wqry (a : BitVec 5) (d : BitVec 5) (sp : Sp) : Encodes.Statement (.wqry a d sp) := by
  obtain ⟨word, hw, h29, h18, h13, h8, h2, h1, h0⟩ := fields_3_11_5_5_6_1_1 5#3 0#11 a d 61#6 (safeBit sp) 1#1
  refine encodes32 (i := fun q => .wqry a d q) sp rfl (hw ▸ rfl) h0 h1 fun q => (major_3D q h2).trans ?_
  simp [decodeMajor3D, h29, h18, h13, h8]

theorem Encodes.wstep (i : BitVec 11) (a : BitVec 5) (d : BitVec 5) (sp : Sp) : Encodes.Statement (.wstep i a d sp) := by
  obtain ⟨word, hw, h29, h18, h13, h8, h2, h1, h0⟩ := fields_3_11_5_5_6_1_1 6#3 i a d 61#6 (safeBit sp) 1#1
  refine encodes32 (i := fun q => .wstep i a d q) sp rfl (hw ▸ rfl) h0 h1 fun q => (major_3D q h2).trans ?_
  simp [decodeMajor3D, h29, h18, h13, h8]

theorem Encodes.addCompact (a : BitVec 4) (d : BitVec 4) : Encodes.Statement (.addCompact a d) := by
  obtain ⟨word, hw, h14, h10, h6, h1, h0⟩ := fields_2_4_4_5_1 0#2 a d 1#5 0#1
  refine encodes16 (hw ▸ rfl) h0 ((compact_1 h1).trans ?_)
  simp [decodeCompact1, h14, h10, h6]

theorem Encodes.subCompact (a : BitVec 4) (d : BitVec 4) : Encodes.Statement (.subCompact a d) := by
  obtain ⟨word, hw, h14, h10, h6, h1, h0⟩ := fields_2_4_4_5_1 1#2 a d 1#5 0#1
  refine encodes16 (hw ▸ rfl) h0 ((compact_1 h1).trans ?_)
  simp [decodeCompact1, h14, h10, h6]

theorem Encodes.andCompact (a : BitVec 4) (d : BitVec 4) : Encodes.Statement (.andCompact a d) := by
  obtain ⟨word, hw, h14, h10, h6, h1, h0⟩ := fields_2_4_4_5_1 2#2 a d 1#5 0#1
  refine encodes16 (hw ▸ rfl) h0 ((compact_1 h1).trans ?_)
  simp [decodeCompact1, h14, h10, h6]

theorem Encodes.orCompact (a : BitVec 4) (d : BitVec 4) : Encodes.Statement (.orCompact a d) := by
  obtain ⟨word, hw, h14, h10, h6, h1, h0⟩ := fields_2_4_4_5_1 3#2 a d 1#5 0#1
  refine encodes16 (hw ▸ rfl) h0 ((compact_1 h1).trans ?_)
  simp [decodeCompact1, h14, h10, h6]

theorem Encodes.xorCompact (a : BitVec 4) (d : BitVec 4) : Encodes.Statement (.xorCompact a d) := by
  obtain ⟨word, hw, h14, h10, h6, h1, h0⟩ := fields_2_4_4_5_1 0#2 a d 2#5 0#1
  refine encodes16 (hw ▸ rfl) h0 ((compact_2 h1).trans ?_)
  simp [decodeCompact2, h14, h10, h6]

theorem Encodes.mulCompact (a : BitVec 4) (d : BitVec 4) : Encodes.Statement (.mulCompact a d) := by
  obtain ⟨word, hw, h14, h10, h6, h1, h0⟩ := fields_2_4_4_5_1 1#2 a d 2#5 0#1
  refine encodes16 (hw ▸ rfl) h0 ((compact_2 h1).trans ?_)
  simp [decodeCompact2, h14, h10, h6]

theorem Encodes.shlCompact (a : BitVec 4) (d : BitVec 4) : Encodes.Statement (.shlCompact a d) := by
  obtain ⟨word, hw, h14, h10, h6, h1, h0⟩ := fields_2_4_4_5_1 2#2 a d 2#5 0#1
  refine encodes16 (hw ▸ rfl) h0 ((compact_2 h1).trans ?_)
  simp [decodeCompact2, h14, h10, h6]

theorem Encodes.shrCompact (a : BitVec 4) (d : BitVec 4) : Encodes.Statement (.shrCompact a d) := by
  obtain ⟨word, hw, h14, h10, h6, h1, h0⟩ := fields_2_4_4_5_1 3#2 a d 2#5 0#1
  refine encodes16 (hw ▸ rfl) h0 ((compact_2 h1).trans ?_)
  simp [decodeCompact2, h14, h10, h6]

theorem Encodes.shaCompact (a : BitVec 4) (d : BitVec 4) : Encodes.Statement (.shaCompact a d) := by
  obtain ⟨word, hw, h14, h10, h6, h1, h0⟩ := fields_2_4_4_5_1 0#2 a d 3#5 0#1
  refine encodes16 (hw ▸ rfl) h0 ((compact_3 h1).trans ?_)
  simp [decodeCompact3, h14, h10, h6]

theorem Encodes.minCompact (a : BitVec 4) (d : BitVec 4) : Encodes.Statement (.minCompact a d) := by
  obtain ⟨word, hw, h14, h10, h6, h1, h0⟩ := fields_2_4_4_5_1 1#2 a d 3#5 0#1
  refine encodes16 (hw ▸ rfl) h0 ((compact_3 h1).trans ?_)
  simp [decodeCompact3, h14, h10, h6]

theorem Encodes.maxCompact (a : BitVec 4) (d : BitVec 4) : Encodes.Statement (.maxCompact a d) := by
  obtain ⟨word, hw, h14, h10, h6, h1, h0⟩ := fields_2_4_4_5_1 2#2 a d 3#5 0#1
  refine encodes16 (hw ▸ rfl) h0 ((compact_3 h1).trans ?_)
  simp [decodeCompact3, h14, h10, h6]

theorem Encodes.minnCompact (a : BitVec 4) (d : BitVec 4) : Encodes.Statement (.minnCompact a d) := by
  obtain ⟨word, hw, h14, h10, h6, h1, h0⟩ := fields_2_4_4_5_1 3#2 a d 3#5 0#1
  refine encodes16 (hw ▸ rfl) h0 ((compact_3 h1).trans ?_)
  simp [decodeCompact3, h14, h10, h6]

theorem Encodes.addiCompact (i : BitVec 6) (d : BitVec 4) : Encodes.Statement (.addiCompact i d) := by
  obtain ⟨word, hw, h10, h6, h1, h0⟩ := fields_6_4_5_1 i d 4#5 0#1
  refine encodes16 (hw ▸ rfl) h0 ((compact_4 h1).trans ?_)
  simp [decodeCompact4, h10, h6]

theorem Encodes.moviCompact (i : BitVec 6) (d : BitVec 4) : Encodes.Statement (.moviCompact i d) := by
  obtain ⟨word, hw, h10, h6, h1, h0⟩ := fields_6_4_5_1 i d 5#5 0#1
  refine encodes16 (hw ▸ rfl) h0 ((compact_5 h1).trans ?_)
  simp [decodeCompact5, h10, h6]

theorem Encodes.shliCompact (i : BitVec 6) (d : BitVec 4) : Encodes.Statement (.shliCompact i d) := by
  obtain ⟨word, hw, h10, h6, h1, h0⟩ := fields_6_4_5_1 i d 6#5 0#1
  refine encodes16 (hw ▸ rfl) h0 ((compact_6 h1).trans ?_)
  simp [decodeCompact6, h10, h6]

theorem Encodes.shriCompact (i : BitVec 6) (d : BitVec 4) : Encodes.Statement (.shriCompact i d) := by
  obtain ⟨word, hw, h10, h6, h1, h0⟩ := fields_6_4_5_1 i d 7#5 0#1
  refine encodes16 (hw ▸ rfl) h0 ((compact_7 h1).trans ?_)
  simp [decodeCompact7, h10, h6]

theorem Encodes.shaiCompact (i : BitVec 6) (d : BitVec 4) : Encodes.Statement (.shaiCompact i d) := by
  obtain ⟨word, hw, h10, h6, h1, h0⟩ := fields_6_4_5_1 i d 8#5 0#1
  refine encodes16 (hw ▸ rfl) h0 ((compact_8 h1).trans ?_)
  simp [decodeCompact8, h10, h6]

theorem Encodes.andiCompact (i : BitVec 6) (d : BitVec 4) : Encodes.Statement (.andiCompact i d) := by
  obtain ⟨word, hw, h10, h6, h1, h0⟩ := fields_6_4_5_1 i d 9#5 0#1
  refine encodes16 (hw ▸ rfl) h0 ((compact_9 h1).trans ?_)
  simp [decodeCompact9, h10, h6]

theorem Encodes.ldN64Compact (k : BitVec 2) (a : BitVec 4) (d : BitVec 4) : Encodes.Statement (.ldN64Compact k a d) := by
  obtain ⟨word, hw, h14, h10, h6, h1, h0⟩ := fields_2_4_4_5_1 k a d 10#5 0#1
  refine encodes16 (hw ▸ rfl) h0 ((compact_10 h1).trans ?_)
  simp [decodeCompact10, h14, h10, h6]

theorem Encodes.stN64Compact (k : BitVec 2) (a : BitVec 4) (d : BitVec 4) : Encodes.Statement (.stN64Compact k a d) := by
  obtain ⟨word, hw, h14, h10, h6, h1, h0⟩ := fields_2_4_4_5_1 k a d 11#5 0#1
  refine encodes16 (hw ▸ rfl) h0 ((compact_11 h1).trans ?_)
  simp [decodeCompact11, h14, h10, h6]

theorem Encodes.ldN32Compact (k : BitVec 2) (a : BitVec 4) (d : BitVec 4) : Encodes.Statement (.ldN32Compact k a d) := by
  obtain ⟨word, hw, h14, h10, h6, h1, h0⟩ := fields_2_4_4_5_1 k a d 12#5 0#1
  refine encodes16 (hw ▸ rfl) h0 ((compact_12 h1).trans ?_)
  simp [decodeCompact12, h14, h10, h6]

theorem Encodes.stN32Compact (k : BitVec 2) (a : BitVec 4) (d : BitVec 4) : Encodes.Statement (.stN32Compact k a d) := by
  obtain ⟨word, hw, h14, h10, h6, h1, h0⟩ := fields_2_4_4_5_1 k a d 13#5 0#1
  refine encodes16 (hw ▸ rfl) h0 ((compact_13 h1).trans ?_)
  simp [decodeCompact13, h14, h10, h6]

theorem Encodes.brzCompact (o : BitVec 6) (d : BitVec 4) : Encodes.Statement (.brzCompact o d) := by
  obtain ⟨word, hw, h10, h6, h1, h0⟩ := fields_6_4_5_1 o d 14#5 0#1
  refine encodes16 (hw ▸ rfl) h0 ((compact_14 h1).trans ?_)
  simp [decodeCompact14, h10, h6]

theorem Encodes.brnzCompact (o : BitVec 6) (d : BitVec 4) : Encodes.Statement (.brnzCompact o d) := by
  obtain ⟨word, hw, h10, h6, h1, h0⟩ := fields_6_4_5_1 o d 15#5 0#1
  refine encodes16 (hw ▸ rfl) h0 ((compact_15 h1).trans ?_)
  simp [decodeCompact15, h10, h6]

theorem Encodes.jCompact (o : BitVec 10) : Encodes.Statement (.jCompact o) := by
  obtain ⟨word, hw, h6, h1, h0⟩ := fields_10_5_1 o 16#5 0#1
  refine encodes16 (hw ▸ rfl) h0 ((compact_16 h1).trans ?_)
  simp [decodeCompact16, h6]

theorem Encodes.jrCompact (d : BitVec 4) : Encodes.Statement (.jrCompact d) := by
  obtain ⟨word, hw, h14, h10, h6, h1, h0⟩ := fields_2_4_4_5_1 0#2 0#4 d 17#5 0#1
  refine encodes16 (hw ▸ rfl) h0 ((compact_17 h1).trans ?_)
  simp [decodeCompact17, h14, h10, h6]

theorem Encodes.finCompact  : Encodes.Statement (.finCompact) := by
  obtain ⟨word, hw, h14, h10, h6, h1, h0⟩ := fields_2_4_4_5_1 0#2 0#4 0#4 18#5 0#1
  refine encodes16 (hw ▸ rfl) h0 ((compact_18 h1).trans ?_)
  simp [decodeCompact18, h14, h10, h6]

theorem Encodes.messageArrival (src : CoreId) (rep : Bool) : Encodes.Statement (.messageArrival src rep) :=
  encodes_none rfl

theorem Encodes.messageInjection (rep : Bool) : Encodes.Statement (.messageInjection rep) :=
  encodes_none rfl

theorem Encodes.watchUpdate (src : CoreId) : Encodes.Statement (.watchUpdate src) :=
  encodes_none rfl

theorem Encodes.collectionRound (serial : Nat) (cohort : Nat) : Encodes.Statement (.collectionRound serial cohort) :=
  encodes_none rfl

theorem Encodes.retirementReport (serial : Nat) (cohort : Nat) : Encodes.Statement (.retirementReport serial cohort) :=
  encodes_none rfl

theorem Encodes.bulkPromotion (serial : Nat) (cohort : Nat) : Encodes.Statement (.bulkPromotion serial cohort) :=
  encodes_none rfl

theorem Encodes.messagePromotion (n : Nat) : Encodes.Statement (.messagePromotion n) :=
  encodes_none rfl

theorem Encodes.waitSatisfied (n : Nat) : Encodes.Statement (.waitSatisfied n) :=
  encodes_none rfl

theorem Encodes.splitRequest (src : CoreId) : Encodes.Statement (.splitRequest src) :=
  encodes_none rfl

theorem Encodes.remoteAccessRequest (src : CoreId) : Encodes.Statement (.remoteAccessRequest src) :=
  encodes_none rfl

theorem Encodes.probeArrival (src : CoreId) : Encodes.Statement (.probeArrival src) :=
  encodes_none rfl

theorem Encodes.commitArrival (src : CoreId) : Encodes.Statement (.commitArrival src) :=
  encodes_none rfl

theorem Encodes.closeMessage (src : CoreId) : Encodes.Statement (.closeMessage src) :=
  encodes_none rfl

theorem Encodes.syncAccessArrival (src : CoreId) : Encodes.Statement (.syncAccessArrival src) :=
  encodes_none rfl

theorem Encodes.cbRequest (src : CoreId) : Encodes.Statement (.cbRequest src) :=
  encodes_none rfl

theorem Encodes.replyArrival (src : CoreId) (qw : BitVec 16) : Encodes.Statement (.replyArrival src qw) :=
  encodes_none rfl

theorem Encodes.acknowledgmentArrival (src : CoreId) (qw : BitVec 16) : Encodes.Statement (.acknowledgmentArrival src qw) :=
  encodes_none rfl

theorem Encodes.remoteMatrixPacket (src : CoreId) : Encodes.Statement (.remoteMatrixPacket src) :=
  encodes_none rfl

theorem Encodes.mcmdCompletion (src : CoreId) (qw : BitVec 16) : Encodes.Statement (.mcmdCompletion src qw) :=
  encodes_none rfl

theorem Encodes.stencilFlitSend (slot : Nat) : Encodes.Statement (.stencilFlitSend slot) :=
  encodes_none rfl

theorem Encodes.copyFlitArrival (src : CoreId) : Encodes.Statement (.copyFlitArrival src) :=
  encodes_none rfl

theorem Encodes.copyCompletion (src : CoreId) (qw : BitVec 16) : Encodes.Statement (.copyCompletion src qw) :=
  encodes_none rfl

theorem Encodes.chainLinkIssue (win : BitVec 4) : Encodes.Statement (.chainLinkIssue win) :=
  encodes_none rfl

theorem Encodes.pullRequest (src : CoreId) : Encodes.Statement (.pullRequest src) :=
  encodes_none rfl

theorem Encodes.storerRequest (src : CoreId) : Encodes.Statement (.storerRequest src) :=
  encodes_none rfl

theorem Encodes.pagerResult (src : CoreId) : Encodes.Statement (.pagerResult src) :=
  encodes_none rfl

theorem Encodes.machineCheck (syndrome : BitVec 64) (pcValid : Bool) : Encodes.Statement (.machineCheck syndrome pcValid) :=
  encodes_none rfl

theorem Encodes.rebuild (site : Site) (lost : List Nat) : Encodes.Statement (.rebuild site lost) :=
  encodes_none rfl

theorem Encodes.moveRequest (site : Site) (why : BitVec 2) : Encodes.Statement (.moveRequest site why) :=
  encodes_none rfl

theorem Encodes.mapUpdate (at_ : CoreId) : Encodes.Statement (.mapUpdate at_) :=
  encodes_none rfl

theorem Encodes.markerArrival (src : CoreId) : Encodes.Statement (.markerArrival src) :=
  encodes_none rfl

theorem Encodes.relocArrival (src : CoreId) : Encodes.Statement (.relocArrival src) :=
  encodes_none rfl

theorem Encodes.haltRequest (src : CoreId) : Encodes.Statement (.haltRequest src) :=
  encodes_none rfl

theorem Encodes.haltGroupMessage (src : CoreId) : Encodes.Statement (.haltGroupMessage src) :=
  encodes_none rfl

theorem Encodes.fctlWrite (fn : BitVec 2) (a : BitVec 5) (d : BitVec 5) (sp : Sp) : Encodes.Statement (.fctlWrite fn a d sp) :=
  encodes_none rfl

theorem Encodes.fstatRead (d : BitVec 5) (sp : Sp) : Encodes.Statement (.fstatRead d sp) :=
  encodes_none rfl

theorem Encodes.timeRead (d : BitVec 5) (sp : Sp) : Encodes.Statement (.timeRead d sp) :=
  encodes_none rfl

theorem Encodes.sqctlWrite (fn : BitVec 2) (a : BitVec 5) (d : BitVec 5) (sp : Sp) : Encodes.Statement (.sqctlWrite fn a d sp) :=
  encodes_none rfl

theorem Encodes.tlbinvPage (fn : BitVec 2) (a : BitVec 5) (d : BitVec 5) (sp : Sp) : Encodes.Statement (.tlbinvPage fn a d sp) :=
  encodes_none rfl

theorem Encodes.tlbinvAsid (fn : BitVec 2) (a : BitVec 5) (d : BitVec 5) (sp : Sp) : Encodes.Statement (.tlbinvAsid fn a d sp) :=
  encodes_none rfl

theorem Encodes.tlbinvAll (fn : BitVec 2) (a : BitVec 5) (d : BitVec 5) (sp : Sp) : Encodes.Statement (.tlbinvAll fn a d sp) :=
  encodes_none rfl

theorem Encodes.pwrqGate (fn : BitVec 2) (a : BitVec 5) (d : BitVec 5) (sp : Sp) : Encodes.Statement (.pwrqGate fn a d sp) :=
  encodes_none rfl

theorem Encodes.pwrqWake (fn : BitVec 2) (a : BitVec 5) (d : BitVec 5) (sp : Sp) : Encodes.Statement (.pwrqWake fn a d sp) :=
  encodes_none rfl

theorem Encodes.opreqWrite (fn : BitVec 2) (a : BitVec 5) (d : BitVec 5) (sp : Sp) : Encodes.Statement (.opreqWrite fn a d sp) :=
  encodes_none rfl

theorem Encodes.hgrpResume (fn : BitVec 2) (a : BitVec 5) (d : BitVec 5) (sp : Sp) : Encodes.Statement (.hgrpResume fn a d sp) :=
  encodes_none rfl

theorem Encodes.dumpHold (fn : BitVec 2) (a : BitVec 5) (d : BitVec 5) (sp : Sp) : Encodes.Statement (.dumpHold fn a d sp) :=
  encodes_none rfl

theorem Encodes.controlRegisterWrite (fn : BitVec 2) (c : BitVec 12) (a : BitVec 5) (d : BitVec 5) (sp : Sp) : Encodes.Statement (.controlRegisterWrite fn c a d sp) :=
  encodes_none rfl

theorem Encodes.reservedEncoding (enc : BitVec 32) (len : Nat) : Encodes.Statement (.reservedEncoding enc len) :=
  encodes_none rfl

theorem Encodes.floatPeriod (die : BitVec 3) : Encodes.Statement (.floatPeriod die) :=
  encodes_none rfl

theorem Encodes.thermalEmergency (site : Site) (t : BitVec 10) : Encodes.Statement (.thermalEmergency site t) :=
  encodes_none rfl

theorem Encodes.overheatCap (site : Site) (t : BitVec 10) : Encodes.Statement (.overheatCap site t) :=
  encodes_none rfl

theorem Encodes.rampComplete (q : Quad) : Encodes.Statement (.rampComplete q) :=
  encodes_none rfl

theorem Encodes.droopDetect (q : Quad) : Encodes.Statement (.droopDetect q) :=
  encodes_none rfl

theorem Encodes.droopHoldExpiry (q : Quad) : Encodes.Statement (.droopHoldExpiry q) :=
  encodes_none rfl

theorem Encodes.gatingCommit (q : Quad) : Encodes.Statement (.gatingCommit q) :=
  encodes_none rfl

theorem Encodes.wakeComplete (q : Quad) : Encodes.Statement (.wakeComplete q) :=
  encodes_none rfl

theorem Encodes.bootImageLoaded (img : BootImage) : Encodes.Statement (.bootImageLoaded img) :=
  encodes_none rfl

theorem Encodes.measExtend (digest : BitVec 512) : Encodes.Statement (.measExtend digest) :=
  encodes_none rfl

theorem Encodes.nonceWrite (nonce : BitVec 512) : Encodes.Statement (.nonceWrite nonce) :=
  encodes_none rfl

theorem Encodes.hostBar2Access (write : Bool) (addr : Nat) (data : BitVec 64) : Encodes.Statement (.hostBar2Access write addr data) :=
  encodes_none rfl

theorem Encodes.capRaise (q : Quad) : Encodes.Statement (.capRaise q) :=
  encodes_none rfl

theorem Encodes.firingSelection : Encodes.Statement (.firingSelection) := encodes_none rfl

theorem Encodes.noticeInjection : Encodes.Statement (.noticeInjection) := encodes_none rfl

theorem Encodes.jobStartMessage : Encodes.Statement (.jobStartMessage) := encodes_none rfl

theorem Encodes.launchReceipt : Encodes.Statement (.launchReceipt) := encodes_none rfl

theorem Encodes.phaseReceipt : Encodes.Statement (.phaseReceipt) := encodes_none rfl

theorem Encodes.cancelReceipt : Encodes.Statement (.cancelReceipt) := encodes_none rfl

theorem Encodes.placement : Encodes.Statement (.placement) := encodes_none rfl

theorem Encodes.park : Encodes.Statement (.park) := encodes_none rfl

theorem Encodes.sleepWake : Encodes.Statement (.sleepWake) := encodes_none rfl

theorem Encodes.regionStopResume : Encodes.Statement (.regionStopResume) := encodes_none rfl

theorem Encodes.forcedSafePoint : Encodes.Statement (.forcedSafePoint) := encodes_none rfl

theorem Encodes.vectorCommandStart : Encodes.Statement (.vectorCommandStart) := encodes_none rfl

theorem Encodes.vectorCommandCompletion : Encodes.Statement (.vectorCommandCompletion) := encodes_none rfl

theorem Encodes.matrixCommandStart : Encodes.Statement (.matrixCommandStart) := encodes_none rfl

theorem Encodes.matrixCommandCompletion : Encodes.Statement (.matrixCommandCompletion) := encodes_none rfl

theorem Encodes.walkActivation : Encodes.Statement (.walkActivation) := encodes_none rfl

theorem Encodes.preemptRequest : Encodes.Statement (.preemptRequest) := encodes_none rfl

theorem Encodes.residencySave : Encodes.Statement (.residencySave) := encodes_none rfl

theorem Encodes.jobResume : Encodes.Statement (.jobResume) := encodes_none rfl

theorem Encodes.residencyRestore : Encodes.Statement (.residencyRestore) := encodes_none rfl

theorem Encodes.moveDrainComplete : Encodes.Statement (.moveDrainComplete) := encodes_none rfl

theorem Encodes.moveStreamComplete : Encodes.Statement (.moveStreamComplete) := encodes_none rfl

theorem Encodes.dumpLimitExpiry : Encodes.Statement (.dumpLimitExpiry) := encodes_none rfl

theorem Encodes.traceRecord : Encodes.Statement (.traceRecord) := encodes_none rfl

theorem Encodes.deviceReset : Encodes.Statement (.deviceReset) := encodes_none rfl

theorem Encodes.quoteRequest : Encodes.Statement (.quoteRequest) := encodes_none rfl

theorem Encodes.quoteComplete : Encodes.Statement (.quoteComplete) := encodes_none rfl

theorem Encodes.partitionCreation : Encodes.Statement (.partitionCreation) := encodes_none rfl

theorem Encodes.traceQueueSend : Encodes.Statement (.traceQueueSend) := encodes_none rfl

end Sys2Proof.Laws
end

