-- ==== Sys2Proof/Laws/Sparse.lean ====
section
/-!
SUPPORT. Sys2Proof/Laws/Sparse.lean: the tables in canonical form: what a write leaves at each key, that every write keeps
the form, and that tables in the form which read alike are equal.
-/
namespace Sys2Proof.Machine

section
variable {α : Type} [DecidableEq α] {d : α}

theorem tableWfFrom_mono {lo lo' : Nat} (h : lo' ≤ lo) : ∀ {t : Table α}, tableWfFrom d lo t = true →
    tableWfFrom d lo' t = true
  | [], _ => rfl
  | (k, v) :: t, w => by
    simp only [tableWfFrom, Bool.and_eq_true, decide_eq_true_eq] at w ⊢
    exact ⟨⟨Nat.le_trans h w.1.1, w.1.2⟩, w.2⟩

theorem tget_below {lo k : Nat} : ∀ {t : Table α}, tableWfFrom d lo t = true → k < lo → tget d t k = d
  | [], _, _ => rfl
  | (j, v) :: t, w, h => by
    simp only [tableWfFrom, Bool.and_eq_true, decide_eq_true_eq] at w
    simp only [tget, if_neg (by omega : ¬ k = j), if_pos (by omega : k < j)]

theorem tget_tcons {lo k : Nat} {v : α} {t : Table α} (w : tableWfFrom d lo t = true) (h : k < lo) (j : Nat) :
    tget d (tcons d k v t) j = if j = k then v else tget d t j := by
  unfold tcons
  by_cases hv : v = d
  · by_cases hj : j = k
    · subst hj
      simp [hv, tget_below w h]
    · simp [hv, hj]
  · by_cases hj : j = k
    · simp [hv, hj, tget]
    · by_cases hl : j < k
      · simp [hv, hj, tget, hl, tget_below w (Nat.lt_trans hl h)]
      · simp [hv, hj, tget, hl]

theorem tcons_wf {lo k : Nat} {v : α} {t : Table α} (h : lo ≤ k) (w : tableWfFrom d (k + 1) t = true) :
    tableWfFrom d lo (tcons d k v t) = true := by
  unfold tcons
  by_cases hv : v = d
  · simpa [hv] using tableWfFrom_mono (by omega) w
  · simp [hv, tableWfFrom, h, w]

/-- A read after one write, at any key. -/
theorem tget_tset {v : α} {k : Nat} : ∀ {t : Table α} {lo : Nat}, tableWfFrom d lo t = true →
    ∀ j, tget d (tset d t k v) j = if j = k then v else tget d t j
  | [], _, _, j => by
    unfold tset
    exact tget_tcons (lo := k + 1) rfl (by omega) j
  | (i, x) :: t, lo, w, j => by
    have w' := w
    simp only [tableWfFrom, Bool.and_eq_true, decide_eq_true_eq] at w'
    unfold tset
    split
    · next h =>
      refine tget_tcons (lo := i) ?_ h j
      simp [tableWfFrom, w'.1.2, w'.2]
    · split
      · next h1 h =>
        subst h
        rw [tget_tcons w'.2 (by omega)]
        by_cases hj : j = k
        · simp [hj]
        · by_cases hl : j < k
          · simp [hj, hl, tget, tget_below w'.2 (by omega : j < k + 1)]
          · simp [hj, hl, tget]
      · next h1 h2 =>
        have ih := tget_tset (v := v) (k := k) w'.2 j
        by_cases hi : j = i
        · subst hi
          simp [tget, if_neg (fun e => h2 (e.symm) : ¬ j = k)]
        · by_cases hl : j < i
          · simp [tget, hi, hl, if_neg (by omega : ¬ j = k)]
          · simp [tget, hi, hl, ih]

theorem tset_wfFrom {v : α} {k : Nat} : ∀ {t : Table α} {lo : Nat}, tableWfFrom d lo t = true → lo ≤ k →
    tableWfFrom d lo (tset d t k v) = true
  | [], _, _, h => by
    unfold tset
    exact tcons_wf h rfl
  | (i, x) :: t, lo, w, h => by
    have w' := w
    simp only [tableWfFrom, Bool.and_eq_true, decide_eq_true_eq] at w'
    unfold tset
    split
    · next hk =>
      refine tcons_wf h ?_
      simp [tableWfFrom, w'.1.2, w'.2]
      omega
    · split
      · next h1 hk =>
        subst hk
        exact tcons_wf h w'.2
      · next h1 h2 =>
        have ih := tset_wfFrom (v := v) (k := k) w'.2 (by omega)
        simp [tableWfFrom, w'.1.1, w'.1.2, ih]

/-- One write keeps the canonical form. -/
theorem tset_wf {t : Table α} (w : tableWf d t = true) (k : Nat) (v : α) : tableWf d (tset d t k v) = true :=
  tset_wfFrom w (Nat.zero_le k)

/-- Writes of consecutive keys keep the canonical form. -/
theorem tsetMany_wf : ∀ (vs : List α) {t : Table α} (k : Nat), tableWf d t = true → tableWf d (tsetMany d t k vs) = true
  | [], _, _, w => w
  | v :: vs, _, k, w => tsetMany_wf vs (k + 1) (tset_wf w k v)

/-- A read after writes of consecutive keys, at any key. -/
theorem tget_tsetMany : ∀ (vs : List α) {t : Table α} (k : Nat), tableWf d t = true →
    ∀ j, tget d (tsetMany d t k vs) j = if k ≤ j ∧ j < k + vs.length then vs.getD (j - k) d else tget d t j
  | [], t, k, _, j => by simp [tsetMany]
  | v :: vs, t, k, w, j => by
    rw [tsetMany, tget_tsetMany vs (k + 1) (tset_wf w k v), tget_tset w]
    by_cases hj : j = k
    · subst hj
      simp
    · by_cases hr : k + 1 ≤ j ∧ j < k + 1 + vs.length
      · rw [if_pos hr, if_pos (by simp only [List.length_cons]; omega)]
        obtain ⟨n, rfl⟩ : ∃ n, j = k + 1 + n := ⟨j - (k + 1), by omega⟩
        rw [show k + 1 + n - (k + 1) = n by omega, show k + 1 + n - k = n + 1 by omega, List.getD_cons_succ]
      · rw [if_neg hr, if_neg hj, if_neg (by simp only [List.length_cons]; omega)]

/-- Tables in canonical form that read alike are equal. -/
theorem table_ext : ∀ {t u : Table α} {lo : Nat}, tableWfFrom d lo t = true → tableWfFrom d lo u = true →
    (∀ k, tget d t k = tget d u k) → t = u
  | [], [], _, _, _, _ => rfl
  | [], (j, v) :: u, _, _, w, h => by
    simp only [tableWfFrom, Bool.and_eq_true, decide_eq_true_eq] at w
    have := h j
    simp [tget] at this
    exact absurd this.symm w.1.2
  | (j, v) :: t, [], _, w, _, h => by
    simp only [tableWfFrom, Bool.and_eq_true, decide_eq_true_eq] at w
    have := h j
    simp [tget] at this
    exact absurd this w.1.2
  | (i, x) :: t, (j, y) :: u, lo, wt, wu, h => by
    simp only [tableWfFrom, Bool.and_eq_true, decide_eq_true_eq] at wt wu
    have hij : i = j := by
      rcases Nat.lt_trichotomy i j with hl | he | hg
      · have := h i
        rw [tget, if_pos rfl, tget, if_neg (by omega), if_pos hl] at this
        exact absurd this wt.1.2
      · exact he
      · have := h j
        rw [tget, if_neg (by omega), if_pos hg, tget, if_pos rfl] at this
        exact absurd this.symm wu.1.2
    subst hij
    have hxy : x = y := by
      have := h i
      simpa [tget] using this
    subst hxy
    congr 1
    refine table_ext wt.2 wu.2 fun k => ?_
    by_cases hk : k ≤ i
    · rw [tget_below wt.2 (by omega), tget_below wu.2 (by omega)]
    · have := h k
      simpa only [tget, if_neg (by omega : ¬ k = i), if_neg (by omega : ¬ k < i)] using this

end

theorem tgetMany_eq {α : Type} {d : α} (t : Table α) : ∀ (n k : Nat), tgetMany d t k n = (List.range n).map fun j => tget d t (k + j)
  | 0, _ => rfl
  | n + 1, k => by
    rw [tgetMany, tgetMany_eq t n (k + 1), List.range_succ_eq_map, List.map_cons, List.map_map]
    simp only [Nat.add_zero, List.cons.injEq, true_and]
    exact List.map_congr_left fun j _ => by simp only [Function.comp, show k + 1 + j = k + (j + 1) by omega]

/-! ### Parts of tables put together (R285) -/

section
variable {α : Type} [DecidableEq α] {d : α}

/-- A table in the form whose keys lie from `lo` up to `hi`. -/
structure Lies (d : α) (lo hi : Nat) (t : Table α) : Prop where
  form : tableWfFrom d lo t = true
  below : ∀ p ∈ t, p.1 < hi

theorem Lies.wf {lo hi : Nat} {t : Table α} (h : Lies d lo hi t) : tableWf d t = true := tableWfFrom_mono (Nat.zero_le lo) h.form

theorem Lies.mono {lo lo' hi hi' : Nat} {t : Table α} (h : Lies d lo hi t) (l : lo' ≤ lo) (u : hi ≤ hi') : Lies d lo' hi' t :=
  ⟨tableWfFrom_mono l h.form, fun p hp => Nat.lt_of_lt_of_le (h.below p hp) u⟩

theorem tableWfFrom_append {mid : Nat} : ∀ {t u : Table α} {lo : Nat}, tableWfFrom d lo t = true → (∀ p ∈ t, p.1 < mid) →
    tableWfFrom d mid u = true → lo ≤ mid → tableWfFrom d lo (t ++ u) = true
  | [], _, _, _, _, wu, h => tableWfFrom_mono h wu
  | (k, v) :: t, u, lo, wt, b, wu, _ => by
    simp only [tableWfFrom, Bool.and_eq_true, decide_eq_true_eq, List.cons_append] at wt ⊢
    exact ⟨wt.1, tableWfFrom_append wt.2 (fun p hp => b p (List.mem_cons_of_mem _ hp)) wu (b _ List.mem_cons_self)⟩

theorem Lies.append {lo mid hi : Nat} {t u : Table α} (h : Lies d lo mid t) (k : Lies d mid hi u) (l : lo ≤ mid) (m : mid ≤ hi) :
    Lies d lo hi (t ++ u) :=
  ⟨tableWfFrom_append h.form h.below k.form l, fun p hp => (List.mem_append.1 hp).elim
    (fun q => Nat.lt_of_lt_of_le (h.below p q) m) (k.below p)⟩

/-- The entries that a test keeps, where it keeps none below `mid`. -/
theorem filter_wfFrom {mid : Nat} (f : Nat × α → Bool) (hf : ∀ p, f p = true → mid ≤ p.1) :
    ∀ {t : Table α} {lo : Nat}, tableWfFrom d lo t = true → tableWfFrom d (Nat.max lo mid) (t.filter f) = true
  | [], _, _ => rfl
  | (k, v) :: t, lo, w => by
    simp only [tableWfFrom, Bool.and_eq_true, decide_eq_true_eq] at w
    have ih := filter_wfFrom f hf w.2
    rw [List.filter_cons]
    split
    · next h =>
      have hm := hf _ h
      simp only [tableWfFrom, Bool.and_eq_true, decide_eq_true_eq]
      exact ⟨⟨Nat.max_le.2 ⟨w.1.1, hm⟩, w.1.2⟩, tableWfFrom_mono (Nat.le_max_left _ _) ih⟩
    · exact tableWfFrom_mono (Nat.max_le.2 ⟨Nat.le_trans (by omega) (Nat.le_max_left (k + 1) mid), Nat.le_max_right _ _⟩) ih

theorem shifted_wfFrom (lo dst : Nat) : ∀ {t : Table α} {k : Nat}, tableWfFrom d k t = true → lo ≤ k →
    tableWfFrom d (k - lo + dst) (t.map fun p => (p.1 - lo + dst, p.2)) = true
  | [], _, _, _ => rfl
  | (j, v) :: t, k, w, h => by
    simp only [tableWfFrom, Bool.and_eq_true, decide_eq_true_eq, List.map_cons] at w ⊢
    have ih := shifted_wfFrom lo dst w.2 (by omega)
    rw [show j + 1 - lo + dst = j - lo + dst + 1 by omega] at ih
    exact ⟨⟨by omega, w.1.2⟩, ih⟩

/-- A moved part keeps the form. -/
theorem tshift_lies {t : Table α} (w : tableWf d t = true) (lo n dst : Nat) : Lies d dst (dst + n) (tshift lo n dst t) := by
  unfold tshift
  constructor
  · have h := filter_wfFrom (fun p => decide (lo ≤ p.1) && decide (p.1 < lo + n)) (mid := lo)
      (fun p hp => by simp only [Bool.and_eq_true, decide_eq_true_eq] at hp; exact hp.1) w
    have k := shifted_wfFrom lo dst h (Nat.le_max_right _ _)
    exact tableWfFrom_mono (by omega) k
  · intro p hp
    obtain ⟨q, hq, rfl⟩ := List.mem_map.1 hp
    have := (List.mem_filter.1 hq).2
    simp only [Bool.and_eq_true, decide_eq_true_eq] at this
    show q.1 - lo + dst < dst + n
    omega

theorem tcells_lies : ∀ (l : List α) (k : Nat), Lies d k (k + l.length) (tcells d k l)
  | [], _ => ⟨rfl, fun _ hp => by simp [tcells] at hp⟩
  | v :: vs, k => by
    obtain ⟨f, b⟩ := tcells_lies vs (k + 1)
    unfold tcells
    refine ⟨tcons_wf (Nat.le_refl k) f, fun p hp => ?_⟩
    have hb : ∀ q ∈ tcells d (k + 1) vs, q.1 < k + (v :: vs).length := fun q hq => by
      have := b q hq
      simp only [List.length_cons]
      omega
    unfold tcons at hp
    split at hp
    · exact hb p hp
    · rcases List.mem_cons.1 hp with rfl | hp
      · simp only [List.length_cons]; omega
      · exact hb p hp

/-- A table with a part replaced by another that lies there keeps the form. -/
theorem tsplice_wf {t x : Table α} {lo n : Nat} (w : tableWf d t = true) (h : Lies d lo (lo + n) x) :
    tableWf d (tsplice lo n x t) = true := by
  unfold tsplice
  have l : Lies d 0 lo (t.filter fun p => decide (p.1 < lo)) :=
    ⟨tableWfFrom_mono (Nat.zero_le _) (filter_wfFrom (mid := 0) _ (fun _ _ => Nat.zero_le _) w), fun p hp => by
      simpa using (List.mem_filter.1 hp).2⟩
  have u := filter_wfFrom (fun p : Nat × α => decide (lo + n ≤ p.1)) (mid := lo + n) (fun p hp => by simpa using hp) w
  exact tableWfFrom_append (l.append h (Nat.zero_le _) (Nat.le_add_right _ _)).form
    (l.append h (Nat.zero_le _) (Nat.le_add_right _ _)).below (tableWfFrom_mono (Nat.le_max_right _ _) u) (Nat.zero_le _)

end

/-! ### Memories -/

theorem Memory.set_wf {m : Memory} (w : m.wf = true) (a : Nat) (b : Byte) : (m.set a b).wf = true := tset_wf w a b

theorem Memory.write_wf {m : Memory} (w : m.wf = true) (a : Nat) (bs : List Byte) : (m.write a bs).wf = true :=
  tsetMany_wf bs a w

theorem Memory.get_set {m : Memory} (w : m.wf = true) (a b : Nat) (v : Byte) :
    (m.set a v).get b = if b = a then v else m.get b := tget_tset w b

theorem Memory.get_write {m : Memory} (w : m.wf = true) (a b : Nat) (bs : List Byte) :
    (m.write a bs).get b = if a ≤ b ∧ b < a + bs.length then bs.getD (b - a) 0#8 else m.get b := tget_tsetMany bs a w b

/-- The cells of a store keep the form, and change the keys they name. -/
theorem putCells_wf : ∀ (cs : List (Nat × Byte)) {m : Memory}, m.wf = true → (putCells m cs).wf = true
  | [], _, w => w
  | (k, v) :: cs, _, w => putCells_wf cs (Memory.set_wf w k v)

theorem putCells_other : ∀ (cs : List (Nat × Byte)) {m : Memory} {a : Nat}, m.wf = true → (∀ c ∈ cs, c.1 ≠ a) →
    (putCells m cs).get a = m.get a
  | [], _, _, _, _ => rfl
  | (k, v) :: cs, m, a, w, h => by
    rw [putCells, putCells_other cs (Memory.set_wf w k v) fun c hc => h c (List.mem_cons_of_mem _ hc), Memory.get_set w]
    exact if_neg fun e => h (k, v) List.mem_cons_self e.symm

theorem Mems.storeCells_wf {m : Mems} (w : m.data.wf = true) (cs : List (Nat × Byte)) : (m.storeCells cs).data.wf = true :=
  putCells_wf cs w

theorem Device.physWrite_ext_wf {d : Device} (w : d.ext.wf = true) (host : Bool) (pa : Nat) (bs : List Byte) :
    (d.physWrite host pa bs).ext.wf = true := by
  unfold Device.physWrite
  cases host
  · exact Memory.write_wf w pa bs
  · exact w

theorem Device.physWrite_host_wf {d : Device} (w : d.host.wf = true) (host : Bool) (pa : Nat) (bs : List Byte) :
    (d.physWrite host pa bs).host.wf = true := by
  unfold Device.physWrite
  cases host
  · exact w
  · exact Memory.write_wf w pa bs

/-- A context's memories lie in its part of the area (R285). -/
theorem context_lies {m : Mems} (w : m.data.wf = true) (i : m.istore.wf = true) (base : Nat) :
    Lies 0#8 (base + 0x1000) (base + 0x1000 + 0x48F00) (m.context base) := by
  have a := tshift_lies w (keyOf 0 0) 0x18000 (base + 0x1000)
  have b := tshift_lies w (keyOf 1 0) 0x20000 (base + 0x19000)
  have c := tshift_lies w (keyOf 2 0) 0x8000 (base + 0x39000)
  have e := tshift_lies i 0 0x8000 (base + 0x41000)
  have f := tcells_lies (d := 0#8) ((List.range 0x800).map (startByte m)) (base + 0x49000)
  have g := tcells_lies (d := 0#8) ((List.range 448).flatMap fun k =>
      let e := tget 0#32 m.dir k
      [e.extractLsb' 0 8, e.extractLsb' 8 8, e.extractLsb' 16 8, e.extractLsb' 24 8]) (base + 0x49800)
  have lf : ((List.range 0x800).map (startByte m)).length = 0x800 := by simp only [List.length_map, List.length_range]
  have lg : ((List.range 448).flatMap fun k =>
      let e := tget 0#32 m.dir k
      [e.extractLsb' 0 8, e.extractLsb' 8 8, e.extractLsb' 16 8, e.extractLsb' 24 8]).length = 1792 := by
    simp only [List.length_flatMap, List.length_cons, List.length_nil, List.map_const', List.length_range, List.sum_replicate,
      smul_eq_mul, Nat.zero_add, Nat.reduceAdd, Nat.reduceMul]
  rw [lf] at f
  rw [lg] at g
  have a := a.mono (hi' := base + 0x19000) (Nat.le_refl _) (by omega)
  have b := b.mono (hi' := base + 0x39000) (Nat.le_refl _) (by omega)
  have c := c.mono (hi' := base + 0x41000) (Nat.le_refl _) (by omega)
  have e := e.mono (hi' := base + 0x49000) (Nat.le_refl _) (by omega)
  have f := f.mono (hi' := base + 0x49800) (Nat.le_refl _) (by omega)
  have g := g.mono (hi' := base + 0x1000 + 0x48F00) (Nat.le_refl _) (by omega)
  exact ((((a.append b (by omega) (by omega)).append c (by omega) (by omega)).append e (by omega) (by omega)).append f (by omega)
    (by omega)).append g (by omega) (by omega)

theorem natToBytes_length : ∀ n v, (natToBytes n v).length = n
  | 0, _ => rfl
  | n + 1, v => congrArg (· + 1) (natToBytes_length n (v / 256))

/-- The cursors lie in their place in the context's table area (R309). -/
theorem cursorArea_lies (s : State) (base : Nat) : Lies 0#8 (base + 0x4A800) (base + 0x4A800 + 0x800) (s.cursorArea base) := by
  have l : ((List.range 16).flatMap fun k => natToBytes 128 (match s.core.walkAt k with
      | some w => (s.cursor w w.sent).toNat
      | none => 0)).length = 0x800 := by
    simp only [List.length_flatMap, natToBytes_length, List.map_const', List.length_range, List.sum_replicate, smul_eq_mul,
      Nat.reduceMul]
  have h := tcells_lies (d := 0#8) ((List.range 16).flatMap fun k => natToBytes 128 (match s.core.walkAt k with
      | some w => (s.cursor w w.sent).toNat
      | none => 0)) (base + 0x4A800)
  rw [l] at h
  exact h

/-- Locked frames kept as they were keep the form (R291). -/
theorem keepLocked_wf {old : Memory} (o : old.wf = true) : ∀ (l : List (Nat × Nat)) {new : Memory}, new.wf = true →
    (keepLocked l old new).wf = true
  | [], _, w => w
  | r :: rs, _, w => keepLocked_wf o rs (tsplice_wf w (tshift_lies o r.1 r.2 r.1))

theorem Device.writeContext_wf {d : Device} (w : d.ext.wf = true) (ctx : BitVec 32) {m : Mems} (a : m.data.wf = true)
    (i : m.istore.wf = true) {cursors : Memory} (c : Lies 0#8 (d.ctxAt ctx + 0x4A800) (d.ctxAt ctx + 0x4A800 + 0x800) cursors) :
    (d.writeContext ctx m cursors).ext.wf = true :=
  keepLocked_wf w d.boot.locked (tsplice_wf (tsplice_wf w (context_lies a i _)) c)

/-- What a restore reads has the form, whatever its locked frames give. -/
theorem Device.contextView_wf {d : Device} (w : d.ext.wf = true) (base : Nat) : (d.contextView base).wf = true := by
  unfold Device.contextView
  have key : ∀ (l : List (Nat × Nat)) (m : Memory), m.wf = true → Memory.wf (l.foldl (fun m r =>
      let lo := Nat.max base r.1
      let n := Nat.min (base + 0x58000) (r.1 + r.2) - lo
      if n = 0 then m
      else tsplice lo n (tcells 0#8 lo ((List.range n).map fun j => (Config.freeWord (d.freeIdx + j)).setWidth 8)) m) m) = true := by
    intro l
    induction l with
    | nil => exact fun _ h => h
    | cons r rs ih =>
      intro m h
      rw [List.foldl_cons]
      refine ih _ ?_
      dsimp only
      split
      · exact h
      · refine tsplice_wf h ?_
        have t := tcells_lies (d := 0#8) ((List.range (Nat.min (base + 0x58000) (r.1 + r.2) - Nat.max base r.1)).map fun j =>
          (Config.freeWord (d.freeIdx + j)).setWidth 8) (Nat.max base r.1)
        rwa [List.length_map, List.length_range] at t
  exact key _ _ w

/-- Page-table entries written at boot keep the form. -/
theorem writePtes_wf : ∀ (es : List (Nat × Word)) {m : Memory}, m.wf = true → (writePtes m es).wf = true
  | [], _, w => w
  | e :: es, _, w => writePtes_wf es (Memory.write_wf w e.1 _)

theorem Mems.ofContext_wf {e : Memory} (w : e.wf = true) (base : Nat) :
    (Mems.ofContext e base).data.wf = true ∧ (Mems.ofContext e base).istore.wf = true := by
  have a := tshift_lies w (base + 0x1000) 0x18000 (keyOf 0 0)
  have b := tshift_lies w (base + 0x19000) 0x20000 (keyOf 1 0)
  have c := tshift_lies w (base + 0x39000) 0x8000 (keyOf 2 0)
  refine ⟨?_, (tshift_lies w _ _ _).wf⟩
  exact (((a.mono (hi' := keyOf 1 0) (Nat.le_refl _) (by decide)).append b (by decide) (by decide)).mono (hi' := keyOf 2 0)
    (Nat.le_refl _) (by decide) |>.append c (by decide) (by decide)).wf

/-- Memory after reset has the canonical form. -/
theorem reset_memory_wf : State.reset.core.mem.data.wf = true ∧ State.reset.core.mem.istore.wf = true ∧
    State.reset.dev.ext.wf = true ∧ State.reset.dev.host.wf = true ∧ State.reset.dev.boot.ring.wf = true := by decide

end Sys2Proof.Machine
end

