-- ==== Sys2Proof/Tests/Slice0.lean ====
section
/-!
SUPPORT. Sys2Proof/Tests/Slice0.lean: ill-formed terms that WellFormed refuses, words laid out from the spec's encoding
tables, the spec's worked examples, and for every obligation with hypotheses a state and operands that meet them.
-/
namespace Sys2Proof.Tests

set_option Elab.async false

open Sys2Proof.Machine

/-! ### Ill-formed terms -/

theorem test_wf_refuses_registers : ∀ i ∈ ([
    .cmp 0#3 10#4 1#5 2#5 3#5 none, .cmp 0#3 0#4 1#5 2#5 8#5 none, .cmpi 0#10 10#4 2#5 3#5 none, .cmpi 0#10 9#4 2#5 8#5 none,
    .plog 0#3 0#4 8#5 0#5 1#5 none, .plog 0#3 0#4 0#5 8#5 1#5 none, .plog 0#3 0#4 0#5 0#5 8#5 none,
    .ext 7#6 57#6 1#5 2#5 none, .ins 63#6 1#6 1#5 2#5 none, .mkptr 0#3 3#2 1#5 2#5 none, .ptrget 0#3 6#5 1#5 2#5 none,
    .loop 0#16 0#3 0#5 none, .tret 2#11 none, .capmint 8#11 1#5 2#5 none, .move 4#11 1#5 none] : List Instr), i.wf = false := by
  decide

theorem test_wf_refuses_memory : ∀ i ∈ ([
    .ldx 0#3 2#2 0#3 1#5 2#5 3#5 none, .stx 0#3 2#2 0#3 1#5 2#5 3#5 none, .ldp 0#11 2#3 1#5 2#5 none, .ldp 0#11 3#3 1#5 3#5 none,
    .stp 0#11 4#3 1#5 2#5 none, .stp 0#11 7#3 1#5 3#5 none, .aclaim 0#3 1#5 2#5 3#5 none, .shld 0#11 0#5 12#5 none,
    .shld 1#11 1#5 2#5 none, .shst 0#5 2#5 none, .shst 1#5 16#5 none, .shmod 13#11 1#5 2#5 none, .shmod 0#11 1#5 12#5 none] :
    List Instr), i.wf = false := by decide

theorem test_wf_refuses_messages : ∀ i ∈ ([
    .send 0#8 9#4 1#5 1#5 none, .send 0#8 0#4 1#5 1#5 none, .sendt 0#8 8#4 1#5 25#5 none, .reply 0#8 2#4 1#5 31#5 none,
    .cbdef 0#11 0#5 16#5 none, .cbdef 1#11 1#5 2#5 none, .cbdef 512#11 0#5 2#5 none, .cbwait 0#9 1#5 2#5 none, .cbwait 257#9 1#5 2#5 none,
    .cbfree 1#9 16#5 2#5 none, .cbadvGet 0#9 1#5 none, .cbadvPut 257#9 1#5 none, .cbpush 0#4 1#5 2#5 none,
    .cbpush 9#4 1#5 2#5 none, .cbpop 8#4 1#5 25#5 none, .cbpop 1#4 16#5 2#5 none, .cbq 16#5 1#5 none] : List Instr),
    i.wf = false := by decide

theorem test_wf_refuses_firings : ∀ i ∈ ([
    .actdef 0#11 16#5 none, .nestdef 0#11 1#5 16#5 none, .waitt 64#11 0#5 none, .waitt 1#11 1#5 none, .waita 64#11 0#5 2#5 none,
    .tfirst 1#11 1#5 2#5 none, .tagclr 64#11 0#5 none, .ccan 64#11 0#5 none, .cstat 1#11 1#5 2#5 none, .wdef 0#11 16#5 none,
    .wbind 0#11 1#5 16#5 none, .wpub 16#5 1#5 none, .wabs 16#5 none, .wdepth 1#5 16#5 none, .wqry 16#5 1#5 none,
    .wstep 2#11 1#5 16#5 none] : List Instr), i.wf = false := by decide

theorem test_wf_refuses_engines : ∀ i ∈ ([
    .vadd 0x0B#5 1#5 2#5 3#5 none, .vadd 0x0A#5 16#5 2#5 3#5 none, .vfma 0x03#5 1#5 2#5 3#5 none, .vand 0x0A#5 1#5 2#5 3#5 none,
    .vsel 0x0A#5 1#5 2#5 3#5 none, .vrsq 0x00#5 1#5 2#5 none, .vcmp 10#4 0x00#5 1#5 2#5 3#5 none,
    .vcmp 6#4 0x0A#5 1#5 2#5 3#5 none, .vred 3#4 0x0A#5 1#5 2#5 none, .vscan 6#4 0x00#5 1#5 2#5 none, .vqnt 0x0A#5 1#5 2#5 none,
    .vfill 0x0B#5 1#5 2#5 none, .vident 0x0A#5 1#5 2#5 none, .vcpy 0x19#5 1#5 2#5 none, .mbld 0x0A#5 1#5 none,
    .mgat 0x12#5 16#5 1#5 none, .mcmd 3#5 1#5 2#5 none, .cbox 0x80#11 1#5 2#5 none, .cbox 0x40#11 1#5 3#5 none,
    .cbox 0x140#11 1#5 2#5 none, .cbox 0x200#11 1#5 2#5 none, .cred 0x100#11 1#5 2#5 none] : List Instr), i.wf = false := by
  decide

/-- Mask words: bit 0 of the first tells that a second follows, and bit 0 of the second is 0 (R48). -/
theorem test_masks : spOk (some (1#32, none)) = false ∧ spOk (some (0#32, some 0#32)) = false ∧
    spOk (some (1#32, some 1#32)) = false ∧ spOk (some (1#32, some 0x108#32)) = true := by decide

/-! ### Words laid out from the encoding tables (Tables 3.2, 3.6, 3.8) -/

theorem test_decode_register1 : ∀ p ∈ ([
    (0x205F6C01, .add 1#3 23#5 27#5 12#5 none),
    (0xA0ACF401, .sub 5#3 11#5 7#5 20#5 none),
    (0x217E7C01, .mul 1#3 31#5 19#5 28#5 none),
    (0xA1CFE801, .mulh 5#3 19#5 31#5 8#5 none),
    (0x221D7001, .mulhn 1#3 7#5 11#5 16#5 none),
    (0xA2EEF801, .div 5#3 27#5 23#5 24#5 none),
    (0x233C6401, .divn 1#3 15#5 3#5 4#5 none),
    (0xA38DE401, .rem 5#3 3#5 15#5 4#5 none),
    (0x245F6C01, .remn 1#3 23#5 27#5 12#5 none),
    (0xA4ACF401, .and 5#3 11#5 7#5 20#5 none),
    (0x257E7C01, .or 1#3 31#5 19#5 28#5 none),
    (0xA5CFE801, .xor 5#3 19#5 31#5 8#5 none),
    (0x261D7001, .shl 1#3 7#5 11#5 16#5 none)] : List (Nat × Instr)), decodeTableWord 32 p.1 = some p.2 := by decide

theorem test_decode_register2 : ∀ p ∈ ([
    (0xA6EEF801, .shr 5#3 27#5 23#5 24#5 none),
    (0x273C6401, .sha 1#3 15#5 3#5 4#5 none),
    (0xA78DE401, .rotl 5#3 3#5 15#5 4#5 none),
    (0x285F6C01, .min 1#3 23#5 27#5 12#5 none),
    (0xA8ACF401, .max 5#3 11#5 7#5 20#5 none),
    (0x297E7C01, .minn 1#3 31#5 19#5 28#5 none),
    (0xA9CFE801, .maxn 5#3 19#5 31#5 8#5 none),
    (0x2A00F801, .clz 1#3 7#5 24#5 none),
    (0xAA80BC01, .ctz 5#3 5#5 28#5 none),
    (0xEB032401, .popc 7#3 25#5 4#5 none),
    (0xEB806401, .bswap 7#3 3#5 4#5 none),
    (0xAC0DE401, .sel 5#3 3#5 15#5 4#5 none),
    (0xD366FC05, .addi 13529#14 23#5 28#5 none)] : List (Nat × Instr)), decodeTableWord 32 p.1 = some p.2 := by decide

theorem test_decode_register3 : ∀ p ∈ ([
    (0x0F96B809, .andi 997#14 21#5 24#5 none),
    (0x4C9D280D, .ori 4903#14 9#5 8#5 none),
    (0x8A7E7C11, .xori 8863#14 19#5 28#5 none),
    (0x00366815, .shli 13#6 19#5 8#5 none),
    (0x00C53019, .shri 49#6 9#5 16#5 none),
    (0x002EAC1D, .shai 11#6 21#5 12#5 none),
    (0x63E42421, .cmp 3#3 7#4 25#5 1#5 4#5 none),
    (0x90F7A825, .cmpi 579#10 13#4 29#5 8#5 none),
    (0xE0E6FC29, .plog 7#3 1#4 25#5 23#5 28#5 none),
    (0x4630B02D, .movi 143749#19 16#5 none),
    (0x47A57031, .movhi 146731#19 16#5 none),
    (0x2947EC35, .ext 41#6 17#6 31#5 12#5 none),
    (0x6DB66835, .ins 45#6 45#6 19#5 8#5 none)] : List (Nat × Instr)), decodeTableWord 32 p.1 = some p.2 := by decide

theorem test_decode_register4 : ∀ p ∈ ([
    (0x2004F839, .mkptr 1#3 1#2 7#5 24#5 none),
    (0xA0977439, .ptrget 5#3 5#5 27#5 20#5 none),
    (0x2105E839, .ptradd 1#3 1#5 15#5 8#5 none),
    (0xA1F46439, .dist 5#3 29#5 3#5 4#5 none),
    (0x2266FC39, .dista 1#3 25#5 23#5 28#5 none)] : List (Nat × Instr)), decodeTableWord 32 p.1 = some p.2 := by decide

theorem test_decode_memory1 : ∀ p ∈ ([
    (0xE4B57041, .ld 1829#11 5#3 11#5 16#5 none),
    (0x3127EC45, .st 393#11 1#3 31#5 12#5 none),
    (0xA9FE3449, .ldx 5#3 1#2 3#3 31#5 17#5 20#5 none),
    (0xFE977449, .stx 7#3 3#2 5#3 5#5 27#5 20#5 none),
    (0xDB25E84D, .ldi 1753#11 1#3 15#5 8#5 none),
    (0x63B46451, .ldp 797#11 5#3 3#5 4#5 none),
    (0xF826FC55, .stp 1985#11 1#3 23#5 28#5 none),
    (0x98B57059, .lda 1221#11 5#3 11#5 16#5 none),
    (0x4527EC5D, .stl 553#11 1#3 31#5 12#5 none),
    (0xA84FE861, .aadd 5#3 1#1 19#5 31#5 8#5 none),
    (0x28AEAC61, .aand 1#3 1#1 11#5 21#5 12#5 none),
    (0x69642461, .aor 3#3 1#1 25#5 1#5 4#5 none),
    (0x69F46461, .axor 3#3 1#1 29#5 3#5 4#5 none)] : List (Nat × Instr)), decodeTableWord 32 p.1 = some p.2 := by decide

theorem test_decode_memory2 : ∀ p ∈ ([
    (0x2A5F6C61, .amin 1#3 1#1 23#5 27#5 12#5 none),
    (0xAA9D2861, .amax 5#3 1#1 7#5 9#5 8#5 none),
    (0xEB35AC61, .aminn 7#3 1#1 13#5 13#5 12#5 none),
    (0xEBA4F861, .amaxn 7#3 1#1 9#5 7#5 24#5 none),
    (0xAC6EF861, .aswp 5#3 1#1 27#5 23#5 24#5 none),
    (0x280FA465, .acas 1#3 1#1 3#5 29#5 4#5 none),
    (0x60873469, .afadd 3#3 1#1 1#5 25#5 20#5 none),
    (0x6016B86D, .aclaim 3#3 5#5 21#5 24#5 none),
    (0xE0800071, .fence 7#3 1#2 none)] : List (Nat × Instr)), decodeTableWord 32 p.1 = some p.2 := by decide

theorem test_decode_message : ∀ p ∈ ([
    (0x147E7C75, .send 81#8 15#4 19#5 28#5 none),
    (0x4B4FE875, .sendt 45#8 3#4 31#5 8#5 none),
    (0x9A5D7075, .reply 105#8 7#4 11#5 16#5 none),
    (0xC0000C75, .msgq 12#5 none)] : List (Nat × Instr)), decodeTableWord 32 p.1 = some p.2 := by decide

theorem test_decode_buffer : ∀ p ∈ ([
    (0x04B00879, .cbdef 300#11 0#5 8#5 none),
    (0x2005E879, .cbwait 1#9 15#5 8#5 none),
    (0x47F7A879, .cbfree 509#9 29#5 8#5 none),
    (0x60BC2079, .cbadvGet 47#9 1#5 none),
    (0x7466E079, .cbadvPut 281#9 23#5 none),
    (0x802CB079, .cbpush 11#4 5#5 16#5 none),
    (0xA02CF479, .cbpop 11#4 7#5 20#5 none),
    (0xC0022879, .cbq 17#5 8#5 none)] : List (Nat × Instr)), decodeTableWord 32 p.1 = some p.2 := by decide

theorem test_decode_control : ∀ p ∈ ([
    (0x4113A081, .br 16659#16 5#3 none),
    (0x548D6885, .brz 21645#16 3#3 8#5 none),
    (0x71F13089, .brnz 29169#16 1#3 16#5 none),
    (0xF1F1608D, .j 495499#19 none),
    (0xF32EAC91, .jl 498037#19 12#5 none),
    (0x6002E095, .jr 3#3 23#5 none),
    (0x20802495, .jlr 1#3 1#5 4#5 none),
    (0xDF83A499, .loop 57219#16 5#3 4#5 none),
    (0x6000009D, .fin 3#3 none)] : List (Nat × Instr)), decodeTableWord 32 p.1 = some p.2 := by decide

theorem test_decode_firing : ∀ p ∈ ([
    (0x003C04A1, .actdef 15#11 4#5 none),
    (0x31E6FCA1, .nestdef 1145#11 23#5 28#5 none),
    (0x4D16B8A1, .lnch 837#11 21#5 24#5 none),
    (0x6000F4A1, .graph 7#5 20#5 none),
    (0x800008A1, .phase 8#5 none),
    (0xA003E0A1, .cncl 31#5 none),
    (0xC0027CA1, .lwait 19#5 28#5 none),
    (0x0001ACA5, .waitc 13#5 12#5 none),
    (0x37FE20A5, .waitt 1535#11 17#5 none),
    (0x4CA4F8A5, .waita 809#11 7#5 24#5 none),
    (0x6C54BCA5, .tfirst 789#11 5#5 28#5 none),
    (0x8CDF20A5, .tagclr 823#11 25#5 none),
    (0xA00000A5, .safe none)] : List (Nat × Instr)), decodeTableWord 32 p.1 = some p.2 := by decide

theorem test_decode_system1 : ∀ p ∈ ([
    (0x2E3C00A9, .trap 1#3 911#11 none),
    (0x198C00AD, .tret 1635#11 none),
    (0x24F400AD, .brk 317#11 none),
    (0x507460AD, .trace 1053#11 3#5 none),
    (0x27BC04B1, .csrd 2543#12 4#5 none),
    (0x7F66FCB1, .cswr 4057#12 23#5 28#5 none),
    (0x8396B8B1, .csset 229#12 21#5 24#5 none),
    (0xC89D28B1, .csclr 551#12 9#5 8#5 none),
    (0x0E7E7CB5, .capmint 927#11 19#5 28#5 none),
    (0x2001A0B5, .caprev 13#5 none),
    (0x000260B9, .halt 19#5 none),
    (0x2003E8B9, .sleep 31#5 8#5 none),
    (0x400130B9, .wfr 9#5 16#5 none)] : List (Nat × Instr)), decodeTableWord 32 p.1 = some p.2 := by decide

theorem test_decode_system2 : ∀ p ∈ ([
    (0x652EA0B9, .move 331#11 21#5 none)] : List (Nat × Instr)), decodeTableWord 32 p.1 = some p.2 := by decide

theorem test_decode_vector1 : ∀ p ∈ ([
    (0x009774C1, .shld 37#11 27#5 20#5 none),
    (0x200324C1, .shst 25#5 4#5 none),
    (0x46BC64C1, .shmod 431#11 3#5 4#5 none),
    (0x0E8DE4C5, .vadd 29#5 3#5 15#5 4#5 none),
    (0x1CDF6CC5, .vsub 25#5 23#5 27#5 12#5 none),
    (0x2AACF4C5, .vmul 21#5 11#5 7#5 20#5 none),
    (0x38FE7CC5, .vfma 17#5 31#5 19#5 28#5 none),
    (0x46CFE8C5, .vdiv 13#5 19#5 31#5 8#5 none),
    (0x549D70C5, .vmin 9#5 7#5 11#5 16#5 none),
    (0x62EEF8C5, .vmax 5#5 27#5 23#5 24#5 none),
    (0x7081E8C5, .vabs 1#5 15#5 8#5 none),
    (0x8E83A8C5, .vneg 29#5 29#5 8#5 none),
    (0x978038C5, .vrsq 15#5 1#5 24#5 none)] : List (Nat × Instr)), decodeTableWord 32 p.1 = some p.2 := by decide

theorem test_decode_vector2 : ∀ p ∈ ([
    (0xAB836CC5, .vexp2 23#5 27#5 12#5 none),
    (0xBA8170C5, .vlog2 21#5 11#5 16#5 none),
    (0x04C7ECC9, .vand 9#5 17#5 31#5 12#5 none),
    (0x16B668C9, .vor 13#5 13#5 19#5 8#5 none),
    (0x28A4F8C9, .vxor 17#5 9#5 7#5 24#5 none),
    (0x3A9774C9, .vshl 21#5 5#5 27#5 20#5 none),
    (0x4C85E8C9, .vshr 25#5 1#5 15#5 8#5 none),
    (0x5EF464C9, .vsel 29#5 29#5 3#5 4#5 none),
    (0x1CDF6CCD, .vcmp 1#4 25#5 23#5 27#5 12#5 none),
    (0x5580F4D1, .vred 5#4 11#5 7#5 20#5 none),
    (0x1F827CD5, .vscan 1#4 31#5 19#5 28#5 none),
    (0x068268D9, .vcvt 13#5 19#5 8#5 none),
    (0x188130D9, .vqnt 17#5 9#5 16#5 none)] : List (Nat × Instr)), decodeTableWord 32 p.1 = some p.2 := by decide

theorem test_decode_vector3 : ∀ p ∈ ([
    (0x2582ACD9, .vfill 11#5 21#5 12#5 none),
    (0x3D82F8D9, .vident 27#5 23#5 24#5 none),
    (0x4081E8D9, .vcpy 1#5 15#5 8#5 none),
    (0x5EF464D9, .vgath 29#5 29#5 3#5 4#5 none),
    (0x60E6FCD9, .vscat 1#5 25#5 23#5 28#5 none),
    (0x7282B8D9, .vtrn 5#5 21#5 24#5 none)] : List (Nat × Instr)), decodeTableWord 32 p.1 = some p.2 := by decide

theorem test_decode_matrix : ∀ p ∈ ([
    (0x0000E0E1, .mcfg 7#5 none),
    (0x148220E1, .mbld 9#5 17#5 none),
    (0x2FCDA0E1, .mgat 31#5 19#5 13#5 none),
    (0x3001A0E1, .mma 13#5 none),
    (0x400260E1, .mmaz 19#5 none),
    (0x5003E0E1, .mrec 31#5 none),
    (0x600220E1, .mupl 17#5 none),
    (0x700000E1, .msync none),
    (0x800014E1, .mstat 20#5 none),
    (0x03AEA0E5, .mcmd 7#5 11#5 21#5 none),
    (0x101774E5, .mcap 5#5 27#5 20#5 none)] : List (Nat × Instr)), decodeTableWord 32 p.1 = some p.2 := by decide

theorem test_decode_copy : ∀ p ∈ ([
    (0x146424F1, .cbox 1305#11 1#5 4#5 none),
    (0x230FA4F1, .cred 195#11 29#5 4#5 none),
    (0x528DE0F1, .ccan 1187#11 15#5 none),
    (0x680734F1, .cstat 513#11 25#5 20#5 none),
    (0x18EC0CF5, .wdef 1595#11 12#5 none),
    (0x2F5570F5, .wbind 981#11 11#5 16#5 none),
    (0x400128F5, .wpub 9#5 8#5 none),
    (0x6003E0F5, .wabs 31#5 none),
    (0x80027CF5, .wdepth 19#5 28#5 none),
    (0xA001ACF5, .wqry 13#5 12#5 none),
    (0xC4FE34F5, .wstep 319#11 17#5 20#5 none)] : List (Nat × Instr)), decodeTableWord 32 p.1 = some p.2 := by decide

theorem test_decode_compact1 : ∀ p ∈ ([
    (0x1EC2, .addCompact 7#4 11#4),
    (0x5542, .subCompact 5#4 5#4),
    (0xADC2, .andCompact 11#4 7#4),
    (0xE442, .orCompact 9#4 1#4),
    (0x3CC4, .xorCompact 15#4 3#4),
    (0x7744, .mulCompact 13#4 13#4),
    (0x8FC4, .shlCompact 3#4 15#4),
    (0xC644, .shrCompact 1#4 9#4),
    (0x1EC6, .shaCompact 7#4 11#4),
    (0x5546, .minCompact 5#4 5#4),
    (0xADC6, .maxCompact 11#4 7#4),
    (0xE446, .minnCompact 9#4 1#4),
    (0x7CC8, .addiCompact 31#6 3#4)] : List (Nat × Instr)), decodeTableWord 16 p.1 = some p.2 := by decide

theorem test_decode_compact2 : ∀ p ∈ ([
    (0x374A, .moviCompact 13#6 13#4),
    (0x4FCC, .shliCompact 19#6 15#4),
    (0xC64E, .shriCompact 49#6 9#4),
    (0x9ED0, .shaiCompact 39#6 11#4),
    (0xD552, .andiCompact 53#6 5#4),
    (0xDE54, .ldN64Compact 3#2 7#4 9#4),
    (0x7CD6, .stN64Compact 1#2 15#4 3#4),
    (0x74D8, .ldN32Compact 1#2 13#4 3#4),
    (0xC65A, .stN32Compact 3#2 1#4 9#4),
    (0xDEDC, .brzCompact 55#6 11#4),
    (0x155E, .brnzCompact 5#6 5#4),
    (0x3AE0, .jCompact 235#10),
    (0x01E2, .jrCompact 7#4)] : List (Nat × Instr)), decodeTableWord 16 p.1 = some p.2 := by decide

theorem test_decode_compact3 : ∀ p ∈ ([
    (0x0024, .finCompact)] : List (Nat × Instr)), decodeTableWord 16 p.1 = some p.2 := by decide

/-! ### A small device

One core of a 4 by 4 partition in focus, out of reset, with a running firing and a valid entry at offset 0x100 for every
handler and stop cause. -/

def entry100 : BitVec 128 := 0x10100#128

def bench : State :=
  { State.reset with
    core := { State.reset.core with
      busy := true
      f := { Firing.reset with pc := 0x40 }
      tab := { Tables.reset with handlers := (List.range 18).map fun k => (256 + k, entry100) } }
    dev := { Device.reset with
      part := { Partition.reset with
        made := true
        pext := 0x040400000000#64 }
      sysTable := (List.range 18).map fun k => (256 + k, entry100)
      boot := { Boot.reset with bootstat := 4#64 } } }

/-- Registers s1, s2, … of the running firing. -/
def withS (s : State) (ws : List Word) : State := s.setSMany 1#5 ws

/-- The same in supervisor mode. -/
def superBench : State := bench.mapF fun f => { f with smode := true }

/-- What an instruction leaves satisfies `p`. -/
def runs (i : Instr) (s : State) (p : State → Bool) : Bool :=
  match exec i s with
  | .next t => p t
  | _ => false

/-- The value that an instruction leaves in a register. -/
def leaves (i : Instr) (s : State) (d : BitVec 5) : Option Word :=
  match exec i s with
  | .next t => some (t.regs.getS d)
  | _ => none

theorem bench_at_once : AtOnce bench := ⟨.inr ⟨rfl, rfl⟩, .inr rfl, rfl⟩

/-- A pointer into the buffers of the core at (0, 0). -/
def here (buf off : Nat) : Word := mkPtr 0 0 buf off

/-! ### Worked values of the spec -/

/-- The pointer of the example under R22, built as Table 5.7 builds it. -/
theorem test_movhi_builds_pointer :
    leaves (.movi 0x7FFC0#19 5#5 none) bench 5#5 = some 0xFFFFFFFFFFFFFFC0#64 ∧
    leaves (.movhi 0x118#19 5#5 none) (bench.setS 5#5 0xFFFFFFFFFFFFFFC0#64) 5#5 = some 0xFFFFFFFFFE000118#64 ∧
    leaves (.movhi 0x4B000#19 5#5 none) (bench.setS 5#5 0xFFFFFFFFFE000118#64) 5#5 = some 0xFFFFF00008C4B000#64 ∧
    leaves (.movhi 0x1A40#19 5#5 none) (bench.setS 5#5 0xFFFFF00008C4B000#64) 5#5 = some (mkPtr 37 70 2 0x1A40) := by
  decide

/-- A core at a logical coordinate of a partition of 128 by 128 with this origin column. -/
def coreOf (x y : BitVec 8) (org : Nat) : State :=
  (bench.mapD fun d => { d with part := { d.part with pext := BitVec.ofNat 64 (128 * 2 ^ 40 + 128 * 2 ^ 32 + org) } }).mapC
    fun c => { c with id := .mesh x y }

/-- Table 5.11. -/
theorem test_dist_worked :
    leaves (.dist 0#3 2#5 1#5 3#5 none) (withS (coreOf 37#8 70#8 0) [mkPtr 30 5 0 0, 8#64]) 3#5 = some 45056#64 ∧
    leaves (.dist 0#3 2#5 1#5 3#5 none) (withS (coreOf 37#8 70#8 0) [mkPtr 37 70 0 0, 8#64]) 3#5 = some 0#64 ∧
    leaves (.dist 0#3 2#5 1#5 3#5 none) (withS (coreOf 10#8 3#8 16) [mkPtr 20 3 0 0, 0#64]) 3#5 = some 4608#64 := by decide

/-- The worked access of chapter 19: LD.n64 from (31, 0) to (32, 0) pays 4,608 grains when it takes its reply. -/
theorem test_load_charge :
    runs (.ld 0#11 7#3 1#5 3#5 none) ((withS (coreOf 31#8 0#8 0) [mkPtr 32 0 0 0x4000]).setWait
        (.replied (.data [1#8, 2#8, 3#8, 4#8, 5#8, 6#8, 7#8, 8#8]) []))
      (fun t => t.core.f.ctl.mnom = 4608#64 && t.regs.getS 3#5 = 0x0807060504030201#64) = true := by decide

/-- Boundary conversions (Table 4.6). -/
theorem test_conversions :
    cvtTo .f16 .rne false (numOf .f32 0x38800000) = (0x0400, 0#6) ∧
    cvtTo .f16 .rne false (numOf .f32 0x387FF000) = (0x0400, flagNX) ∧
    cvtTo .f16 .rne false (numOf .f32 0xB3800000) = (0x8000, flagUF ||| flagNX) ∧
    cvtTo .f16 .rne false (numOf .f32 0x477FF000) = (0x7C00, flagOF ||| flagNX) ∧
    cvtTo .f16 .rtz false (numOf .f32 0x477FF000) = (0x7BFF, flagOF ||| flagNX) ∧
    cvtTo .bf16 .rne false (numOf .f32 0x3F808000) = (0x3F80, flagNX) ∧
    cvtTo .f16 .rne false (numOf .f32 0x7F800001) = (0x7E00, flagNV) ∧
    cvtTo .f32 .rne false (numOf .f16 0x0001) = (0x33800000, 0#6) ∧
    cvtTo (.int true 32) .rne false (numOf .f32 0x4F000000) = (0x7FFFFFFF, flagNV) ∧
    cvtTo (.int true 32) .rne false (numOf .f32 0xBFC00000) = (0xFFFFFFFE, flagNX) ∧
    cvtTo (.int false 8) .rne false (numOf .f32 0x7FC00000) = (0, flagNV) ∧
    cvtTo .f16 .rne true (numOf (.int true 32) 70000) = (0x7C00, flagOF ||| flagNX) := by decide +kernel

/-- Worked q4 quantisation (Table 4.5). -/
theorem test_quantise :
    quantiseBlock 4 ([0x40400000, 0xBF400000, 0x3FA00000, 0x40D00000] ++ List.replicate 28 0)
      = (0x7F, [3, -1, 1, 6] ++ List.replicate 28 0, flagNX) ∧
    quantiseBlock 4 ([0x40F00000, 0xC1000000] ++ List.replicate 30 0) = (0x80, [4, -4] ++ List.replicate 30 0, flagNX) ∧
    quantiseBlock 4 (List.replicate 31 0x80000000 ++ [0]) = (0, List.replicate 32 0, 0#6) ∧
    quantiseBlock 4 (0x7F800000 :: List.replicate 31 0) = (0xFF, List.replicate 32 0, flagNV) := by decide +kernel

/-- ADD wraps, SUB borrows, and a source may be the destination. -/
theorem test_add_wraps :
    leaves (.add 0#3 2#5 1#5 1#5 none) (withS bench [BitVec.allOnes 64, 2#64]) 1#5 = some 1#64 ∧
    leaves (.sub 0#3 2#5 1#5 2#5 none) (withS bench [1#64, 2#64]) 2#5 = some (BitVec.allOnes 64) ∧
    leaves (.add 0#3 2#5 1#5 0#5 none) (withS bench [1#64, 2#64]) 0#5 = some 0#64 := by decide

/-- Division by zero, and the most negative number by -1 (R86). -/
theorem test_division_corners :
    leaves (.div 0#3 2#5 1#5 3#5 none) (withS bench [5#64, 0#64]) 3#5 = some (BitVec.allOnes 64) ∧
    leaves (.rem 0#3 2#5 1#5 3#5 none) (withS bench [5#64, 0#64]) 3#5 = some 5#64 ∧
    leaves (.div 0#3 2#5 1#5 3#5 none) (withS bench [0x8000000000000000#64, BitVec.allOnes 64]) 3#5
      = some 0x8000000000000000#64 ∧
    leaves (.rem 0#3 2#5 1#5 3#5 none) (withS bench [0x8000000000000000#64, BitVec.allOnes 64]) 3#5 = some 0#64 := by decide

/-- LD.i8 sign-extends and LD.n8 zero-extends (R111); the last byte of the A buffer is read. -/
theorem test_load_extends :
    leaves (.ld 0#11 0#3 1#5 3#5 none) (withS (bench.mapC fun c => c.store 0x17FFF [0x80#8]) [here 0 0x17FFF]) 3#5
      = some 0xFFFFFFFFFFFFFF80#64 ∧
    leaves (.ld 0#11 4#3 1#5 3#5 none) (withS (bench.mapC fun c => c.store 0x17FFF [0x80#8]) [here 0 0x17FFF]) 3#5
      = some 0x80#64 := by decide

/-- A step fetches what `withFetchWord` placed: ADDI s4, s0, #5 (Table 3.2: imm14 in bits 31..18). -/
theorem test_step_fetches : (match step (State.reset.withFetchWord 32 (5 * 2 ^ 18 + 4 * 2 ^ 8 + 5)) with
    | .next t => t.regs.getS 4#5
    | _ => 0#64) = 5#64 := by decide

/-! ### Hypotheses of the statements: registers and control -/

/-- The clauses of `LocalReady` and `SyncReady` as a check. -/
def localReady (s : State) (v : Word) (n align : Nat) (write : Bool) : Bool :=
  bit v 63 && s.isLocal v && decide (s.accessStop v n write align 0 = none)
    && decide (s.core.touchAbsent [(ptrKey v, n)] = none) && !s.core.engineMeets write [(ptrKey v, n)]
    && (match s.core.bankAccess s.agent (s.core.sectors (ptrKey v) n) write false ((bankOf (ptrKey v)).getD 0) s.core.slottedAhead with
        | .ok _ => true | _ => false)
    && decide ((((s.core.sectors (ptrKey v) n).map fun p => (s.core.id, p.1)).foldl Region.touch
      { s.core.f.region with touched := s.core.f.region.banks, held := [] }).touched.length ≤ 64)
    && !(write && s.core.f.region.reads (ptrKey v) n) && !s.core.tear && decide (s.core.f.partDone = [])
    && !(write && s.core.unsent) && decide (s.core.slots = [] ∧ s.core.badSecs = [])

def syncReady (s : State) (v : Word) (n align : Nat) (op : BankOp) : Bool :=
  s.isLocal v && decide (s.accessStop v n op.writes align 0 = none) && decide (s.core.touchAbsent [(ptrKey v, n)] = none)
    && !s.core.engineMeets op.stores [(ptrKey v, n)]
    && decide (s.core.conflict s.agent (s.core.sectors (ptrKey v) n) op.writes = none) && decide (s.core.badSecs = [])

/-- With no bad sector nothing that is read is bad. -/
theorem meetsBad_clean {c : Core} (h : c.badSecs = []) (key n : Nat) : c.meetsBad key n = false := by simp [Core.meetsBad, h]

theorem localReady_spec {s : State} {v : Word} {n align : Nat} {write : Bool} (h : localReady s v n align write = true) :
    LocalReady s v n align write := by
  simp only [localReady, Bool.and_eq_true, decide_eq_true_eq, Bool.not_eq_true'] at h
  obtain ⟨⟨⟨⟨⟨⟨⟨⟨⟨⟨⟨h1, h2⟩, h3⟩, h4⟩, h5⟩, h6⟩, h7⟩, h8⟩, h9⟩, h10⟩, h11⟩, h12, h13⟩ := h
  split at h6
  · next t ht => exact ⟨h1, h2, h3, ⟨h4, h5⟩, ⟨t, ht, h7, by simp [h12], fun _ => meetsBad_clean h13 _ _⟩, ⟨h9, h10⟩, fun hw => by simpa [hw] using h8,
      fun hw => by simpa [hw] using h11⟩
  · cases h6

theorem syncReady_spec {s : State} {v : Word} {n align : Nat} {op : BankOp} (h : syncReady s v n align op = true) :
    SyncReady s v n align op := by
  simp only [syncReady, Bool.and_eq_true, decide_eq_true_eq, Bool.not_eq_true'] at h
  exact ⟨h.1.1.1.1.1, h.1.1.1.1.2, ⟨h.1.1.1.2, h.1.1.2⟩, h.1.2, fun _ => meetsBad_clean h.2 _ _⟩

theorem witness_register_forms : (twoSourceForms 0#3 2#5 1#5 3#5 none).length = 20 ∧
    (oneSourceForms 0#3 1#5 3#5 none).length = 4 ∧ bench.regs.getP 0#3 = true := by decide

theorem witness_predicate_forms : ((∀ c ∈ conditions, c.1.toNat < 10) ∧ conditions.length = 10) ∧ bench.regs.getP 0#3 = true :=
  ⟨by simp [conditions], by decide⟩

theorem witness_pointer_forms : (5#5, 32, 16) ∈ pointerFields ∧ bench.regs.getP 0#3 = true := by decide

theorem witness_false_guard : (guardedForms 1#3 5#16 0#11 0#2 0#3 0#3 0#4 0#1 0#1 2#5 1#5 3#5 none).length = 54 ∧
    bench.regs.getP 1#3 = false := by decide

/-- Every transfer that is taken here has a target with its start bit: the lowest and the highest parcel among them. -/
theorem witness_transfers : (∀ f ∈ transfers (withS bench [0x7FFE#64, 0#64]) 0xFFE0#16 0x3FDF#19 0#6 0#10 0#3 1#5 2#5 2#4 none,
      f.taken = true → 0 ≤ f.target ∧ bench.core.startBit f.target.toNat = true) ∧
    (∀ f ∈ transfers (withS bench [0x7FFE#64, 1#64]) 0#16 0#19 0#6 0#10 0#3 1#5 2#5 2#4 none,
      f.instr = .loop 0#16 0#3 2#5 none → f.taken = false) ∧ bench.regs.getP 0#3 = true := by decide

theorem stop_entry (k : Nat) (h : k < 18) : StopEntry bench k 0x100 :=
  ⟨rfl, by revert k; decide, by decide⟩

/-- Below the store, past it, and at a parcel whose start bit is clear. -/
theorem witness_bad_targets :
    (∀ f ∈ transfers (withS bench [0x8000#64]) 0xFFDF#16 0x3FE0#19 0#6 0#10 0#3 1#5 0#5 1#4 none, f.taken = true →
      f.target = 0x40 ∨ f.target < 0 ∨ bench.core.startBit f.target.toNat = false) ∧
    (bench.mapC fun c => { c with mem := { c.mem with noStart := [(33, true)] } }).core.startBit 0x42 = false ∧
    StopEntry bench causeMisfetch 0x100 := ⟨by decide, by decide, stop_entry 2 (by decide)⟩

theorem bench_lone : bench.lone := .inr ⟨rfl, rfl⟩

theorem witness_fin : bench.lone ∧ bench.regs.getP 0#3 = true := ⟨bench_lone, by decide⟩

theorem witness_trap : StopEntry bench causeTrap 0x100 ∧ bench.regs.getP 0#3 = true ∧ bench.regs.getP 1#3 = false :=
  ⟨stop_entry 11 (by decide), by decide, by decide⟩

/-- In a stop entry that returns to the first parcel, or next to a place that is none. -/
def inStop : State := bench.mapF fun f => { f with ctl := { f.ctl with act := true, tpc := 0#15, tnpc := 0x41#15 } }

theorem witness_tret : (Instr.tret 2#11 none).wf = false ∧ inStop.core.f.ctl.act = true ∧
    inStop.core.startBit inStop.core.f.ctl.tpc.toNat = true ∧ inStop.core.startBit inStop.core.f.ctl.tnpc.toNat = false ∧
    StopEntry bench causeIllegal 0x100 := ⟨by decide, by decide, by decide, by decide, stop_entry 1 (by decide)⟩

/-- A launch whose record names a fault sink at (2, 3), handler 9. -/
def sinkLaunch : LaunchSt :=
  ⟨5, (1#512 <<< 280) ||| (2#512 <<< 256) ||| (3#512 <<< 264) ||| (9#512 <<< 272), 0#64, 0, none, 0#8, 0#8, 0, 0, [], [], 0, false,
    false, false, 0⟩

def inLaunch : State :=
  (inStop.mapD fun d => { d with seq := { d.seq with launches := [sinkLaunch] } }).mapF fun f => { f with lhnd := 5#64 }

theorem witness_unhandled_stop : inLaunch.regs.getP 0#3 = true ∧ inLaunch.core.f.ctl.act = true ∧
    (State.reset.stopEntry causeTrap = none) ∧ inLaunch.dev.seq.launchOf inLaunch.core.f.lhnd = some sinkLaunch ∧
    recSinkV sinkLaunch.rcd = true ∧ sinkLaunch.ended = false ∧ inLaunch.core.q.notices.length < 8 := by decide +kernel

theorem witness_reserved : StopEntry bench causeIllegal 0x100 := stop_entry 1 (by decide)

/-! ### Hypotheses: memory -/

/-- Every plain load and store at the first bytes of A. -/
theorem witness_plain_first :
    (∀ f ∈ loadForms (withS bench [here 0 0, 0#64]) 0#11 0#3 1#2 7#3 0#2 2#5 1#5 1#4 3#5 3#4 none,
      localReady (withS bench [here 0 0, 0#64]) f.1.addr f.1.size f.1.align false = true) ∧
    (∀ f ∈ storeForms (withS bench [here 0 0, 0#64]) 0#11 0#3 1#2 7#3 0#2 2#5 1#5 1#4 3#5 3#4 none,
      localReady (withS bench [here 0 0, 0#64]) f.1.addr f.1.size f.1.align true = true) ∧
    localReady (withS bench [here 0 0]) (here 0 0) 16 8 false = true := by decide +kernel

/-- And at the last ones of C. -/
theorem witness_plain_last :
    (∀ f ∈ loadForms (withS bench [here 2 0x7FE0, 3#64]) 0#11 0#3 1#2 7#3 3#2 2#5 1#5 1#4 3#5 3#4 none,
      localReady (withS bench [here 2 0x7FE0, 3#64]) f.1.addr f.1.size f.1.align false = true) ∧
    (∀ f ∈ storeForms (withS bench [here 2 0x7FE0, 3#64]) 0#11 0#3 1#2 7#3 3#2 2#5 1#5 1#4 3#5 3#4 none,
      localReady (withS bench [here 2 0x7FE0, 3#64]) f.1.addr f.1.size f.1.align true = true) := by decide +kernel

/-- The clauses of `PartReady` as a check. -/
def partReady (s : State) (v : Word) (n align : Nat) (write : Bool) (got : List Byte) (m : Nat) : Bool :=
  let key := ptrKey v + got.length
  bit v 63 && s.isLocal v && decide (s.accessStop v n write align 0 = none)
    && decide (s.core.touchAbsent [(ptrKey v, n)] = none) && !s.core.engineMeets write [(ptrKey v, n)]
    && (match s.core.bankAccess s.agent (s.core.sectors key m) write false ((bankOf key).getD 0) s.core.slottedAhead with
        | .ok _ => true | _ => false)
    && decide ((((s.core.sectors key m).map fun p => (s.core.id, p.1)).foldl Region.touch
      { s.core.f.region with touched := s.core.f.region.banks, held := [] }).touched.length ≤ 64)
    && decide (s.core.f.partDone = got) && decide (got.length < n) && !(write && s.core.f.region.reads key (n - got.length))
    && !(write && s.core.unsent) && decide (s.core.slots = [] ∧ s.core.badSecs = [])

theorem partReady_spec {s : State} {v : Word} {n align : Nat} {write : Bool} {got : List Byte} {m : Nat}
    (h : partReady s v n align write got m = true) : PartReady s v n align write got m := by
  simp only [partReady, Bool.and_eq_true, decide_eq_true_eq, Bool.not_eq_true'] at h
  obtain ⟨⟨⟨⟨⟨⟨⟨⟨⟨⟨⟨h1, h2⟩, h3⟩, h4⟩, h5⟩, h6⟩, h7⟩, h8⟩, h9⟩, h10⟩, h11⟩, h12, h13⟩ := h
  split at h6
  · next t ht => exact ⟨h1, h2, h3, ⟨h4, h5⟩, h8, h9, ⟨t, ht, h7, by simp [h12], fun _ => meetsBad_clean h13 _ _⟩, fun hw => by simpa [hw] using h10, fun hw => by simpa [hw] using h11⟩
  · cases h6

/-- A word at offset 30 of A, about to be torn at the end of its sector. -/
def tornBench : State := (withS bench [here 0 30]).mapC fun c => { c with tear := true }

theorem witness_parts :
    tornBench.core.tear = true ∧ nextPart (ptrKey (here 0 30)) 0 8 = 2 ∧
    (∀ write : Bool, partReady tornBench (here 0 30) 8 1 write [] 2 = true) ∧
    (let s := tornBench.setWait (.part [1#8, 2#8])
     nextPart (ptrKey (here 0 30)) 2 8 = 6 ∧ (s.mapC fun c => { c with tear := false }).core.tear = false ∧
      ∀ write : Bool, partReady s (here 0 30) 8 1 write [1#8, 2#8] 6 = true) ∧
    tornBench.regs.getP 0#3 = true := by decide +kernel

/-- The region has read the block that the store hits; then it holds a remote store too. -/
def readBench : State := (withS bench [here 0 0]).mapF fun f => { f with region := f.region.addReads 0 8 }

theorem witness_checkpoint :
    (let v := here 0 0
     bit v 63 = true ∧ readBench.isLocal v = true ∧ readBench.accessStop v 8 true 1 0 = none ∧
      readBench.core.touchAbsent [(ptrKey v, 8)] = none ∧ readBench.core.engineMeets true [(ptrKey v, 8)] = false ∧
      readBench.core.unsent = false ∧ readBench.core.f.partDone = [] ∧ readBench.core.f.region.reads (ptrKey v) 8 = true ∧
      readBench.core.f.region.held = [] ∧ readBench.stopDue = false) ∧
    (readBench.mapF fun f => { f with region := { f.region with held := [⟨.mesh 1#8 1#8, 0, [1#8], 0x40, mkPtr 1 1 0 0, .buffer⟩] } }
      ).core.f.region.held.any Held.inBuffer = true := by decide +kernel

theorem witness_local_ready : LocalReady (withS bench [here 0 0]) (here 0 0) 16 8 false := localReady_spec witness_plain_first.2.2

/-- A remote word that spans two sectors. -/
def farPtr : Word := mkPtr 1 2 0 0x101C

theorem witness_remote : bit farPtr 63 = true ∧ bench.isLocal farPtr = false ∧
    (let k := grains 8 (nomEighths bench.dev.part bench.xy.1 bench.xy.2 farPtr)
     bench.accessStop farPtr 8 false 1 k = none ∧ bench.accessStop farPtr 8 true 1 k = none) ∧
    bench.core.f.wait = .none ∧ bench.core.ack.waiting = [] ∧ bench.core.f.region.banks.length < 64 ∧
    bench.core.f.region.held.length ≤ 28 ∧ bench.core.f.region.banks.length ≤ 60 ∧
    (bench.setWait (.replied (.data [1#8, 2#8, 3#8, 4#8]) [5#8, 6#8, 7#8, 8#8])).core.f.wait
      = .replied (.data [1#8, 2#8, 3#8, 4#8]) [5#8, 6#8, 7#8, 8#8] := by decide

/-- Every remote form at a multiple of 8, the first time and after a part; and LDI with its sector there, missing and on its way. -/
theorem witness_remote_forms :
    (let s := withS bench [mkPtr 1 2 0 0x1018, 0#64]
     let charge (f : PlainForm) : Nat := grains f.size (nomEighths s.dev.part s.xy.1 s.xy.2 f.addr)
     (∀ f ∈ plainLoads s 0#11 0#3 1#2 7#3 0#2 2#5 1#5 1#4 3#5 3#4 none, bit f.1.addr 63 = true ∧ s.isLocal f.1.addr = false ∧
        s.accessStop f.1.addr f.1.size false f.1.align (charge f.1) = none) ∧
      (∀ f ∈ storeForms s 0#11 0#3 1#2 7#3 0#2 2#5 1#5 1#4 3#5 3#4 (some (8#32, none)), bit f.1.addr 63 = true ∧
        s.isLocal f.1.addr = false ∧ s.accessStop f.1.addr f.1.size true f.1.align (charge f.1) = none)) ∧
    (let s := bench.setWait (.replied (.data [1#8, 2#8, 3#8, 4#8]) [5#8])
     s.core.f.wait = .replied (.data [1#8, 2#8, 3#8, 4#8]) [5#8] ∧ [5#8].length + [1#8, 2#8, 3#8, 4#8].length < 8) ∧
    (match invRead (.mesh 1#8 2#8) 0x1018 8 [0x1000] [⟨.mesh 1#8 2#8, 0x1000, List.replicate 32 7#8⟩] with
      | .ok (bs, _) => bs == List.replicate 8 7#8 | .error _ => false) = true ∧
    (match invRead (.mesh 1#8 2#8) 0x101C 8 [0x1000, 0x1020] [⟨.mesh 1#8 2#8, 0x1000, List.replicate 32 7#8⟩] with
      | .ok _ => false | .error k => k == 0x1020) = true ∧
    ((bench.mapC fun c => { c with phys := { c.phys with fetches := [⟨4, .mesh 1#8 2#8, 0x1020⟩] } }).core.phys.fetches.find? fun f =>
      f.id = .mesh 1#8 2#8 && f.key = 0x1020) = some ⟨4, .mesh 1#8 2#8, 0x1020⟩ := by decide +kernel

theorem witness_shapes : (bench.mapD fun d => { d with image := { d.image with shapes := [7#256] } }).dev.image.shapes[0]? = some 7#256 ∧
    LocalReady (withS bench [here 0 32]) (here 0 32) 32 8 false ∧
    ETy.ofCode (shTypeCode (bench.regs.getH 2#4)) = some (.int true 8) :=
  ⟨by decide, localReady_spec (by decide +kernel), by decide⟩

theorem witness_atomics :
    (∀ f ∈ integerAtomics 0#3 0#1 2#5 1#5 3#5 none, syncReady bench (here 2 0x7FF8) 8 8 (.atomic f.2.1 8 5#64 6#64) = true) ∧
    (∀ f ∈ integerAtomics 0#3 1#1 2#5 1#5 3#5 none, syncReady bench (here 0 4) 4 4 (.atomic f.2.1 4 5#64 6#64) = true) ∧
    syncReady bench (here 0 2) 2 2 (.atomic .faddBF16 2 5#64 6#64) = true ∧
    syncReady bench (here 0 4) 4 4 (.atomic .faddF32 4 5#64 6#64) = true ∧
    syncReady bench (here 0 16) 16 16 (.claim 4 3) = true := by decide +kernel

theorem witness_sync : InOrder bench ∧ SyncReady bench (here 0 16) 16 16 (.claim 4 3) ∧ bench.regs.getP 0#3 = true :=
  ⟨⟨bench_at_once, rfl⟩, syncReady_spec witness_atomics.2.2.2.2, by decide⟩

theorem witness_acquire : SyncReady bench (here 0 8) 8 8 (.syncRead 8) ∧ SyncReady bench (here 0 8) 8 8 (.syncWrite (natToBytes 8 5)) :=
  ⟨syncReady_spec (by decide +kernel), syncReady_spec (by decide +kernel)⟩

/-! ### Hypotheses: messages and circular buffers -/

def fullBench : State :=
  bench.mapC fun c => { c with
    tab := { c.tab with sqctl := 0x1001#64 }
    q := { c.q with sendReq := [⟨.control, 1#64, [], 0#64, none, 0, 0#16, 0⟩] } }

theorem witness_messages : AtOnce bench ∧ msgDestOk bench.dev.part (mkPtr 3 3 0 0) = true ∧
    overLimit bench.core.f.ctl.mlim bench.core.f.ctl.mnom (bench.chargeOf (mkPtr 3 3 0 0) 16) = false ∧
    bench.core.q.sendReq.length < bench.core.tab.sqctl.toNat % 2 ^ 5 ∧
    bench.core.q.sendRep.length < bench.core.tab.sqctl.toNat / 2 ^ 8 % 2 ^ 5 := ⟨bench_at_once, by decide, by decide, by decide, by decide⟩

theorem witness_full_queue : AtOnce fullBench ∧ msgDestOk fullBench.dev.part (mkPtr 3 3 0 0) = true ∧
    fullBench.overMeter (fullBench.chargeOf (mkPtr 3 3 0 0) 16) = false ∧ fullBench.core.sendRoom false = 0 ∧
    StopEntry fullBench causeSqfull 0x100 :=
  ⟨⟨.inr ⟨rfl, rfl⟩, .inr rfl, rfl⟩, by decide, by decide, by decide, ⟨rfl, by decide, by decide⟩⟩

/-- Four slots of 64 bytes at offset 0x400 of A, with scope JOB. -/
def cbRec : BitVec 128 := BitVec.ofNat 128 (0x400 + 64 * 2 ^ 32 + 4 * 2 ^ 48 + 3 * 2 ^ 64)

/-- Entry 3 holds that CB with two slots filled, at the wrap. -/
def cbBench : State :=
  (bench.mapD fun d => { d with image := { d.image with cbs := [cbRec] } }).mapC fun c =>
    { c with tab := { c.tab with cb := c.tab.cb.set 3 (.home cbRec 3 1 2 [] 0#64 0) } }

theorem witness_cbdef : AtOnce cbBench ∧ cbBench.dev.image.cbs[0]? = some cbRec ∧ cbRecordOk cbRec = true ∧
    cbBench.core.cbAt 15 = .empty := ⟨⟨.inr ⟨rfl, rfl⟩, .inr rfl, rfl⟩, by decide, by decide, by decide⟩

theorem witness_cb_home : cbBench.core.unsent = false ∧ cbBench.core.cbAt 3 = .home cbRec 3 1 2 [] 0#64 0 ∧ cbBench.overMeter 0 = false ∧ cbBench.core.cbPending 3 = false ∧
    cbS cbRec = 4 ∧ cbBench.core.f.wait = .none := by
  decide

theorem witness_cb_moves :
    (let at_ (j : Nat) : Nat := keyOf (cbBuf cbRec) (cbSlotOff cbRec j)
     cbBench.core.engineMeets true [(at_ 1, 64)] = false ∧ cbBench.core.engineMeets false [(at_ 3, 64)] = false ∧
     cbBench.core.badSecs = [] ∧
     cbBench.core.inShadow (at_ 1) 64 = false ∧ cbBench.core.inShadow (at_ 3) 64 = false ∧
     cbBench.core.conflict cbBench.agent (cbBench.core.sectors (at_ 1) 64) true = none ∧
     cbBench.core.conflict cbBench.agent (cbBench.core.sectors (at_ 3) 64) false = none) ∧ 8 * 8 ≤ cbSlot cbRec := by
  decide +kernel

/-! ### Hypotheses: firings, launches, system forms -/

def actorRec : BitVec 256 :=
  BitVec.ofNat 256 (0x100 + 2 ^ 16 + 2 ^ 24 + 3 * 2 ^ 32 + 2 ^ 40 + 4 * 2 ^ 96 + 2 ^ 104 + (2 ^ 64 - 1) * 2 ^ 160)

def nestRec : BitVec 192 := BitVec.ofNat 192 (0x100 + 2 * 2 ^ 16 + 3 * 2 ^ 32 + 5 * 2 ^ 48 + 4 * 2 ^ 96 + (2 ^ 64 - 1) * 2 ^ 128)

/-- One core to a slot, one cohort, handler set 0. -/
def launchRec : BitVec 512 := BitVec.ofNat 512 (2 ^ 16 + 2 ^ 24)

def launchSt (serial phase : Nat) (live : List Admitted) (status : Option Nat) : LaunchSt :=
  ⟨serial, launchRec, 9#64, phase, none, 0#8, 0#8, 0, 1, live, [], 0, false, false, status.isSome, status.getD 0⟩

/-- A job with record tables, CB entries 3 and 4, a launch that has ended with status 5 and one that runs. -/
def jobBench : State :=
  (bench.mapD fun d => { d with
    image := { Image.empty with
      actors := [actorRec]
      nests := [nestRec]
      launches := [launchRec]
      sets := [⟨false, [], [(0, entry100)]⟩] }
    seq := { d.seq with
      nextLaunch := 7
      phase := 3
      launches := [launchSt 2 1 [] (some 5), launchSt 3 3 [] none] } }).mapC fun c =>
    { c with tab := { c.tab with cb := (c.tab.cb.set 3 (.home cbRec 0 0 2 [] 0#64 0)).set 4 (.link (.mesh 1#8 1#8) 3 cbRec) } }

theorem job_lone : jobBench.lone := .inr ⟨rfl, rfl⟩

theorem witness_bindings : jobBench.core.unsent = false ∧ jobBench.core.bindAt 15#4 = .empty ∧
    jobBench.dev.image.actors[0]? = some actorRec ∧ jobBench.actorRecordOk actorRec = true ∧
    jobBench.dev.image.nests[0]? = some nestRec ∧ jobBench.nestRecordOk nestRec = true ∧
    jobBench.accessStop (mkPtr 1 1 0 64) 16 true 16 0 = none ∧ jobBench.isLocal (mkPtr 1 1 0 64) = false ∧
    jobBench.accessStop (here 0 64) 16 true 16 0 = none ∧ jobBench.isLocal (here 0 64) = true ∧
    jobBench.core.inShadow (ptrKey (here 0 64)) 16 = false ∧
    jobBench.core.conflict jobBench.agent (jobBench.core.sectors (ptrKey (here 0 64)) 16) true = none := by decide +kernel

theorem witness_launch : AtOnce jobBench ∧ jobBench.dev.image.launches[0]? = some launchRec ∧ jobBench.recordStop [0] = none ∧
    jobBench.dev.seq.unplaced < 64 ∧ jobBench.dev.seq.openPhase < 0xFFFF :=
  ⟨⟨.inr ⟨rfl, rfl⟩, .inr rfl, rfl⟩, by decide +kernel, by decide +kernel, by decide +kernel, by decide +kernel⟩

theorem witness_cancel_and_wait : jobBench.dev.seq.handleOk (handleWord 0 3 3) = true ∧
    jobBench.dev.seq.status (handleWord 0 3 3) = none ∧ jobBench.ownUnit (handleWord 0 3 3) = false ∧
    jobBench.dev.seq.handleOk (handleWord 0 1 2) = true ∧ jobBench.dev.seq.status (handleWord 0 1 2) = some 5 ∧
    hdLevel (handleWord 0 1 2) ≠ 2 ∧ jobBench.ownUnit (handleWord 0 1 2) = false ∧
    (jobBench.mapC fun c => { c with cohort := some ⟨3, handleWord 0 3 3, 0, 0, 0, 0, 0, 0, launchRec, 0#32⟩, f := { c.f with
      lhnd := handleWord 0 3 3 } }).ownUnit (handleWord 0 3 3) = true := by
  decide +kernel

/-- A graph of two launches with one edge, at offset 64 of A. -/
def graphBench : State :=
  (withS jobBench [here 0 64]).mapC fun c => c.store 64 ([0x0102, 0, 77, 0, 78, 0x0100].flatMap fun w => natToBytes 8 w)

theorem witness_graph : InOrder graphBench ∧ (graphBench.core.f.irrev = true → graphBench.core.f.graph = none) ∧ Undisturbed graphBench false [(64, 42)] ∧
    (match graphBench.graphDesc (here 0 64) with
      | some g => decide (g.n = 42 ∧ g.launches.length = 2 ∧ g.edges = [(0, 1)] ∧ graphBench.recordStop (g.launches.map Prod.fst) = none ∧
          graphBench.core.conflict graphBench.agent (graphBench.core.sectors 64 g.n) false = none ∧
          graphBench.dev.seq.unplaced + g.launches.length ≤ 64)
      | none => false) = true ∧ graphBench.core.engineMeets false [graphSpan (here 0 64)] = false ∧ ptrOff (here 0 64) % 8 = 0 :=
  ⟨⟨⟨.inr ⟨rfl, rfl⟩, .inr rfl, rfl⟩, rfl⟩, fun h => (by cases h), ⟨by decide +kernel, by decide +kernel⟩, by decide +kernel,
    by decide +kernel, by decide⟩

/-- Tags 0 and 63 are set. -/
def tagBench : State := (withS bench [here 0 64, 9#64]).mapC fun c =>
  { c.store 64 (natToBytes 8 9) with tab := { c.tab with tags := 0x8000000000000001#64 } }

theorem witness_tags : tagBench.isLocal (here 0 64) = true ∧ tagBench.accessStop (here 0 64) 8 false 8 0 = none ∧
    ptrBuf (here 0 64) ≠ 1 ∧ Undisturbed tagBench false [(64, 8)] ∧
    tagBench.core.conflict tagBench.agent (tagBench.core.sectors 64 8) false = none ∧ tagBench.core.meetsBad 64 8 = false ∧
    (tagBench.regs.getS 2#5).toNat ≤ tagBench.nat64 64 ∧ tagsOf tagBench 63#11 0#5 = 0x8000000000000000#64 ∧
    (tagsOf tagBench 63#11 0#5 &&& ~~~tagBench.core.tab.tags) = 0#64 ∧ (tagsOf tagBench 63#11 0#5).getLsbD 63 = true :=
  ⟨by decide +kernel, by decide +kernel, by decide, ⟨by decide +kernel, by decide +kernel⟩, by decide +kernel, by decide +kernel,
    by decide +kernel, by decide, by decide, by decide⟩

/-- A core in supervisor mode whose registers hold more than zero: the last stop, a region stop, a delay, a chain, a halt. -/
def filledBench : State := superBench.mapC fun c => { c with
  f := { c.f with
    ctl := { c.f.ctl with act := true, cause := 4#8, tpc := 0x7FFE#15, taddr := 5#64, mnom := 9#64, rm := 2#3 }
    rspc := 0x1000010000000040#64
    rsagent := 0x8003020100000007#64
    regs := c.f.regs.setE 7#3 77#64 }
  tab := { c.tab with tags := 6#64, chains := [⟨3#4, 2, 0#128, 1, 0, 1, 2, none, none, none⟩]
                      win := c.tab.win.set 4 { c.tab.win[4] with chain := some 3#4 } }
  cohort := some ⟨3, handleWord 0 3 3, 0, 1, 2, 3, 4, 5, launchRec, 0#32⟩
  phys := { c.phys with dacc := c.phys.dacc.set 31 8#64, halted := true, dump := 0x50001#64, trcctl := 0x1001#64 } }

/-- Table 7.8 on that core, and its places: each number of the statement's table is a register of the core, with the value there. -/
theorem test_register_table : (∀ r ∈ registerTable filledBench, r.1 ≠ 0x820 → r.1 ≠ 0x821 →
      filledBench.core.csrAssigned r.1 = true ∧ filledBench.csrValue r.1 = r.2) ∧ (registerTable filledBench).length = 77 ∧
    filledBench.csrValue 0x018 = 0x8000000000000004#64 ∧ filledBench.csrValue 0x02B = 0x0504000300020001#64 := by decide +kernel

theorem witness_register_reads : filledBench.core.f.smode = true ∧ filledBench.core.eng.vq = [] ∧ filledBench.core.eng.mq = [] ∧
    filledBench.timeHere < 2 ^ 64 ∧ (superBench.mapC fun c => { c with id := .memory 0#3 0#4 }).core.isMemory = true := by
  decide +kernel

/-- A memory core in supervisor mode: TLBINV is one of its registers. -/
def memoryBench : State := superBench.mapC fun c => { c with id := .memory 0#3 0#4 }

/-- Every register that reads back what is written takes its own value by CSWR; PTROOT is a register of memory cores. -/
theorem witness_register_writes :
    (∀ p ∈ plainRegisters, p.1 ≠ 0x820 → superBench.core.csrAssigned p.1 = true ∧
      superBench.csrRefused p.1 (combined 1#2 (superBench.csrValue p.1) (superBench.csrValue p.1)) = false) ∧
    memoryBench.core.csrAssigned 0x820 = true ∧
    memoryBench.csrRefused 0x820 (combined 2#2 (memoryBench.csrValue 0x820) (BitVec.allOnes 64)) = false := by decide +kernel

/-- The dies' registers, the key's halves and HGRP, of a core that is not halted. -/
theorem witness_other_writes :
    (∀ r ∈ [0x830, 0x832, 0x800, 0x801, 0x813], superBench.core.csrAssigned r = true) ∧
    (∀ p ∈ [(0x830, 0x40210#64), (0x832, 0x3FF#64), (0x800, BitVec.allOnes 64), (0x801, 5#64), (0x813, 0x10003#64)],
      superBench.csrRefused p.1 (combined 1#2 (superBench.csrValue p.1) p.2) = false) ∧
    dieOf superBench.core.site < 8 ∧ superBench.core.phys.halted = false := by decide +kernel

theorem witness_sqctl : superBench.core.csrAssigned 0x022 = true ∧ superBench.csrRefused 0x022 (combined 1#2 0x1010#64 0x20101#64) = false ∧
    (0x022, 0x21F1F#64) ∈ plainRegisters := by decide +kernel

theorem witness_supervisor_commands : memoryBench.core.f.smode = true ∧ memoryBench.core.isMemory = true ∧
    (1#2 ≠ 0#2 ∧ combined 2#2 0#64 0x14#64 = 0x14#64 ∧ combined 3#2 0#64 0x14#64 = 0#64) ∧
    (∀ x ∈ memoryBench.cores, x.heldUnder 8#64 x.f = false) ∧ memoryBench.commitsOut = false ∧
    (memoryBench.mapF fun f => { f with region := { f.region with held := [⟨.control, 0x5000, [1#8], 0x40, 0x5000#64, .device⟩] } }).core.heldUnder 8#64
      { memoryBench.core.f with region := { memoryBench.core.f.region with held := [⟨.control, 0x5000, [1#8], 0x40, 0x5000#64, .device⟩] } } = true ∧
    field 0x10010#64 2 2 = 0 ∧ field 0x14#64 2 2 = 1 ∧ field 0x8#64 2 2 = 2 ∧ combined 1#2 superBench.pwrqWord 0x40301#64 = 0x40301#64 ∧
    field 0x40301#64 8 5 ≤ 16 ∧ field 0x40301#64 0 2 = 1 ∧ field 0x40302#64 0 2 = 2 ∧
    superBench.quadInUse (pwQuad (dieOf superBench.core.site) 0x40301#64) = false ∧
    (superBench.dev.quadAt (pwQuad (dieOf superBench.core.site) 0x40301#64)).gate = .on ∧
    ((superBench.setQuad { superBench.dev.quadAt (pwQuad 0 0x40302#64) with gate := .off }).dev.quadAt (pwQuad 0 0x40302#64)).gate
      = .off := by decide +kernel

theorem witness_halt_registers : superBench.core.f.smode = true ∧ bit superBench.core.phys.dump 0 = false ∧
    (superBench.mapC fun c => { c with phys := { c.phys with halted := true } }).core.phys.halted = true ∧
    (∀ k, (superBench.core.win k).st = .absent) ∧
    0x10001#64 &&& ~~~0xFFFF0003#64 = 0#64 ∧ bit 0x10001#64 0 = true ∧ field 0x10001#64 16 16 ≠ 0 := by decide +kernel

theorem witness_job_mode : (supervisorForms 0#11 0xFFF#12 1#5 3#5 none).length = 8 ∧ bench.core.f.smode = false ∧
    StopEntry bench causePriv 0x100 := ⟨by decide, by decide, stop_entry 10 (by decide)⟩

theorem witness_supervisor_forms :
    (let s : State := { superBench with others := superBench.others ++ [Core.fresh (.mesh 1#8 1#8) ⟨1#8, 1#8⟩] }
     AtOnce s ∧ siteOnDevice ⟨1#8, 1#8⟩ = true ∧ (s.cores.find? fun k => k.onSite ⟨1#8, 1#8⟩).map Core.id = some (.mesh 1#8 1#8)) ∧
    (0#64).toNat ≤ superBench.readTime.1.toNat ∧
    (superBench.setWait (.replied (.words [7#64]) [])).core.f.wait = .replied (.words [7#64]) [] ∧
    superBench.inPool ⟨32#8, 0#8⟩ = true ∧ dieOf ⟨32#8, 0#8⟩ = dieOf superBench.core.site ∧ superBench.core.isMesh = true ∧
    superBench.canName superBench.core.id ⟨32#8, 0#8⟩ = true ∧ superBench.moveWaits = false ∧ superBench.core.phys.haltPending = none ∧
    superBench.core.phys.haltBy ≠ some superBench.core.f.serial ∧
    (superBench.mapC fun c => { c with phys := { c.phys with haltPending := some 2 } }).moveWaits = false :=
  ⟨⟨⟨.inr ⟨rfl, rfl⟩, .inr rfl, rfl⟩, by decide, by decide⟩, by decide, by decide, by decide +kernel, by decide, by decide, by decide +kernel,
    by decide +kernel, by decide, by decide, by decide +kernel⟩

theorem witness_debug : bench.core.phys.brken = false ∧ bench.core.phys.haltPending = none ∧
    (bench.mapC fun c => { c with phys := { c.phys with brken := true, trcctl := 0x1001#64 } }).core.phys.brken = true ∧
    bit 0x1001#64 0 = true ∧ bit 0x1001#64 12 = true ∧ bench.dev.time < 2 ^ 64 ∧
    bench.core.phys.traceQ.length + (if bench.core.phys.traceDrop = 0 then 0 else 1) < 16 ∧
    bit bench.core.phys.trcctl 0 = false ∧ bench.core.f.region.probed = [] ∧ bench.stopDue = false ∧ bench.timeHere < 2 ^ 64 ∧
    (bench.mapF fun f => { f with region := { f.region with held := [⟨.mesh 1#8 1#8, 0, [1#8], 0x40, mkPtr 1 1 0 0, .buffer⟩] } }).core.f.region.probed
      ≠ [] := by decide +kernel

/-- CAPMINT of the last 256 bytes of C; MCAP for the farthest core of the partition, with a check that agrees and one that does not. -/
theorem witness_capabilities :
    (let v := 0x1007F00#64
     field v 15 1 = 0 ∧ field v 31 33 = 0 ∧ field v 0 15 % 256 = 0 ∧ field v 16 15 % 256 = 0 ∧ 256 ≤ field v 16 15 ∧
      field v 0 15 + field v 16 15 ≤ 32768) ∧ bench.core.tab.grants.length < 16 ∧
    (bench.core.eng.mq.filter fun k => !k.started).length < 2 ∧ bench.core.unsent = false ∧
    (let m := 0x0303000000FF#64
     field m 8 24 = 0 ∧ field m 48 16 = 0 ∧ field m 32 8 < pextWidth bench.dev.part.pext ∧
      field m 40 8 < pextHeight bench.dev.part.pext ∧
      field 0x0500#64 0 8 ≠ capChk bench.dev.part.capkey 0 5 3 3 ∧
      field (BitVec.ofNat 64 (0x0500 + capChk bench.dev.part.capkey 0 5 3 3)) 0 8 = capChk bench.dev.part.capkey 0 5 3 3) := by
  decide +kernel

/-! ### Hypotheses: the engines -/

def shp (base : Word) (ty : Nat) (dims : List (Nat × Nat)) (soff sbuf : Nat) : BitVec 256 :=
  BitVec.ofNat 256 (base.toNat + ty * 2 ^ 64 + dims.length * 2 ^ 72 + soff * 2 ^ 96 + sbuf * 2 ^ 126
    + ((List.range 4).map fun k => (dims.getD k (0, 0)).1 * 2 ^ (128 + 16 * k) + (dims.getD k (0, 0)).2 * 2 ^ (192 + 16 * k)).sum)

def withH (s : State) (rs : List (BitVec 4 × BitVec 256)) : State := rs.foldl (fun s r => s.setH r.1 r.2) s

/-- h1, h2, h3 are vectors of 8 unsigned bytes, h4 of signed bytes, h5 of f32, h6 one byte, h7 and h8 a byte matrix and its transpose, h9
indices, h10 a tile of 4-bit mantissas. -/
def vecBench : State :=
  withH (withS bench [0x7F03#64])
    [(1#4, shp (here 0 0) 4 [(8, 1)] 0 0), (2#4, shp (here 0 8) 4 [(8, 1)] 0 0), (3#4, shp (here 2 0) 4 [(8, 1)] 0 0),
     (4#4, shp (here 0 16) 0 [(8, 1)] 0 0), (5#4, shp (here 0 64) 10 [(8, 1)] 0 0), (6#4, shp (here 0 32) 4 [(1, 1)] 0 0),
     (7#4, shp (here 0 128) 4 [(3, 1), (2, 3)] 0 0), (8#4, shp (here 2 128) 4 [(2, 1), (3, 2)] 0 0),
     (9#4, shp (here 0 256) 5 [(8, 1)] 0 0), (10#4, shp (here 0 0x1000) 0x14 [(64, 1), (64, 64)] 0x3000 0)]

/-- The hypotheses of VectorFormsAreQueued for the n-th form. -/
def vecReady (s : State) (n : Nat) (t b a d : BitVec 5) : Bool :=
  match (vectorForms s 1#4 0#4 t b a d none)[n]? with
  | some f => decide (recordStop s f.uses = none) && (f.instr ≠ .vident t a d none || identValue (t.toNat % 16) (s.regs.getS a))
      && decide (s.core.touchAbsent (f.uses.flatMap fun u => u.spans s) = none)
      && decide ((s.core.eng.vq.filter fun k => !k.started).length < 2)
  | none => false

/-- One type and three registers that suit each of the 29 forms. -/
theorem witness_vector_forms : (vectorForms vecBench 1#4 0#4 4#5 2#5 1#5 3#5 none).length = 29 ∧ vecBench.core.unsent = false ∧
    ∀ n : Fin 29, ([(4#5, 2#5, 1#5, 3#5), (4#5, 2#5, 1#5, 6#5), (0#5, 2#5, 1#5, 4#5), (4#5, 2#5, 5#5, 3#5), (4#5, 9#5, 1#5, 3#5),
      (4#5, 9#5, 7#5, 8#5), (0x14#5, 2#5, 1#5, 10#5), (10#5, 5#5, 5#5, 5#5)] : List (BitVec 5 × BitVec 5 × BitVec 5 × BitVec 5)).any
        (fun p => vecReady vecBench n.val p.1 p.2.1 p.2.2.1 p.2.2.2) = true := by decide +kernel

/-- A tile, rows, and indices for the matrix queue, with full latches and the last region of C that fits. -/
def matBench : State :=
  (withH (withS bench [here 2 0x7D00, 0x302#64])
    [(3#4, shp (here 1 0x200) 0x14 [(64, 1), (64, 64)] 0x3000 1), (4#4, shp (here 0 0x800) 0x14 [(64, 1), (8, 64)] 0x3000 0),
     (5#4, shp (here 0 0x400) 5 [(5, 1)] 0 0)]).mapC
    fun c => { c with eng := { c.eng with am := 3, at_ := 0x14, bt := 0x14, rflags := 1#6 } }

def matReady (s : State) (n : Nat) (o t b a : BitVec 5) : Bool :=
  match (matrixForms s o t b a none)[n]? with
  | some f => f.ok && decide (s.core.touchAbsent f.spans = none) && decide ((s.core.eng.mq.filter fun k => !k.started).length < 2)
  | none => false

theorem witness_matrix_forms : (matrixForms matBench 0#5 0x14#5 5#5 4#5 none).length = 8 ∧ matBench.core.unsent = false ∧
    matBench.core.eng.mq = [] ∧ matReady matBench 0 0#5 0#5 0#5 2#5 = true ∧ matReady matBench 1 0#5 0#5 0#5 0#5 = true ∧
    matReady matBench 2 0#5 0x14#5 0#5 3#5 = true ∧ matReady matBench 3 0#5 0x14#5 5#5 4#5 = true ∧
    matReady matBench 4 0#5 0#5 0#5 1#5 = true ∧ matReady matBench 5 0#5 0#5 0#5 1#5 = true ∧
    matReady matBench 6 0#5 0#5 0#5 1#5 = true ∧
    matReady ((matBench.setS 1#5 (mkPtr 1 1 2 0x7D00)).setS 2#5 0x700#64) 7 0#5 0#5 2#5 1#5 = true := by decide +kernel

/-! ### Hypotheses: copies and windows -/

def mbox (src : Word) (ty n red : Nat) : BitVec 512 :=
  BitVec.ofNat 512 (src.toNat + n * 2 ^ 64 + ty * 2 ^ 136 + 2 ^ 141 + red * 2 ^ 148 + 2 ^ 256)

def winAt (k : Nat) (st : WState) (b : Option Bound) : Window :=
  { Window.reset with defined := true, buf := 0, off := 0x4000 + 1024 * k, size := 512, st := st, bound := b }

/-- A box at A, a reducing one and a plain one by index, and a window to copy into; s1 names the first box. -/
def copyBench : State :=
  ((withS bench [here 0 0, here 0 0x4000, here 0 0x3000, here 0 0x2000]).mapC fun c =>
      { c with tab := { c.tab with win := c.tab.win.set 0 (winAt 0 .present none) } }.store 0
        (natToBytes 64 (mbox (here 0 0x1000) 4 64 0).toNat)).mapD
    fun d => { d with image := { d.image with boxes := [mbox (here 0 0x1000) 2 16 3, mbox (here 0 0x1000) 4 64 0] } }

theorem witness_copies :
    (let v := here 0 0
     let b : Box := BitVec.ofNat 512 (bytesToNat (copyBench.core.readBytes (ptrKey v) 64))
     bit v 63 = true ∧ recordPtrOk copyBench v 64 = true ∧
      (match copyBench.core.bankAccess copyBench.agent (copyBench.core.sectors (ptrKey v) 64) false false ((bankOf (ptrKey v)).getD 0)
          copyBench.core.slottedAhead with
        | .ok _ => true | _ => false) = true ∧
      copyBench.copyStop false v b none (here 0 0x4000) (some (here 0 0x2000)) = none) ∧
    copyBench.copyStop false 1#64 (mbox (here 0 0x1000) 4 64 0) none (mkPtr 1 1 0 0x4000) none = none ∧
    copyBench.copyStop true 0#64 (mbox (here 0 0x1000) 2 16 3) none (here 0 0x3000) none = none ∧
    copyBench.core.eng.walks = [] ∧  copyBench.core.unsent = false := by decide +kernel

theorem witness_box_at_rest : Undisturbed copyBench false [(ptrKey (here 0 0), 64)] := ⟨by decide +kernel, by decide +kernel⟩

def bound0 : Bound := ⟨mbox (here 0 0x1000) 4 512 0, 7#6, 0x22, 0#64⟩

/-- Windows 0 and 1 absent, the first bound; 2 present and bound; 3 poisoned; 15 undefined. A descriptor of four links at 0x40 of A. -/
def winBench : State :=
  ((withS bench [here 0 0x40, 0x21#64]).mapC fun c =>
      { c with tab := { c.tab with win := (((c.tab.win.set 0 (winAt 0 .absent (some bound0))).set 1 (winAt 1 .absent none)).set 2
          (winAt 2 .present (some bound0))).set 3 (winAt 3 .poisoned none) } }.store 0x40 (natToBytes 16 (4 * 2 ^ 80))).mapD
    fun d => { d with image := { d.image with
      boxes := [mbox (here 0 0x1000) 4 512 0], windows := [BitVec.ofNat 64 (0x7C00 + 2 ^ 32)] } }

theorem witness_windows :
    (let s := winBench
     let b := mbox (here 0 0x1000) 4 512 0
     windowRecordOk (BitVec.ofNat 64 (0x7C00 + 2 ^ 32)) = true ∧ s.core.overlapsWindow (BitVec.ofNat 64 (0x7C00 + 2 ^ 32)) = false ∧
      (s.core.win 15#4).defined = false ∧
      s.boxValid b = true ∧ bxMap b = 0 ∧ bxRed b = 0 ∧ bxSwz b = 0 ∧ (s.core.win 1#4).admits (s.core.win 1#4).key b = true ∧
      ptrOff (bxSrc b) % bxAlign b = 0 ∧ s.overMeter (s.fillCharge (s.core.win 1#4) b) = false ∧
      (s.core.win 3#4).st = .poisoned ∧ (s.core.win 2#4).pend = 0 ∧ s.core.scrim = [] ∧ (s.core.win 2#4).chain = none) ∧
    (let s := winBench
     let v := here 0 0x40
     let ds : BitVec 128 := BitVec.ofNat 128 (bytesToNat (s.core.readBytes (ptrKey v) 16))
     s.core.chainFails 0#4 2 = none ∧ s.core.tab.chains = [] ∧ recordPtrOk s v 16 = true ∧
      (match s.core.bankAccess s.agent (s.core.sectors (ptrKey v) 16) false false ((bankOf (ptrKey v)).getD 0) s.core.slottedAhead with
        | .ok _ => true | _ => false) = true ∧
      ptrOff v % 16 = 0 ∧ descOk ds bound0.box = true ∧ s.overMeter ((dL ds - 1) * s.fillCharge (s.core.win 0#4) bound0.box) = false) ∧
    field 0x21#64 8 56 = 0 ∧ 1 ≤ field 0x21#64 0 4 ∧ field 0x21#64 0 4 ≤ field 0x21#64 4 4 ∧ winBench.core.unsent = false := by
  decide +kernel

theorem witness_descriptor_at_rest : Undisturbed winBench false [(ptrKey (here 0 0x40), 16)] := ⟨by decide +kernel, by decide +kernel⟩

theorem witness_engine_lone : vecBench.lone ∧ matBench.lone ∧ copyBench.lone ∧ winBench.lone :=
  ⟨.inr ⟨rfl, rfl⟩, .inr ⟨rfl, rfl⟩, .inr ⟨rfl, rfl⟩, .inr ⟨rfl, rfl⟩⟩
/-! ### Hypotheses: events -/

def farId : CoreId := .mesh 1#8 1#8

/-- The small device with a second core at (1, 1). -/
def pair : State := { bench with others := bench.others ++ [Core.fresh farId ⟨1#8, 1#8⟩] }

def withSeq (s : State) (g : Seq → Seq) : State := s.mapD fun d => { d with seq := g d.seq }

def withQ (s : State) (g : Queues → Queues) : State := s.mapC fun c => { c with q := g c.q }

/-- The state with one packet for the core in focus. -/
def got (s : State) (src : CoreId) (net : Net) (b : Body) : State :=
  { s with net := [⟨src, s.core.id, net, s.core.site, false, b, []⟩] }

/-- Its oldest packet has arrived. -/
theorem got_arrived (s : State) (src : CoreId) (net : Net) (b : Body) (h : s.dev.forwards = []) (m : s.core.moving.freezes = false) :
    Arrived (got s src net b) src net b { s with net := [] } := by
  simp [Arrived, State.recv, State.recvPacket, got, takeFirst, State.heldFlow, Core.diverts, h, m]

theorem witness_arrival : pair.dev.forwards = [] ∧ pair.core.moving.freezes = false := by decide

def launch5 : LaunchSt := launchSt 5 0 [admitted 0 0 0] none

def seqBench : State := withSeq { pair with core := { pair.core with busy := false, f := Firing.reset } }
  fun q => { q with launches := [launch5], started := true, nextLaunch := 6 }

/-- The cohort of launch 5 stands on the core in focus. -/
def placedBench (totals : Option (Nat × Nat)) (more : List Handed) : State :=
  (withSeq seqBench fun q => { q with
    inbox := more
    launches := [{ launch5 with live := [{ admitted 0 0 0 with placed := true, idleTotals := totals }] }] }).mapC
    fun c => { c with cohort := some ⟨5, 5#64, 0, 0, 0, 0, 0, 0, launchRec, 0#32⟩ }

theorem witness_sequencer_inbox :
    (placedBench none [.launch 7 launchRec 9#64 1#8 2#8 (some 2), .phase 4]).dev.seq.inbox
      = .launch 7 launchRec 9#64 1#8 2#8 (some 2) :: [.phase 4] ∧
    (placedBench none [.phase 4]).dev.seq.inbox = .phase 4 :: [] ∧
    (let q := (placedBench none [.cancel (handleWord 0 0 5) farId, .phase 5]).dev.seq
     q.inbox = .cancel (handleWord 0 0 5) farId :: [.phase 5] ∧
      ({ q with inbox := [.phase 5] } : Seq).status (handleWord 0 0 5) = none ∧
      5 ∈ ({ q with inbox := [.phase 5] } : Seq).unitLaunches (handleWord 0 0 5)) ∧
    (let q := (withSeq seqBench fun q => { q with
       launches := [launchSt 5 0 [] (some 3)], inbox := [.cancel (handleWord 0 0 5) farId] }).dev.seq
     q.inbox = .cancel (handleWord 0 0 5) farId :: [] ∧
      ({ q with inbox := [] } : Seq).status (handleWord 0 0 5) = some 3) := by decide +kernel

theorem witness_placement :
    (let q := seqBench.dev.seq
     q.preempting = false ∧ q.out = false ∧ q.jobEnded = false ∧ seqBench.dev.ctxs = [] ∧ q.reserved = none ∧
     (match q.candidates seqBench.dev.part with
      | c :: _ => (match q.launch c.serial with
        | some l => !c.wave && c.lin == linOf l.rcd c.idx
            && (slotCores seqBench.dev.part l.rcd (slotOfLin seqBench.dev.part l.rcd c.lin)).all seqBench.coreFree
        | none => false)
      | [] => false) = true) := by decide +kernel

/-- A first round, and a second with the same totals. -/
theorem witness_collection :
    (let s := placedBench none []
     let cs := s.cores.filter (Core.holdsCohort 5 (linOf launchRec 0))
     (s.dev.seq.launch 5).isSome = true ∧ ((s.dev.seq.launch 5).bind fun l => (l.entry 0).map Admitted.placed) = some true ∧
      cs.length = 1 ∧ s.dev.ctxs = [] ∧ (∀ c ∈ cs, s.coreIdle c = true) ∧
      ((cs.map fun c => c.q.sent).sum, (cs.map fun c => c.q.accepted).sum) = (0, 0) ∧
      ((s.dev.seq.launch 5).bind fun l => (l.entry 0).map Admitted.idleTotals) = some none ∧
      (((placedBench (some (0, 0)) []).dev.seq.launch 5).bind fun l => (l.entry 0).map Admitted.idleTotals) = some (some (0, 0))) := by
  decide +kernel

theorem witness_report_and_promotion :
    ((5, 0) ∈ (withSeq (placedBench none []) fun q => { q with reports := [(4, 1), (5, 0)] }).dev.seq.reports) ∧
    (let s := seqBench.mapD fun d => { d with time := 64000 }
     recClass launchRec = false ∧ ((s.dev.seq.launch 5).bind fun l => l.entry 0) = some (admitted 0 0 0) ∧
      (admitted 0 0 0).count = 0 ∧ (admitted 0 0 0).promoted = none ∧ (admitted 0 0 0).readyAt + 64000 ≤ s.dev.time) ∧
    seqBench.dev.seq.jobCancelled = false ∧ seqBench.redirect none = none := by decide +kernel

def mail1 : Mail := ⟨0x0003000000000002#64, [7#64, 8#64, 9#64], 5#64, 0, none, false, 0, false, 0⟩

def mailBench : State := withQ (placedBench none []) fun q => { q with rep := [mail1, mail1], req := [mail1] }

theorem witness_firing : mailBench.core.busy = false ∧ mailBench.core.q.parked = [] ∧ (∀ k, mailBench.core.bindAt k = .empty) ∧
    mailBench.core.awaitsCohort = false ∧ (∀ k : Fin 6, mailBench.core.q.pass[k] < 16) ∧ mailBench.core.q.rep = mail1 :: [mail1] ∧
    mail1.sup = false ∧
    (mailBench.mapC fun c => { c with tab := { c.tab with handlers := [(2, entry100)] } }).handlerEntry (hdrHnd mail1.hdr)
      = some entry100 ∧ mail1.args.length ≤ 15 := by decide +kernel

theorem witness_message_events :
    (let e : SendEntry := ⟨farId, 77#64, [1#64, 2#64], 5#64, none, 0, 0#16, 0⟩
     let s := withQ pair fun q => { q with sendRep := [e], sendReq := [e, e], notices := [(farId, 77#64, [1#64])] }
     s.core.sendQ true = e :: [] ∧ s.core.sendQ false = e :: [e] ∧ e.by_ = none ∧ e.ahead = 0 ∧ s.core.q.notices = (farId, 77#64, [1#64]) :: [] ∧
      s.core.q.turn = false ∧ s.core.ack.waiting = [] ∧ (withQ s fun q => { q with turn := true }).core.q.turn = true) ∧
    (let s := (placedBench none []).mapC fun c => { c with tab := { c.tab with handlers := [(2, entry100)] } }
     s.core.isPagerAnswer true mail1.hdr mail1.args = false ∧ s.core.isPagerAnswer false mail1.hdr mail1.args = false ∧
      s.redirect none = none ∧ hdrHnd mail1.hdr ≠ 255 ∧ (s.handlerEntry (hdrHnd mail1.hdr)).isSome = true ∧
      s.core.q.rep.length < 32 ∧ s.core.q.req.length < 32) ∧
    (let s := (withQ pair fun q => { q with req := [mail1, mail1] }).mapD fun d => { d with time := 64000 }
     s.core.q.req[1]? = some mail1 ∧ hdrCls mail1.hdr = false ∧ mail1.promoted = none ∧ mail1.at_ + 64000 ≤ s.dev.time) ∧
    (pair.mapC fun c => { c with tab := { c.tab with bind := c.tab.bind.set 15 (.actor actorRec false 0 false [(4, 1, 9)]) } }).core.bindAt
      15#4 = .actor actorRec false 0 false [(4, 1, 9)] ∧ 4 ∈ acHandles actorRec := by decide +kernel

/-- An instruction stands at the pc. -/
def code (s : State) (i : Instr) : State :=
  s.mapC fun c =>
    let bs := parcelBytes ((encode i).getD [])
    { c with
      mem := { c.mem with istore := Memory.write c.mem.istore c.f.pc bs }
      sysMem := { c.sysMem with istore := Memory.write c.sysMem.istore c.f.pc bs } }

theorem witness_park :
    (let s := (withQ (code (bench.setWait .poll) (.waitt 5#11 0#5 none)) fun q => { q with req := [mail1] }).mapC fun c =>
      { c with cohort := (placedBench none []).core.cohort, tab := { c.tab with handlers := [(2, entry100)] } }
     s.core.q.parked = [] ∧ s.core.f.wait = .poll ∧ s.core.f.region.held = [] ∧ (s.core.waitAt s.core.f).isSome = true ∧
      s.core.triggers ≠ [] ∧ s.core.busy = true ∧ s.stopDue = false ∧ s.core.drainedWait = true) := by decide +kernel

theorem witness_waits :
    (let s := (code (bench.setWait .poll) (.waitt 5#11 0#5 (some (2#32, none)))).mapC fun c =>
      { c with tab := { c.tab with tags := 0x20#64 } }
     s.core.fetch = .instr (.waitt 5#11 0#5 (some (2#32, none))) ∧ tagsOf s 5#11 0#5 = 0x20#64) ∧
    (let p : Parked := ⟨Firing.reset, some 3#4, none, none, false⟩
     let s := (withQ bench fun q => { q with parked := [p, p] }).mapC fun c =>
       { c with tab := { c.tab with win := c.tab.win.set 3 (winAt 3 .present none) } }
     s.core.q.parked[1]? = some p ∧ (s.core.win 3#4).st = .present) ∧
    (let s := code ((withS superBench [0#64]).setWait .poll) (.sleep 1#5 3#5 none)
     s.core.fetch = .instr (.sleep 1#5 3#5 none) ∧ s.core.f.smode = true ∧ (s.regs.getS 1#5).toNat ≤ s.readTime.1.toNat) ∧
    (let s := bench.mapC fun c => { c with saveAsked := true }
     s.core.requested = true ∧ s.core.f.region.held = [] ∧ s.core.f.wait = .none ∧ s.stopDue = false) := by decide +kernel

theorem witness_sleeper_at_once : AtOnce (code ((withS superBench [0#64]).setWait .poll) (.sleep 1#5 3#5 none)) :=
  ⟨.inr ⟨rfl, rfl⟩, .inr rfl, rfl⟩

def farAgent : Agent := ⟨farId, 7#16, 3#8⟩

/-- An agent's two entries and two staged probes, the first bytes of A written. -/
def homeBench : State := pair.mapC fun c =>
  { c with
    mem := { c.mem with data := [(0, 5#8), (31, 6#8)] }
    staged := [⟨⟨farId, 9#16, 3#8⟩, 0, [9#8], 0⟩, ⟨farAgent, 30, [1#8, 2#8, 0#8], 0⟩]
    tab := { c.tab with cb := c.tab.cb.set 3 (.home cbRec 3 1 2 [] 0#64 0) } }

/-- A load across two banks, one that meets the core's own entry, a probe at the end of C, and the rest at homeBench. -/
theorem witness_home :
    homeBench.core.inShadow 30 8 = false ∧
    (match homeBench.core.bankAccess farAgent (homeBench.core.sectors 30 8) false false 0 homeBench.core.slotted with | .ok _ => true | _ => false) = true ∧
    (match (homeBench.mapC fun c => { c with scrim := [⟨0, c.agent, false, false, [0], 0#256, 1#256⟩] }).core.bankAccess farAgent
      (homeBench.core.sectors 4 8) false false 0 homeBench.core.slotted with | .conflict _ => true | _ => false) = true ∧
    homeBench.core.inShadow (keyOf 2 0x7FFD) 3 = false ∧
    (match homeBench.core.bankAccess farAgent (homeBench.core.sectors (keyOf 2 0x7FFD) 3) true true
        ((bankOf (keyOf 2 0x7FFD)).getD 0) homeBench.core.slotted with
      | .ok _ => true | _ => false) = true ∧
    homeBench.core.memoryWf = true ∧
    (let s := homeBench.mapC fun c => { c with scrim := [⟨0, farAgent, false, false, [0], 1#256, 2#256⟩, ⟨0, c.agent, false, false, [0, 1], 4#256, 8#256⟩] }
     s.core.scrim.any (fun e => e.agent = farAgent && e.via = [0]) = true ∧
      s.core.scrim.any (fun e => e.agent ≠ farAgent && e.via.contains 0) = true) ∧
    (homeBench.core.staged.filter fun x => x.agent = farAgent) = [⟨farAgent, 30, [1#8, 2#8, 0#8], 0⟩] ∧
    homeBench.core.slotOf farId = none ∧
    homeBench.readyCounter farId = none ∧ homeBench.readyCb farId = none ∧ homeBench.core.inShadow 8 8 = false ∧
    homeBench.core.conflict farAgent (homeBench.core.sectors 8 8) true = none ∧
    homeBench.core.cbAt 3 = .home cbRec 3 1 2 [] 0#64 0 ∧ homeBench.cbInScope cbRec 0#64 0 farId farAgent = true := by decide +kernel

def answered : Trailer := ⟨3, 1, 0, 0, 4, some 8, 0⟩

def rcmd1 : RCmd :=
  { src := farId, op := .mma, cap := BitVec.ofNat 32 (capWord 0 5 7 0 0), tag := 5#6, off := 0, at_ := 0x14,
    a := ⟨[], Summary.empty⟩, pc := 0x30, target := 0, ctx := 0, lhnd := 5#64, started := false,
    prog := Progress.fresh, agent := farAgent, path := [] }

def walk1 (b : BitVec 512) (dst : CopyDst) (pending : List CoreId) (sent : Nat) : Walk :=
  { num := 3, active := true, slot := 0, view := plainView b, dst := dst, ctr := none, perd := false, tag := 5#6, sent := sent, pending := pending,
    secs := [], done := 0, agent := farAgent, err := none, failing := false, bumping := false, pc := 0x30, lhnd := 5#64, win := none, link := 0, at_ := 0, ctx := 0,
    cbTok := none, cbSlot := none, noNotice := false, ord := 0, lin := 0 }

def box100 : BitVec 512 := mbox (here 0 4) 4 100 0

def walkBench (sent : Nat) : State := (placedBench none []).mapC fun c =>
  { c with eng := { c.eng with walks := [walk1 box100 (.mesh (mkPtr 1 1 0 0x4000)) [farId] sent] } }

theorem witness_replies :
    (let s := pair.setWait (.reply 9 [5#8])
     s.core.busy = true ∧ s.core.f.wait = .reply 9 [5#8] ∧ s.core.ack.waiting = []) ∧
    -- a conflict on its way back, and a stop that another core's bank sends
    (let b : Body := .reply 9 (.conflict (mkPtr 1 1 0 64) 7#64 0x40) none answered
     let k : Packet := ⟨farId, pair.core.id, .rep, pair.core.site, false, b, [⟨1#8, 1#8⟩]⟩
     let s : State := { pair.setWait (.reply 9 []) with net := [k] }
     (s.recv farId .rep fun _ => true).map Prod.fst = some b ∧ s.core.busy = true ∧ s.core.f.wait = .reply 9 []) ∧
    (let b : Body := .regionStop pair.agent (here 0 64) 7#64 0x30
     let s : State := { pair with net := [⟨farId, pair.core.id, .rep, pair.core.site, false, b, [⟨1#8, 1#8⟩]⟩] }
     (s.recv farId .rep fun _ => true).map Prod.fst = some b ∧ s.core.busy = true) ∧
    (let s := placedBench none []
     s.core.ctx = rcmd1.ctx ∧ s.core.cohort.isSome = true) ∧
    (let s := walkBench 96
     let w := walk1 box100 (.mesh (mkPtr 1 1 0 0x4000)) [farId] 96
     s.core.eng.walks.find? (fun w => w.num = 3) = some w ∧ w.bumping = false ∧ w.dst = .mesh (mkPtr 1 1 0 0x4000) ∧
      w.pending = [farId] ∧ w.err = none ∧ w.ctr = none) ∧
    (pair.mapC fun c => { c with id := .memory 0 0, pageWaits := [⟨9, 0, false, none, none⟩] }).core.isPagerAnswer true
      0x00120000000000FF#64 [9#64, 0#64] = true := by decide +kernel

def vcmd1 (started : Bool) : VCmd :=
  { form := .vadd 0#5 2#5 1#5 3#5 none, a := shp (here 0 0) 0 [(5, 1), (3, 7)] 0 0, b := shp (here 0 0x100) 0 [(5, 3), (3, 1)] 0 0,
    d := shp (here 2 0x200) 0 [(5, 1), (3, 5)] 0 0, sval := 0#64, rm := 0#3, serial := 0, gen := 0#8, pc := 0, lhnd := 0#64,
    started := started, prog := Progress.fresh, ord := 0 }

theorem witness_windows_apart : WindowsApart pair.core ∧ WindowsApart winBench.core :=
  ⟨⟨by decide +kernel, by decide +kernel⟩, ⟨by decide +kernel, by decide +kernel⟩⟩

def mcmd1 (f : Instr) (v : Word) (started : Bool) : MCmd :=
  { form := f, a := 0#256, b := 0#256, sval := v, sval2 := 0#64, cstr := 1, rows := 0, at_ := 0, serial := 0, gen := 0#8, pc := 0,
    lhnd := 0#64, started := started, prog := Progress.fresh, ord := 0 }

/-- A command of this form and these records at the head of the queue of a core whose CB 3 is half full. -/
def vecAt (f : Instr) (a b d : BitVec 256) : State := pair.mapC fun c => { c with
  eng := { c.eng with vq := [{ vcmd1 true with form := f, a := a, b := b, d := d, sval := 0x7F03#64 }] }
  tab := { c.tab with cb := c.tab.cb.set 3 (.home cbRec 3 1 2 [] 0#64 0) } }

theorem alone_at (f : Instr) (a b d : BitVec 256) : EngineAlone (vecAt f a b d).core :=
  have w : WindowsApart pair.core := ⟨by decide +kernel, by decide +kernel⟩
  ⟨rfl, rfl, rfl, rfl, w.fits, w.apart⟩

theorem increasing_nodup {l : List Nat} (h : List.IsChain (· < ·) l) : l.Nodup :=
  (List.isChain_iff_pairwise.mp h).imp fun hab => Nat.ne_of_lt hab

/-- Two increasing lists, one below a bound and one from it on, have no element twice between them. -/
theorem split_nodup {l : List Nat} (n : Nat) (lo : List.IsChain (· < ·) (l.filter fun k => decide (k < n)))
    (hi : List.IsChain (· < ·) (l.filter fun k => !decide (k < n))) : l.Nodup := by
  rw [← (List.filter_append_perm (fun k => decide (k < n)) l).nodup_iff, List.nodup_append]
  refine ⟨increasing_nodup lo, increasing_nodup hi, fun a ha b hb => ?_⟩
  simp only [List.mem_filter, decide_eq_true_eq, Bool.not_eq_true', decide_eq_false_iff_not] at ha hb
  omega

theorem vec_due {f : Instr} {a b d : BitVec 256} (cbs : (vecAt f a b d).core.cbReady { vcmd1 true with form := f, a := a, b := b, d := d, sval := 0x7F03#64 } = true)
    (once : ((vecAt f a b d).core.recordKeys d true).Nodup) :
    VecDue (vecAt f a b d) { vcmd1 true with form := f, a := a, b := b, d := d, sval := 0x7F03#64 } [] :=
  { alone_at f a b d with queue := rfl, started := rfl, fresh := rfl, cbs := cbs, once := once }

/-- Records: bytes with strides, f32, .n32 masks, .n16 indices, one byte, a matrix and its transpose, slots of CB 3 as KIND 1, and
.q4 blocks. -/
def rBytes : BitVec 256 := shp (here 0 0) 0 [(5, 1), (3, 7)] 0 0
def rBytes2 : BitVec 256 := shp (here 2 0x200) 0 [(5, 1), (3, 5)] 0 0
def rFloat : BitVec 256 := shp (here 0 0x400) 10 [(4, 1), (16, 4)] 0 0
def rFloat2 : BitVec 256 := shp (here 2 0x1000) 10 [(64, 1)] 0 0
def rMask : BitVec 256 := shp (here 0 0x800) 6 [(64, 1)] 0 0
def rIndex : BitVec 256 := shp (here 0 0x900) 5 [(15, 1)] 0 0
def rOne : BitVec 256 := shp (here 0 0xA00) 0 [(1, 1)] 0 0
def rMat : BitVec 256 := shp (here 0 0xB00) 0 [(3, 1), (2, 3)] 0 0
def rTurned : BitVec 256 := shp (here 2 0x300) 0 [(2, 1), (3, 2)] 0 0
def rSlots : BitVec 256 := setField (shp 3#64 0 [(64, 1)] 0 0) 75 1 1
def rBlocks : BitVec 256 := shp (here 0 0x2000) 0x14 [(64, 1)] 0x3000 0
def rBlocks2 : BitVec 256 := shp (here 0 0x2800) 0x14 [(64, 1)] 0x3800 0
def rTile : BitVec 256 := shp (here 0 0x4000) 0x14 [(64, 1), (64, 64)] 0x8000 0

/-- Slots are ready and no byte of the destination is written twice. -/
def vecOnce (a b d : BitVec 256) : Bool :=
  let s := vecAt (.vcpy 0#5 1#5 3#5 none) a b d
  s.core.cbReady { vcmd1 true with form := .vcpy 0#5 1#5 3#5 none, a := a, b := b, d := d, sval := 0x7F03#64 } &&
    decide (List.IsChain (· < ·) (s.core.recordKeys d true))

/-- The clauses on byte-sized types, one by one: elements with strides, several rows, one element, a mask as wide as its operands, an
index for each element, a matrix and its transpose, and the slots of a circular buffer. -/
theorem witness_vector_due :
    (vecOnce rBytes rBytes rBytes2 = true ∧ vecOnce rFloat rFloat rFloat2 = true ∧ vecOnce rFloat rFloat rMask = true ∧
      vecOnce rBytes 0#256 rOne = true ∧ vecOnce rBytes rIndex rBytes2 = true ∧ vecOnce rMat 0#256 rTurned = true ∧
      vecOnce rMat 0#256 rSlots = true) ∧
    (let n (r : BitVec 256) (w : Bool) : Nat := ((vecAt (.vcpy 0#5 1#5 3#5 none) rBytes 0#256 rSlots).core.elemKeys r (shTy r) w).length
     n rBytes false = 15 ∧ n rBytes2 true = 15 ∧ n rFloat false = 64 ∧ n rFloat2 true = 64 ∧ n rMask true = 64 ∧ n rOne true = 1 ∧
      n rIndex false = 15 ∧ n rMat false = 6 ∧ n rTurned true = 6 ∧ n rSlots true = 64) ∧
    shTy rBytes = shTy rBytes2 ∧ shTy rFloat = .f32 ∧ (shTy rMask).size = (shTy rFloat).size ∧ (shTy rFloat).fmt.isSome = true ∧
    ETy.ofCode (shTypeCode rBytes2) = some (.int true 8) ∧ shKind1 rSlots = true ∧ shE rBytes 0 = 5 ∧ 6 % (shE rMat 1 * shE rMat 0) = 0 ∧
    (pair.core.elemNums rFloat (shTy rFloat)).length = 64 := by decide +kernel

theorem witness_cb_destination : VecDue (vecAt (.vfill 0#5 1#5 3#5 none) 0#256 0#256 rSlots)
    { vcmd1 true with form := .vfill 0#5 1#5 3#5 none, a := 0#256, b := 0#256, d := rSlots, sval := 0x7F03#64 } [] :=
  vec_due (by decide +kernel) (increasing_nodup (by decide +kernel))

/-- .qm: two blocks and a tile, whose panels fit A. -/
theorem witness_vector_blocks :
    (vecAt (.vcpy 0x14#5 1#5 3#5 none) rBlocks 0#256 rBlocks2).core.cbReady
      { vcmd1 true with form := .vcpy 0x14#5 1#5 3#5 none, a := rBlocks, b := 0#256, d := rBlocks2, sval := 0x7F03#64 } = true ∧
    ETy.ofCode (shTypeCode rBlocks2) = some (.q 4) ∧ shKind1 rBlocks2 = false ∧
    (∀ e ∈ blockOffsets rBlocks2, 0 ≤ (ptrOff (shBase rBlocks2) : Int) + e / 32 * (4 * 4)) ∧
    (blockOffsets rBlocks).length = 2 ∧ (blockOffsets rBlocks2).length = 2 ∧ (pair.core.elemKeys rFloat .f32 false).length = 32 * 2 ∧
    identTile rTile = true ∧ shS rTile 0 = 1 ∧ identValue 4 0x7F03#64 = true ∧ ptrOff (shBase rTile) + 512 * 4 ≤ bufSize 0 ∧
    ∀ j, j < 512 * 4 → pair.core.phys' (ptrOff (shBase rTile) + j) = ptrOff (shBase rTile) + j := by decide +kernel

theorem witness_blocks_once : ((vecAt (.vcpy 0x14#5 1#5 3#5 none) rBlocks 0#256 rBlocks2).core.recordKeys rBlocks2 true).Nodup :=
  split_nodup 0x3000 (by decide +kernel) (by decide +kernel)

/-- The blocks of the tile and the keys that it writes: 16 bytes of mantissas and a scale byte for each. -/
theorem tile_blocks : blockOffsets rTile = (List.range 128).map fun i => ((32 * i : Nat) : Int) := by decide +kernel

theorem witness_tile_blocks : ∀ e ∈ blockOffsets rTile, 0 ≤ (ptrOff (shBase rTile) : Int) + e / 32 * (4 * 4) := by
  rw [tile_blocks]
  intro e he
  obtain ⟨i, -, rfl⟩ := List.mem_map.mp he
  omega

theorem tile_keys (c : Core) : c.recordKeys rTile true =
    (List.range 128).flatMap fun i => (List.range 16).map (0x4000 + 16 * i + ·) ++ [0x8000 + i] := by
  rw [Core.recordKeys, show shTy rTile = .q 4 by decide]
  simp only [tile_blocks, List.flatMap_map]
  refine List.flatMap_congr fun i hi => ?_
  have h : ∀ i, i < 128 → (blockCells rTile 4 ((32 * i : Nat) : Int) []).map Prod.fst ++ [scaleKey rTile ((32 * i : Nat) : Int)]
      = (List.range 16).map (0x4000 + 16 * i + ·) ++ [0x8000 + i] := by decide +kernel
  exact h i (List.mem_range.mp hi)

theorem witness_tile_once (c : Core) : (c.recordKeys rTile true).Nodup := by
  rw [tile_keys, List.nodup_flatMap]
  refine ⟨fun i hi => ?_, List.pairwise_lt_range.imp_of_mem fun {a b} ha hb hab x hx hy => ?_⟩
  · have := List.mem_range.mp hi
    refine List.nodup_append.mpr ⟨(List.nodup_range).map fun a b h => by simpa using h, by simp, fun a ha b hb => ?_⟩
    obtain ⟨k, hk, rfl⟩ := List.mem_map.mp ha
    have := List.mem_range.mp hk
    simp only [List.mem_singleton] at hb
    omega
  · have hb := List.mem_range.mp hb
    simp only [List.mem_append, List.mem_map, List.mem_range, List.mem_singleton] at hx hy
    obtain ⟨k, hk, rfl⟩ | rfl := hx <;> obtain ⟨j, hj, h⟩ | h := hy <;> omega

/-- Latches of one row and one column block. -/
def latchB : BLatch := ⟨List.replicate 64 (List.replicate 64 1), List.replicate 128 127#8, Summary.empty⟩

def latchA : ALatch := ⟨[⟨List.replicate 64 1, 127#8, 127#8, some 0⟩, ⟨List.replicate 64 0, 0#8, 0#8, none⟩], Summary.empty⟩

/-- A command of the core's own matrix queue and a remote one, each at the head with full latches. -/
def matAt (k : MCmd) (rq : List RCmd) : State := pair.mapC fun c => { c with
  eng := { c.eng with mq := if rq = [] then [k] else [], rq := rq, aLatch := latchA, bLatch := some latchB } }

def matHead (f : Instr) : MCmd :=
  { (mcmd1 f (here 2 0x100) true) with a := rTile, b := rIndex, sval2 := 0x500000000#64, cstr := 2, rows := 2, at_ := 0x14 }

theorem witness_matrix_due (f : Instr) :
    MatDue (matAt (matHead f) []) (matHead f) [] ∧ 1 ≤ (matHead f).cstr ∧ (matAt (matHead f) []).core.eng.bLatch = some latchB :=
  have w : WindowsApart pair.core := ⟨by decide +kernel, by decide +kernel⟩
  ⟨⟨⟨rfl, rfl, rfl, rfl, w.fits, w.apart⟩, rfl, rfl, rfl⟩, (by decide : 1 ≤ 2), rfl⟩

theorem witness_remote_step :
    let r : RCmd := { rcmd1 with a := latchA, started := true }
    let s := matAt { (mcmd1 (.mupl 1#5 none) 5#64 false) with rows := 1 } [r]
    EngineAlone s.core ∧ (∀ k ∈ s.core.eng.mq, k.started = false) ∧ s.core.eng.rq = r :: [] ∧ r.prog = Progress.fresh ∧
      s.core.eng.bLatch = some latchB :=
  have w : WindowsApart pair.core := ⟨by decide +kernel, by decide +kernel⟩
  ⟨⟨rfl, rfl, rfl, rfl, w.fits, w.apart⟩, by decide +kernel, rfl, rfl, rfl⟩

/-- Operands for each case of R81: a NaN, products all zero, one that is not, and old words NaN and infinite. -/
theorem witness_steps :
    (let one : List FNum := List.replicate 64 (.fin false 1 0)
     let zero : List FNum := List.replicate 64 (.fin false 0 0)
     one.length = 64 ∧ zero.length = 64 ∧ (FNum.nan false :: one.tail).any FNum.isNaN = true ∧
      (∀ x ∈ one ++ zero, (match x with | .fin _ _ _ => true | _ => false) = true) ∧
      (∀ j, j < 64 → (zero.getD j (.fin false 0 0)).isZero = true) ∧ (one.getD 0 (.fin false 0 0)).isZero = false) ∧
    (fmtF32.unpack 0x7FC00000).isNaN = true ∧ fmtF32.unpack 0x7F800000 = .inf false ∧ 0x7FC00000 < 2 ^ 32 := by decide +kernel

theorem witness_engines :
    (let k := vcmd1 false
     let s := pair.mapC fun c => { c with eng := { c.eng with vq := [k] } }
     s.core.eng.vq = k :: [] ∧ k.started = false ∧ s.core.vecFree k = true ∧ s.core.cbReady k = true) ∧
    (let k := mcmd1 (.mupl 1#5 none) 5#64 false
     let s := pair.mapC fun c => { c with eng := { c.eng with mq := [k, k] } }
     s.core.eng.mq = k :: [k] ∧ (∀ x ∈ s.core.eng.mq, x.started = false) ∧ s.core.eng.rq = [] ∧ s.core.matFree k = true) ∧
    (mcmd1 (.mupl 1#5 none) 5#64 true).started = true ∧ (mcmd1 (.mcfg 1#5 none) 0x107#64 true).started = true ∧
    ((placedBench none []).mapC fun c => { c with
      eng := { c.eng with bt := 0x14, mxcfg := 0x102#64 }
      tab := { c.tab with grants := [⟨5, 7, 0, 256⟩] } }).accepts rcmd1 = true ∧
    ((placedBench none []).mapC fun c => { c with eng := { c.eng with bt := 0x14, mxcfg := 0x100#64 } }).accepts rcmd1 = false ∧
    (let e := ((placedBench none []).mapC fun c => { c with eng := { c.eng with rq := [rcmd1, rcmd1] } }).core.eng
     e.rq = rcmd1 :: [rcmd1] ∧ e.mq = [] ∧ ∀ x ∈ e.rq, x.started = false) ∧
    ((placedBench none []).core.eng.rq.filter fun k => !k.started).length < 4 := by decide +kernel

def hdr1 (b : BitVec 512) (dst : FlitDst) : CopyHdr :=
  { walk := 3, issuer := farId, ctx := 0, pc := 0x30, lhnd := 5#64, view := plainView b, dst := dst, perd := none, path := [], agent := farAgent }

def chain1 : Chain :=
  { first := 4#4, n := 2, desc := BitVec.ofNat 128 (4 * 2 ^ 80 + 8), issued := 3, released := 2, dmin := 1, dmax := 2, lat := none,
    rel := none, lastAbs := none }

/-- The next link of the chain is its last. -/
theorem witness_copy_events :
    (let w := { walk1 box100 (.mesh (mkPtr 1 1 0 0x4000)) [farId] 0 with active := false }
     let s := pair.mapC fun c => { c with eng := { c.eng with walks := [{ w with num := 2, active := true }, w] } }
     (∀ x ∈ s.core.eng.walks, x.active = true → x.slot ≠ 15) ∧ s.core.eng.walks.find? (fun w => !w.active) = some w) ∧
    (let w := walk1 box100 (.mesh (mkPtr 1 1 0 0x4000)) [farId] 96
     (walkBench 96).core.walkAt 0 = some w ∧ (walkBench 96).slotTurn = some 0 ∧ tableWf [] w.secs = true ∧ w.secs = [] ∧
      (∀ k ∈ w.view.sectorKeys w.sent (flitLen w.view.box w.sent), (walkBench 96).core.inShadow (32 * k) 32 = false) ∧
      (walkBench 96).core.badSecs = [] ∧ w.err = none ∧ w.failing = false ∧ bxMesh w.view.box = true ∧
      ptrCore (bxSrc w.view.box) = (walkBench 96).core.id ∧ w.sent < bxBytes w.view.box ∧
      meshDests w.view.box (mkPtr 1 1 0 0x4000) = farId :: [] ∧ (walkBench 96).core.scrim = []) ∧
    (let h := hdr1 box100 (.shadow 0x4000)
     let l : Landing := { issuer := farId, walk := 3, win := none, got := 32, parts := [], panels := [], nan := [], dead := false, path := [] }
     let s := pair.mapC fun c => { c with
       eng := { c.eng with landings := [l] }
       tab := { c.tab with win := c.tab.win.set 0 { winAt 0 .absent none with half := true, pend := 1 } } }
     h.path = [] ∧ bxRed h.view.box = 0 ∧ s.core.landing h = some l ∧ l.dead = false ∧ l.part farId = 0 ∧ s.core.tear = false ∧ l.got + 32 < bxBytes h.view.box ∧
      s.core.scrim = [] ∧ s.core.memoryWf = true ∧ ((s.core.landKeys h 32 32).map (s.core.landPhys l)).Nodup) ∧
    (let s := pair.mapC fun c => { c with tab := { c.tab with
      chains := [chain1]
      win := (c.tab.win.set 4 { winAt 4 .absent (some bound0) with chain := some 4#4 }).set 5
        { winAt 5 .absent (some bound0) with chain := some 4#4 } } }
     s.core.chainOf 5#4 = some chain1 ∧ chain1.issued - chain1.released < chain1.depth ∧ chain1.issued < dL chain1.desc ∧
      (s.core.win (chain1.first + BitVec.ofNat 4 (chain1.issued % chain1.n))).st = .absent ∧
      (s.core.win (chain1.first + BitVec.ofNat 4 (chain1.issued % chain1.n))).bound = some bound0) := by decide +kernel

/-- A memory core with four levels of tables and one page. -/
def pagedBench : State :=
  (pair.mapC fun c => { c with id := .memory 0 0, phys := { c.phys with ptroot := 0x100001#64 } }).mapD fun d => { d with
    ext := Memory.write (Memory.write (Memory.write (Memory.write (Memory.write [] 0x100000 (natToBytes 8 0x101001)) 0x101000
      (natToBytes 8 0x102001)) 0x102000 (natToBytes 8 0x103001)) 0x103000 (natToBytes 8 0x104001)) 0x104028 (natToBytes 8 0x55500F) }

def extBox (src n : Nat) : BitVec 512 := BitVec.ofNat 512 (src + n * 2 ^ 64 + 4 * 2 ^ 136 + 2 ^ 141 + 2 ^ 144)

theorem witness_external_copies :
    (let h := hdr1 (extBox 0x5010 100) (.shadow 0x4000)
     h.view.pageOf 64 16 = some 5 ∧ (∀ a ∈ h.view.addrs 64 16, a / 4096 = 5) ∧ 16 ≤ flitLen h.view.box 64 ∧
      (match pagedBench.paged (4096 * 5) 4096 false (some (h.issuer, h.walk)) h.ctx (kernelCore h.issuer) with
        | .done [(pa, 4096, false)] _ => pa == 0x555000 | _ => false) = true) ∧
    (let h := hdr1 (extBox 0x5010 100) (.reduce 0)
     bxRed h.view.box = 0 ∧
      (match pagedBench.paged 0x5FF0 16 true (some (h.issuer, h.walk)) h.ctx (kernelCore h.issuer) with
        | .done [(pa, 16, _)] v => pa == 0x555FF0 && pagedBench.core.taken.isEmpty && v.dev.badExt.isEmpty && v.dev.ext.wf && v.dev.host.wf | _ => false) = true) := by decide +kernel

def poolSite : Site := ⟨32#8, 0#8⟩

def saved (s : State) (due : Bool) : Context := ⟨7, some s.core, [], due, due⟩

theorem witness_saves :
    (let q := (placedBench none []).dev.seq
     q.preempting = false ∧ q.started = true ∧ q.jobEnded = false) ∧
    (let s := (placedBench none []).mapC fun c => { c with saveAsked := true }
     s.core.saveAsked = true ∧ s.saversStopped = true ∧ s.core.drainedForSave = true ∧ s.core.badSecs = [] ∧ s.dev.ext.wf = true ∧
      s.core.memoryWf = true ∧ lockedMeets s.dev.boot.locked (s.dev.ctxAt s.core.ctx) 0x58000 = false) ∧
    (withSeq (placedBench none []) fun q => { q with out := true, preempting := true }).dev.seq.out = true ∧
    (let x := saved (placedBench none []) true
     let s := seqBench.mapD fun d => { d with ctxs := [x] }
     s.dueCtx s.core.id = some x ∧ x.core = some (placedBench none []).core ∧ x.log = [] ∧ s.core.busy = false ∧ s.core.cohort = none ∧
      s.core.phys.halted = false ∧ s.dev.bad.contains s.core.site = false ∧ s.dev.seq.preempting = false ∧ s.dev.seq.out = false ∧
      s.core.q.sendReq = [] ∧ s.core.q.sendRep = [] ∧ lockedMeets s.dev.boot.locked (s.dev.ctxAt x.ctx) 0x58000 = false) := by decide +kernel

/-- A save may find a walk half sent. -/
theorem witness_saved_walk : ((walkBench 96).core.walkAt 0).isSome = true ∧
    ((walkBench 96).mapC fun c => { c with saveAsked := true }).core.drainedForSave = true := by decide +kernel

def forward0 : Forward := ⟨.mesh 0 0, ⟨0#8, 0#8⟩, 3, [farId, .control], [(farId, .req)], [(farId, .req)]⟩

theorem witness_moves :
    (let s := placedBench none []
     let waits := s.mapD fun d => { d with forwards := [forward0] }
     s.core.takesNoMove = false ∧ s.moveWaits = false ∧ s.core.moveHeld = [] ∧ s.core.site ≠ poolSite ∧ s.core.id ≠ .control ∧
      (waits.mapC fun c => { c with id := .mesh 0 0 }).core.takesNoMove = false ∧ (waits.mapC fun c => { c with id := forward0.core }).moveWaits = true ∧
      (poolSite, 1#2) ∈ (s.mapC fun c => { c with moveHeld := [(poolSite, 1#2)] }).core.moveHeld ∧
      s.moveTargetOk poolSite 1#2 = true ∧
      (s.mapC fun c => { c with phys := { c.phys with halted := true } }).core.takesNoMove = true) ∧
    (let s := (placedBench none []).mapC fun c => { c with moving := .draining poolSite 1#2 }
     s.core.drainedForMove = true ∧ s.core.badSecs = [] ∧ (s.dev.quadAt (quadOf poolSite)).gate = .on) ∧
    (let s := pair.mapD fun d => { d with forwards := [{ forward0 with core := farId, updates := [.mesh 0 0, .control] }] }
     let k : Packet := ⟨.control, .mesh 0 0, .sys, s.core.site, false, .mapUpd 3 farId poolSite (some 0) [.control], []⟩
     let t : State := { s with net := [k] }
     (t.dev.forward farId).isSome = true ∧ t.arrivedUpdate farId = some (k, []) ∧ farId ∈ pair.recipients) ∧
    (let k : Packet := ⟨farId, .mesh 0 0, .req, ⟨0#8, 0#8⟩, false, .marker (.mesh 0 0), []⟩
     let s := { (pair.mapC fun c => { c with site := poolSite }).mapD fun d => { d with forwards := [forward0] } with net := [k] }
     s.dev.forward s.core.id = some forward0 ∧
      oldestAt farId forward0.core forward0.old Packet.isMarker [] s.net = some (k, [])) ∧
    (let k : Packet := ⟨farId, .mesh 0 0, .req, poolSite, true, .marker (.mesh 0 0), []⟩
     let s := { (pair.mapC fun c => { c with site := poolSite }).mapD fun d => { d with forwards := [forward0] } with net := [k] }
     s.dev.forward s.core.id = some forward0 ∧ s.relocMarker farId = some (k, [])) ∧
    (let s := (placedBench none []).mapD fun d => { d with time := 1000000000 }
     bit (s.dev.dieSt 7).floatctl 0 = true ∧
      (s.dev.dieSt 7).floatLast + 250000 * flPeriod (s.dev.dieSt 7).floatctl ≤ s.dev.time) := by decide +kernel

/-- Every pool site of die 0 is quarantined. -/
def noPool : State := (placedBench none []).mapD fun d =>
  { d with bad := (List.range 128).map fun k => ⟨BitVec.ofNat 8 (32 + k % 2), BitVec.ofNat 8 (k / 2)⟩ }

theorem witness_recovery :
    (placedBench none []).core.id = .mesh 0#8 0#8 ∧ (placedBench none []).dev.bad.contains (placedBench none []).core.site = false ∧
    (let s := (placedBench none []).mapD fun d => { d with bad := [⟨0#8, 0#8⟩] }
     s.core.isMesh = true ∧ s.dev.bad.contains s.core.site = true ∧ s.moveWaits = false ∧ s.rebuildOk poolSite = true ∧
      (s.dev.quadAt (quadOf poolSite)).gate = .on ∧ s.core.memoryWf = true) ∧
    thLim (noPool.dev.dieSt 0) = 420 ∧ (noPool.cores.find? fun c => c.onSite ⟨0#8, 0#8⟩).isSome = true ∧
    (memoryBench.core.id = .memory 0#3 0#4) ∧ 420 + 40 ≤ (460#10).toNat ∧
    ((placedBench none []).cores.find? fun c => c.onSite ⟨0#8, 0#8⟩).map (fun c => (placedBench none []).excRoom c.id)
      = some true ∧ (((placedBench none []).measured ⟨0#8, 0#8⟩ 460#10).coolest 0 []).isSome = true := by decide +kernel

theorem witness_no_pool : (noPool.measured ⟨0#8, 0#8⟩ 460#10).coolest 0 [] = none := by decide +kernel

def quad0 : Quad := quadOf ⟨0#8, 0#8⟩

theorem witness_power :
    (let x := pair.dev.quadAt quad0
     (pair.setQuad { x with ramping := true, target := pair.request quad0 }).request quad0 = pair.request quad0 ∧
      ((pair.setQuad { x with cap := 1 }).dev.quadAt quad0).cap < 3 ∧
      ((pair.setQuad { x with ramping := true }).dev.quadAt quad0).ramping = true ∧
      (let s := (pair.setQuad { x with gate := .gating, since := 100, droopAt := 100 }).mapD fun d => { d with time := 2100 }
       (s.dev.quadAt quad0).gate = .gating ∧ (s.dev.quadAt quad0).since + 640 ≤ s.dev.time ∧
        (s.dev.quadAt quad0).droopAt + 2000 ≤ s.dev.time) ∧
      (let s := (pair.setQuad { x with gate := .waking, since := 100 }).mapD fun d =>
         { d with time := 8100, portHeld := [⟨0#8, 0#8⟩] }
       (s.dev.quadAt quad0).gate = .waking ∧ (s.dev.quadAt quad0).since + 8000 ≤ s.dev.time ∧
        ⟨0#8, 0#8⟩ ∈ s.dev.portHeld ∧ quadOf ⟨0#8, 0#8⟩ = quad0 ∧ (s.cores.find? fun c => c.onSite ⟨0#8, 0#8⟩) = some s.core ∧
        (∀ c ∈ s.cores, c.onSite ⟨1#8, 0#8⟩ = false) ∧ quadOf ⟨1#8, 0#8⟩ = quad0)) ∧
    (∀ site ∈ quadSites quad0, pair.tempAt site + 4 * flMargin (pair.dev.dieSt quad0.die.toNat).floatctl ≤
      thLim (pair.dev.dieSt quad0.die.toNat)) := by decide +kernel

theorem witness_halts_and_trace :
    pair.core.phys.halted = false ∧
    (let s := (pair.mapC fun c => { c with phys := { c.phys with dump := 0x10001#64, halted := true, holdAt := 5 } }).mapD fun d =>
       { d with time := 1000005 }
     bit s.core.phys.dump 0 = true ∧ bit s.core.phys.dump 1 = false ∧
      s.core.phys.holdAt + 1000000 * field s.core.phys.dump 16 16 ≤ s.dev.time ∧ ∀ k, (s.core.win k).st = .absent) ∧
    (pair.mapC fun c => { c with phys := { c.phys with traceQ := [5#256, 6#256] } }).core.phys.traceQ = 5#256 :: [6#256] ∧
    (let k : Packet := ⟨farId, .control, .sys, pair.core.site, false, .trace 0x1234#256 0x5001#64, []⟩
     let s := { pair with core := { pair.core with id := .control }, net := [k] }
     s.net.find? (fun k => k.dst = s.core.id && k.body.isTrace) = some k ∧ s.dev.ext.wf = true ∧ lockedMeets s.dev.boot.locked 0x5000 32 = false) := by decide +kernel

def noImage : BootImage := ⟨false, [], [], []⟩

theorem witness_boot :
    field State.reset.dev.boot.bootstat 0 8 = 0 ∧ noImage.readable = false ∧ imageSize { noImage with readable := true } ≤ 65536 ∧
    imageError Config.rootKey { noImage with readable := true } = some 1 ∧ pair.booted = true ∧ pair.dev.boot.halted = false ∧
    field pair.dev.boot.bootstat 32 8 ≠ 1 ∧ field 0x100000004#64 32 8 = 1 ∧
    (let b := { pair.dev.boot with bar2 := 0x1000, locked := [(0x1000, 64)] }
     (b.locked.any fun r => rangesMeet (b.bar2 + 56) 8 r.1 r.2) = true ∧
      (b.locked.any fun r => rangesMeet (b.bar2 + 64) 8 r.1 r.2) = false ∧ 2 ^ 32 - 8 + 8 ≤ 2 ^ 32) := by decide +kernel

/-- The root monitor's own steps; a drive that cannot be read, the first time and the second; the job image's measurement. -/
theorem witness_boot_steps :
    (let at_ (stage : Word) : State := { pair with dev := { pair.dev with boot := { pair.dev.boot with bootstat := stage } }, agenda := [.monitor] }
     (at_ 1#64).agenda = .monitor :: [] ∧ (∀ c ∈ (at_ 1#64).cores, c.checkDue = false) ∧ field (at_ 1#64).dev.boot.bootstat 0 8 = 1 ∧ field (at_ 2#64).dev.boot.bootstat 0 8 = 2 ∧
      field (at_ 3#64).dev.boot.bootstat 0 8 = 3 ∧ (at_ 3#64).dev.boot.handlersIn = false ∧ (at_ 3#64).dev.boot.port1 = false ∧
      ({ (at_ 3#64).dev.boot with handlersIn := true } : Boot).handlersIn = true ∧
      ({ (at_ 2#64).dev.boot with port1 := true } : Boot).port1 = true) ∧
    (let s := jobBench.mapD fun d => { d with measDue := true }
     s.booted = true ∧ s.dev.measDue = true ∧ s.dev.image.launches[s.dev.image.entry]? = some launchRec) := by decide +kernel

/-- An image that passes, of any key that accepts its signature: whether one does is a value of Config (log 11). -/
theorem witness_boot_image (key : List Byte) (i : BootImage) (hf : imageFormed i = true)
    (hv : Config.verify key (sha3 i.header) i.sig = true) (hd : sha3 i.body = digestOf i) : imageError key i = none := by
  simp [imageError, hf, hv, hd]

def jobImage : Image :=
  { Image.empty with width := 4, height := 4, startH := 2, launches := [launchRec], sets := [⟨false, [1#16, 2#16], [(2, entry100)]⟩], blocks := [⟨0, 0, none, [9#8]⟩] }

def jobTaken : State := pair.mapD fun d => { d with image := jobImage, part := { d.part with made := false } }

theorem witness_partition : jobTaken.booted = true ∧ jobTaken.dev.part.made = false ∧ jobTaken.dev.image.launches ≠ [] ∧
    jobTaken.dev.part.mapOk = true ∧ jobTaken.dev.image.startOk = true ∧ jobTaken.dev.image.fits jobTaken.dev.part = true ∧
    ({ jobImage with width := 5 } : Image).fits jobTaken.dev.part = false ∧
    ({ jobImage with startX := 1 } : Image).startOk = false := by decide +kernel

/-! ### Hypotheses: the device as a whole -/

/-- FIN stands at the pc of the running core. -/
def finBench : State := code bench (.fin 0#3 none)

theorem witness_step : finBench.agenda = [] ∧ finBench.booted = true ∧ finBench.failed = false ∧ finBench.powered = true ∧ finBench.core.phys.halted = false ∧
    finBench.core.moving.freezes = false ∧ finBench.core.atRequest = false ∧ finBench.core.busy = true ∧
    finBench.core.f.wait = .none ∧ finBench.core.startBit finBench.core.f.pc = true ∧
    (match decode (finBench.core.parcels finBench.core.f.pc 6) with
      | .ok (i, n) => i == .fin 0#3 none && n == 2 && i.wf | _ => false) = true ∧
    (∀ c ∈ finBench.cores, c.checkDue = false) ∧
    parcelsLen (finBench.core.parcels finBench.core.f.pc 6) = some 4 ∧ finBench.core.fetch = .instr (.fin 0#3 none) := by
  decide +kernel

theorem witness_encoding : spOk (Instr.add 0#3 3#5 2#5 1#5 none).sp = true ∧
    encode (.add 0#3 3#5 2#5 1#5 none) = some [0x4101#16, 0x000C#16] := by decide +kernel

theorem witness_memory : homeBench.core.memoryWf = true ∧ Memory.wf [(0, 1#8), (5, 2#8)] = true ∧ Memory.wf [(5, 1#8), (5, 2#8)] = false ∧
    Memory.wf [(3, 0#8)] = false := by decide +kernel

/-- The clauses of `Formed` for one core, as a check. -/
def coreFormed (c : Core) : Bool :=
  c.memoryWf && decide (∀ k : Fin 16, c.tab.win[k].defined = true →
      c.tab.win[k].off + 2 * c.tab.win[k].size ≤ bufSize c.tab.win[k].buf) &&
    decide (∀ j k : Fin 16, j ≠ k → c.tab.win[j].defined = true → c.tab.win[k].defined = true →
      rangesMeet c.tab.win[j].key (2 * c.tab.win[j].size) c.tab.win[k].key (2 * c.tab.win[k].size) = false)

theorem cores_formed {l : List Core} (h : l.all coreFormed = true) : ∀ c ∈ l, c.memoryWf = true ∧ WindowsApart c := fun c hc => by
  have := List.all_eq_true.mp h c hc
  simp only [coreFormed, Bool.and_eq_true, decide_eq_true_eq] at this
  exact ⟨this.1.1, this.1.2, this.2⟩

theorem nothing_saved : finBench.dev.ctxs = [] := by decide +kernel

theorem witness_form : Formed finBench ∧ (match step finBench with | .next _ => true | _ => false) = true :=
  ⟨⟨cores_formed (by decide +kernel), fun x hx => (by rw [nothing_saved] at hx; cases hx), by decide +kernel, by decide +kernel,
    by decide +kernel, by decide +kernel⟩, by decide +kernel⟩

theorem witness_held_in_reset : HeldInReset State.reset ∧ (match step State.reset with | .next _ => true | _ => false) = true :=
  ⟨⟨by decide +kernel, by decide +kernel, by decide +kernel⟩, by decide +kernel⟩

end Sys2Proof.Tests
end

namespace Sys2Proof.Machine

/-! ### The frame of a revocable instruction

The firing's registers may change, the pc moves on, and at a safe point the region ends: `Kept` says so of the state, and `SameBytes`
follows from it. -/

theorem Kept.id {s t : State} (h : Kept s t) : t.core.id = s.core.id := by rw [h.core]

theorem Kept.mem {s t : State} (h : Kept s t) : t.core.mem = s.core.mem := by rw [h.core]

theorem Kept.trans {s t u : State} (h : Kept s t) (k : Kept t u) : Kept s u where
  core := by rw [k.core, h.core]
  slots := by
    have hk := k.slots
    rw [h.id] at hk
    exact hk.trans h.slots
  firing := by rw [k.firing, h.firing]
  others := k.others.trans h.others
  dev := by rw [k.dev, h.dev]
  agenda := k.agenda.trans h.agenda

/-- A state with the frame kept holds every byte as it was: the focused core's buffers and I-store, the other cores' and the device's
memories are the same. -/
theorem Kept.sameBytes {s t : State} (h : Kept s t) : SameBytes s t := by
  have hext : t.dev.ext = s.dev.ext := by rw [h.dev]
  have hhost : t.dev.host = s.dev.host := by rw [h.dev]
  intro p
  cases p with
  | buffer c k | code c k =>
    by_cases hc : s.core.id = c
    · simp only [State.byteAt, State.coreAt, h.id, h.others, h.mem, hc, if_true]
    · simp only [State.byteAt, State.coreAt, h.id, h.others, hc, if_false]
  | external a => simp only [State.byteAt, hext]
  | host a => simp only [State.byteAt, hhost]

theorem setS_kept (s : State) (d : BitVec 5) (v : Word) : Kept s (s.setS d v) := ⟨rfl, rfl, rfl, rfl, rfl, rfl⟩

theorem openRegion_kept (s : State) (live : Live) : Kept s (s.openRegion live) := ⟨rfl, rfl, rfl, rfl, rfl, rfl⟩

theorem endRegion_kept (s : State) : Kept s s.endRegion where
  core := by rw [endRegion_core]
  slots := by rw [endRegion_core]; simp only [List.filter_filter, Bool.and_self]
  firing := by rw [endRegion_f]
  others := endRegion_others s
  dev := by rw [endRegion_dev]
  agenda := endRegion_agenda s

theorem sendProbes_kept (ag : Agent) (l : List Held) (s : State) : Kept s (sendProbes ag l s) := by
  obtain ⟨hcore, hothers, hagenda, hdev⟩ := sendProbes_frame ag l s
  exact ⟨by rw [hcore], by rw [hcore], by rw [hcore], hothers, by rw [hdev], hagenda⟩

/-- The boundary after a revocable instruction keeps the frame, whether its region ends at once, waits for a stop, or waits for the
grants of its probes (R108, R242). -/
theorem closeRegion_boundary_kept (s : State) (live : Live) : Kept s (s.closeRegion (.boundary live)) := by
  by_cases hprobed : s.core.f.region.probed = []
  · rw [closeRegion_empty hprobed]
    split
    · exact ⟨rfl, rfl, rfl, rfl, rfl, rfl⟩
    · exact (endRegion_kept s).trans (openRegion_kept _ live)
  · unfold State.closeRegion
    simp only [hprobed, if_false]
    exact (sendProbes_kept s.agent _ s).trans ⟨rfl, rfl, rfl, rfl, rfl, rfl⟩

theorem retire_kept (s : State) (n : Nat) (sp : Sp) : Kept s (s.retire n sp) := by
  have hpc : Kept s (s.advance n) := ⟨rfl, rfl, rfl, rfl, rfl, rfl⟩
  cases sp with
  | none => exact hpc
  | some m => exact hpc.trans (closeRegion_boundary_kept (s.advance n) (liveOf m))

theorem retire_performed (s : State) (n : Nat) (sp : Sp) : Performed s (s.retire n sp) n := by
  obtain ⟨-, hctl, hpc, -⟩ := retire_frame s n sp
  have hkept := retire_kept s n sp
  exact ⟨hpc, hctl, hkept, hkept.sameBytes⟩

/-! ### A register form writes one register -/

/-- A write to a register changes that register alone, and none when it is s0 (R12). -/
theorem Regs.getS_setS (g : Regs) (d r : BitVec 5) (v : Word) :
    (g.setS d v).getS r = if r = d ∧ r ≠ 0#5 then v else g.getS r := by
  by_cases hr : r = 0#5
  · simp [Regs.getS, hr]
  by_cases hd : d = 0#5
  · simp [Regs.setS, hd, hr]
  have hi : d.toNat = r.toNat ↔ r = d := by rw [BitVec.toNat_inj, eq_comm]
  simp [Regs.getS, Regs.setS, hr, hd, Vector.getElem_set, hi]

theorem setS_wroteS (s : State) (d : BitVec 5) (v : Word) : WroteS s (s.setS d v) d v := by
  refine ⟨fun r => Regs.getS_setS s.regs d r v, ?_, ?_, ?_, ?_⟩ <;>
  · rw [State.setS_regs', Regs.setS]
    split <;> rfl

/-- A register form completes at once: it writes its value to the destination, and does nothing else. -/
theorem setS_retire_computed (s : State) (d : BitVec 5) (v : Word) (n : Nat) (sp : Sp) :
    Computed s ((s.setS d v).retire n sp) n d v := by
  obtain ⟨hregs, -⟩ := retire_frame (s.setS d v) n sp
  obtain ⟨hreads, hp, hi, hh, he⟩ := setS_wroteS s d v
  obtain ⟨hpc, hctl, hkept, -⟩ := retire_performed (s.setS d v) n sp
  have hkept' := (setS_kept s d v).trans hkept
  refine ⟨?_, hpc, hctl, hkept', hkept'.sameBytes⟩
  constructor <;> rw [hregs] <;> assumption

theorem writeGuarded_computed {s : State} {g : BitVec 3} (hg : s.regs.getP g = true) (d : BitVec 5) (sp : Sp) (v : Word) :
    ∃ t, writeGuarded g d sp v s = .next t ∧ Computed s t (spLen sp) d v :=
  ⟨_, guarded_true hg _ _, setS_retire_computed s d v (spLen sp) sp⟩

/-! ### The address part of a pointer (R94) -/

/-- The low `k` bits of one word below the rest of another. -/
theorem splice_eq_ofNat (k : Nat) (x y : Word) :
    (x &&& ~~~BitVec.ofNat 64 (2 ^ k - 1)) ||| (y &&& BitVec.ofNat 64 (2 ^ k - 1)) =
      BitVec.ofNat 64 (2 ^ k * (x.toNat / 2 ^ k) + y.toNat % 2 ^ k) := by
  have hlow : y.toNat % 2 ^ k < 2 ^ k := Nat.mod_lt _ (Nat.two_pow_pos k)
  refine BitVec.eq_of_getLsbD_eq fun i hi => ?_
  simp only [BitVec.getLsbD_or, BitVec.getLsbD_and, BitVec.getLsbD_not, BitVec.getLsbD_ofNat, Nat.testBit_two_pow_sub_one,
    Nat.testBit_two_pow_mul_add _ hlow, hi, decide_true, Bool.true_and]
  by_cases hk : i < k
  · simp [hk, Nat.testBit_mod_two_pow, BitVec.testBit_toNat]
  · simp [hk, Nat.testBit_div_two_pow, BitVec.testBit_toNat, Nat.sub_add_cancel (Nat.le_of_not_lt hk)]

/-- A word with bit `k` set. -/
theorem or_twoPow_eq_ofNat (k : Nat) (x : Word) :
    x ||| BitVec.twoPow 64 k = BitVec.ofNat 64 (2 ^ k * (2 * (x.toNat / 2 ^ (k + 1)) + 1) + x.toNat % 2 ^ k) := by
  have hlow : x.toNat % 2 ^ k < 2 ^ k := Nat.mod_lt _ (Nat.two_pow_pos k)
  refine BitVec.eq_of_getLsbD_eq fun i hi => ?_
  simp only [BitVec.getLsbD_or, BitVec.getLsbD_twoPow, BitVec.getLsbD_ofNat, Nat.testBit_two_pow_mul_add _ hlow, hi, decide_true,
    Bool.true_and]
  rcases Nat.lt_trichotomy i k with hk | rfl | hk
  · simp [hk, hk.ne', Nat.testBit_mod_two_pow, BitVec.testBit_toNat]
  · simp [hi]
  · obtain ⟨j, rfl⟩ := Nat.exists_eq_add_of_lt hk
    have hidx : k + j + 1 - k = j + 1 := by omega
    have hhalf : (2 * (x.toNat / 2 ^ (k + 1)) + 1) / 2 = x.toNat / 2 ^ (k + 1) := by omega
    have hpos : j + (k + 1) = k + j + 1 := by omega
    rw [if_neg hk.not_gt, hidx, Nat.testBit_succ, hhalf, Nat.testBit_div_two_pow, BitVec.testBit_toNat, hpos]
    simp [hk.ne]

/-- An integer wrapped to a word has, in its low bits, the integer wrapped to that many. -/
theorem toNat_ofInt_mod_two_pow {k : Nat} (hk : k ≤ 64) (o : Int) : (BitVec.ofInt 64 o).toNat % 2 ^ k = (o % 2 ^ k).toNat := by
  have hdvd : (2 ^ k : Int) ∣ 2 ^ 64 := pow_dvd_pow 2 hk
  have hpow : ((2 ^ k : Int)).toNat = 2 ^ k := by simpa using Int.toNat_natCast (2 ^ k)
  rw [BitVec.toNat_ofInt, ← Int.emod_emod_of_dvd o hdvd, Int.toNat_emod (Int.emod_nonneg o (by decide)) (by positivity), hpow]
  rfl

/-- The sum on an external address wraps in bits 56 to 0, and the other bits stay. -/
theorem ptrAdd_external {p : Word} (hp : p.getLsbD 63 = false) (n : Int) : ptrAdd p n = pointerSum p n := by
  have hsum : p + BitVec.ofInt 64 n = BitVec.ofInt 64 (p.toNat + n) := by
    rw [BitVec.ofInt_add, BitVec.ofInt_natCast, BitVec.ofNat_toNat, BitVec.setWidth_eq]
  calc ptrAdd p n
    _ = (p &&& ~~~BitVec.ofNat 64 (2 ^ 57 - 1)) ||| (BitVec.ofInt 64 (p.toNat + n) &&& BitVec.ofNat 64 (2 ^ 57 - 1)) := by
      rw [ptrAdd, bit, hp, hsum]; rfl
    _ = BitVec.ofNat 64 (2 ^ 57 * (p.toNat / 2 ^ 57) + ((p.toNat + n) % 2 ^ 57).toNat) := by
      rw [splice_eq_ofNat, toNat_ofInt_mod_two_pow (by decide)]
    _ = pointerSum p n := by
      rw [pointerSum, hp, Nat.mul_comm]; rfl

/-- The sum on a mesh pointer's offset wraps in bits 16 to 0, a carry or a borrow sets bit 17, and the other bits stay. -/
theorem ptrAdd_mesh {p : Word} (hp : p.getLsbD 63 = true) (n : Int) : ptrAdd p n = pointerSum p n := by
  have hbit : p.getLsbD 17 = decide (p.toNat / 2 ^ 17 % 2 = 1) := by
    rw [← BitVec.testBit_toNat, Nat.testBit_eq_decide_div_mod_eq]
  have hoff : ptrOff p = p.toNat % 2 ^ 17 := by simp [ptrOff, field]
  have hword := p.isLt
  rw [ptrAdd, pointerSum, bit, hp, hoff]
  simp only [Bool.not_true, Bool.false_eq_true, if_false, if_true, hbit, decide_eq_true_eq]
  generalize ((p.toNat % 2 ^ 17 : Nat) : Int) + n = o
  have hlow : (o % 2 ^ 17).toNat < 2 ^ 17 := by omega
  have hsum : (p &&& ~~~0x1FFFF#64) ||| (BitVec.ofInt 64 o &&& 0x1FFFF#64) =
      BitVec.ofNat 64 (2 ^ 17 * (p.toNat / 2 ^ 17) + (o % 2 ^ 17).toNat) := by
    rw [← toNat_ofInt_mod_two_pow (by decide)]
    exact splice_eq_ofNat 17 p (BitVec.ofInt 64 o)
  rw [hsum]
  by_cases hcarry : o < 0 ∨ 2 ^ 17 ≤ o
  · have hmark : o < 0 ∨ o > 0x1FFFF := by omega
    have h17 : (0x20000#64 : Word) = BitVec.twoPow 64 17 := rfl
    rw [if_pos hmark, if_pos (.inr hcarry), h17, or_twoPow_eq_ofNat, BitVec.toNat_ofNat, Nat.mod_eq_of_lt (by omega)]
    congr 1
    omega
  · have hmark : ¬ (o < 0 ∨ o > 0x1FFFF) := by omega
    rw [if_neg hmark]
    congr 1
    split <;> omega

/-- The model's pointer sum is that of R94 on every word. -/
theorem ptrAdd_eq_pointerSum (p : Word) (n : Int) : ptrAdd p n = pointerSum p n := by
  cases hp : p.getLsbD 63 with
  | false => exact ptrAdd_external hp n
  | true => exact ptrAdd_mesh hp n

theorem exec_ptradd (g : BitVec 3) (b a d : BitVec 5) (sp : Sp) (s : State) :
    exec (.ptradd g b a d sp) s = writeGuarded g d sp (ptrAdd (s.regs.getS a) (s.regs.getS b).toInt) s := rfl

/-- Settles O6: PTRADD is a guarded register form, and the value it writes is the sum of R94. -/
theorem pointerSums : Obligations.PointerSums := by
  intro s g b a d sp hg
  rw [exec_ptradd, ptrAdd_eq_pointerSum]
  exact writeGuarded_computed hg d sp _

end Sys2Proof.Machine

namespace Sys2Proof.Machine

/-! ### What every stop leaves in place (R147)

A stop changes the firing, the entries of its region, what the core is about to send and its trace, but no byte of the device. -/

/-- The parts of the state that hold bytes are the same: the focused core's residency, the other cores and the device. -/
structure SameStores (s t : State) : Prop where
  id : t.core.id = s.core.id
  mem : t.core.mem = s.core.mem
  others : t.others = s.others
  dev : t.dev = s.dev

theorem SameStores.trans {s t u : State} (h : SameStores s t) (k : SameStores t u) : SameStores s u :=
  ⟨k.id.trans h.id, k.mem.trans h.mem, k.others.trans h.others, k.dev.trans h.dev⟩

theorem SameStores.sameBytes {s t : State} (h : SameStores s t) : SameBytes s t := by
  intro p
  cases p with
  | buffer c k | code c k =>
    by_cases hc : s.core.id = c
    · simp only [State.byteAt, State.coreAt, h.id, h.mem, hc, if_true]
    · simp only [State.byteAt, State.coreAt, h.id, h.others, hc, if_false]
  | external a | host a => simp only [State.byteAt, h.dev]

theorem trace_sameStores (s : State) (kind code : Nat) (v : Word) : SameStores s (s.trace kind code v) :=
  ⟨by rw [trace_core], trace_mem s kind code v, trace_others s kind code v, trace_dev s kind code v⟩

theorem discardRegion_sameStores (s : State) : SameStores s s.discardRegion := by
  have hcloses := sendCloses_posted s.agent true s.core.remoteTouched s
  exact ⟨by rw [discardRegion_core], by rw [discardRegion_core], hcloses.others, hcloses.dev⟩

theorem mapF_sameStores (s : State) (g : Firing → Firing) : SameStores s (s.mapF g) := ⟨rfl, rfl, rfl, rfl⟩

theorem endFiring_sameStores (s : State) : SameStores s s.endFiring := ⟨rfl, rfl, rfl, rfl⟩

/-! ### The fields that a discarded region and the end of a firing leave (R147, R101) -/

@[simp] theorem discardRegion_serial (s : State) : s.discardRegion.core.f.serial = s.core.f.serial := by rw [discardRegion_core]
@[simp] theorem discardRegion_q (s : State) : s.discardRegion.core.q = s.core.q := by rw [discardRegion_core]
@[simp] theorem discardRegion_scrim (s : State) :
    s.discardRegion.core.scrim = s.core.scrim.filter fun e => e.foreign s.agent := by rw [discardRegion_core]

@[simp] theorem endFiring_busy (s : State) : s.endFiring.core.busy = false := rfl
@[simp] theorem endFiring_f (s : State) : s.endFiring.core.f = { Firing.reset with serial := s.core.f.serial } := rfl
@[simp] theorem endFiring_scrim (s : State) : s.endFiring.core.scrim = s.core.scrim := rfl
@[simp] theorem endFiring_notices (s : State) : s.endFiring.core.q.notices = s.core.q.notices := rfl

/-! ### Notices (R280, R281) -/

/-- A notice changes the core's queues alone. -/
theorem notice_core (s : State) (lhnd : Word) (kind cause tag : Nat) (pc : Option Nat) (a b : Word) :
    (s.notice lhnd kind cause tag pc a b).core = { s.core with q := (s.notice lhnd kind cause tag pc a b).core.q } := by
  unfold State.notice Core.notice
  rw [State.mapC_core]
  split
  · rfl
  · split
    · rfl
    · split <;> rfl

@[simp] theorem notice_f (s : State) (lhnd : Word) (kind cause tag : Nat) (pc : Option Nat) (a b : Word) :
    (s.notice lhnd kind cause tag pc a b).core.f = s.core.f := by rw [notice_core]

@[simp] theorem notice_scrim (s : State) (lhnd : Word) (kind cause tag : Nat) (pc : Option Nat) (a b : Word) :
    (s.notice lhnd kind cause tag pc a b).core.scrim = s.core.scrim := by rw [notice_core]

theorem notice_sameStores (s : State) (lhnd : Word) (kind cause tag : Nat) (pc : Option Nat) (a b : Word) :
    SameStores s (s.notice lhnd kind cause tag pc a b) :=
  ⟨by rw [notice_core], by rw [notice_core], rfl, rfl⟩

/-- What a core queues as a notice depends on its coordinates and its queues alone. -/
theorem notice_q_congr {c e : Core} (hid : c.id = e.id) (hq : c.q = e.q) (d : Device) (lhnd : Word) (kind cause tag : Nat)
    (pc : Option Nat) (a b : Word) :
    (c.notice d lhnd kind cause tag pc a b).q = (e.notice d lhnd kind cause tag pc a b).q := by
  unfold Core.notice
  rw [hid, hq]
  split
  · exact hq
  · split
    · exact hq
    · split <;> rfl

/-- The notice that a fault sink receives for a stop: where it goes, and what its words say (R280, Table 15.5). -/
structure StopNotice (l : LaunchSt) (cause tpc : Nat) (addr serial : Word) (n : CoreId × Word × List Word) : Prop where
  sink : n.1 = .mesh (BitVec.ofNat 8 (recSinkX l.rcd)) (BitVec.ofNat 8 (recSinkY l.rcd))
  kind : field (n.2.2.getD 0 0#64) 0 8 = 1
  cause : field (n.2.2.getD 0 0#64) 8 8 = cause
  pc : n.2.2.getD 1 0#64 = BitVec.ofNat 64 (2 ^ 63 + tpc % 2 ^ 15)
  addr : n.2.2.getD 2 0#64 = addr
  serial : n.2.2.getD 3 0#64 = serial

/-- The lowest fields of a notice's first word are its kind and its cause (R280). -/
theorem noticeWord_fields {kind cause : Nat} (hkind : kind < 256) (hcause : cause < 256) (tag lost serial : Nat) :
    field (BitVec.ofNat 64 (kind + cause * 2 ^ 8 + tag * 2 ^ 16 + lost * 2 ^ 24 + serial * 2 ^ 32)) 0 8 = kind ∧
    field (BitVec.ofNat 64 (kind + cause * 2 ^ 8 + tag * 2 ^ 16 + lost * 2 ^ 24 + serial * 2 ^ 32)) 8 8 = cause := by
  simp only [field, BitVec.toNat_ofNat]
  omega

/-- A launch that has not ended and names a sink is told of a stop that its table does not handle, where the queue has room. -/
theorem notice_queued {d : Device} {lhnd : Word} {l : LaunchSt} {c : Core} (hl : d.seq.launchOf lhnd = some l)
    (hsink : recSinkV l.rcd = true) (hend : l.ended = false) (hroom : c.q.notices.length < 8) {cause : Nat}
    (hcause : cause < 256) (tpc : Nat) (addr serial : Word) :
    ∃ n, (c.notice d lhnd 1 cause 0 (some tpc) addr serial).q.notices = c.q.notices ++ [n] ∧
      StopNotice l cause tpc addr serial n := by
  obtain ⟨hkind, hcode⟩ := noticeWord_fields (by decide : 1 < 256) hcause 0 c.q.lost (field lhnd 0 32)
  unfold Core.notice
  simp only [hl, hsink, hend, Nat.not_le.mpr hroom, Bool.not_true, Bool.or_self, Bool.false_eq_true, if_false]
  exact ⟨_, rfl, rfl, hkind, hcode, rfl, rfl, rfl⟩

/-! ### A stop that ends the firing (R147, R101) -/

/-- The firing has ended: the pipeline is free, the per-firing state is gone, its entries have left the core's own banks, and every
byte is as it was. -/
structure FiringEnded (s t : State) : Prop where
  idle : t.core.busy = false
  fresh : t.core.f = { Firing.reset with serial := s.core.f.serial }
  entries : ∀ e ∈ t.core.scrim, e.foreign s.agent = true
  stores : SameStores s t

theorem endStopped_core (s : State) (cause tpc : Nat) (addr : Word) :
    (s.endStopped cause tpc addr).core =
      { (s.discardRegion.notice s.core.f.lhnd 1 cause 0 (some tpc) addr s.core.f.serial).endFiring.core with
        phys := (s.endStopped cause tpc addr).core.phys } := by
  unfold State.endStopped
  dsimp only
  split <;> rfl

theorem endStopped_sameStores (s : State) (cause tpc : Nat) (addr : Word) : SameStores s (s.endStopped cause tpc addr) := by
  have hended := ((discardRegion_sameStores s).trans
    (notice_sameStores _ s.core.f.lhnd 1 cause 0 (some tpc) addr s.core.f.serial)).trans (endFiring_sameStores _)
  unfold State.endStopped
  dsimp only
  split
  · exact hended.trans ⟨rfl, rfl, rfl, rfl⟩
  · exact hended

theorem endStopped_ended (s : State) (cause tpc : Nat) (addr : Word) : FiringEnded s (s.endStopped cause tpc addr) where
  idle := by rw [endStopped_core, endFiring_busy]
  fresh := by rw [endStopped_core]; simp only [endFiring_f, notice_f, discardRegion_serial]
  entries := by
    rw [endStopped_core]
    simp only [endFiring_scrim, notice_scrim, discardRegion_scrim, List.mem_filter, and_imp, imp_self, implies_true]
  stores := endStopped_sameStores s cause tpc addr

/-- The notices of a core whose firing has ended by a stop are those it had and the one for the stop. -/
theorem endStopped_notices (s : State) (cause tpc : Nat) (addr : Word) :
    (s.endStopped cause tpc addr).core.q.notices =
      (s.core.notice s.dev s.core.f.lhnd 1 cause 0 (some tpc) addr s.core.f.serial).q.notices := by
  obtain ⟨hid, -, -, hdev⟩ := discardRegion_sameStores s
  rw [endStopped_core, endFiring_notices]
  unfold State.notice
  rw [State.mapC_core, hdev, notice_q_congr hid (discardRegion_q s)]

/-! ### Precise stops (R147) -/

/-- A stop in a stop entry, or one that the firing's table has no entry for, ends the firing. -/
theorem stopWith_unhandled {s : State} {cause : Nat} (h : s.core.f.ctl.act = true ∨ s.stopEntry cause = none)
    (tpc tnpc : Nat) (addr : Word) :
    s.stopWith cause tpc tnpc addr = (s.trace 3 cause (stopData tpc addr)).endStopped cause tpc addr := by
  have hentry : (s.trace 3 cause (stopData tpc addr)).stopEntry cause = s.stopEntry cause := by
    unfold State.stopEntry State.handlerTable
    rw [trace_f, trace_tab, trace_dev]
  unfold State.stopWith
  simp only [trace_f, hentry]
  rcases h with hact | hnone
  · rw [hact]; rfl
  · rw [hnone, ite_self]

theorem stopWith_sameStores (s : State) (cause tpc tnpc : Nat) (addr : Word) :
    SameStores s (s.stopWith cause tpc tnpc addr) := by
  have htrace := trace_sameStores s 3 cause (stopData tpc addr)
  unfold State.stopWith
  dsimp only
  split
  · split
    · exact htrace.trans ((trace_sameStores _ _ _ _).trans (endStopped_sameStores _ _ _ _))
    · exact htrace.trans (mapF_sameStores _ _)
  · exact htrace.trans (endStopped_sameStores _ _ _ _)

/-- A trace record changes nothing that the end of a firing speaks of. -/
theorem FiringEnded.of_trace {s t : State} {kind code : Nat} {v : Word} (h : FiringEnded (s.trace kind code v) t) :
    FiringEnded s t := by
  obtain ⟨hidle, hfresh, hentries, hstores⟩ := h
  have htrace := trace_sameStores s kind code v
  have hagent : (s.trace kind code v).agent = s.agent := by
    unfold State.agent Core.agent
    rw [htrace.id, trace_f]
  exact ⟨hidle, by rwa [trace_f] at hfresh, by rwa [hagent] at hentries, htrace.trans hstores⟩

theorem stopWith_ended {s : State} {cause : Nat} (h : s.core.f.ctl.act = true ∨ s.stopEntry cause = none)
    (tpc tnpc : Nat) (addr : Word) : FiringEnded s (s.stopWith cause tpc tnpc addr) := by
  rw [stopWith_unhandled h]
  exact (endStopped_ended _ cause tpc addr).of_trace

/-- A stop that ends the firing tells the fault sink of its launch. -/
theorem stopWith_notice {s : State} {cause : Nat} (h : s.core.f.ctl.act = true ∨ s.stopEntry cause = none)
    (hcause : cause < 256) {l : LaunchSt} (hl : s.dev.seq.launchOf s.core.f.lhnd = some l) (hsink : recSinkV l.rcd = true)
    (hend : l.ended = false) (hroom : s.core.q.notices.length < 8) (tpc tnpc : Nat) (addr : Word) :
    ∃ n, (s.stopWith cause tpc tnpc addr).core.q.notices = s.core.q.notices ++ [n] ∧
      StopNotice l cause tpc addr s.core.f.serial n := by
  have hid := (trace_sameStores s 3 cause (stopData tpc addr)).id
  have hq : (s.trace 3 cause (stopData tpc addr)).core.q = s.core.q := by rw [trace_core]
  rw [stopWith_unhandled h, endStopped_notices, trace_dev, trace_f, notice_q_congr hid hq]
  exact notice_queued hl hsink hend hroom hcause tpc addr s.core.f.serial

/-- A stop that the firing's table handles enters the stop entry at the instruction at the pc. -/
theorem stop_taken {s : State} {cause entry : Nat} (h : StopEntry s cause entry) (len : Nat) (addr : Word) :
    StopTaken s (s.stop cause len addr) cause s.core.f.pc (s.core.f.pc + len) addr entry := by
  obtain ⟨hf, -⟩ := stopWith_taken h s.core.f.pc (s.core.f.pc + len) addr
  have hbytes := (stopWith_sameStores s cause s.core.f.pc (s.core.f.pc + len) addr).sameBytes
  unfold State.stop
  refine ⟨?_, ?_, ?_, ?_, ?_, ?_, ?_, ?_, ?_, hbytes⟩ <;> simp only [State.regs, hf]

/-! ### TRAP (R148) -/

theorem exec_trap (g : BitVec 3) (code : BitVec 11) (sp : Sp) (s : State) :
    exec (.trap g code sp) s =
      guarded s g sp fun s => .next (s.stop causeTrap (spLen sp) (BitVec.ofNat 64 code.toNat)) := by
  rw [BitVec.ofNat_toNat]
  rfl

/-- An instruction that is passed moves the pc and does nothing else (R37). -/
theorem advance_performed (s : State) (n : Nat) : Performed s (s.advance n) n := retire_performed s n none

/-- Settles O12: with its guard true TRAP is a stop of cause TRAP, which a stop entry takes or which ends the firing with a notice. -/
theorem trapStops : Obligations.TrapStops := by
  refine ⟨fun s g code sp entry hentry => ?_, fun s g code sp hg hunhandled => ?_⟩
  · rw [exec_trap]
    cases hg : s.regs.getP g with
    | true => exact ⟨_, guarded_true hg sp _, fun _ => stop_taken hentry _ _, nofun⟩
    | false => exact ⟨_, guarded_false hg sp _, nofun, fun _ => ⟨rfl, advance_performed s _, rfl⟩⟩
  · rw [exec_trap, guarded_true hg]
    obtain ⟨hidle, hfresh, hentries, hstores⟩ := stopWith_ended hunhandled s.core.f.pc (s.core.f.pc + spLen sp)
      (BitVec.ofNat 64 code.toNat)
    refine ⟨_, rfl, hidle, hfresh, hentries, hstores.sameBytes, fun l hl hsink hend hroom => ?_⟩
    obtain ⟨n, hqueued, hto, hkind, hcause, hpc, haddr, hserial⟩ := stopWith_notice hunhandled (by decide) hl hsink hend hroom
      s.core.f.pc (s.core.f.pc + spLen sp) (BitVec.ofNat 64 code.toNat)
    exact ⟨n, hqueued, hto, hkind, hcause, hpc, haddr, hserial⟩

/-! ### TRET (R149) -/

/-- Where TRET goes on. -/
def tretTarget (s : State) (k : BitVec 11) : Nat := if k = 0#11 then s.core.f.ctl.tpc.toNat else s.core.f.ctl.tnpc.toNat

/-- Outside a stop entry, and with a number that names neither register, TRET is ILLEGAL. -/
theorem exec_tret_illegal {s : State} {k : BitVec 11} (h : s.core.f.ctl.act = false ∨ 2 ≤ k.toNat) (sp : Sp) :
    exec (.tret k sp) s = .next (s.stop causeIllegal (spLen sp) (encWord (.tret k sp))) := by
  show execTret k sp s = _
  unfold execTret
  rw [if_pos (by simpa using h)]

theorem exec_tret_misfetch {s : State} {k : BitVec 11} (hact : s.core.f.ctl.act = true) (hk : k.toNat < 2)
    (hstart : s.core.startBit (tretTarget s k) = false) (sp : Sp) :
    exec (.tret k sp) s =
      .next (s.stopWith causeMisfetch (tretTarget s k) (tretTarget s k) (BitVec.ofNat 64 (tretTarget s k))) := by
  show execTret k sp s = _
  unfold tretTarget at hstart ⊢
  unfold execTret
  simp only [hact, hk.not_ge, hstart, Bool.not_true, Bool.not_false, Bool.false_or, decide_false, Bool.false_eq_true, if_false,
    if_true]

theorem returnFrom_pc (s : State) (k : BitVec 11) : (s.returnFrom (k ≠ 0#11)).core.f.pc = tretTarget s k := by
  by_cases hk : k = 0#11 <;> simp [State.returnFrom, tretTarget, hk]

theorem returnFrom_kept (s : State) (b : Bool) : Kept s (s.returnFrom b) := ⟨rfl, rfl, rfl, rfl, rfl, rfl⟩

/-- The firing has gone on from a stop entry at `target`, with ACT clear (R149). -/
structure Returned (s t : State) (target : Nat) : Prop where
  pc : t.core.f.pc = target
  flags : t.core.f.ctl = { s.core.f.ctl with act := false }
  regs : t.regs = s.regs
  kept : Kept s t

theorem returnFrom_returned (s : State) (k : BitVec 11) : Returned s (s.returnFrom (k ≠ 0#11)) (tretTarget s k) :=
  ⟨returnFrom_pc s k, rfl, rfl, returnFrom_kept s _⟩

/-- A safe point behind the return leaves it as it is. -/
theorem Returned.closeRegion {s t : State} {target : Nat} (h : Returned s t target) (live : Live) :
    Returned s (t.closeRegion (.boundary live)) target := by
  obtain ⟨hregs, hctl, hpc, -⟩ := closeRegion_boundary t live
  exact ⟨hpc.trans h.pc, hctl.trans h.flags, hregs.trans h.regs, h.kept.trans (closeRegion_boundary_kept t live)⟩

theorem tret_returned {s : State} {k : BitVec 11} (hact : s.core.f.ctl.act = true) (hk : k.toNat < 2)
    (hstart : s.core.startBit (tretTarget s k) = true) (sp : Sp) :
    ∃ t, exec (.tret k sp) s = .next t ∧ Returned s t (tretTarget s k) := by
  have hreturn := returnFrom_returned s k
  show ∃ t, execTret k sp s = .next t ∧ _
  unfold tretTarget at hstart
  unfold execTret
  simp only [hact, hk.not_ge, hstart, Bool.not_true, Bool.false_or, decide_false, Bool.false_eq_true, if_false]
  cases sp with
  | none => exact ⟨_, rfl, hreturn⟩
  | some m => exact ⟨_, rfl, hreturn.closeRegion (liveOf m)⟩

/-- A stop that TRET itself meets in a stop entry ends the firing (R147, R149). -/
theorem tret_ended {s : State} {k : BitVec 11} (hact : s.core.f.ctl.act = true)
    (hbad : 2 ≤ k.toNat ∨ s.core.startBit (tretTarget s k) = false) (sp : Sp) :
    ∃ t, exec (.tret k sp) s = .next t ∧ FiringEnded s t := by
  by_cases hk : 2 ≤ k.toNat
  · exact ⟨_, exec_tret_illegal (.inr hk) sp, stopWith_ended (.inl hact) _ _ _⟩
  · exact ⟨_, exec_tret_misfetch hact (Nat.not_le.mp hk) (hbad.resolve_left hk) sp, stopWith_ended (.inl hact) _ _ _⟩

/-- Settles O13: TRET returns to a target that is an instruction, and otherwise stops: in a stop entry that ends the firing, outside one it
is ILLEGAL. -/
theorem tretReturns : Obligations.TretReturns := by
  intro s k sp target
  refine ⟨fun hact hk hstart => ?_, fun hact hbad => ?_, fun entry hentry => ?_⟩
  · obtain ⟨t, hexec, hpc, hflags, hregs, hkept⟩ := tret_returned hact hk hstart sp
    exact ⟨t, hexec, hpc, hflags, hregs, hkept, hkept.sameBytes⟩
  · obtain ⟨t, hexec, hended⟩ := tret_ended hact hbad sp
    exact ⟨t, hexec, hended.idle, hended.stores.sameBytes⟩
  · exact ⟨_, exec_tret_illegal (.inl hentry.free) sp, stop_taken hentry (spLen sp) (encWord (.tret k sp))⟩

end Sys2Proof.Machine
